-- ==== Sys2Proof/Word.lean ====
section
/-!
DEFINITION. The word types of ECSEQ (R8: bits numbered from 0 at the least significant end, everything unsigned).
-/
namespace Sys2Proof

/-- A byte: the datum of one port event and of one EC register (R62, R64). -/
abbrev Byte := BitVec 8

/-- A 16-bit EC register address (R60, R61). -/
abbrev Addr := BitVec 16

/-- A port number, `PORTW` = 16 bits wide (R6). -/
abbrev Port := BitVec 16

/-- The command word written to `CMD` (R100). -/
abbrev CmdWord := BitVec 32

/-- A percentage field, `PCTW` = 32 bits wide (R6, R191). -/
abbrev Pct32 := BitVec 32

end Sys2Proof
end

