-- ==== Sys2Proof/Syntax.lean ====
section
/-!
DEFINITION. The thirteen commands of R103, one constructor per row of spec/opcode_table.json, and the reasons a word is illegal (R105).
-/
namespace Sys2Proof

/-- A command (R10, R103). Operands stand as the word holds them (R102); which values are legal is `Instr.wf`. -/
inductive Instr where
  /-- INIT (R136) -/
  | init
  /-- DEINIT (R137) -/
  | deinit
  /-- ISINIT (R138) -/
  | isinit
  /-- GETERR (R139) -/
  | geterr
  /-- RDREG addr (R153) -/
  | rdreg (addr : Addr)
  /-- WRREG addr, data (R154) -/
  | wrreg (addr : Addr) (data : Byte)
  /-- RDARR base, n (R172) -/
  | rdarr (base : Addr) (n : Byte)
  /-- WRARR base, n (R173) -/
  | wrarr (base : Addr) (n : Byte)
  /-- ROMRD k, k from 0 to 28 (R178) -/
  | romrd (k : Byte)
  /-- RDROW t, t from 0 to 9 (R179) -/
  | rdrow (t : Byte)
  /-- WRROW t, t from 0 to 9 (R180) -/
  | wrrow (t : Byte)
  /-- RDSTAT (R195) -/
  | rdstat
  /-- WRCFG (R201) -/
  | wrcfg
deriving DecidableEq, Repr

/-- Why a word selects no row of R103; the five cases R105 lists. -/
inductive IllegalWord where
  /-- bits 31..24 are no opcode of the table -/
  | unknownOpcode
  /-- a Z-format word with any of bits 23..0 set -/
  | zFieldSet
  /-- RDREG with `imm8` not 0 -/
  | rdregImmSet
  /-- a K-format word with any of bits 23..8 set -/
  | kFieldSet
  /-- ROMRD with `k > 28`, RDROW or WRROW with `k > 9` -/
  | indexOutOfRange
deriving DecidableEq, Repr

end Sys2Proof
end

