-- ==== Sys2Proof/WellFormed.lean ====
section
/-!
DEFINITION. Which commands are well formed: those a legal word stands for (R103's extra constraints).
-/
namespace Sys2Proof

/-- The operand limits of R103: ROMRD takes `k <= 28`, RDROW and WRROW take `k <= 9`; every other operand value is legal. -/
def Instr.wf : Instr → Bool
  | .init => true
  | .deinit => true
  | .isinit => true
  | .geterr => true
  | .rdreg _ => true
  | .wrreg _ _ => true
  | .rdarr _ _ => true
  | .wrarr _ _ => true
  | .romrd k => decide (k.toNat ≤ 28)
  | .rdrow t => decide (t.toNat ≤ 9)
  | .wrrow t => decide (t.toNat ≤ 9)
  | .rdstat => true
  | .wrcfg => true

end Sys2Proof
end

