-- ==== Sys2Proof/Decode.lean ====
section
/-!
DEFINITION. The decoder of R103 and R105 (total on every 32-bit word), the encoder of R110, and the assembler spelling of R110.
-/
namespace Sys2Proof

/-- `opc = CMD[31:24]` (R100). -/
def opcOf (w : CmdWord) : Byte := w.extractLsb' 24 8

/-- `addr = CMD[23:8]` (R102). -/
def addrOf (w : CmdWord) : Addr := w.extractLsb' 8 16

/-- `imm8` or `k`, `CMD[7:0]` (R102). -/
def immOf (w : CmdWord) : Byte := w.extractLsb' 0 8

/-- Format Z (R101): bits 23..0 must be zero. -/
def decodeZ (w : CmdWord) (i : Instr) : Except IllegalWord Instr :=
  if addrOf w = 0 ∧ immOf w = 0 then .ok i else .error .zFieldSet

/-- Format K (R101): bits 23..8 must be zero and `k` at most `kmax` (R103). -/
def decodeK (w : CmdWord) (kmax : Nat) (mk : Byte → Instr) : Except IllegalWord Instr :=
  if addrOf w = 0 then
    if (immOf w).toNat ≤ kmax then .ok (mk (immOf w)) else .error .indexOutOfRange
  else .error .kFieldSet

/-- The decoder: the thirteen rows of R103; a word that selects none is illegal (R105). -/
def decode (w : CmdWord) : Except IllegalWord Instr :=
  if opcOf w = 0x01 then decodeZ w .init
  else if opcOf w = 0x02 then decodeZ w .deinit
  else if opcOf w = 0x03 then decodeZ w .isinit
  else if opcOf w = 0x04 then decodeZ w .geterr
  else if opcOf w = 0x10 then
    if immOf w = 0 then .ok (.rdreg (addrOf w)) else .error .rdregImmSet
  else if opcOf w = 0x11 then .ok (.wrreg (addrOf w) (immOf w))
  else if opcOf w = 0x12 then .ok (.rdarr (addrOf w) (immOf w))
  else if opcOf w = 0x13 then .ok (.wrarr (addrOf w) (immOf w))
  else if opcOf w = 0x20 then decodeK w 28 .romrd
  else if opcOf w = 0x21 then decodeK w 9 .rdrow
  else if opcOf w = 0x22 then decodeK w 9 .wrrow
  else if opcOf w = 0x30 then decodeZ w .rdstat
  else if opcOf w = 0x31 then decodeZ w .wrcfg
  else .error .unknownOpcode

/-- A word from its three fields (R101). -/
def wordOf (opc : Byte) (addr : Addr) (imm : Byte) : CmdWord := (opc ++ addr) ++ imm

/-- The encoder (R110). -/
def encode : Instr → CmdWord
  | .init => wordOf 0x01 0 0
  | .deinit => wordOf 0x02 0 0
  | .isinit => wordOf 0x03 0 0
  | .geterr => wordOf 0x04 0 0
  | .rdreg addr => wordOf 0x10 addr 0
  | .wrreg addr data => wordOf 0x11 addr data
  | .rdarr base n => wordOf 0x12 base n
  | .wrarr base n => wordOf 0x13 base n
  | .romrd k => wordOf 0x20 0 k
  | .rdrow t => wordOf 0x21 0 t
  | .wrrow t => wordOf 0x22 0 t
  | .rdstat => wordOf 0x30 0 0
  | .wrcfg => wordOf 0x31 0 0

/-- One row of R103's table: `match`, `mask` and the extra constraint `k <= kmax`. -/
structure OpcodeRow where
  mnemonic : String
  matchBits : CmdWord
  maskBits : CmdWord
  kmax : Nat
deriving DecidableEq, Repr

/-- R103's table; a row without an extra constraint has `kmax` = 255. -/
def opcodeRows : List OpcodeRow := [
  ⟨"INIT", 0x01000000, 0xFFFFFFFF, 255⟩,
  ⟨"DEINIT", 0x02000000, 0xFFFFFFFF, 255⟩,
  ⟨"ISINIT", 0x03000000, 0xFFFFFFFF, 255⟩,
  ⟨"GETERR", 0x04000000, 0xFFFFFFFF, 255⟩,
  ⟨"RDREG", 0x10000000, 0xFF0000FF, 255⟩,
  ⟨"WRREG", 0x11000000, 0xFF000000, 255⟩,
  ⟨"RDARR", 0x12000000, 0xFF000000, 255⟩,
  ⟨"WRARR", 0x13000000, 0xFF000000, 255⟩,
  ⟨"ROMRD", 0x20000000, 0xFFFFFF00, 28⟩,
  ⟨"RDROW", 0x21000000, 0xFFFFFF00, 9⟩,
  ⟨"WRROW", 0x22000000, 0xFFFFFF00, 9⟩,
  ⟨"RDSTAT", 0x30000000, 0xFFFFFFFF, 255⟩,
  ⟨"WRCFG", 0x31000000, 0xFFFFFFFF, 255⟩]

/-- Whether a word selects a row (R103). -/
def OpcodeRow.selects (r : OpcodeRow) (w : CmdWord) : Bool :=
  (w &&& r.maskBits == r.matchBits) && decide ((immOf w).toNat ≤ r.kmax)

/-- The mnemonic of a command (R14, R103). -/
def Instr.mnemonic : Instr → String
  | .init => "INIT"
  | .deinit => "DEINIT"
  | .isinit => "ISINIT"
  | .geterr => "GETERR"
  | .rdreg _ => "RDREG"
  | .wrreg _ _ => "WRREG"
  | .rdarr _ _ => "RDARR"
  | .wrarr _ _ => "WRARR"
  | .romrd _ => "ROMRD"
  | .rdrow _ => "RDROW"
  | .wrrow _ => "WRROW"
  | .rdstat => "RDSTAT"
  | .wrcfg => "WRCFG"

/-- R110's assembler line as its mnemonic and its operands, already read as numbers: the command it stands for, none
where the operands are too many, too few or out of range. -/
def assemble (mnemonic : String) (operands : List Nat) : Option Instr :=
  match mnemonic, operands with
  | "INIT", [] => some .init
  | "DEINIT", [] => some .deinit
  | "ISINIT", [] => some .isinit
  | "GETERR", [] => some .geterr
  | "RDREG", [a] => if a < 65536 then some (.rdreg (BitVec.ofNat 16 a)) else none
  | "WRREG", [a, d] =>
    if a < 65536 ∧ d < 256 then some (.wrreg (BitVec.ofNat 16 a) (BitVec.ofNat 8 d)) else none
  | "RDARR", [a, n] =>
    if a < 65536 ∧ n < 256 then some (.rdarr (BitVec.ofNat 16 a) (BitVec.ofNat 8 n)) else none
  | "WRARR", [a, n] =>
    if a < 65536 ∧ n < 256 then some (.wrarr (BitVec.ofNat 16 a) (BitVec.ofNat 8 n)) else none
  | "ROMRD", [k] => if k ≤ 28 then some (.romrd (BitVec.ofNat 8 k)) else none
  | "RDROW", [t] => if t ≤ 9 then some (.rdrow (BitVec.ofNat 8 t)) else none
  | "WRROW", [t] => if t ≤ 9 then some (.wrrow (BitVec.ofNat 8 t)) else none
  | "RDSTAT", [] => some .rdstat
  | "WRCFG", [] => some .wrcfg
  | _, _ => none

/-- The host's question (see NOTES.md): what the decoder reads from a command word whose bits are `w`, the bits above
`nbits` zero. A command is ONE word (R107), so a row of more than 32 bits is none. -/
def decodeTableWord (nbits w : Nat) : Option Instr :=
  if nbits ≤ 32 then (decode (BitVec.ofNat 32 (w % 2 ^ nbits))).toOption else none

end Sys2Proof
end

