-- ==== Sys2Proof/Config.lean ====
section
/-!
DEFINITION. The configuration record `CFGP` (R6), the reference configuration (R6, R177), and the free values of the environment.
-/
namespace Sys2Proof

/-- `CFGP` (R6): everything a particular ECSEQ is configured with. The parameters the spec fixes or decides as widths
and counts (`PORTW`, `NROM`, `ROWLEN`, `NTAB`, `PCTW`) are in the types. DESIGN CHOICE (log 2): a model takes `CFGP` as
an argument, here as a field of the state that no step changes. -/
structure Cfgp where
  /-- `P_ADDR`, the address port -/
  pAddr : Port
  /-- `P_DATA`, the data port -/
  pData : Port
  /-- `CB0`, first sentinel control byte -/
  cb0 : Byte
  /-- `CB1`, second sentinel control byte -/
  cb1 : Byte
  /-- `IX_HI`, index register selected before the address high byte -/
  ixHi : Byte
  /-- `IX_LO`, index register selected before the address low byte -/
  ixLo : Byte
  /-- `IX_DP`, data-phase index register -/
  ixDp : Byte
  /-- `ROM[0..28]`, the register map (R175, R176) -/
  rom : Vector Addr 29
  /-- `FAN1_MAX_RPM` -/
  fan1Max : BitVec 16
  /-- `FAN2_MAX_RPM` -/
  fan2Max : BitVec 16
  /-- `STATUSW`, width in bits of the provider's status code -/
  statusW : Nat
  /-- `XBUF_SIZE`, bytes in the transfer buffer -/
  xbufSize : Nat
  /-- `CFG_LMAX`, largest length a configuration table can be given -/
  cfgLmax : Nat
  /-- `ERR_CLEAR_ON_ENTRY` -/
  errClearOnEntry : Bool
  /-- `GW_FAULTS` -/
  gwFaults : Bool
  /-- `DCR_EXT_EN` -/
  dcrExtEn : Bool
  /-- `VOLATILE`, the EC registers the EC itself may change at any time -/
  volatile : List Addr
deriving DecidableEq, Repr

/-- `ROM_REF` (R177). It carries no authority about any machine. -/
def romRef : Vector Addr 29 := #v[
  0xC540, 0xC550, 0xC560, 0xC570, 0xC580, 0xC590, 0xC5A0, 0xC5B0, 0xC5C0, 0xC5D0,
  0xC5E0, 0xC5E1, 0xC5E2, 0xC5E3, 0x2000, 0x2001, 0x2002, 0xC2C7,
  0xC600, 0xC601, 0xC602, 0xC603, 0xC534, 0xC604, 0xC605, 0xC606, 0xC607, 0xC608, 0xC609]

/-- `CFGP_REF` (R6): the configuration of the spec's test vectors. -/
def cfgpRef : Cfgp where
  pAddr := 0x004E
  pData := 0x004F
  cb0 := 0x2E
  cb1 := 0x2F
  ixHi := 0x11
  ixLo := 0x10
  ixDp := 0x12
  rom := romRef
  fan1Max := 5200
  fan2Max := 5000
  statusW := 32
  xbufSize := 256
  cfgLmax := 255
  errClearOnEntry := false
  gwFaults := false
  dcrExtEn := false
  volatile := []

/-- What the provider's `load` answers (R131). -/
inductive LoadAnswer where
  | ok
  | fail
deriving DecidableEq, Repr, Inhabited

/-- What the provider's `init` answers (R132). -/
inductive InitAnswer where
  | ok
  | refused (code : Nat)
deriving DecidableEq, Repr, Inhabited

/-! Free values (R12, U5, U6, U8): opaque, so that nothing can be proved of a value of them. Each is applied to the
number of free values of its kind drawn so far (`Env`). They are used where the environment list of the state has run out
(logs 8, 9, 10, 11). -/

/-- Free draw: the outcome of one `load` (R131). -/
opaque Config.freeLoad : Nat → LoadAnswer

/-- Free draw: the outcome of one `init` (R132). -/
opaque Config.freeInit : Nat → InitAnswer

/-- Free draw: whether one port operation faults, asked only when `GW_FAULTS` (R228). -/
opaque Config.freeFault : Nat → Bool

/-- Free draw: the `EcUpdate` steps the EC firmware takes before one bus event (R80). -/
opaque Config.freeEcSteps : Nat → List (Addr × Byte)

/-- Free value: the byte a never-written EC register in `VOLATILE` holds when it is read (U5). -/
opaque Config.freeEcByte : Nat → Byte

/-- Free value: the byte a foreign master's read of a port other than the two returns (R76). -/
opaque Config.freeBusByte : Nat → Byte

end Sys2Proof
end

