-- ==== Sys2Proof/Machine/State.lean ====
section
/-!
DEFINITION. The state of ECSEQ, of the EC-side reference target and of the environment, as plain data (R20, R31, R33, R36,
R73), with its reset values (R38, R250), and the reasons a step can stop.
-/
namespace Sys2Proof.Machine

/-- A register whose reset value the spec calls unspecified: the value it holds, and whether anything has written it since
reset. DESIGN CHOICE (log 4): the value at reset is zero, and `known` tells the reads the spec forbids (10_state.md, opening paragraph: a read before a write is a fault, "never ... a
value"; R242, R258, C11). -/
structure Reg (α : Type) where
  val : α
  known : Bool
deriving DecidableEq, Repr

/-- A register just written. -/
def Reg.of {α : Type} (v : α) : Reg α := ⟨v, true⟩

/-- Bytes by address: addresses strictly rising (`Memory.wf`); an address that is not listed has no value (log 5). -/
abbrev Memory := List Host.Cell

/-- `STAT`, the status snapshot (R31). -/
structure Stat where
  fan1Speed : Reg (BitVec 16)
  fan2Speed : Reg (BitVec 16)
  /-- the ten tables, table id then entry -/
  tab : Vector (Vector Byte 10) 10
  chipId1 : Reg Byte
  chipId2 : Reg Byte
  chipVer : Reg Byte
  fwVer : Reg (BitVec 16)
  /-- fan 1 target curve value, fan 2 target curve value, fan 1 target duty, fan 2 target duty -/
  tgt : Vector (Reg Byte) 4
  curPoint : Reg Byte
  fan1Pct : Reg Pct32
  fan2Pct : Reg Pct32
deriving DecidableEq, Repr

/-- One table of `CFG` (R33): its length and its bytes by index. -/
structure CfgTable where
  len : Reg Nat
  bytes : Memory
deriving DecidableEq, Repr

/-- The latches of the EC-side reference target (R36, R73). -/
structure Target where
  /-- `T.IDX` -/
  idx : Reg Byte
  /-- `T.SEL` -/
  sel : Reg Byte
  /-- `T.AH` -/
  ah : Reg Byte
  /-- `T.AL` -/
  al : Reg Byte
deriving DecidableEq, Repr

/-- The error kinds (R221); code 7 has no constructor (U11). -/
inductive ErrKind where
  | none
  | loadFailure
  | initFailure
  | notInitialized
  | invalidShape
  | partialWriteWarning
  | unexpectedFault
deriving DecidableEq, Repr

/-- Who issued a bus event: ECSEQ, or another user of the two ports (R11.6, R254). -/
inductive Master where
  | ecseq
  | foreign
deriving DecidableEq, Repr

/-- One event of the port trace (R62). -/
inductive BusEvent where
  | write (m : Master) (p : Port) (v : Byte)
  | read (m : Master) (p : Port) (v : Byte)
deriving DecidableEq, Repr

/-- A provider primitive invoked (R130). -/
inductive ProviderCall where
  | load
  | init
  | deinit
deriving DecidableEq, Repr

/-- What another agent does between two port operations: the EC firmware's `EcUpdate(a, v)` (R80), or a bus event of a
foreign master, which the spec lets a model add (R258; log 11). -/
inductive AgentMove where
  | ecUpdate (a : Addr) (v : Byte)
  | foreignWrite (p : Port) (v : Byte)
  | foreignRead (p : Port)
deriving DecidableEq, Repr

/-- What becomes of a port operation: it completes, the gateway faults (R228), or a reset strikes before it (R252; log 12). -/
inductive SlotEvent where
  | complete
  | fault
  | powerLoss
deriving DecidableEq, Repr

/-- The environment's part in one port operation: the moves of other agents just before it, and what becomes of it. -/
structure Slot where
  moves : List AgentMove
  event : SlotEvent
deriving DecidableEq, Repr

/-- The environment still to come (R12), as plain lists, and how many free values of each kind were drawn. Where a list has
run out the answer is a free value of Config (log 8). -/
structure Env where
  loads : List LoadAnswer
  inits : List InitAnswer
  slots : List Slot
  /-- the moves of other agents after each command, host move and idle step (R80: after a command's last bus event) -/
  rests : List (List AgentMove)
  /-- free answers of the provider drawn -/
  answersDrawn : Nat
  /-- free slots and free rests drawn -/
  slotsDrawn : Nat
  /-- free bytes drawn -/
  bytesDrawn : Nat
deriving DecidableEq, Repr

/-- A field of `STAT` the host can read (R31). -/
inductive StatField where
  | fan1Speed
  | fan2Speed
  | tab (t i : Fin 10)
  | chipId1
  | chipId2
  | chipVer
  | fwVer
  | tgt (n : Fin 4)
  | curPoint
  | fan1Pct
  | fan2Pct
deriving DecidableEq, Repr

/-- A place the host can read when `BUSY = 0` (R22, R27, R28, R31). That `busy` is among them is a DESIGN CHOICE (log 15): R25
does not forbid the host's reading `BUSY` and R211 does not list it among the outputs. -/
inductive HostPlace where
  | ok
  | busy
  | res8
  | res16
  | resx
  | xbuf (i : Nat)
  | stat (f : StatField)
deriving DecidableEq, Repr

/-- A move of the host other than writing a command word (R28, R33, R250; the directives of R110). -/
inductive HostMove where
  /-- `.xbuf b0 b1 ...`: load `XBUF[0..]` -/
  | loadXbuf (bs : List Byte)
  /-- write one byte of `XBUF` -/
  | setXbuf (i : Nat) (b : Byte)
  /-- `.cfg t: b0 ... `: load configuration table `t` with that many bytes -/
  | loadCfg (t : Fin 10) (bs : List Byte)
  /-- give configuration table `t` a length, without loading its bytes -/
  | setCfgLen (t : Fin 10) (n : Nat)
  /-- write one byte of configuration table `t` -/
  | setCfgByte (t : Fin 10) (i : Nat) (b : Byte)
  /-- read a result -/
  | read (p : HostPlace)
  /-- create the controller object anew (R250) -/
  | reset
deriving DecidableEq, Repr

/-- What the host does next: write a word to `CMD` (R100), or make another move. The two constructors for a word differ in
the unit of the steps that carry its command out (log 1), not in what the command does. -/
inductive HostAction where
  /-- write a word to `CMD`; one step carries its command out, from acceptance to `done` -/
  | command (w : CmdWord)
  /-- write a word to `CMD`; one step accepts it, and each further step is one port operation, one lifecycle call or the
  completion (R10, D30) -/
  | issue (w : CmdWord)
  | move (m : HostMove)
deriving DecidableEq, Repr

/-- What one read of the host answered. -/
structure Seen where
  place : HostPlace
  value : Nat
deriving DecidableEq, Repr

/-- A latch of the reference target (R73). -/
inductive Latch where
  | idx
  | sel
  | ah
  | al
deriving DecidableEq, Repr

/-- A place whose value is unspecified until something writes it (U1). -/
inductive Place where
  | host (p : HostPlace)
  | cfgLen (t : Fin 10)
  | cfgByte (t : Fin 10) (i : Nat)
  | latch (l : Latch)
  | ecmem (a : Addr)
deriving DecidableEq, Repr

/-- One of the two fans. -/
inductive Fan where
  | fan1
  | fan2
deriving DecidableEq, Repr

/-- One of the two timing tables with live registers (R205). -/
inductive Timing where
  | acc
  | dec
deriving DecidableEq, Repr

/-- What an access in progress is for (R153, R154, R172, R173, R195, R201): what its byte is put to, and what comes next.
The address, the byte, the direction, the row and the element stand in `AR`, `DR`, `RW`, `STEP`, `BASE`, `CNT`, `IDX`. -/
inductive Purpose where
  | rdreg
  | wrreg
  | rdarr
  | wrarr
  /-- the low byte of a tachometer -/
  | tachLow (f : Fan)
  /-- the high byte, after this low one -/
  | tachHigh (f : Fan) (low : Byte)
  /-- RDSTAT at an element of table `t` -/
  | statRow (t : Fin 10)
  /-- RDSTAT at its `n`-th single-byte read -/
  | scalar (n : Fin 9)
  /-- WRCFG at an element of table `t` -/
  | cfgRow (t : Fin 10)
  /-- WRCFG at the read of a target-curve value -/
  | curve (f : Fan)
  /-- WRCFG at the write of a target duty -/
  | duty (f : Fan)
  /-- WRCFG at the read of the current point -/
  | point
  /-- WRCFG at the write of a live timing register: the current point, and whether a pair was skipped before -/
  | live (t : Timing) (f : Fan) (k : Byte) (skipped : Bool)
deriving DecidableEq, Repr

/-- What ECSEQ's next step is while a command is in progress (D30): a gateway lifecycle call, a port operation of an access,
or the completion. -/
inductive Phase where
  | load
  | init
  | deinit
  | access (p : Purpose)
  | complete (ok : Bool)
deriving DecidableEq, Repr

/-- The one fault of the model (R242). -/
inductive Fault where
  /-- `ReadUnspecified`: a place that nothing has written was read (10_state.md, opening paragraph; R258). Raised by WRARR and
  WRROW (`XBUF`), WRCFG (`CFG`), by every command that reads an EC register outside `VOLATILE` that nothing has written, by a
  foreign bus event that needs an unwritten latch, and by a host read. Safe: the run stops where a real machine would go on
  with some value. -/
  | readUnspecified (p : Place)
deriving DecidableEq, Repr

/-- Why the model gives an action no meaning. -/
inductive Refusal where
  /-- Raised by `exec` for an instruction without a meaning. No arm answers it now. Safe. -/
  | notModelled (mnemonic : String)
  /-- Raised by `step` for a command word that selects no row of R103 (R105, R242). Safe: the spec gives it no meaning. -/
  | illegalWord (why : IllegalWord)
  /-- Raised by ROMRD, RDROW and WRROW for an operand no legal word holds (R105: the machine never sees it). Safe. -/
  | illFormedOperand
  /-- Raised by every step and command where `CFGP` is not well formed (R7, U4). Safe. -/
  | illFormedConfig
  /-- Raised by every command and host move where `BUSY = 1` (R25, R258: the host has no such move). Safe. -/
  | hostMoveWhileBusy
  /-- Raised by a bus event the reference target has no meaning for (R75 to R77). Safe. -/
  | targetUnmodelled
  /-- Raised by the host's reset while the provider handle is held (R251, R258: the host has no such move). Safe. -/
  | resetWithHandle
  /-- Raised by a host move on a place that does not exist: past the end of `XBUF`, a table longer than `CFG_LMAX`, a byte
  past a table's length (R28, R33). Safe. -/
  | noSuchPlace
deriving DecidableEq, Repr

/-- The whole state: ECSEQ's own (R20), the reference target's (R73), the configuration (R6), and the model's record of the
host and the environment. -/
structure State where
  /-- `CFGP` (R6); no step changes it -/
  cfgp : Cfgp
  /-- `EN` (R29) -/
  en : Bool
  /-- `HND` (R29) -/
  hnd : Bool
  /-- `LASTERR.code` (R30) -/
  lastCode : ErrKind
  /-- `LASTERR.info` (R30), a number of `STATUSW` bits (log 13) -/
  lastInfo : Nat
  /-- `OK` (R27) -/
  ok : Bool
  /-- `BUSY` (R25) -/
  busy : Bool
  /-- `RES8` (R22) -/
  res8 : Reg Byte
  /-- `RES16` (R22) -/
  res16 : Reg (BitVec 16)
  /-- `RESX` (R22), a number of `STATUSW` bits (log 13) -/
  resx : Reg Nat
  /-- `XBUF` (R28), by index -/
  xbuf : Memory
  /-- `STAT` (R31) -/
  stat : Stat
  /-- `CFG` (R33), by table id -/
  cfg : Vector CfgTable 10
  /-- `AR` (R34) -/
  ar : Addr
  /-- `DR` (R34) -/
  dr : Byte
  /-- `RW` (R34): false is read, true is write -/
  rw : Bool
  /-- `STEP` (R23) -/
  stepNo : BitVec 3
  /-- `BASE` (R34) -/
  base : Addr
  /-- `CNT` (R34) -/
  cnt : BitVec 8
  /-- `IDX` (R26) -/
  idx : BitVec 8
  /-- what the next step of the command in progress is (R10), where a step is one port operation; none where no command is
  in progress and while one step carries out a whole command (log 1) -/
  phase : Option Phase
  /-- the target's latches (R73) -/
  target : Target
  /-- `ECMEM` (R73), by EC register address -/
  ecmem : Memory
  /-- the environment still to come -/
  env : Env
  /-- the host's moves still to be made, the next one first (log 14) -/
  host : List HostAction
  /-- what the host's reads answered, oldest first -/
  seen : List Seen
  /-- the port trace (R62), oldest first -/
  trace : List BusEvent
  /-- the provider primitives invoked (R130), oldest first -/
  calls : List ProviderCall
deriving DecidableEq, Repr

/-- A register nothing has written (log 4). -/
def Reg.unspecified {w : Nat} : Reg (BitVec w) := ⟨0, false⟩

/-- `STAT` after reset: the tables zero, the other fields unspecified (R31, R38). -/
def Stat.reset : Stat where
  fan1Speed := Reg.unspecified
  fan2Speed := Reg.unspecified
  tab := Vector.replicate 10 (Vector.replicate 10 0)
  chipId1 := Reg.unspecified
  chipId2 := Reg.unspecified
  chipVer := Reg.unspecified
  fwVer := Reg.unspecified
  tgt := Vector.replicate 4 Reg.unspecified
  curPoint := Reg.unspecified
  fan1Pct := Reg.unspecified
  fan2Pct := Reg.unspecified

/-- The reference target as a model starts it: all unspecified (R73). -/
def Target.unspecified : Target := ⟨Reg.unspecified, Reg.unspecified, Reg.unspecified, Reg.unspecified⟩

/-- ECSEQ after reset (R38, R250) with configuration `c`, an EC side nothing is known of (R73), a host with nothing to do
and an environment of which nothing is fixed. -/
def State.resetWith (c : Cfgp) : State where
  cfgp := c
  en := false
  hnd := false
  lastCode := .none
  lastInfo := 0
  ok := false
  busy := false
  res8 := Reg.unspecified
  res16 := Reg.unspecified
  resx := ⟨0, false⟩
  xbuf := []
  stat := Stat.reset
  cfg := Vector.replicate 10 ⟨⟨0, false⟩, []⟩
  ar := 0
  dr := 0
  rw := false
  stepNo := 0
  base := 0
  cnt := 0
  idx := 0
  phase := none
  target := Target.unspecified
  ecmem := []
  env := ⟨[], [], [], [], 0, 0, 0⟩
  host := []
  seen := []
  trace := []
  calls := []

/-- The state right after reset, with the reference configuration (log 2). -/
def State.reset : State := State.resetWith cfgpRef

end Sys2Proof.Machine
end

