-- ==== Sys2Proof/Machine/Flags.lean ====
section
/-!
DEFINITION. The flags OK and BUSY (R25, R27) and the fields of LASTERR (R30, R221).
-/
namespace Sys2Proof.Machine

/-- The code number of an error kind (R30, R221). -/
def errCode : ErrKind → BitVec 3
  | .none => 0
  | .loadFailure => 1
  | .initFailure => 2
  | .notInitialized => 3
  | .invalidShape => 4
  | .partialWriteWarning => 5
  | .unexpectedFault => 6

/-- `LASTERR` as R30 lays its fields out: `code` in bits 2..0, `info` in bits `STATUSW+2`..3. -/
def lastErrBits (s : State) : Nat := (errCode s.lastCode).toNat + 8 * s.lastInfo

/-- A status code reduced to the `STATUSW` bits the provider's interface carries (R130, log 13). -/
def statusCode (c : Cfgp) (code : Nat) : Nat := code % 2 ^ c.statusW

/-- A 1-bit flag as the number the host reads. -/
def flagNat (b : Bool) : Nat := if b then 1 else 0

/-- The start of a legal command: `BUSY <- 1` (R25). -/
def accept (s : State) : State := { s with busy := true }

/-- The end of a command: `OK <- b; done` (R25, R27). -/
def finish (b : Bool) (s : State) : State := { s with ok := b, busy := false }

end Sys2Proof.Machine
end

