-- ==== Sys2Proof/Machine/Operands.lean ====
section
/-!
DEFINITION. Operand forms: byte slices and assembly (R8, R64, R198), element addresses (R171), the register map by name
(R175, R176), the step table (R150), the percentage (R191).
-/
namespace Sys2Proof.Machine

/-- `a[15:8]` (R8). -/
def hiByte (a : Addr) : Byte := a.extractLsb' 8 8

/-- `a[7:0]` (R8). -/
def loByte (a : Addr) : Byte := a.extractLsb' 0 8

/-- `high ## low` (R8, R64). -/
def cat16 (high low : Byte) : BitVec 16 := high ++ low

/-- `zext_16` of a byte (R8, R198). -/
def zext16 (v : Byte) : BitVec 16 := v.setWidth 16

/-- The address of element `i` of an array: `(base + i) mod 2^16` (R171). -/
def elemAddr (base : Addr) (i : BitVec 8) : Addr := base + i.setWidth 16

/-! The register-map entries by name (R176). -/

abbrev romFan1TachL : Fin 29 := 10
abbrev romFan1TachH : Fin 29 := 11
abbrev romFan2TachL : Fin 29 := 12
abbrev romFan2TachH : Fin 29 := 13
abbrev romChipId1 : Fin 29 := 14
abbrev romChipId2 : Fin 29 := 15
abbrev romChipVer : Fin 29 := 16
abbrev romFwVer : Fin 29 := 17
abbrev romFan1TgtCurve : Fin 29 := 18
abbrev romFan2TgtCurve : Fin 29 := 19
abbrev romFan1TgtDuty : Fin 29 := 20
abbrev romFan2TgtDuty : Fin 29 := 21
abbrev romCurPoint : Fin 29 := 22
abbrev romFan1CurAcc : Fin 29 := 23
abbrev romFan2CurAcc : Fin 29 := 24
abbrev romFan1CurDec : Fin 29 := 25
abbrev romFan2CurDec : Fin 29 := 26
abbrev romDcr4 : Fin 29 := 27
abbrev romDcr5 : Fin 29 := 28

/-- The names of R176, in index order: what R110 lets a ROM entry or a table be written by. -/
def romNames : List String := [
  "T_FAN1_CURVE", "T_FAN2_CURVE", "T_ACC_TIME", "T_DEC_TIME", "T_CPU_UPPER", "T_CPU_LOWER", "T_GPU_UPPER",
  "T_GPU_LOWER", "T_VRM_UPPER", "T_VRM_LOWER", "FAN1_TACH_L", "FAN1_TACH_H", "FAN2_TACH_L", "FAN2_TACH_H",
  "CHIP_ID1", "CHIP_ID2", "CHIP_VER", "FW_VER", "FAN1_TGT_CURVE", "FAN2_TGT_CURVE", "FAN1_TGT_DUTY",
  "FAN2_TGT_DUTY", "CUR_POINT", "FAN1_CUR_ACC", "FAN2_CUR_ACC", "FAN1_CUR_DEC", "FAN2_CUR_DEC", "DCR4", "DCR5"]

/-- The ids of the ten tables, in ascending order (R176). -/
def tableIds : List (Fin 10) := [0, 1, 2, 3, 4, 5, 6, 7, 8, 9]

/-- `T_ACC_TIME` as a table id (R176). -/
abbrev tabAccTime : Fin 10 := 2

/-- `T_DEC_TIME` as a table id (R176). -/
abbrev tabDecTime : Fin 10 := 3

/-- `ROM[k]` (R175). -/
def romAt (c : Cfgp) (k : Fin 29) : Addr := c.rom[k]

/-- `ROM[t]`, the base of table `t` (R176). -/
def tableBase (c : Cfgp) (t : Fin 10) : Addr := romAt c (t.castLE (by decide))

/-- The table id a K-format operand names, none above 9 (R103). -/
def tableIdOf (t : Byte) : Option (Fin 10) := if h : t.toNat < 10 then some ⟨t.toNat, h⟩ else none

/-- The ROM index a K-format operand names, none above 28 (R103). -/
def romIndexOf (k : Byte) : Option (Fin 29) := if h : k.toNat < 29 then some ⟨k.toNat, h⟩ else none

/-- The pseudo form `RDTBL t` (R111): it expands to `RDARR ROM[t], 10`. -/
def pseudoRdtbl (c : Cfgp) (t : Fin 10) : Instr := .rdarr (tableBase c t) 10

/-- The host's side of the pseudo form `VERIFY t` (R111): after `RDROW t`, whether `XBUF[0..9]` holds the bytes it wrote. -/
def pseudoVerify (xbuf : Nat → Option Byte) (written : List Byte) : Bool :=
  (List.range 10).map xbuf == written.map some

/-- `Pct(s, m)` (R191): exact, floored, 0 where the maximum is 0, not clamped. -/
def pct (s m : BitVec 16) : Pct32 :=
  if m.toNat = 0 then 0 else BitVec.ofNat 32 (s.toNat * 100 / m.toNat)

/-- The port column of the step table (R150). -/
inductive PortSel where
  | addr
  | data
deriving DecidableEq, Repr

/-- The byte column of the step table (R150, R108): what a write carries. -/
inductive RowSrc where
  | cb0
  | cb1
  | ixHi
  | arHi
  | ixLo
  | arLo
  | ixDp
  | dr
deriving DecidableEq, Repr

/-- A row of the step table (R108); `follows` is set where the operation is the access's own direction, clear where it is
always a write. -/
structure StepRow where
  port : PortSel
  follows : Bool
  src : RowSrc
deriving DecidableEq, Repr

/-- The step table (R150), row 0 first. -/
def stepTable : List StepRow := [
  ⟨.addr, false, .cb0⟩,
  ⟨.data, false, .cb1⟩,
  ⟨.addr, false, .ixHi⟩,
  ⟨.data, false, .arHi⟩,
  ⟨.addr, false, .ixLo⟩,
  ⟨.data, false, .arLo⟩,
  ⟨.addr, false, .ixDp⟩,
  ⟨.data, true, .dr⟩]

/-- The 5-bit form of a row (R108): `port` in bit 4, `dir` in bit 3, `src` in bits 2..0. DESIGN CHOICE (log 21): R108 gives
the three fields and their values, not their places. -/
def StepRow.code (r : StepRow) : BitVec 5 :=
  (BitVec.ofBool (r.port == .data) ++ BitVec.ofBool r.follows) ++
    (match r.src with
      | .cb0 => 0#3 | .cb1 => 1#3 | .ixHi => 2#3 | .arHi => 3#3
      | .ixLo => 4#3 | .arLo => 5#3 | .ixDp => 6#3 | .dr => 7#3)

/-- The port number a row names (R150). -/
def portOf (c : Cfgp) : PortSel → Port
  | .addr => c.pAddr
  | .data => c.pData

/-- The byte a row's write carries (R150, R108). -/
def srcByte (s : State) : RowSrc → Byte
  | .cb0 => s.cfgp.cb0
  | .cb1 => s.cfgp.cb1
  | .ixHi => s.cfgp.ixHi
  | .arHi => hiByte s.ar
  | .ixLo => s.cfgp.ixLo
  | .arLo => loByte s.ar
  | .ixDp => s.cfgp.ixDp
  | .dr => s.dr

end Sys2Proof.Machine
end

