-- ==== Sys2Proof/Machine/Ops.lean ====
section
/-!
DEFINITION. The operations every command is made of: byte memories, the environment's draws, the reference target and the
port bus (R62, R74 to R78), the gateway (R133, R134), the eight-step access (R150 to R152), recording an error (R222), the
gateway fault (R228), reset (R250), and running a command from acceptance to `done` (R25).
-/
namespace Sys2Proof.Machine

/-! ## Byte memories -/

/-- The byte at an address, none where the memory lists none. -/
def Memory.byteAt : Memory → Nat → Option Byte
  | [], _ => none
  | (b, v) :: m, a => if a = b then some v else Memory.byteAt m a

/-- The memory with one byte written; it keeps the addresses rising. -/
def Memory.put : Memory → Nat → Byte → Memory
  | [], a, v => [(a, v)]
  | (b, w) :: m, a, v =>
    if a < b then (a, v) :: (b, w) :: m
    else if a = b then (a, v) :: m
    else (b, w) :: Memory.put m a v

/-- The canonical form: addresses strictly rising. No entry can equal what an unlisted address reads as, which is no value. -/
def Memory.wf : Memory → Bool
  | [] => true
  | [_] => true
  | (a, _) :: (b, w) :: m => decide (a < b) && Memory.wf ((b, w) :: m)

/-- Every listed address is below a bound. -/
def Memory.below (n : Nat) (m : Memory) : Bool := m.all fun c => decide (c.1 < n)

/-- A memory with bytes written at consecutive addresses from `a`. -/
def Memory.putMany (m : Memory) (a : Nat) : List Byte → Memory
  | [] => m
  | v :: vs => Memory.putMany (m.put a v) (a + 1) vs

/-- A memory less its bytes from `n` on. -/
def Memory.cutAt (m : Memory) (n : Nat) : Memory := m.filter fun c => decide (c.1 < n)

/-! ## Results of an operation inside a command -/

/-- Why a command ends where it stands: a gateway fault (R228), or a reset in mid-command (R252, log 12). -/
inductive Cut where
  | gatewayFault
  | powerLoss
deriving DecidableEq, Repr

/-- The result of an operation inside a command: it is done; the command ends where it stands; the model stops. -/
inductive Res (α : Type) where
  | ok (a : α) (s : State)
  | cut (c : Cut) (s : State)
  | fault (f : Fault)
  | refused (r : Refusal)
deriving DecidableEq, Repr

/-- One operation after another. -/
def Res.bind {α β : Type} (r : Res α) (k : α → State → Res β) : Res β :=
  match r with
  | .ok a s => k a s
  | .cut c s => .cut c s
  | .fault f => .fault f
  | .refused f => .refused f

/-- `for x in ...`: the body for each element in order (R8). -/
def forEach {α : Type} (body : α → State → Res Unit) : List α → State → Res Unit
  | [], s => .ok () s
  | x :: xs, s => (body x s).bind fun _ t => forEach body xs t

/-- The value of a place that may be unspecified: the fault `ReadUnspecified` where nothing has written it (R242, U1). -/
def known {α : Type} (p : Place) (v : Option α) (s : State) : Res α :=
  match v with
  | some a => .ok a s
  | none => .fault (.readUnspecified p)

/-- A register's value, none while it is unspecified. -/
def Reg.value {α : Type} (r : Reg α) : Option α := if r.known then some r.val else none

/-! ## The configuration -/

/-- Two rows of ten addresses do not meet; neither wraps. -/
def rowsApart (a b : Addr) : Bool := decide (a.toNat + 9 < b.toNat) || decide (b.toNat + 9 < a.toNat)

/-- An address is outside a row of ten addresses that does not wrap. -/
def outsideRow (base a : Addr) : Bool := decide (a.toNat < base.toNat) || decide (base.toNat + 9 < a.toNat)

/-- A list without repeats. -/
def distinct {α : Type} [DecidableEq α] : List α → Bool
  | [] => true
  | x :: xs => !(xs.contains x) && distinct xs

/-- Every two rows of a list are apart. -/
def allApart : List Addr → Bool
  | [] => true
  | a :: as => as.all (rowsApart a) && allApart as

/-- A configuration is well formed (R7). -/
def configOk (c : Cfgp) : Bool :=
  let rows := c.rom.toList.take 10
  let singles := c.rom.toList.drop 10
  c.pAddr != c.pData
    && distinct [c.cb0, c.ixHi, c.ixLo, c.ixDp]
    && !c.dcrExtEn
    && decide (11 ≤ c.cfgLmax)
    && decide (255 ≤ c.xbufSize)
    && rows.all (fun b => decide (b.toNat + 9 ≤ 0xFFFF))
    && allApart rows
    && rows.all (fun b => singles.all (outsideRow b))
    && distinct (singles.take 17)

/-! ## The environment's draws (R12) -/

/-- The provider's answer to the next `load` (R131), and the environment after it. -/
def drawLoad (e : Env) : LoadAnswer × Env :=
  match e.loads with
  | a :: rest => (a, { e with loads := rest })
  | [] => (Config.freeLoad e.answersDrawn, { e with answersDrawn := e.answersDrawn + 1 })

/-- The provider's answer to the next `init` (R132), and the environment after it. -/
def drawInit (e : Env) : InitAnswer × Env :=
  match e.inits with
  | a :: rest => (a, { e with inits := rest })
  | [] => (Config.freeInit e.answersDrawn, { e with answersDrawn := e.answersDrawn + 1 })

/-- What the other agents do before the next port operation and what becomes of it (R80, R228), and the environment after
it. Where nothing is fixed, the EC firmware's steps and the gateway's fault are free values; no foreign master moves and no
reset strikes (R11.6, R252; logs 11, 12). -/
def drawSlot (c : Cfgp) (e : Env) : Slot × Env :=
  match e.slots with
  | x :: rest => (x, { e with slots := rest })
  | [] =>
    ({ moves := if c.volatile.isEmpty then []
                else (Config.freeEcSteps e.slotsDrawn).map fun m => .ecUpdate m.1 m.2,
       event := if c.gwFaults && Config.freeFault e.slotsDrawn then .fault else .complete },
     { e with slotsDrawn := e.slotsDrawn + 1 })

/-- What the other agents do after a command's last bus event, after a host move and while ECSEQ is idle (R80), and the
environment after it. Where nothing is fixed, the EC firmware's steps are a free value. -/
def drawRest (c : Cfgp) (e : Env) : List AgentMove × Env :=
  match e.rests with
  | x :: rest => (x, { e with rests := rest })
  | [] =>
    if c.volatile.isEmpty then ([], e)
    else ((Config.freeEcSteps e.slotsDrawn).map fun m => .ecUpdate m.1 m.2, { e with slotsDrawn := e.slotsDrawn + 1 })

/-! ## The reference target (R73 to R78) -/

/-- A bus event is recorded in the port trace (R62). -/
def record (e : BusEvent) (s : State) : State := { s with trace := s.trace ++ [e] }

/-- `ECMEM[a]` as a payload read finds it (R75, R78): the byte listed; in `VOLATILE`, a byte nothing has written is what an
`EcUpdate` just before the read put there, a free value (U5); elsewhere it is unspecified. -/
def readEc (a : Addr) (s : State) : Res Byte :=
  match s.ecmem.byteAt a.toNat with
  | some v => .ok v s
  | none =>
    if s.cfgp.volatile.contains a then
      let v := Config.freeEcByte s.env.bytesDrawn
      .ok v { s with ecmem := s.ecmem.put a.toNat v, env := { s.env with bytesDrawn := s.env.bytesDrawn + 1 } }
    else .fault (.readUnspecified (.ecmem a))

/-- `ECMEM[a] <- v` (R78). -/
def writeEc (a : Addr) (v : Byte) (s : State) : State := { s with ecmem := s.ecmem.put a.toNat v }

/-- The register-address latch `T.AH ## T.AL` (R73). -/
def latchedAddr (s : State) : Res Addr :=
  (known (.latch .ah) s.target.ah.value s).bind fun h s =>
  (known (.latch .al) s.target.al.value s).bind fun l s =>
  .ok (cat16 h l) s

/-- `BusWrite(P_DATA, v)` (R75). -/
def targetWriteData (v : Byte) (s : State) : Res Unit :=
  (known (.latch .idx) s.target.idx.value s).bind fun ix s =>
  if ix = s.cfgp.cb0 then .ok () { s with target := { s.target with sel := Reg.of v } }
  else if ix = s.cfgp.ixHi then .ok () { s with target := { s.target with ah := Reg.of v } }
  else if ix = s.cfgp.ixLo then .ok () { s with target := { s.target with al := Reg.of v } }
  else if ix = s.cfgp.ixDp then
    (known (.latch .sel) s.target.sel.value s).bind fun sel s =>
    if sel = s.cfgp.cb1 then
      (latchedAddr s).bind fun a s => .ok () (writeEc a v s)
    else .refused .targetUnmodelled
  else .refused .targetUnmodelled

/-- `BusRead(P_DATA)` (R75). -/
def targetReadData (s : State) : Res Byte :=
  (known (.latch .idx) s.target.idx.value s).bind fun ix s =>
  if ix = s.cfgp.ixDp then
    (known (.latch .sel) s.target.sel.value s).bind fun sel s =>
    if sel = s.cfgp.cb1 then (latchedAddr s).bind readEc
    else .refused .targetUnmodelled
  else .refused .targetUnmodelled

/-- What a bus write does to the target: R74 on `P_ADDR`, R75 on `P_DATA`, nothing on another port (R76). -/
def targetWrite (p : Port) (v : Byte) (s : State) : Res Unit :=
  if p = s.cfgp.pAddr then .ok () { s with target := { s.target with idx := Reg.of v } }
  else if p = s.cfgp.pData then targetWriteData v s
  else .ok () s

/-- What a bus read does to the target: no meaning on `P_ADDR` (R76), R75 on `P_DATA`; on another port nothing, and the byte
returned is a free value (log 11). -/
def targetRead (p : Port) (s : State) : Res Byte :=
  if p = s.cfgp.pAddr then .refused .targetUnmodelled
  else if p = s.cfgp.pData then targetReadData s
  else .ok (Config.freeBusByte s.env.bytesDrawn) { s with env := { s.env with bytesDrawn := s.env.bytesDrawn + 1 } }

/-- `BusWrite(p, v)` (R62). -/
def busWrite (m : Master) (p : Port) (v : Byte) (s : State) : Res Unit :=
  (targetWrite p v s).bind fun _ s => .ok () (record (.write m p v) s)

/-- `BusRead(p)` (R62). -/
def busRead (m : Master) (p : Port) (s : State) : Res Byte :=
  (targetRead p s).bind fun v s => .ok v (record (.read m p v) s)

/-! ## The other agents -/

/-- `EcUpdate(a, v)` (R80): only for an address in `VOLATILE`; the EC firmware has no other step, so another address changes
nothing. -/
def ecUpdate (a : Addr) (v : Byte) (s : State) : State :=
  if s.cfgp.volatile.contains a then writeEc a v s else s

/-- One move of another agent (R80, R258). -/
def agentMove (m : AgentMove) (s : State) : Res Unit :=
  match m with
  | .ecUpdate a v => .ok () (ecUpdate a v s)
  | .foreignWrite p v => busWrite .foreign p v s
  | .foreignRead p => (busRead .foreign p s).bind fun _ s => .ok () s

/-- The environment's part in a port operation: the other agents' moves, and what becomes of the operation. -/
def takeSlot (s : State) : Res SlotEvent :=
  let d := drawSlot s.cfgp s.env
  (forEach agentMove d.1.moves { s with env := d.2 }).bind fun _ s => .ok d.1.event s

/-- The other agents move after ECSEQ has come to rest (R80: after the last bus event of a command); a stop stays. -/
def settle (o : Host.Outcome State Fault Refusal) : Host.Outcome State Fault Refusal :=
  match o with
  | .next s =>
    match forEach agentMove (drawRest s.cfgp s.env).1 { s with env := (drawRest s.cfgp s.env).2 } with
    | .ok _ t => .next t
    | .cut _ t => .next t
    | .fault f => .fault f
    | .refused r => .refused r
  | .fault f => .fault f
  | .refused r => .refused r

/-! ## The gateway (R133, R134) -/

/-- The gate before every bus event of ECSEQ: the environment's part, then the operation `k` unless it is cut. A fault needs
`GW_FAULTS` (R228). -/
def gated {α : Type} (k : State → Res α) (s : State) : Res α :=
  (takeSlot s).bind fun e s =>
  match e with
  | .complete => k s
  | .fault => if s.cfgp.gwFaults then .cut .gatewayFault s else k s
  | .powerLoss => .cut .powerLoss s

/-- `GwWrite(p, v)` (R133). -/
def gwWrite (p : Port) (v : Byte) (s : State) : Res Unit :=
  if s.en then gated (busWrite .ecseq p v) s else .ok () s

/-- `GwRead(p)` (R134). -/
def gwRead (p : Port) (s : State) : Res Byte :=
  if s.en then gated (busRead .ecseq p) s else .ok 0 s

/-! ## The eight-step access (R150 to R152) -/

/-- `STEP <- (STEP + 1) mod 8` (R23). -/
def advance (s : State) : State := { s with stepNo := s.stepNo + 1 }

/-- One port operation: a row of the step table (R150), the unit R10 calls a step. -/
def issueRow (r : StepRow) (s : State) : Res Unit :=
  if r.follows && !s.rw then
    (gwRead (portOf s.cfgp r.port) s).bind fun v s => .ok () (advance { s with dr := v })
  else
    (gwWrite (portOf s.cfgp r.port) (srcByte s r.src) s).bind fun _ s => .ok () (advance s)

/-- `AR <- a; RW <- read; STEP <- 0`: an access in which `EcRead(a)` begins its rows (R151). -/
def readBegun (a : Addr) (s : State) : State := { s with ar := a, rw := false, stepNo := 0 }

/-- `AR <- a; DR <- d; RW <- write; STEP <- 0`: an access in which `EcWrite(a, d)` begins its rows (R152). -/
def writeBegun (a : Addr) (d : Byte) (s : State) : State := { s with ar := a, dr := d, rw := true, stepNo := 0 }

/-- `EcRead(a)` (R151). -/
def ecRead (a : Addr) (s : State) : Res Byte :=
  (forEach issueRow stepTable (readBegun a s)).bind fun _ s => .ok s.dr s

/-- `EcWrite(a, d)` (R152). -/
def ecWrite (a : Addr) (d : Byte) (s : State) : Res Unit := forEach issueRow stepTable (writeBegun a d s)

/-! ## The array engine (R26, R170, R171) -/

/-- `BASE <- b; CNT <- n`. -/
def loadArray (b : Addr) (n : BitVec 8) (s : State) : State := { s with base := b, cnt := n }

/-- `IDX <- i`. -/
def setIdx (i : Nat) (s : State) : State := { s with idx := BitVec.ofNat 8 i }

/-- The address of the current element (R26, R171). -/
def curAddr (s : State) : Addr := elemAddr s.base s.idx

/-- One element of an array read: `EcRead` at the current address, delivered by `put`. -/
def readElem (put : Nat → Byte → State → State) (i : Nat) (s : State) : Res Unit :=
  (ecRead (curAddr (setIdx i s)) (setIdx i s)).bind fun v s => .ok () (put i v s)

/-- One element of an array write: `EcWrite` at the current address of the byte `src` gives; the byte is read first (R173,
vector A5). -/
def writeElem (src : Nat → State → Res Byte) (i : Nat) (s : State) : Res Unit :=
  (src i (setIdx i s)).bind fun v s => ecWrite (curAddr s) v s

/-- `for IDX in 0 .. n-1: ... EcRead((BASE + IDX) mod 2^16)` (R172). -/
def readArray (put : Nat → Byte → State → State) (b : Addr) (n : BitVec 8) (s : State) : Res Unit :=
  forEach (readElem put) (List.range n.toNat) (loadArray b n s)

/-- `for IDX in 0 .. n-1: EcWrite((BASE + IDX) mod 2^16, ...)` (R173). -/
def writeArray (src : Nat → State → Res Byte) (b : Addr) (n : BitVec 8) (s : State) : Res Unit :=
  forEach (writeElem src) (List.range n.toNat) (loadArray b n s)

/-! ## The buffers (R28, R31, R33) -/

/-- `x[i]` (R9, R28). -/
def xbufByte (i : Nat) (s : State) : Res Byte := known (.host (.xbuf i)) (s.xbuf.byteAt i) s

/-- `x[i] <- v` (R9, R28). -/
def putXbuf (i : Nat) (v : Byte) (s : State) : State := { s with xbuf := s.xbuf.put i v }

/-- `STAT.tab[t][i] <- v` (R31). -/
def putTab (t : Fin 10) (i : Nat) (v : Byte) (s : State) : State :=
  { s with stat := { s.stat with tab := s.stat.tab.set t (s.stat.tab[t].setIfInBounds i v) } }

/-- `CFG.len[t]` (R33). -/
def cfgLen (t : Fin 10) (s : State) : Res Nat := known (.cfgLen t) s.cfg[t].len.value s

/-- `CFG.tab[t][i]` (R33). -/
def cfgByte (t : Fin 10) (i : Nat) (s : State) : Res Byte := known (.cfgByte t i) (s.cfg[t].bytes.byteAt i) s

/-! ## Errors (R222, R228, R233) -/

/-- `raise E(info)` (R222): `LASTERR` and nothing else. There is no handler and no return from one (R234). -/
def raise (k : ErrKind) (info : Nat) (s : State) : State := { s with lastCode := k, lastInfo := info }

/-- The entry clear of INIT, RDSTAT and WRCFG (R30, R136): only if `ERR_CLEAR_ON_ENTRY`. -/
def entryClear (s : State) : State := if s.cfgp.errClearOnEntry then raise .none 0 s else s

/-- What a gateway fault leaves (R228): `STEP <- 0; raise UNEXPECTED_FAULT(0); OK <- 0; done`; all else stands. -/
def takeGatewayFault (s : State) : State := finish false (raise .unexpectedFault 0 { s with stepNo := 0 })

/-- The creation of a controller object anew (R38, R250): every field of ECSEQ's own at its reset value; the EC side and the
model's records stand. A reset in mid-command has the same effect (R252). -/
def resetInstance (s : State) : State :=
  { State.resetWith s.cfgp with
    target := s.target, ecmem := s.ecmem, env := s.env, host := s.host, seen := s.seen, trace := s.trace, calls := s.calls }

/-! ## The provider's lifecycle primitives (R130, R135) -/

/-- `load()` (R131). -/
def invokeLoad (s : State) : LoadAnswer × State :=
  ((drawLoad s.env).1, { s with env := (drawLoad s.env).2, calls := s.calls ++ [.load] })

/-- `init()` (R132). -/
def invokeInit (s : State) : InitAnswer × State :=
  ((drawInit s.env).1, { s with env := (drawInit s.env).2, calls := s.calls ++ [.init] })

/-- `deinit()` (R135). -/
def invokeDeinit (s : State) : State := { s with calls := s.calls ++ [.deinit] }

/-! ## A command from acceptance to `done` (R10, R25, R27) -/

/-- How a command's body ends: with its `OK`, or where it stands. -/
def complete : Res Bool → Host.Outcome State Fault Refusal
  | .ok b s => .next (finish b s)
  | .cut .gatewayFault s => .next (takeGatewayFault s)
  | .cut .powerLoss s => .next (resetInstance s)
  | .fault f => .fault f
  | .refused r => .refused r

/-- A command: refused where the configuration is not well formed (R7) or another command is in progress (R25, R258), else
accepted and carried out to its end (log 1). -/
def runCommand (body : State → Res Bool) (s : State) : Host.Outcome State Fault Refusal :=
  if configOk s.cfgp then
    if s.busy then .refused .hostMoveWhileBusy else complete (body (accept s))
  else .refused .illFormedConfig

end Sys2Proof.Machine
end

