-- ==== Sys2Proof/Machine/ArrayRow.lean ====
section
/-!
DEFINITION. The array engine's, the ROM's and the row engine's commands: RDARR, WRARR, ROMRD, RDROW, WRROW (R172, R173, R178
to R180). None checks `EN` (R140).
-/
namespace Sys2Proof.Machine

/-- RDARR base, n as a command's body (R172). -/
def rdarrBody (base : Addr) (n : BitVec 8) (s : State) : Res Bool :=
  (readArray putXbuf base n s).bind fun _ s => .ok true s

/-- WRARR base, n as a command's body (R173). -/
def wrarrBody (base : Addr) (n : BitVec 8) (s : State) : Res Bool :=
  (writeArray xbufByte base n s).bind fun _ s => .ok true s

/-- RDARR base, n (R172). -/
def execRdarr (base : Addr) (n : Byte) (s : State) : Host.Outcome State Fault Refusal := runCommand (rdarrBody base n) s

/-- WRARR base, n (R173). -/
def execWrarr (base : Addr) (n : Byte) (s : State) : Host.Outcome State Fault Refusal := runCommand (wrarrBody base n) s

/-- `RES16 <- ROM[k]` (R178). -/
def lookUp (k : Fin 29) (s : State) : State := { s with res16 := Reg.of (romAt s.cfgp k) }

/-- ROMRD k (R178): `RES16 <- ROM[k]`; a `k` no legal word holds is refused (R105, log 20). -/
def execRomrd (k : Byte) (s : State) : Host.Outcome State Fault Refusal :=
  match romIndexOf k with
  | some k => runCommand (fun s => .ok true (lookUp k s)) s
  | none => .refused .illFormedOperand

/-- RDROW t (R179): `RDARR ROM[t], 10`. -/
def execRdrow (t : Byte) (s : State) : Host.Outcome State Fault Refusal :=
  match tableIdOf t with
  | some t => runCommand (rdarrBody (tableBase s.cfgp t) 10) s
  | none => .refused .illFormedOperand

/-- WRROW t (R180): `WRARR ROM[t], 10`; no shape check and no derived-state refresh. -/
def execWrrow (t : Byte) (s : State) : Host.Outcome State Fault Refusal :=
  match tableIdOf t with
  | some t => runCommand (wrarrBody (tableBase s.cfgp t) 10) s
  | none => .refused .illFormedOperand

end Sys2Proof.Machine
end

