-- ==== Sys2Proof/Machine/Controller.lean ====
section
/-!
DEFINITION. The controller's composite commands RDSTAT and WRCFG (R195 to R209).
-/
namespace Sys2Proof.Machine

/-- The lifecycle check of RDSTAT and WRCFG (R140, R225): `raise NOT_INITIALIZED(0); OK <- 0; done` where `EN = 0`, else the
entry clear and the body. -/
def whenInitialized (body : State → Res Bool) (s : State) : Res Bool :=
  if s.en then body (entryClear s) else .ok false (raise .notInitialized 0 s)

/-! ## RDSTAT (R195) -/

/-- One tachometer (R64, R195): low byte, high byte, `h ## l`. -/
def readTach (low high : Fin 29) (put : BitVec 16 → Stat → Stat) (s : State) : Res Unit :=
  (ecRead (romAt s.cfgp low) s).bind fun l s =>
  (ecRead (romAt s.cfgp high) s).bind fun h s =>
  .ok () { s with stat := put (cat16 h l) s.stat }

/-- `RowRead(t)` (R181): the ten reads of RDROW delivered to `STAT.tab[t]`. -/
def rowRead (t : Fin 10) (s : State) : Res Unit := readArray (putTab t) (tableBase s.cfgp t) 10 s

/-- A single-byte field of `STAT`: the register it is read from and where the byte goes (R195). -/
structure ScalarRead where
  rom : Fin 29
  put : Byte → Stat → Stat

/-- The nine single-byte reads of RDSTAT in order (R195, R198): identity, firmware version, targets, current point. -/
def scalarReads : List ScalarRead := [
  ⟨romChipId1, fun v st => { st with chipId1 := Reg.of v }⟩,
  ⟨romChipId2, fun v st => { st with chipId2 := Reg.of v }⟩,
  ⟨romChipVer, fun v st => { st with chipVer := Reg.of v }⟩,
  ⟨romFwVer, fun v st => { st with fwVer := Reg.of (zext16 v) }⟩,
  ⟨romFan1TgtCurve, fun v st => { st with tgt := st.tgt.set 0 (Reg.of v) }⟩,
  ⟨romFan2TgtCurve, fun v st => { st with tgt := st.tgt.set 1 (Reg.of v) }⟩,
  ⟨romFan1TgtDuty, fun v st => { st with tgt := st.tgt.set 2 (Reg.of v) }⟩,
  ⟨romFan2TgtDuty, fun v st => { st with tgt := st.tgt.set 3 (Reg.of v) }⟩,
  ⟨romCurPoint, fun v st => { st with curPoint := Reg.of v }⟩]

/-- One single-byte read of RDSTAT. -/
def readScalar (r : ScalarRead) (s : State) : Res Unit :=
  (ecRead (romAt s.cfgp r.rom) s).bind fun v s => .ok () { s with stat := r.put v s.stat }

/-- The two percentages, after the last read (R191, R195). -/
def derivePcts (s : State) : State :=
  { s with stat := { s.stat with
      fan1Pct := Reg.of (pct s.stat.fan1Speed.val s.cfgp.fan1Max)
      fan2Pct := Reg.of (pct s.stat.fan2Speed.val s.cfgp.fan2Max) } }

/-- RDSTAT past the lifecycle check (R195, R197): every field takes effect when it is reached. -/
def readStatus (s : State) : Res Bool :=
  (readTach romFan1TachL romFan1TachH (fun v st => { st with fan1Speed := Reg.of v }) s).bind fun _ s =>
  (readTach romFan2TachL romFan2TachH (fun v st => { st with fan2Speed := Reg.of v }) s).bind fun _ s =>
  (forEach rowRead tableIds s).bind fun _ s =>
  (forEach readScalar scalarReads s).bind fun _ s =>
  .ok true (derivePcts s)

/-- RDSTAT (R195). -/
def execRdstat (s : State) : Host.Outcome State Fault Refusal := runCommand (whenInitialized readStatus) s

/-! ## WRCFG (R201) -/

/-- The shape check (R202): whether every table of the list has length 10. It reads the lengths in the list's order and
stops at the first that is not 10 (DESIGN CHOICE, log 17); it reads no byte of a table. -/
def shapeOk : List (Fin 10) → State → Res Bool
  | [], s => .ok true s
  | t :: ts, s => (cfgLen t s).bind fun n s => if n = 10 then shapeOk ts s else .ok false s

/-- `RowWrite(t)` (R181): the ten writes of WRROW taking `CFG.tab[t]`. -/
def rowWrite (t : Fin 10) (s : State) : Res Unit := writeArray (cfgByte t) (tableBase s.cfgp t) 10 s

/-- One target refresh (R204): a target-curve value read and written to the target duty. -/
def refreshTarget (curve duty : Fin 29) (s : State) : Res Unit :=
  (ecRead (romAt s.cfgp curve) s).bind fun v s => ecWrite (romAt s.cfgp duty) v s

/-- One pair of live timing registers (R205): entry `k` of table `t` to both fans' registers if `k` is within the table's
length; answers whether it was skipped (R206). -/
def refreshLive (t : Fin 10) (fan1 fan2 : Fin 29) (k : Byte) (s : State) : Res Bool :=
  (cfgLen t s).bind fun n s =>
  if k.toNat < n then
    (cfgByte t k.toNat s).bind fun v s =>
    (ecWrite (romAt s.cfgp fan1) v s).bind fun _ s =>
    (ecWrite (romAt s.cfgp fan2) v s).bind fun _ s =>
    .ok false s
  else .ok true s

/-- The derived-state refresh (R204 to R206). -/
def refreshDerived (s : State) : Res Bool :=
  (refreshTarget romFan1TgtCurve romFan1TgtDuty s).bind fun _ s =>
  (refreshTarget romFan2TgtCurve romFan2TgtDuty s).bind fun _ s =>
  (ecRead (romAt s.cfgp romCurPoint) s).bind fun k s =>
  (refreshLive tabAccTime romFan1CurAcc romFan2CurAcc k s).bind fun skippedAcc s =>
  (refreshLive tabDecTime romFan1CurDec romFan2CurDec k s).bind fun skippedDec s =>
  .ok true (if skippedAcc || skippedDec then raise .partialWriteWarning 0 s else s)

/-- WRCFG past the lifecycle check (R201): shape check, ten tables, derived-state refresh. -/
def writeConfig (s : State) : Res Bool :=
  (shapeOk tableIds s).bind fun fits s =>
  if fits then (forEach rowWrite tableIds s).bind fun _ s => refreshDerived s
  else .ok false (raise .invalidShape 0 s)

/-- WRCFG (R201). -/
def execWrcfg (s : State) : Host.Outcome State Fault Refusal := runCommand (whenInitialized writeConfig) s

end Sys2Proof.Machine
end

