-- ==== Sys2Proof/Machine/Lifecycle.lean ====
section
/-!
DEFINITION. The lifecycle commands INIT, DEINIT, ISINIT, GETERR (R136 to R139).
-/
namespace Sys2Proof.Machine

/-- What INIT does with a failed `load` (R136). -/
def loadFailed (s : State) : State := raise .loadFailure 0 { s with hnd := false, en := false }

/-- INIT's call of `init`, the handle held, and what it does with the answer (R136): `OK` and the state. -/
def initAnswered (s : State) : Bool × State :=
  let i := invokeInit s
  match i.1 with
  | .refused c => (false, raise .initFailure (statusCode s.cfgp c) { i.2 with hnd := false, en := false })
  | .ok => (true, { i.2 with en := true })

/-- INIT from Uninitialized, after the entry clear (R136): `OK` and the state. -/
def initFresh (s : State) : Bool × State :=
  let l := invokeLoad s
  match l.1 with
  | .fail => (false, loadFailed l.2)
  | .ok => initAnswered { l.2 with hnd := true }

/-- INIT (R136): idempotent when `EN = 1`: `OK` and the state. -/
def initOutcome (s : State) : Bool × State := if s.en then (true, s) else initFresh (entryClear s)

/-- `initOutcome` as the changes it makes to the state before, so that what INIT does not touch (R136) shows whatever the
provider answers: no free answer has to be known to read those fields. -/
def initResult (s : State) : Bool × State :=
  let r := initOutcome s
  (r.1, { s with
    en := r.2.en, hnd := r.2.hnd, lastCode := r.2.lastCode, lastInfo := r.2.lastInfo, calls := r.2.calls,
    env := { s.env with loads := r.2.env.loads, inits := r.2.env.inits, answersDrawn := r.2.env.answersDrawn } })

/-- INIT (R136). -/
def execInit (s : State) : Host.Outcome State Fault Refusal :=
  runCommand (fun s => .ok (initResult s).1 (initResult s).2) s

/-- DEINIT (R137): `deinit` if the handle is held, then Uninitialized; `LASTERR` is not touched. -/
def execDeinit (s : State) : Host.Outcome State Fault Refusal :=
  runCommand (fun s =>
    .ok true { (if s.hnd then { invokeDeinit s with hnd := false } else s) with en := false }) s

/-- ISINIT (R138): `OK <- EN`. -/
def execIsinit (s : State) : Host.Outcome State Fault Refusal := runCommand (fun s => .ok s.en s) s

/-- `RES8 <- zext_8(LASTERR.code); RESX <- LASTERR.info` (R139). -/
def reportError (s : State) : State :=
  { s with res8 := Reg.of ((errCode s.lastCode).setWidth 8), resx := Reg.of s.lastInfo }

/-- GETERR (R139); `LASTERR` stays. -/
def execGeterr (s : State) : Host.Outcome State Fault Refusal := runCommand (fun s => .ok true (reportError s)) s

end Sys2Proof.Machine
end

