-- ==== Sys2Proof/Machine/RegAccess.lean ====
section
/-!
DEFINITION. Single-register access: RDREG and WRREG (R153, R154). Neither checks `EN` (R140).
-/
namespace Sys2Proof.Machine

/-- RDREG addr (R153): `RES8 <- EcRead(addr)`. -/
def execRdreg (addr : Addr) (s : State) : Host.Outcome State Fault Refusal :=
  runCommand (fun s => (ecRead addr s).bind fun v s => .ok true { s with res8 := Reg.of v }) s

/-- WRREG addr, data (R154): `EcWrite(addr, data)`. -/
def execWrreg (addr : Addr) (data : Byte) (s : State) : Host.Outcome State Fault Refusal :=
  runCommand (fun s => (ecWrite addr data s).bind fun _ s => .ok true s) s

end Sys2Proof.Machine
end

