-- ==== Sys2Proof/Machine/Dispatch.lean ====
section
/-!
DEFINITION. The dispatch of a command to its meaning, one arm per row of R103.
-/
namespace Sys2Proof.Machine

def exec (i : Instr) (s : State) : Host.Outcome State Fault Refusal :=
  match i with
  | .init => Sys2Proof.Machine.execInit s
  | .deinit => Sys2Proof.Machine.execDeinit s
  | .isinit => Sys2Proof.Machine.execIsinit s
  | .geterr => Sys2Proof.Machine.execGeterr s
  | .rdreg addr => Sys2Proof.Machine.execRdreg addr s
  | .wrreg addr data => Sys2Proof.Machine.execWrreg addr data s
  | .rdarr base n => Sys2Proof.Machine.execRdarr base n s
  | .wrarr base n => Sys2Proof.Machine.execWrarr base n s
  | .romrd k => Sys2Proof.Machine.execRomrd k s
  | .rdrow t => Sys2Proof.Machine.execRdrow t s
  | .wrrow t => Sys2Proof.Machine.execWrrow t s
  | .rdstat => Sys2Proof.Machine.execRdstat s
  | .wrcfg => Sys2Proof.Machine.execWrcfg s

end Sys2Proof.Machine
end

