-- ==== Sys2Proof/Machine/HostPort.lean ====
section
/-!
DEFINITION. The host's side: taking its next action (log 14), and its moves on the buffers and results (R22, R25, R28, R31 to
R33, R250).
-/
namespace Sys2Proof.Machine

/-- What the host does next. -/
inductive Fetched where
  | idle
  | word (w : CmdWord) (s : State)
  | issue (w : CmdWord) (s : State)
  | move (m : HostMove) (s : State)
deriving DecidableEq, Repr

/-- Taking the host's next action: the head of `host`. -/
def fetch (s : State) : Fetched :=
  match s.host with
  | [] => .idle
  | .command w :: rest => .word w { s with host := rest }
  | .issue w :: rest => .issue w { s with host := rest }
  | .move m :: rest => .move m { s with host := rest }

/-- A field of `STAT` as the host reads it (R31). -/
def statValue (st : Stat) : StatField → Option Nat
  | .fan1Speed => st.fan1Speed.value.map BitVec.toNat
  | .fan2Speed => st.fan2Speed.value.map BitVec.toNat
  | .tab t i => some st.tab[t][i].toNat
  | .chipId1 => st.chipId1.value.map BitVec.toNat
  | .chipId2 => st.chipId2.value.map BitVec.toNat
  | .chipVer => st.chipVer.value.map BitVec.toNat
  | .fwVer => st.fwVer.value.map BitVec.toNat
  | .tgt n => st.tgt[n].value.map BitVec.toNat
  | .curPoint => st.curPoint.value.map BitVec.toNat
  | .fan1Pct => st.fan1Pct.value.map BitVec.toNat
  | .fan2Pct => st.fan2Pct.value.map BitVec.toNat

/-- What the host reads at a place, none while the place is unspecified (R22, R27, R28, R31). -/
def hostValue (p : HostPlace) (s : State) : Option Nat :=
  match p with
  | .ok => some (flagNat s.ok)
  | .busy => some (flagNat s.busy)
  | .res8 => s.res8.value.map BitVec.toNat
  | .res16 => s.res16.value.map BitVec.toNat
  | .resx => s.resx.value
  | .xbuf i => (s.xbuf.byteAt i).map BitVec.toNat
  | .stat f => statValue s.stat f

/-- Whether a place exists: only `XBUF` has an end that the configuration fixes (R28). -/
def placeExists (p : HostPlace) (s : State) : Bool :=
  match p with
  | .xbuf i => decide (i < s.cfgp.xbufSize)
  | _ => true

/-- A host read: the fault `ReadUnspecified` where nothing has written the place. The spec gives the host this move and this
end to it (R258), forbids a value there (10_state.md, opening paragraph; R242, D27), and settles it as the one fault of the
model where its files differ (C11). -/
def hostRead (p : HostPlace) (s : State) : Host.Outcome State Fault Refusal :=
  if placeExists p s then
    match hostValue p s with
    | some v => .next { s with seen := s.seen ++ [⟨p, v⟩] }
    | none => .fault (.readUnspecified (.host p))
  else .refused .noSuchPlace

/-- `.xbuf b0 b1 ...` (R110): the host loads `XBUF[0..]`. -/
def hostLoadXbuf (bs : List Byte) (s : State) : Host.Outcome State Fault Refusal :=
  if bs.length ≤ s.cfgp.xbufSize then .next { s with xbuf := s.xbuf.putMany 0 bs } else .refused .noSuchPlace

/-- The host writes one byte of `XBUF` (R28). -/
def hostSetXbuf (i : Nat) (b : Byte) (s : State) : Host.Outcome State Fault Refusal :=
  if i < s.cfgp.xbufSize then .next (putXbuf i b s) else .refused .noSuchPlace

/-- One table of `CFG` replaced. -/
def setTable (t : Fin 10) (x : CfgTable) (s : State) : State := { s with cfg := s.cfg.set t x }

/-- `.cfg t: b0 ...` (R110): the host loads table `t` with that many bytes; at most `CFG_LMAX` (R33). -/
def hostLoadCfg (t : Fin 10) (bs : List Byte) (s : State) : Host.Outcome State Fault Refusal :=
  if bs.length ≤ s.cfgp.cfgLmax then .next (setTable t ⟨Reg.of bs.length, Memory.putMany [] 0 bs⟩ s)
  else .refused .noSuchPlace

/-- The host gives table `t` a length (R33); bytes past it are no longer the table's, bytes not yet written stay unspecified. -/
def hostSetCfgLen (t : Fin 10) (n : Nat) (s : State) : Host.Outcome State Fault Refusal :=
  if n ≤ s.cfgp.cfgLmax then .next (setTable t ⟨Reg.of n, s.cfg[t].bytes.cutAt n⟩ s) else .refused .noSuchPlace

/-- The host writes byte `i` of table `t`, which must be within the table's length (R33). DESIGN CHOICE (log 15): the spec
does not say whether the byte exists while the length was never set; the model refuses the move then, as past a length. -/
def hostSetCfgByte (t : Fin 10) (i : Nat) (b : Byte) (s : State) : Host.Outcome State Fault Refusal :=
  if s.cfg[t].len.known ∧ i < s.cfg[t].len.val then
    .next (setTable t { s.cfg[t] with bytes := s.cfg[t].bytes.put i b } s)
  else .refused .noSuchPlace

/-- The host creates the controller object anew (R250); not while the provider handle is held (R251, R258). -/
def hostReset (s : State) : Host.Outcome State Fault Refusal :=
  if s.hnd then .refused .resetWithHandle else .next (resetInstance s)

/-- A move of the host, only while `BUSY = 0` (R25). R25 does not name `BUSY` among what the host must not read then, and no rule
says whether it can; that a read of it is refused too, so that it only ever answers 0, is a DESIGN CHOICE (log 15): the caller
"is simply not running then". -/
def hostMove (m : HostMove) (s : State) : Host.Outcome State Fault Refusal :=
  if s.busy then .refused .hostMoveWhileBusy
  else
    match m with
    | .loadXbuf bs => hostLoadXbuf bs s
    | .setXbuf i b => hostSetXbuf i b s
    | .loadCfg t bs => hostLoadCfg t bs s
    | .setCfgLen t n => hostSetCfgLen t n s
    | .setCfgByte t i b => hostSetCfgByte t i b s
    | .read p => hostRead p s
    | .reset => hostReset s

/-- A word the host has written to `CMD` and ECSEQ has yet to take (R100). -/
def pushWord (w : CmdWord) (s : State) : State := { s with host := .command w :: s.host }

end Sys2Proof.Machine
end

