-- ==== Sys2Proof/Machine/PortStep.lean ====
section
/-!
DEFINITION. A command one step at a time (R10, R11, D30): its acceptance, then one port operation, one lifecycle call or the
completion per step. Carried to its end it is the command's meaning in `exec` (the statement PortStepsMakeTheCommand).
-/
namespace Sys2Proof.Machine

/-- The row of the step table that `STEP` names (R23, R150). -/
def rowAt (n : BitVec 3) : StepRow := stepTable[n.toNat]'n.isLt

/-! ## The registers of the map a step needs by fan and by table (R176) -/

/-- A fan's tachometer, low byte. -/
def tachLowRom : Fan → Fin 29
  | .fan1 => romFan1TachL
  | .fan2 => romFan2TachL

/-- A fan's tachometer, high byte. -/
def tachHighRom : Fan → Fin 29
  | .fan1 => romFan1TachH
  | .fan2 => romFan2TachH

/-- A fan's target-curve value. -/
def curveRom : Fan → Fin 29
  | .fan1 => romFan1TgtCurve
  | .fan2 => romFan2TgtCurve

/-- A fan's target duty. -/
def dutyRom : Fan → Fin 29
  | .fan1 => romFan1TgtDuty
  | .fan2 => romFan2TgtDuty

/-- A fan's live timing register (R205). -/
def liveRom : Timing → Fan → Fin 29
  | .acc, .fan1 => romFan1CurAcc
  | .acc, .fan2 => romFan2CurAcc
  | .dec, .fan1 => romFan1CurDec
  | .dec, .fan2 => romFan2CurDec

/-- The table the live registers are refreshed from (R205). -/
def timingTable : Timing → Fin 10
  | .acc => tabAccTime
  | .dec => tabDecTime

/-- The speed of a fan written to `STAT` (R195). -/
def putSpeed (f : Fan) (v : BitVec 16) (s : State) : State :=
  match f with
  | .fan1 => { s with stat := { s.stat with fan1Speed := Reg.of v } }
  | .fan2 => { s with stat := { s.stat with fan2Speed := Reg.of v } }

/-- The `n`-th single-byte read of RDSTAT (R195). -/
def scalarRead (n : Fin 9) : ScalarRead := scalarReads[n.val]'n.isLt

/-! ## From one access to the next

Each answers the phase of the next step, with the registers loaded for it. -/

/-- The command ends with this `OK`. -/
def completes (b : Bool) (s : State) : Res Phase := .ok (.complete b) s

/-- `EcRead` of a register of the map is begun. -/
def beginRomRead (p : Purpose) (k : Fin 29) (s : State) : Res Phase := .ok (.access p) (readBegun (romAt s.cfgp k) s)

/-- `EcWrite` of a register of the map is begun. -/
def beginRomWrite (p : Purpose) (k : Fin 29) (v : Byte) (s : State) : Res Phase :=
  .ok (.access p) (writeBegun (romAt s.cfgp k) v s)

/-- An array read at element `i` (R172): its access is begun, or the array is done. -/
def readOn (p : Purpose) (next : State → Res Phase) (i : Nat) (s : State) : Res Phase :=
  if i < s.cnt.toNat then .ok (.access p) (readBegun (curAddr (setIdx i s)) (setIdx i s)) else next s

/-- An array write at element `i` (R173): its byte is read and its access begun, or the array is done. -/
def writeOn (p : Purpose) (src : Nat → State → Res Byte) (next : State → Res Phase) (i : Nat) (s : State) : Res Phase :=
  if i < s.cnt.toNat then (src i (setIdx i s)).bind fun v s => .ok (.access p) (writeBegun (curAddr s) v s) else next s

/-- RDARR and RDROW begin (R172, R179). -/
def beginRdarr (b : Addr) (n : BitVec 8) (s : State) : Res Phase := readOn .rdarr (completes true) 0 (loadArray b n s)

/-- WRARR and WRROW begin (R173, R180). -/
def beginWrarr (b : Addr) (n : BitVec 8) (s : State) : Res Phase :=
  writeOn .wrarr xbufByte (completes true) 0 (loadArray b n s)

/-- RDSTAT at its `n`-th single-byte read, or past the last (R195). -/
def beginScalar (n : Nat) (s : State) : Res Phase :=
  if h : n < 9 then beginRomRead (.scalar ⟨n, h⟩) (scalarRead ⟨n, h⟩).rom s else completes true (derivePcts s)

/-- RDSTAT at table `t`, or past the last (R195). -/
def beginStatRow (t : Nat) (s : State) : Res Phase :=
  if h : t < 10 then readOn (.statRow ⟨t, h⟩) (beginScalar 0) 0 (loadArray (tableBase s.cfgp ⟨t, h⟩) 10 s)
  else beginScalar 0 s

/-- WRCFG's refresh begins (R204). -/
def beginRefresh (s : State) : Res Phase := beginRomRead (.curve .fan1) (curveRom .fan1) s

/-- WRCFG at table `t`, or past the last (R203). -/
def beginCfgRow (t : Nat) (s : State) : Res Phase :=
  if h : t < 10 then writeOn (.cfgRow ⟨t, h⟩) (cfgByte ⟨t, h⟩) beginRefresh 0 (loadArray (tableBase s.cfgp ⟨t, h⟩) 10 s)
  else beginRefresh s

/-- WRCFG ends, with the warning where a pair was skipped (R206). -/
def endRefresh (skipped : Bool) (s : State) : Res Phase :=
  completes true (if skipped then raise .partialWriteWarning 0 s else s)

/-- A pair of live timing registers (R205): its first write is begun, or the pair is skipped. -/
def beginLive (t : Timing) (k : Byte) (skipped : Bool) (next : Bool → State → Res Phase) (s : State) : Res Phase :=
  (cfgLen (timingTable t) s).bind fun n s =>
  if k.toNat < n then
    (cfgByte (timingTable t) k.toNat s).bind fun v s => beginRomWrite (.live t .fan1 k skipped) (liveRom t .fan1) v s
  else next true s

/-- The pair of deceleration registers (R205). -/
def beginDec (k : Byte) (skipped : Bool) (s : State) : Res Phase := beginLive .dec k skipped endRefresh s

/-- The pair of acceleration registers (R205). -/
def beginAcc (k : Byte) (s : State) : Res Phase := beginLive .acc k false (beginDec k) s

/-- What follows an access's last row: its byte is delivered, and the next step prepared. -/
def afterAccess (p : Purpose) (s : State) : Res Phase :=
  match p with
  | .rdreg => completes true { s with res8 := Reg.of s.dr }
  | .wrreg => completes true s
  | .rdarr => readOn .rdarr (completes true) (s.idx.toNat + 1) (putXbuf s.idx.toNat s.dr s)
  | .wrarr => writeOn .wrarr xbufByte (completes true) (s.idx.toNat + 1) s
  | .tachLow f => beginRomRead (.tachHigh f s.dr) (tachHighRom f) s
  | .tachHigh .fan1 low => beginRomRead (.tachLow .fan2) (tachLowRom .fan2) (putSpeed .fan1 (cat16 s.dr low) s)
  | .tachHigh .fan2 low => beginStatRow 0 (putSpeed .fan2 (cat16 s.dr low) s)
  | .statRow t => readOn (.statRow t) (beginStatRow (t.val + 1)) (s.idx.toNat + 1) (putTab t s.idx.toNat s.dr s)
  | .scalar n => beginScalar (n.val + 1) { s with stat := (scalarRead n).put s.dr s.stat }
  | .cfgRow t => writeOn (.cfgRow t) (cfgByte t) (beginCfgRow (t.val + 1)) (s.idx.toNat + 1) s
  | .curve f => beginRomWrite (.duty f) (dutyRom f) s.dr s
  | .duty .fan1 => beginRomRead (.curve .fan2) (curveRom .fan2) s
  | .duty .fan2 => beginRomRead .point romCurPoint s
  | .point => beginAcc s.dr s
  | .live t .fan1 k skipped => beginRomWrite (.live t .fan2 k skipped) (liveRom t .fan2) s.dr s
  | .live .acc .fan2 k skipped => beginDec k skipped s
  | .live .dec .fan2 _ skipped => endRefresh skipped s

/-! ## The steps -/

/-- What a command does before its first port operation or lifecycle call; a command that has none is done here (R10). -/
def start : Instr → State → Res Phase
  | .init, s => if s.en then completes true s else .ok .load (entryClear s)
  | .deinit, s => if s.hnd then .ok .deinit s else completes true { s with en := false }
  | .isinit, s => completes s.en s
  | .geterr, s => completes true (reportError s)
  | .rdreg a, s => .ok (.access .rdreg) (readBegun a s)
  | .wrreg a d, s => .ok (.access .wrreg) (writeBegun a d s)
  | .rdarr b n, s => beginRdarr b n s
  | .wrarr b n, s => beginWrarr b n s
  | .romrd k, s =>
    match romIndexOf k with
    | some k => completes true (lookUp k s)
    | none => .refused .illFormedOperand
  | .rdrow t, s =>
    match tableIdOf t with
    | some t => beginRdarr (tableBase s.cfgp t) 10 s
    | none => .refused .illFormedOperand
  | .wrrow t, s =>
    match tableIdOf t with
    | some t => beginWrarr (tableBase s.cfgp t) 10 s
    | none => .refused .illFormedOperand
  | .rdstat, s =>
    if s.en then beginRomRead (.tachLow .fan1) (tachLowRom .fan1) (entryClear s)
    else completes false (raise .notInitialized 0 s)
  | .wrcfg, s =>
    if s.en then
      (shapeOk tableIds (entryClear s)).bind fun fits s =>
      if fits then beginCfgRow 0 s else completes false (raise .invalidShape 0 s)
    else completes false (raise .notInitialized 0 s)

/-- The state between two steps of a command in progress, or the command's end where it was cut (R228, R252). -/
def pause : Res Phase → Host.Outcome State Fault Refusal
  | .ok p s => .next { s with phase := some p }
  | .cut c s => settle (complete (.cut c { s with phase := none }))
  | .fault f => .fault f
  | .refused r => .refused r

/-- A word taken from `CMD` (R25, R100): its command is accepted. One that has neither a port operation nor a lifecycle call
is carried out whole (R10). -/
def issue (i : Instr) (s : State) : Host.Outcome State Fault Refusal :=
  if s.busy then .refused .hostMoveWhileBusy
  else
    match start i (accept s) with
    | .ok (.complete b) s => settle (.next (finish b s))
    | r => pause r

/-- INIT's call of `load` (R136). -/
def loadCall (s : State) : Res Phase :=
  match (invokeLoad s).1 with
  | .fail => completes false (loadFailed (invokeLoad s).2)
  | .ok => .ok .init { (invokeLoad s).2 with hnd := true }

/-- One port operation of the access in progress: the row `STEP` names, and after row 7 what follows the access. -/
def accessStep (p : Purpose) (s : State) : Res Phase :=
  (issueRow (rowAt s.stepNo) s).bind fun _ s => if s.stepNo = 0 then afterAccess p s else .ok (.access p) s

/-- One step of the command in progress (R10, D30). -/
def portStep (p : Phase) (s : State) : Host.Outcome State Fault Refusal :=
  match p with
  | .load => pause (loadCall s)
  | .init => pause (completes (initAnswered s).1 (initAnswered s).2)
  | .deinit => pause (completes true { invokeDeinit s with hnd := false, en := false })
  | .access p => pause (accessStep p s)
  | .complete b => settle (.next (finish b { s with phase := none }))

/-- The phase of the command in progress, none where there is none. -/
def inProgress (s : State) : Option Phase := if s.busy then s.phase else none

end Sys2Proof.Machine
end

