-- ==== Sys2Proof/Machine/Step.lean ====
section
/-!
DEFINITION. One step of the machine (R10, log 1): the next unit of the command in progress, or the host's next action, or an
idle step; where ECSEQ comes to rest the other agents may move (R80).
-/
namespace Sys2Proof.Machine

/-- One step: refused where `CFGP` is not well formed (R7). A command in progress goes on, and the host waits (R25, R258); else
the host's next action is taken. A word in `CMD` is decoded and its command begun or run; an illegal one is refused at decode
(R105). With nothing to do ECSEQ waits with all state kept (R38, R241). -/
def step (s : State) : Host.Outcome State Fault Refusal :=
  if configOk s.cfgp then
    match inProgress s with
    | some p => portStep p s
    | none =>
      match fetch s with
      | .idle => settle (.next s)
      | .move m t => settle (hostMove m t)
      | .word w t =>
        match decode w with
        | .ok i => settle (exec i t)
        | .error e => .refused (.illegalWord e)
      | .issue w t =>
        match decode w with
        | .ok i => issue i t
        | .error e => .refused (.illegalWord e)
  else .refused .illFormedConfig

/-- The state with one command word next in `CMD` (log 14): bits of `w` above `nbits` are zero. -/
def State.withFetchWord (s : State) (nbits w : Nat) : State := pushWord (BitVec.ofNat 32 (w % 2 ^ nbits)) s

end Sys2Proof.Machine
end

