-- ==== Sys2Proof/Safety.lean ====
section
/-!
DEFINITION. The vocabulary of the claims: when a command can be taken, what the environment does meanwhile, what a port trace
of one access is, what an access leaves alone, and the invariant of the machine.
-/
namespace Sys2Proof.Machine

/-- A command can be taken: the configuration is well formed (R7) and no command is in progress (R25). -/
abbrev State.Ready (s : State) : Prop := configOk s.cfgp = true ∧ s.busy = false

/-! ## The environment -/

/-- A move of the EC firmware (R80), not of a foreign master. -/
def AgentMove.isEc : AgentMove → Bool
  | .ecUpdate _ _ => true
  | .foreignWrite _ _ => false
  | .foreignRead _ => false

/-- No foreign master moves in a slot. -/
def Slot.noForeign (x : Slot) : Bool := x.moves.all AgentMove.isEc

/-- A slot in which no foreign master moves and the port operation completes: a fault needs `GW_FAULTS` (R228). -/
def Slot.quiet (c : Cfgp) (x : Slot) : Bool :=
  x.noForeign && (x.event == .complete || (x.event == .fault && !c.gwFaults))

/-- The next `n` port operations that reach the bus complete, with no foreign bus event between. -/
def quietFor (c : Cfgp) : Nat → Env → Bool
  | 0, _ => true
  | n + 1, e => (drawSlot c e).1.quiet c && quietFor c n (drawSlot c e).2

/-- The next `n` slots are quiet and the gateway faults the port operation after them (R228). -/
def faultAfter (c : Cfgp) : Nat → Env → Bool
  | 0, e => (drawSlot c e).1.noForeign && (drawSlot c e).1.event == .fault && c.gwFaults
  | n + 1, e => (drawSlot c e).1.quiet c && faultAfter c n (drawSlot c e).2

/-- No foreign bus event is scripted. -/
def Env.noForeign (e : Env) : Bool := e.slots.all Slot.noForeign && e.rests.all fun x => x.all AgentMove.isEc

/-- No reset in mid-command is scripted. -/
def Env.noPowerLoss (e : Env) : Bool := e.slots.all fun x => x.event != .powerLoss

/-! ## EC registers -/

/-- An EC register that a payload read gives a byte of: listed in `ECMEM`, or in `VOLATILE` (U5). -/
def readable (s : State) (a : Addr) : Prop := s.ecmem.byteAt a.toNat ≠ none ∨ a ∈ s.cfgp.volatile

/-- `v` is what a payload read of `a` may give: the byte `ECMEM` lists, unless the EC itself may change it (R78, R80). -/
def mayRead (s : State) (a : Addr) (v : Byte) : Prop := a ∈ s.cfgp.volatile ∨ s.ecmem.byteAt a.toNat = some v

/-- The EC registers outside `VOLATILE` that are not in the list read as before. -/
def EcKeptExcept (s t : State) (written : List Addr) : Prop :=
  ∀ a : Addr, a ∉ s.cfgp.volatile → a ∉ written → t.ecmem.byteAt a.toNat = s.ecmem.byteAt a.toNat

/-- The addresses of an array of `n` elements from `base` (R171), in order. -/
def arrayAddrs (base : Addr) (n : Nat) : List Addr := (List.range n).map fun i => elemAddr base (BitVec.ofNat 8 i)

/-- The ten addresses of table `t` (R182). -/
def rowAddrs (c : Cfgp) (t : Fin 10) : List Addr := arrayAddrs (tableBase c t) 10

/-- The 113 addresses RDSTAT reads, in order (R195): the four tachometer bytes, the ten tables, then `ROM[14..22]`. -/
def rdstatAddrs (c : Cfgp) : List Addr :=
  ([10, 11, 12, 13].map (romAt c))
    ++ ([0, 1, 2, 3, 4, 5, 6, 7, 8, 9].flatMap (rowAddrs c))
    ++ ([14, 15, 16, 17, 18, 19, 20, 21, 22].map (romAt c))

/-! ## The port trace of an access (R150) -/

/-- Rows 0 to 6: the same in both directions. -/
def preEvents (c : Cfgp) (a : Addr) : List BusEvent := [
  .write .ecseq c.pAddr c.cb0,
  .write .ecseq c.pData c.cb1,
  .write .ecseq c.pAddr c.ixHi,
  .write .ecseq c.pData (hiByte a),
  .write .ecseq c.pAddr c.ixLo,
  .write .ecseq c.pData (loByte a),
  .write .ecseq c.pAddr c.ixDp]

/-- The eight events of a read access that finds `v`. -/
def readEvents (c : Cfgp) (a : Addr) (v : Byte) : List BusEvent := preEvents c a ++ [.read .ecseq c.pData v]

/-- The eight events of a write access. -/
def writeEvents (c : Cfgp) (a : Addr) (v : Byte) : List BusEvent := preEvents c a ++ [.write .ecseq c.pData v]

/-- The events of reads at a list of addresses that find a list of bytes. -/
def readPass (c : Cfgp) (as : List Addr) (vs : List Byte) : List BusEvent :=
  (List.zipWith (readEvents c) as vs).flatten

/-- The events of writes at a list of addresses of a list of bytes. -/
def writePass (c : Cfgp) (as : List Addr) (vs : List Byte) : List BusEvent :=
  (List.zipWith (writeEvents c) as vs).flatten

/-- The target's latches after a complete access to `a` (R157). -/
def latchedAt (c : Cfgp) (a : Addr) : Target := ⟨Reg.of c.ixDp, Reg.of c.cb1, Reg.of (hiByte a), Reg.of (loByte a)⟩

/-- Whether ECSEQ issued an event. -/
def BusEvent.ours : BusEvent → Bool
  | .write m _ _ => m == .ecseq
  | .read m _ _ => m == .ecseq

/-- A complete access: a read that finds a byte, or a write of one. -/
inductive Access where
  | read (a : Addr) (v : Byte)
  | write (a : Addr) (v : Byte)
deriving DecidableEq, Repr

/-- The eight events of a complete access. -/
def Access.events (c : Cfgp) : Access → List BusEvent
  | .read a v => readEvents c a v
  | .write a v => writeEvents c a v

/-- The EC register an access is to. -/
def Access.addr : Access → Addr
  | .read a _ => a
  | .write a _ => a

/-- The byte an access moved. -/
def Access.byte : Access → Byte
  | .read _ v => v
  | .write _ v => v

/-- Whether an access is a write. -/
def Access.isWrite : Access → Bool
  | .read _ _ => false
  | .write _ _ => true

/-- The EC registers after accesses one after another, given what they held before. -/
def afterRun : List Access → (Addr → Option Byte) → Addr → Option Byte
  | [], f => f
  | .read _ _ :: xs, f => afterRun xs f
  | .write b d :: xs, f => afterRun xs fun a => if a = b then some d else f a

/-- The target's latches after the first `j` rows of an access to `a` (R150, R157), given what they held before. -/
def latchesAfter (c : Cfgp) (a : Addr) (t : Target) : Nat → Target
  | 0 => t
  | 1 => { t with idx := Reg.of c.cb0 }
  | 2 => { t with idx := Reg.of c.cb0, sel := Reg.of c.cb1 }
  | 3 => { t with idx := Reg.of c.ixHi, sel := Reg.of c.cb1 }
  | 4 => { t with idx := Reg.of c.ixHi, sel := Reg.of c.cb1, ah := Reg.of (hiByte a) }
  | 5 => { t with idx := Reg.of c.ixLo, sel := Reg.of c.cb1, ah := Reg.of (hiByte a) }
  | 6 => ⟨Reg.of c.ixLo, Reg.of c.cb1, Reg.of (hiByte a), Reg.of (loByte a)⟩
  | _ => latchedAt c a

/-- The latches after complete accesses one after another (R157): those of the last one. -/
def latchesOf (s : State) (xs : List Access) : Target :=
  match xs.getLast? with
  | none => s.target
  | some x => latchedAt s.cfgp x.addr

/-- What complete accesses one after another leave in `AR`, `DR`, `RW`, `STEP`, the latches and the last register accessed
(R150 to R152, R157): what the last one does; nothing changes where there is none. -/
def Ended (s : State) (xs : List Access) (t : State) : Prop :=
  t.target = latchesOf s xs ∧
    match xs.getLast? with
    | none => t.ar = s.ar ∧ t.dr = s.dr ∧ t.rw = s.rw ∧ t.stepNo = s.stepNo ∧ t.ecmem = s.ecmem
    | some x => t.ar = x.addr ∧ t.dr = x.byte ∧ t.rw = x.isWrite ∧ t.stepNo = 0
        ∧ t.ecmem.byteAt x.addr.toNat = some x.byte

/-- WRCFG's writes of the ten tables (R203), given the bytes of `CFG`. -/
def rowWrites (c : Cfgp) (b : Fin 10 → Nat → Byte) : List Access :=
  tableIds.flatMap fun k => (List.range 10).map fun i => .write (elemAddr (tableBase c k) (BitVec.ofNat 8 i)) (b k i)

/-- WRCFG's accesses after the tables (R204 to R206), given what its three reads find; the two pairs of live registers only
where the current point `p` is below 10. -/
def refreshAccesses (c : Cfgp) (b : Fin 10 → Nat → Byte) (v1 v2 p : Byte) : List Access :=
  .read (romAt c 18) v1 :: .write (romAt c 20) v1 :: .read (romAt c 19) v2 :: .write (romAt c 21) v2 :: .read (romAt c 22) p ::
    if p.toNat < 10 then
      [.write (romAt c 23) (b 2 p.toNat), .write (romAt c 24) (b 2 p.toNat),
       .write (romAt c 25) (b 3 p.toNat), .write (romAt c 26) (b 3 p.toNat)]
    else []

/-- The 109 accesses of WRCFG in order, or 105 where the live registers are skipped (R201 to R207). -/
def wrcfgAccesses (c : Cfgp) (b : Fin 10 → Nat → Byte) (v1 v2 p : Byte) : List Access :=
  rowWrites c b ++ refreshAccesses c b v1 v2 p

/-- A list of bus events whose ECSEQ events are complete accesses, one after another, and at the end possibly the first few
events of one more (R24, R63, R85, R150). -/
def IsAccessTrace (c : Cfgp) (l : List BusEvent) : Prop :=
  ∃ (done : List Access) (last : Access) (j : Nat), j < 8 ∧
    l.filter BusEvent.ours = done.flatMap (Access.events c) ++ (last.events c).take j

/-! ## Frames -/

/-- Everything an access of the sequencer leaves alone: all but `AR`, `DR`, `RW`, `STEP`, the target, `ECMEM`, the
environment and the port trace. -/
structure AccessFrame (s t : State) : Prop where
  cfgp : t.cfgp = s.cfgp
  en : t.en = s.en
  hnd : t.hnd = s.hnd
  lastCode : t.lastCode = s.lastCode
  lastInfo : t.lastInfo = s.lastInfo
  ok : t.ok = s.ok
  busy : t.busy = s.busy
  res8 : t.res8 = s.res8
  res16 : t.res16 = s.res16
  resx : t.resx = s.resx
  xbuf : t.xbuf = s.xbuf
  stat : t.stat = s.stat
  cfg : t.cfg = s.cfg
  base : t.base = s.base
  cnt : t.cnt = s.cnt
  idx : t.idx = s.idx
  phase : t.phase = s.phase
  host : t.host = s.host
  seen : t.seen = s.seen
  calls : t.calls = s.calls

/-- What a gateway fault leaves when it cuts a command in the access `cur` after `j` of its rows, the accesses `done` being
complete (R228, R256): the command is over and UNEXPECTED_FAULT recorded; `AR`, `DR`, `RW` are as `cur` began; the port
trace, the latches and the EC registers outside `VOLATILE` are as the issued rows left them. -/
structure FaultLeft (s : State) (done : List Access) (cur : Access) (j : Nat) (t : State) : Prop where
  ok : t.ok = false
  busy : t.busy = false
  lastCode : t.lastCode = .unexpectedFault
  lastInfo : t.lastInfo = 0
  stepNo : t.stepNo = 0
  ar : t.ar = cur.addr
  rw : t.rw = cur.isWrite
  dr : t.dr = if cur.isWrite then cur.byte else (done.getLast?.map Access.byte).getD s.dr
  trace : t.trace = s.trace ++ (done.flatMap (Access.events s.cfgp) ++ (preEvents s.cfgp cur.addr).take j)
  target : t.target = latchesAfter s.cfgp cur.addr (latchesOf s done) j
  regs : ∀ a : Addr, a ∉ s.cfgp.volatile →
    t.ecmem.byteAt a.toNat = afterRun done (fun a => s.ecmem.byteAt a.toNat) a

/-- `STAT` after the first `q` of RDSTAT's 113 reads, which found `v 0`, `v 1`, ... (R64, R195, R197): a speed once its high
byte is read, a table entry or another field once it is read, the rest as before; the percentages are not computed yet. -/
def statFilled (st : Stat) (v : Nat → Byte) (q : Nat) : Stat where
  fan1Speed := if 1 < q then Reg.of (cat16 (v 1) (v 0)) else st.fan1Speed
  fan2Speed := if 3 < q then Reg.of (cat16 (v 3) (v 2)) else st.fan2Speed
  tab := Vector.ofFn fun k => Vector.ofFn fun i =>
    if 4 + 10 * k.val + i.val < q then v (4 + 10 * k.val + i.val) else st.tab[k][i]
  chipId1 := if 104 < q then Reg.of (v 104) else st.chipId1
  chipId2 := if 105 < q then Reg.of (v 105) else st.chipId2
  chipVer := if 106 < q then Reg.of (v 106) else st.chipVer
  fwVer := if 107 < q then Reg.of ((v 107).setWidth 16) else st.fwVer
  tgt := Vector.ofFn fun n => if 108 + n.val < q then Reg.of (v (108 + n.val)) else st.tgt[n]
  curPoint := if 112 < q then Reg.of (v 112) else st.curPoint
  fan1Pct := st.fan1Pct
  fan2Pct := st.fan2Pct

/-! ## Steps -/

/-- `n` steps, as far as the machine goes on. -/
def runSteps : Nat → State → Host.Outcome State Fault Refusal
  | 0, s => .next s
  | n + 1, s =>
    match step s with
    | .next t => runSteps n t
    | .fault f => .fault f
    | .refused r => .refused r

/-- A host read of a place, the next of its actions, answers what is said of it; `none` is a place nothing has written. -/
def HostReads (s : State) (rest : List HostAction) (p : HostPlace) (v : Option Nat) : Prop :=
  s.host = .move (.read p) :: rest →
    step s = match v with
      | some n => settle (.next { s with host := rest, seen := s.seen ++ [⟨p, n⟩] })
      | none => .fault (.readUnspecified (.host p))

/-! ## Reset -/

/-- What R38 says of ECSEQ after reset: the values it gives, and everything else unspecified. -/
structure AsReset (s : State) : Prop where
  en : s.en = false
  hnd : s.hnd = false
  tab : ∀ t i : Fin 10, s.stat.tab[t][i] = 0
  lastErr : s.lastCode = .none ∧ s.lastInfo = 0
  ok : s.ok = false
  busy : s.busy = false
  stepNo : s.stepNo = 0
  results : s.res8.known = false ∧ s.res16.known = false ∧ s.resx.known = false
  xbuf : ∀ i, s.xbuf.byteAt i = none
  speeds : s.stat.fan1Speed.known = false ∧ s.stat.fan2Speed.known = false
  identity : s.stat.chipId1.known = false ∧ s.stat.chipId2.known = false ∧ s.stat.chipVer.known = false
    ∧ s.stat.fwVer.known = false
  targets : ∀ n : Fin 4, s.stat.tgt[n].known = false
  point : s.stat.curPoint.known = false
  percents : s.stat.fan1Pct.known = false ∧ s.stat.fan2Pct.known = false
  cfg : ∀ t : Fin 10, s.cfg[t].len.known = false ∧ ∀ i, s.cfg[t].bytes.byteAt i = none

/-! ## The invariant -/

/-- A table of `CFG` is in order: its bytes in canonical form, inside its length, the length within `CFG_LMAX` (R33). -/
def CfgTable.inOrder (c : Cfgp) (x : CfgTable) : Bool :=
  Memory.wf x.bytes && Memory.below x.len.val x.bytes && decide (x.len.val ≤ c.cfgLmax)

/-- Where the provider handle stands against `EN` (R29): the two are equal but for INIT between its two calls, when the handle
is held and `EN` not yet set. -/
def State.handleInOrder (s : State) : Bool :=
  match s.phase with
  | some .init => s.hnd && !s.en
  | some .load => !s.hnd && !s.en
  | _ => s.hnd == s.en

/-- Where the sequencer and the array engine stand against the phase (R10, R23, R26): `STEP` is 0 outside an access, and an array
being read is at one of its elements. -/
def State.engineInOrder (s : State) : Bool :=
  match s.phase with
  | some (.access .rdarr) => decide (s.idx.toNat < s.cnt.toNat)
  | some (.access _) => true
  | _ => s.stepNo == 0

/-- What holds in every state that steps reach: memories canonical and inside their spaces (R28, R33, R60), a command in
progress exactly while `BUSY` is set (R25), `HND = EN` but inside INIT (R29), `STEP = 0` outside an access (R23),
`LASTERR.info` zero but for INIT_FAILURE and within `STATUSW` bits (R30), `STAT.fw_ver[15:8]` zero (R198). -/
abbrev State.Inv (s : State) : Prop :=
  Memory.wf s.ecmem = true ∧ Memory.below 65536 s.ecmem = true
  ∧ Memory.wf s.xbuf = true ∧ Memory.below s.cfgp.xbufSize s.xbuf = true
  ∧ (∀ t : Fin 10, s.cfg[t].inOrder s.cfgp = true)
  ∧ s.busy = s.phase.isSome ∧ s.handleInOrder = true ∧ s.engineInOrder = true
  ∧ (s.lastCode ≠ .initFailure → s.lastInfo = 0) ∧ s.lastInfo < 2 ^ s.cfgp.statusW
  ∧ hiByte s.stat.fwVer.val = 0

/-- A run of commands, one after another, each to its end. -/
def runCommands : List Instr → State → Host.Outcome State Fault Refusal
  | [], s => .next s
  | i :: is, s =>
    match exec i s with
    | .next t => runCommands is t
    | .fault f => .fault f
    | .refused r => .refused r

end Sys2Proof.Machine
end

