-- ==== Sys2Proof/Certificates/Slice0/Obligations.lean ====
section
/-!
DEFINITION. The statements for the provers. Each says which rule of spec/ it formalises; a register outside `VOLATILE` is one
the EC itself does not change (R80), so a statement about `ECMEM` speaks of those.
-/
open Sys2Proof Sys2Proof.Machine

/-! ## Encoding -/

/-- R101 to R103, R110: decoding an encoded well-formed command gives it back, for every operand value. -/
def Obligations.DecodeInvertsEncode : Prop :=
  ∀ i : Instr, i.wf = true → decode (encode i) = .ok i

/-- R103, R110: a word that decodes is the encoding of what it decodes to, which is well formed. -/
def Obligations.DecodedWordIsItsEncoding : Prop :=
  ∀ (w : CmdWord) (i : Instr), decode w = .ok i → i.wf = true ∧ encode i = w

/-- R103: a word decodes to a command of a mnemonic exactly if it selects that mnemonic's row by match, mask and constraint,
and no word selects two rows. -/
def Obligations.WordsSelectOneRow : Prop :=
  (∀ (w : CmdWord) (m : String),
    (∃ i, decode w = .ok i ∧ i.mnemonic = m) ↔ ∃ r ∈ opcodeRows, r.mnemonic = m ∧ r.selects w = true)
  ∧ ∀ (w : CmdWord) (r r' : OpcodeRow), r ∈ opcodeRows → r' ∈ opcodeRows → r.selects w = true → r'.selects w = true → r = r'

/-- R105: the words that select no row of R103, the rule's list of them, all of them and no other, are refused at decode,
whichever unit of a step the word was written for (log 1). -/
def Obligations.IllegalWordsAreRefused : Prop :=
  ∀ (s : State) (w : CmdWord) (rest : List HostAction),
    s.Ready → (s.host = .command w :: rest ∨ s.host = .issue w :: rest) →
    ((∀ r ∈ opcodeRows, r.selects w = false) ↔ ∃ why, decode w = .error why)
    ∧ ((opcOf w ∉ [0x01, 0x02, 0x03, 0x04, 0x10, 0x11, 0x12, 0x13, 0x20, 0x21, 0x22, 0x30, 0x31]
      ∨ (opcOf w ∈ [0x01, 0x02, 0x03, 0x04, 0x30, 0x31] ∧ w.extractLsb' 0 24 ≠ 0)
      ∨ (opcOf w = 0x10 ∧ immOf w ≠ 0)
      ∨ (opcOf w ∈ [0x20, 0x21, 0x22] ∧ addrOf w ≠ 0)
      ∨ (opcOf w = 0x20 ∧ 28 < (immOf w).toNat)
      ∨ (opcOf w ∈ [0x21, 0x22] ∧ 9 < (immOf w).toNat))
     ↔ ∃ why, decode w = .error why ∧ step s = .refused (.illegalWord why))

/-- R110, R112: the word of each command, for every operand value, and the worked encodings, legal and illegal. -/
def Obligations.EncodingsAreTheListedWords : Prop :=
  encode .init = 0x01000000 ∧ encode .deinit = 0x02000000 ∧ encode .isinit = 0x03000000 ∧ encode .geterr = 0x04000000
  ∧ (∀ a : Addr, encode (.rdreg a) = 0x10000000 ||| (a.setWidth 32 <<< 8))
  ∧ (∀ (a : Addr) (d : Byte), encode (.wrreg a d) = 0x11000000 ||| (a.setWidth 32 <<< 8) ||| d.setWidth 32)
  ∧ (∀ (a : Addr) (n : Byte), encode (.rdarr a n) = 0x12000000 ||| (a.setWidth 32 <<< 8) ||| n.setWidth 32)
  ∧ (∀ (a : Addr) (n : Byte), encode (.wrarr a n) = 0x13000000 ||| (a.setWidth 32 <<< 8) ||| n.setWidth 32)
  ∧ (∀ k : Byte, encode (.romrd k) = 0x20000000 ||| k.setWidth 32)
  ∧ (∀ t : Byte, encode (.rdrow t) = 0x21000000 ||| t.setWidth 32)
  ∧ (∀ t : Byte, encode (.wrrow t) = 0x22000000 ||| t.setWidth 32)
  ∧ encode .rdstat = 0x30000000 ∧ encode .wrcfg = 0x31000000
  ∧ encode (.rdreg 0xC540) = 0x10C54000 ∧ encode (.wrreg 0xC5E1 0x3C) = 0x11C5E13C ∧ encode (.rdarr 0xC540 10) = 0x12C5400A
  ∧ encode (.wrarr 0xFFFE 3) = 0x13FFFE03 ∧ encode (.romrd 22) = 0x20000016 ∧ encode (.rdrow 2) = 0x21000002
  ∧ encode (.wrrow 9) = 0x22000009
  ∧ decode 0x10C54000 = .ok (.rdreg 0xC540) ∧ decode 0x11C5E13C = .ok (.wrreg 0xC5E1 0x3C)
  ∧ decode 0x12C5400A = .ok (.rdarr 0xC540 10) ∧ decode 0x13FFFE03 = .ok (.wrarr 0xFFFE 3)
  ∧ decode 0x20000016 = .ok (.romrd 22) ∧ decode 0x21000002 = .ok (.rdrow 2) ∧ decode 0x22000009 = .ok (.wrrow 9)
  ∧ decode 0x00000000 = .error .unknownOpcode ∧ decode 0x10C54001 = .error .rdregImmSet
  ∧ decode 0x01000001 = .error .zFieldSet ∧ decode 0x2000001D = .error .indexOutOfRange
  ∧ decode 0x2100000A = .error .indexOutOfRange ∧ decode 0x21000102 = .error .kFieldSet
  ∧ decode 0x32000000 = .error .unknownOpcode

/-! ## Steps -/

/-- A step whose next host action is a legal word takes it from `CMD` (R100, R105) and runs its command, after which the other
agents may move (R80). That the one step is the WHOLE command, and that the host's words stand in a list, are the model's
choices: log 1 (R10 and D30 make a step one port operation; the statements PortStepIsOneRow and PortStepsMakeTheCommand give
that unit) and log 14. -/
def Obligations.StepRunsTheDecodedCommand : Prop :=
  ∀ (s : State) (w : CmdWord) (rest : List HostAction) (i : Instr),
    s.Ready → s.host = .command w :: rest → decode w = .ok i →
    step s = settle (exec i { s with host := rest })

/-- The word of a well-formed command (R110), placed in `CMD` (R100), is what the very next step runs. That the one step is
`exec` of the whole command is the model's choice of log 1 (R10 makes a step one port operation), that `withFetchWord` stands
for the host's write of `CMD` that of log 14. -/
def Obligations.EncodedCommandRunsNext : Prop :=
  ∀ (s : State) (i : Instr), s.Ready → i.wf = true →
    step (s.withFetchWord 32 (encode i).toNat) = settle (exec i s)

/-- R10, R23, R150, D30 (and log 1): one step of an access in progress, in a quiet environment and with the latches as its first
`j` rows left them, is one port operation: row `j` of the step table, one bus event, `STEP` one further; after row 7 the
byte is delivered and the next access or the completion prepared. `BUSY` stays set. A payload read finds the byte that
stands in its register just then, in `VOLATILE` or not (R85). -/
def Obligations.PortStepIsOneRow : Prop :=
  ∀ (s : State) (p : Purpose) (l : Target),
    configOk s.cfgp = true → s.busy = true → s.phase = some (.access p) → s.en = true →
    quietFor s.cfgp 1 s.env = true → s.target = latchesAfter s.cfgp s.ar l s.stepNo.toNat →
    (s.stepNo ≠ 7 → ∃ (m : Memory) (e : Env),
      step s = .next { s with
        stepNo := s.stepNo + 1, target := latchesAfter s.cfgp s.ar l (s.stepNo.toNat + 1), ecmem := m, env := e,
        trace := s.trace ++ ((preEvents s.cfgp s.ar).drop s.stepNo.toNat).take 1 }
      ∧ ∀ a : Addr, a ∉ s.cfgp.volatile → m.byteAt a.toNat = s.ecmem.byteAt a.toNat)
    ∧ (s.stepNo = 7 → s.rw = true → ∃ (m : Memory) (e : Env),
      step s = pause (afterAccess p { s with
        stepNo := 0, target := latchedAt s.cfgp s.ar, ecmem := m, env := e,
        trace := s.trace ++ [.write .ecseq s.cfgp.pData s.dr] })
      ∧ m.byteAt s.ar.toNat = some s.dr
      ∧ ∀ a : Addr, a ≠ s.ar → a ∉ s.cfgp.volatile → m.byteAt a.toNat = s.ecmem.byteAt a.toNat)
    ∧ (s.stepNo = 7 → s.rw = false → readable s s.ar → ∃ (v : Byte) (m : Memory) (e : Env),
      step s = pause (afterAccess p { s with
        dr := v, stepNo := 0, target := latchedAt s.cfgp s.ar, ecmem := m, env := e,
        trace := s.trace ++ [.read .ecseq s.cfgp.pData v] })
      ∧ m.byteAt s.ar.toNat = some v
      ∧ ∀ a : Addr, a ∉ s.cfgp.volatile → m.byteAt a.toNat = s.ecmem.byteAt a.toNat)

/-- R10, R11, D30 and log 1: a command carried out one unit per step ends, and ends exactly as the one step that carries it out
whole, whatever the environment does; until then `BUSY` is set and the host has not moved. -/
def Obligations.PortStepsMakeTheCommand : Prop :=
  ∀ (s : State) (w : CmdWord) (rest : List HostAction) (i : Instr),
    s.Ready → s.phase = none → decode w = .ok i →
    ∃ n : Nat,
      runSteps (n + 1) { s with host := .issue w :: rest } = step { s with host := .command w :: rest }
      ∧ ∀ k, k < n → ∃ u, runSteps (k + 1) { s with host := .issue w :: rest } = .next u
          ∧ u.busy = true ∧ u.phase ≠ none ∧ u.host = rest

/-- What a well-formed configuration is, and that the reference one is (R7). That any other is refused by every step and by
every command is the model's choice of log 3: R7 does not say where a model refuses it, and U4 instantiates none. -/
def Obligations.IllFormedConfigurationsAreRefused : Prop :=
  (∀ c : Cfgp, configOk c = true ↔
    c.pAddr ≠ c.pData
    ∧ (c.cb0 ≠ c.ixHi ∧ c.cb0 ≠ c.ixLo ∧ c.cb0 ≠ c.ixDp ∧ c.ixHi ≠ c.ixLo ∧ c.ixHi ≠ c.ixDp ∧ c.ixLo ≠ c.ixDp)
    ∧ c.dcrExtEn = false ∧ 11 ≤ c.cfgLmax ∧ 255 ≤ c.xbufSize
    ∧ (∀ t : Fin 29, t.val < 10 → (c.rom[t]).toNat + 9 ≤ 0xFFFF)
    ∧ (∀ t u : Fin 29, t.val < 10 → u.val < 10 → t ≠ u → ∀ i j : Nat, i ≤ 9 → j ≤ 9 →
        (c.rom[t]).toNat + i ≠ (c.rom[u]).toNat + j)
    ∧ (∀ t k : Fin 29, t.val < 10 → 10 ≤ k.val → ∀ i : Nat, i ≤ 9 → (c.rom[t]).toNat + i ≠ (c.rom[k]).toNat)
    ∧ (∀ k l : Fin 29, 10 ≤ k.val → k.val ≤ 26 → 10 ≤ l.val → l.val ≤ 26 → k ≠ l → c.rom[k] ≠ c.rom[l]))
  ∧ configOk cfgpRef = true
  ∧ ∀ s : State, configOk s.cfgp = false →
      step s = .refused .illFormedConfig ∧ ∀ i : Instr, i.wf = true → exec i s = .refused .illFormedConfig

/-- R25, R258 and log 15 (the model's choice of a refusal): a command or host move while `BUSY = 1` is refused; and while a
command is in progress from step to step, the host's actions wait. -/
def Obligations.NothingIsTakenWhileBusy : Prop :=
  ∀ s : State, configOk s.cfgp = true → s.busy = true →
    (∀ i : Instr, i.wf = true → exec i s = .refused .hostMoveWhileBusy)
    ∧ (∀ m : HostMove, hostMove m s = .refused .hostMoveWhileBusy)
    ∧ ∀ t : State, s.phase ≠ none → step s = .next t → t.host = s.host

/-- R38, R80, R241: with nothing to do a step is only the other agents' moves; so is what follows a command's last bus event
(`settle`). Without foreign masters that changes nothing but EC registers in `VOLATILE`, and each such register may get any
byte; with `VOLATILE` empty and nothing scripted, nothing. A stop stays a stop. -/
def Obligations.IdleStepOnlyLetsTheEcMove : Prop :=
  ∀ s : State,
    (s.Ready → s.host = [] → step s = settle (.next s))
    ∧ (s.env.noForeign = true → ∃ (m : Memory) (e : Env), settle (.next s) = .next { s with ecmem := m, env := e }
        ∧ EcKeptExcept s { s with ecmem := m, env := e } [])
    ∧ (∀ (a : Addr) (v : Byte) (more : List (List AgentMove)), a ∈ s.cfgp.volatile →
        s.env.rests = [.ecUpdate a v] :: more →
        settle (.next s) = .next { s with ecmem := s.ecmem.put a.toNat v, env := { s.env with rests := more } })
    ∧ (s.cfgp.volatile = [] → s.env.rests = [] → settle (.next s) = .next s)
    ∧ (∀ f, settle (.fault f) = .fault f) ∧ ∀ r, settle (.refused r) = .refused r

/-! ## Reset -/

/-- R38, R250: reset gives ECSEQ the values the spec states and leaves the rest unspecified; it does not touch the EC side,
which may move after it (R80). -/
def Obligations.ResetLeavesTheStatedValues : Prop :=
  ∀ (s : State) (rest : List HostAction),
    s.Ready → s.hnd = false → s.host = .move .reset :: rest →
    ∃ t, step s = settle (.next t) ∧ AsReset t ∧ t.target = s.target ∧ t.ecmem = s.ecmem ∧ t.cfgp = s.cfgp
      ∧ t.trace = s.trace ∧ t.calls = s.calls ∧ t.host = rest

/-- R38, R73 (and log 2 for the configuration): the initial state is as after reset, with nothing known of the EC side. -/
def Obligations.InitialStateIsReset : Prop :=
  State.reset = State.resetWith cfgpRef
  ∧ ∀ c : Cfgp, AsReset (State.resetWith c) ∧ (State.resetWith c).cfgp = c
    ∧ (∀ a, (State.resetWith c).ecmem.byteAt a = none)
    ∧ (State.resetWith c).target.idx.known = false ∧ (State.resetWith c).target.sel.known = false
    ∧ (State.resetWith c).target.ah.known = false ∧ (State.resetWith c).target.al.known = false

/-- R251, R258 and log 16 (the model's choice of a refusal): no reset drops a held provider handle. -/
def Obligations.ResetWithHandleIsRefused : Prop :=
  ∀ (s : State) (rest : List HostAction),
    s.Ready → s.hnd = true → s.host = .move .reset :: rest → step s = .refused .resetWithHandle

/-! ## Lifecycle -/

/-- R136: INIT's four ways, and its word. -/
def Obligations.InitTakesItsFourWays : Prop :=
  encode .init = 0x01000000 ∧ ∀ s : State, s.Ready →
    (s.en = true → exec .init s = .next { s with ok := true })
    ∧ (s.en = false → (drawLoad s.env).1 = .fail →
        exec .init s = .next { s with
          env := (drawLoad s.env).2, calls := s.calls ++ [.load],
          hnd := false, lastCode := .loadFailure, lastInfo := 0, ok := false })
    ∧ (∀ code, s.en = false → (drawLoad s.env).1 = .ok → (drawInit (drawLoad s.env).2).1 = .refused code →
        code < 2 ^ s.cfgp.statusW →
        exec .init s = .next { s with
          env := (drawInit (drawLoad s.env).2).2, calls := s.calls ++ [.load, .init],
          hnd := false, lastCode := .initFailure, lastInfo := code, ok := false })
    ∧ (s.en = false → (drawLoad s.env).1 = .ok → (drawInit (drawLoad s.env).2).1 = .ok →
        exec .init s = .next { s with
          env := (drawInit (drawLoad s.env).2).2, calls := s.calls ++ [.load, .init],
          en := true, hnd := true, ok := true,
          lastCode := if s.cfgp.errClearOnEntry then .none else s.lastCode,
          lastInfo := if s.cfgp.errClearOnEntry then 0 else s.lastInfo })

/-- R137: DEINIT, and its word. -/
def Obligations.DeinitReleasesAndDisables : Prop :=
  encode .deinit = 0x02000000 ∧ ∀ s : State, s.Ready →
    exec .deinit s = .next { s with
      en := false, hnd := false, ok := true, calls := if s.hnd then s.calls ++ [.deinit] else s.calls }

/-- R138: ISINIT, and its word. -/
def Obligations.IsinitReportsEnable : Prop :=
  encode .isinit = 0x03000000 ∧ ∀ s : State, s.Ready → exec .isinit s = .next { s with ok := s.en }

/-- R139: GETERR, and its word. -/
def Obligations.GeterrReportsLastError : Prop :=
  encode .geterr = 0x04000000 ∧ ∀ s : State, s.Ready →
    exec .geterr s = .next { s with
      res8 := Reg.of ((errCode s.lastCode).setWidth 8), resx := Reg.of s.lastInfo, ok := true }

/-- R30, R221: the code numbers, and where the two fields of `LASTERR` stand. -/
def Obligations.ErrorCodesAreNumbered : Prop :=
  errCode .none = 0 ∧ errCode .loadFailure = 1 ∧ errCode .initFailure = 2 ∧ errCode .notInitialized = 3
  ∧ errCode .invalidShape = 4 ∧ errCode .partialWriteWarning = 5 ∧ errCode .unexpectedFault = 6
  ∧ ∀ s : State, lastErrBits s % 8 = (errCode s.lastCode).toNat ∧ lastErrBits s / 8 = s.lastInfo

/-- R178: ROMRD, whatever `EN` is; its word, and that a larger `k` is an illegal word. -/
def Obligations.RomrdLooksUpTheMap : Prop :=
  (∀ (s : State) (k : Fin 29), s.Ready →
    exec (.romrd (BitVec.ofNat 8 k.val)) s = .next { s with res16 := Reg.of s.cfgp.rom[k], ok := true })
  ∧ (∀ k : Byte, encode (.romrd k) = 0x20000000 ||| k.setWidth 32)
  ∧ ∀ k : Byte, 28 < k.toNat → decode (0x20000000 ||| k.setWidth 32) = .error .indexOutOfRange

/-- R140, R225: RDSTAT and WRCFG fail at once when `EN = 0`, whatever `STAT` and `CFG` hold. -/
def Obligations.CompositeCommandsNeedInitialized : Prop :=
  ∀ s : State, s.Ready → s.en = false →
    exec .rdstat s = .next { s with lastCode := .notInitialized, lastInfo := 0, ok := false }
    ∧ exec .wrcfg s = .next { s with lastCode := .notInitialized, lastInfo := 0, ok := false }

/-! ## Single accesses -/

/-- R85, R150, R151, R153, R157: RDREG with `EN = 1` of a register that has a byte, in a quiet environment: the eight events, in
`RES8` the byte that stands in the register at the payload read, in `VOLATILE` or not; nothing else changed. -/
def Obligations.RdregReadsTheRegister : Prop :=
  ∀ (s : State) (a : Addr), s.Ready → s.en = true → quietFor s.cfgp 8 s.env = true → readable s a →
    ∃ (v : Byte) (m : Memory) (e : Env),
      exec (.rdreg a) s = .next { s with
        res8 := Reg.of v, ok := true, ar := a, dr := v, rw := false, stepNo := 0,
        target := latchedAt s.cfgp a, ecmem := m, env := e, trace := s.trace ++ readEvents s.cfgp a v }
      ∧ mayRead s a v ∧ m.byteAt a.toNat = some v
      ∧ ∀ b : Addr, b ∉ s.cfgp.volatile → m.byteAt b.toNat = s.ecmem.byteAt b.toNat

/-- R242 (item U1, C11): RDREG, RDARR, RDROW, RDSTAT and WRCFG end in the model's one fault at the first EC register they read
that nothing has written and the EC does not own, in a quiet environment up to there. -/
def Obligations.ReadsOfUnspecifiedRegistersFault : Prop :=
  ∀ s : State, s.Ready → s.en = true →
    (∀ a : Addr, quietFor s.cfgp 8 s.env = true → ¬ readable s a →
      exec (.rdreg a) s = .fault (.readUnspecified (.ecmem a)))
    ∧ (∀ (i : Instr) (base : Addr) (n : BitVec 8) (q : Nat),
      (i = .rdarr base n ∨ ∃ k : Fin 10, i = .rdrow (BitVec.ofNat 8 k.val) ∧ base = tableBase s.cfgp k ∧ n = 10) →
      q < n.toNat → quietFor s.cfgp (8 * q + 8) s.env = true →
      (∀ a ∈ arrayAddrs base q, readable s a) → ¬ readable s (elemAddr base (BitVec.ofNat 8 q)) →
      exec i s = .fault (.readUnspecified (.ecmem (elemAddr base (BitVec.ofNat 8 q)))))
    ∧ (∀ (q : Nat) (a : Addr), quietFor s.cfgp (8 * q + 8) s.env = true → (rdstatAddrs s.cfgp)[q]? = some a →
      (∀ b ∈ (rdstatAddrs s.cfgp).take q, readable s b) → ¬ readable s a →
      exec .rdstat s = .fault (.readUnspecified (.ecmem a)))
    ∧ (∀ b : Fin 10 → Nat → Byte, quietFor s.cfgp 872 s.env = true →
      (∀ k : Fin 10, s.cfg[k].len = Reg.of 10) →
      (∀ (k : Fin 10) (i : Nat), i < 10 → s.cfg[k].bytes.byteAt i = some (b k i)) →
      (¬ readable s s.cfgp.rom[18] → exec .wrcfg s = .fault (.readUnspecified (.ecmem s.cfgp.rom[18])))
      ∧ (readable s s.cfgp.rom[18] → ¬ readable s s.cfgp.rom[19] →
          exec .wrcfg s = .fault (.readUnspecified (.ecmem s.cfgp.rom[19])))
      ∧ (readable s s.cfgp.rom[18] → readable s s.cfgp.rom[19] → ¬ readable s s.cfgp.rom[22] →
          exec .wrcfg s = .fault (.readUnspecified (.ecmem s.cfgp.rom[22]))))

/-- R150, R152, R154, R157: WRREG with `EN = 1` in a quiet environment: the eight events, the byte in the EC register just after
the last of them, no other register outside `VOLATILE` changed. What the EC does to a register in `VOLATILE` after that event
is `settle`'s (IdleStepOnlyLetsTheEcMove). -/
def Obligations.WrregWritesTheRegister : Prop :=
  ∀ (s : State) (a : Addr) (d : Byte), s.Ready → s.en = true → quietFor s.cfgp 8 s.env = true →
    ∃ (m : Memory) (e : Env),
      exec (.wrreg a d) s = .next { s with
        ok := true, ar := a, dr := d, rw := true, stepNo := 0,
        target := latchedAt s.cfgp a, ecmem := m, env := e, trace := s.trace ++ writeEvents s.cfgp a d }
      ∧ m.byteAt a.toNat = some d
      ∧ ∀ b : Addr, b ≠ a → b ∉ s.cfgp.volatile → m.byteAt b.toNat = s.ecmem.byteAt b.toNat

/-- R133, R134, R140: with `EN = 0` RDREG and WRREG run to their end, reach nothing, and RDREG gives the silent zero. -/
def Obligations.SingleAccessIsSilentWhenDisabled : Prop :=
  ∀ (s : State) (a : Addr) (d : Byte), s.Ready → s.en = false →
    exec (.rdreg a) s = .next { s with res8 := Reg.of 0, ok := true, ar := a, dr := 0, rw := false, stepNo := 0 }
    ∧ exec (.wrreg a d) s = .next { s with ok := true, ar := a, dr := d, rw := true, stepNo := 0 }

/-- R158: a byte written is read back, at once or after any number of complete accesses to other addresses. -/
def Obligations.WriteThenReadReturnsTheByte : Prop :=
  ∀ (s t u : State) (a : Addr) (d : Byte) (between : List Instr),
    s.Ready → s.en = true → a ∉ s.cfgp.volatile → s.env.noForeign = true →
    (∀ i ∈ between, ∃ b : Addr, b ≠ a ∧ (i = .rdreg b ∨ ∃ x, i = .wrreg b x)) →
    exec (.wrreg a d) s = .next t → t.ok = true →
    runCommands between t = .next u → u.en = true → quietFor u.cfgp 8 u.env = true →
    ∃ v, exec (.rdreg a) u = .next v ∧ v.res8 = Reg.of d ∧ v.ok = true

/-- R228, R256: the gateway faults port operation `j` of a single access: the first `j` events stand, nothing else is issued,
UNEXPECTED_FAULT is recorded; `AR`, `DR`, `RW` are as the access began, the latches as the first `j` rows left them, the EC
registers outside `VOLATILE`, `RES8`, `EN`, `HND` and every other register as before. -/
def Obligations.GatewayFaultCutsAnAccess : Prop :=
  ∀ (s : State) (a : Addr) (d : Byte) (j : Nat), s.Ready → s.en = true → j < 8 → faultAfter s.cfgp j s.env = true →
    (∃ t, exec (.rdreg a) s = .next t ∧ FaultLeft s [] (.read a d) j t
      ∧ AccessFrame s { t with ok := s.ok, lastCode := s.lastCode, lastInfo := s.lastInfo })
    ∧ ∃ t, exec (.wrreg a d) s = .next t ∧ FaultLeft s [] (.write a d) j t
      ∧ AccessFrame s { t with ok := s.ok, lastCode := s.lastCode, lastInfo := s.lastInfo }

/-- R252, R256 (what the rules give if a model admits a reset in mid-command, as this one does where it is scripted, log 12): a
reset before port operation `j` of a single access: the first `j` events stand, none follows, ECSEQ is as after reset, the
EC side as the first `j` rows left it. -/
def Obligations.PowerLossCutsAnAccess : Prop :=
  ∀ (s : State) (a : Addr) (d : Byte) (i : Instr) (j : Nat) (rest : List Slot),
    s.Ready → s.en = true → (i = .rdreg a ∨ i = .wrreg a d) → j < 8 →
    s.env.slots = List.replicate j ⟨[], .complete⟩ ++ ⟨[], .powerLoss⟩ :: rest →
    ∃ t, exec i s = .next t
      ∧ AsReset t ∧ t.cfgp = s.cfgp
      ∧ t.trace = s.trace ++ (preEvents s.cfgp a).take j
      ∧ t.target = latchesAfter s.cfgp a s.target j
      ∧ EcKeptExcept s t [] ∧ t.calls = s.calls

/-! ## Arrays and rows -/

/-- R171: the address of an element; a row of a well-formed ROM never wraps. -/
def Obligations.ElementAddressesWrap : Prop :=
  (∀ (base : Addr) (i : BitVec 8), (elemAddr base i).toNat = (base.toNat + i.toNat) % 65536)
  ∧ ∀ (c : Cfgp) (t : Fin 10) (i : BitVec 8), configOk c = true → i.toNat < 10 →
      (elemAddr (tableBase c t) i).toNat = (tableBase c t).toNat + i.toNat

/-- R157, R170 to R172, R179: RDARR, and RDROW as `RDARR ROM[t], 10`, with `EN = 1` in a quiet environment; `AR`, `DR`, `RW`,
`STEP` and the latches are as the last element's access leaves them. What `IDX` holds after the loop (the last index; as before
for `n = 0`) no rule says: that clause is the model's choice (log 18, DEDUCED). -/
def Obligations.ArrayReadFillsXbuf : Prop :=
  ∀ (s : State) (i : Instr) (base : Addr) (n : BitVec 8),
    s.Ready → s.en = true → quietFor s.cfgp (8 * n.toNat) s.env = true →
    (i = .rdarr base n ∨ ∃ k : Fin 10, i = .rdrow (BitVec.ofNat 8 k.val) ∧ base = tableBase s.cfgp k ∧ n = 10) →
    (∀ a ∈ arrayAddrs base n.toNat, readable s a) →
    ∃ (vs : List Byte) (t : State), exec i s = .next t
      ∧ List.Forall₂ (mayRead s) (arrayAddrs base n.toNat) vs
      ∧ (∀ k, t.xbuf.byteAt k = if k < n.toNat then vs[k]? else s.xbuf.byteAt k)
      ∧ t.ok = true ∧ t.base = base ∧ t.cnt = n
      ∧ t.trace = s.trace ++ readPass s.cfgp (arrayAddrs base n.toNat) vs
      ∧ Ended s (List.zipWith .read (arrayAddrs base n.toNat) vs) t ∧ t.idx = (if n = 0 then s.idx else n - 1)
      ∧ EcKeptExcept s t []
      ∧ AccessFrame s { t with xbuf := s.xbuf, ok := s.ok, base := s.base, cnt := s.cnt, idx := s.idx }

/-- R157, R170, R171, R173, R180: WRARR, and WRROW as `WRARR ROM[t], 10`, with `EN = 1` in a quiet environment; `AR`, `DR`, `RW`,
`STEP` and the latches are as the last element's access leaves them. What `IDX` holds after the loop (the last index; as before
for `n = 0`) no rule says: that clause is the model's choice (log 18, DEDUCED). -/
def Obligations.ArrayWriteStoresXbuf : Prop :=
  ∀ (s : State) (i : Instr) (base : Addr) (n : BitVec 8) (vs : List Byte),
    s.Ready → s.en = true → quietFor s.cfgp (8 * n.toNat) s.env = true →
    (i = .wrarr base n ∨ ∃ k : Fin 10, i = .wrrow (BitVec.ofNat 8 k.val) ∧ base = tableBase s.cfgp k ∧ n = 10) →
    vs.length = n.toNat → (∀ k, k < n.toNat → s.xbuf.byteAt k = vs[k]?) →
    ∃ t : State, exec i s = .next t
      ∧ (∀ k, k < n.toNat → elemAddr base (BitVec.ofNat 8 k) ∉ s.cfgp.volatile →
          t.ecmem.byteAt (elemAddr base (BitVec.ofNat 8 k)).toNat = vs[k]?)
      ∧ EcKeptExcept s t (arrayAddrs base n.toNat)
      ∧ t.ok = true ∧ t.base = base ∧ t.cnt = n
      ∧ t.trace = s.trace ++ writePass s.cfgp (arrayAddrs base n.toNat) vs
      ∧ Ended s (List.zipWith .write (arrayAddrs base n.toNat) vs) t ∧ t.idx = (if n = 0 then s.idx else n - 1)
      ∧ AccessFrame s { t with ok := s.ok, base := s.base, cnt := s.cnt, idx := s.idx }

/-- R133, R134, R140: with `EN = 0` the array commands run to their end and reach nothing; the reads deliver zeros. -/
def Obligations.ArraysAreSilentWhenDisabled : Prop :=
  ∀ (s : State) (base : Addr) (n : BitVec 8), s.Ready → s.en = false →
    (∀ i : Instr,
      (i = .rdarr base n ∨ ∃ k : Fin 10, i = .rdrow (BitVec.ofNat 8 k.val) ∧ base = tableBase s.cfgp k ∧ n = 10) →
      ∃ t, exec i s = .next t ∧ t.ok = true
        ∧ (∀ k, t.xbuf.byteAt k = if k < n.toNat then some 0 else s.xbuf.byteAt k)
        ∧ t.ecmem = s.ecmem ∧ t.target = s.target ∧ t.env = s.env ∧ t.trace = s.trace
        ∧ AccessFrame s { t with xbuf := s.xbuf, ok := s.ok, base := s.base, cnt := s.cnt, idx := s.idx })
    ∧ (∀ i : Instr,
      (i = .wrarr base n ∨ ∃ k : Fin 10, i = .wrrow (BitVec.ofNat 8 k.val) ∧ base = tableBase s.cfgp k ∧ n = 10) →
      (∀ k, k < n.toNat → s.xbuf.byteAt k ≠ none) →
      ∃ t, exec i s = .next t ∧ t.ok = true
        ∧ t.ecmem = s.ecmem ∧ t.target = s.target ∧ t.env = s.env ∧ t.trace = s.trace
        ∧ AccessFrame s { t with ok := s.ok, base := s.base, cnt := s.cnt, idx := s.idx })

/-- R179, R180, R111: RDROW is `RDARR ROM[t], 10` (the pseudo form RDTBL), WRROW is `WRARR ROM[t], 10`. -/
def Obligations.RowCommandsAreArrayCommands : Prop :=
  ∀ (s : State) (k : Fin 10),
    exec (.rdrow (BitVec.ofNat 8 k.val)) s = exec (.rdarr (tableBase s.cfgp k) 10) s
    ∧ exec (.rdrow (BitVec.ofNat 8 k.val)) s = exec (pseudoRdtbl s.cfgp k) s
    ∧ exec (.wrrow (BitVec.ofNat 8 k.val)) s = exec (.wrarr (tableBase s.cfgp k) 10) s

/-- R173, R180, R201, R202, R242 (item U1): an array write or row write that comes to a byte of `XBUF` nothing has written, and
WRCFG where it comes to a length or a byte of `CFG` nothing has written, end in the model's one fault. No rule says in which
order the lengths are read: that WRCFG stops at the first unset length when those before it are 10, even where a later one is
set and not 10, is the model's choice (log 17, DESIGN CHOICE). -/
def Obligations.UnwrittenBufferBytesFault : Prop :=
  ∀ s : State, s.Ready →
    (∀ (i : Instr) (base : Addr) (n : BitVec 8) (j : Nat),
      (i = .wrarr base n ∨ ∃ k : Fin 10, i = .wrrow (BitVec.ofNat 8 k.val) ∧ base = tableBase s.cfgp k ∧ n = 10) →
      (s.en = false ∨ quietFor s.cfgp (8 * j) s.env = true) →
      j < n.toNat → s.xbuf.byteAt j = none → (∀ k, k < j → s.xbuf.byteAt k ≠ none) →
      exec i s = .fault (.readUnspecified (.host (.xbuf j))))
    ∧ (∀ k : Fin 10, s.en = true → s.cfg[k].len.known = false → (∀ l : Fin 10, l < k → s.cfg[l].len = Reg.of 10) →
      exec .wrcfg s = .fault (.readUnspecified (.cfgLen k)))
    ∧ (∀ (k : Fin 10) (i : Nat), s.en = true → quietFor s.cfgp (80 * k.val + 8 * i) s.env = true →
      (∀ l : Fin 10, s.cfg[l].len = Reg.of 10) → i < 10 → s.cfg[k].bytes.byteAt i = none →
      (∀ (l : Fin 10) (x : Nat), x < 10 → l < k ∨ l = k ∧ x < i → s.cfg[l].bytes.byteAt x ≠ none) →
      exec .wrcfg s = .fault (.readUnspecified (.cfgByte k i)))

/-- R26, R157, R172, R173, R179, R180, R228, R256: the gateway faults port operation `j` of element `q` of an array or row: the elements
before `q` are done (their bytes in `XBUF`, or in the EC's registers), element `q` and those after it are not; the trace, the
latches and the sequencer's registers are as the issued rows left them. -/
def Obligations.GatewayFaultCutsAnArray : Prop :=
  ∀ (s : State) (i : Instr) (base : Addr) (n : BitVec 8) (q j : Nat),
    s.Ready → s.en = true → q < n.toNat → j < 8 → faultAfter s.cfgp (8 * q + j) s.env = true →
    ((i = .rdarr base n ∨ ∃ k : Fin 10, i = .rdrow (BitVec.ofNat 8 k.val) ∧ base = tableBase s.cfgp k ∧ n = 10) →
      (∀ a ∈ arrayAddrs base q, readable s a) →
      ∃ (vs : List Byte) (t : State), exec i s = .next t
        ∧ List.Forall₂ (mayRead s) (arrayAddrs base q) vs
        ∧ FaultLeft s (List.zipWith .read (arrayAddrs base q) vs) (.read (elemAddr base (BitVec.ofNat 8 q)) 0) j t
        ∧ (∀ k, t.xbuf.byteAt k = if k < q then vs[k]? else s.xbuf.byteAt k)
        ∧ t.base = base ∧ t.cnt = n ∧ t.idx.toNat = q
        ∧ EcKeptExcept s t []
        ∧ AccessFrame s { t with
            xbuf := s.xbuf, ok := s.ok, lastCode := s.lastCode, lastInfo := s.lastInfo,
            base := s.base, cnt := s.cnt, idx := s.idx })
    ∧ (∀ b : Nat → Byte,
      (i = .wrarr base n ∨ ∃ k : Fin 10, i = .wrrow (BitVec.ofNat 8 k.val) ∧ base = tableBase s.cfgp k ∧ n = 10) →
      (∀ k, k ≤ q → s.xbuf.byteAt k = some (b k)) →
      ∃ t : State, exec i s = .next t
        ∧ FaultLeft s (List.zipWith .write (arrayAddrs base q) ((List.range q).map b))
            (.write (elemAddr base (BitVec.ofNat 8 q)) (b q)) j t
        ∧ (∀ k, k < q → elemAddr base (BitVec.ofNat 8 k) ∉ s.cfgp.volatile →
            t.ecmem.byteAt (elemAddr base (BitVec.ofNat 8 k)).toNat = some (b k))
        ∧ EcKeptExcept s t (arrayAddrs base q)
        ∧ t.base = base ∧ t.cnt = n ∧ t.idx.toNat = q
        ∧ AccessFrame s { t with
            ok := s.ok, lastCode := s.lastCode, lastInfo := s.lastInfo, base := s.base, cnt := s.cnt, idx := s.idx })

/-! ## The controller -/

/-- R191, R192: the percentage: the floored quotient, 0 where the maximum is 0; it grows with the speed, is not clamped, and
rounds toward zero for every speed and maximum (the whole percentage is at most the exact one, which is less than one more);
the rule's own values. -/
def Obligations.PctIsTheFlooredQuotient : Prop :=
  (∀ s m : BitVec 16, (m = 0 → pct s m = 0) ∧ (m ≠ 0 → (pct s m).toNat = s.toNat * 100 / m.toNat))
  ∧ (∀ s m : BitVec 16, m ≠ 0 →
      (pct s m).toNat * m.toNat ≤ s.toNat * 100 ∧ s.toNat * 100 < ((pct s m).toNat + 1) * m.toNat)
  ∧ (∀ s s' m : BitVec 16, s.toNat ≤ s'.toNat → (pct s m).toNat ≤ (pct s' m).toNat)
  ∧ (∀ s m : BitVec 16, (pct s m).toNat ≤ 6553500)
  ∧ pct 65535 5200 = 1260 ∧ pct 65535 5000 = 1310 ∧ pct 65535 1 = 6553500
  ∧ pct 5199 5200 = 99 ∧ pct 51 5200 = 0 ∧ pct 52 5200 = 1
  ∧ pct 2600 5200 = 50 ∧ pct 0 5200 = 0 ∧ ∀ s : BitVec 16, pct s 0 = 0

/-- R64, R157, R195, R197, R198: RDSTAT with `EN = 1` in a quiet environment: 113 reads in order, the whole snapshot; `AR`, `DR`,
`RW`, `STEP` and the latches are as the last read leaves them. Of `BASE`, `CNT`, `IDX` it says nothing (log 18). -/
def Obligations.RdstatFillsTheSnapshot : Prop :=
  ∀ s : State, s.Ready → s.en = true → quietFor s.cfgp 904 s.env = true →
    (∀ a ∈ rdstatAddrs s.cfgp, readable s a) →
    ∃ (v : Nat → Byte) (t : State), exec .rdstat s = .next t
      ∧ List.Forall₂ (mayRead s) (rdstatAddrs s.cfgp) ((List.range 113).map v)
      ∧ t.stat = {
          fan1Speed := Reg.of (cat16 (v 1) (v 0)), fan2Speed := Reg.of (cat16 (v 3) (v 2)),
          tab := Vector.ofFn fun k => Vector.ofFn fun i => v (4 + 10 * k.val + i.val),
          chipId1 := Reg.of (v 104), chipId2 := Reg.of (v 105), chipVer := Reg.of (v 106),
          fwVer := Reg.of ((v 107).setWidth 16),
          tgt := #v[Reg.of (v 108), Reg.of (v 109), Reg.of (v 110), Reg.of (v 111)],
          curPoint := Reg.of (v 112),
          fan1Pct := Reg.of (pct (cat16 (v 1) (v 0)) s.cfgp.fan1Max),
          fan2Pct := Reg.of (pct (cat16 (v 3) (v 2)) s.cfgp.fan2Max) }
      ∧ t.ok = true
      ∧ t.lastCode = (if s.cfgp.errClearOnEntry then .none else s.lastCode)
      ∧ t.lastInfo = (if s.cfgp.errClearOnEntry then 0 else s.lastInfo)
      ∧ t.trace = s.trace ++ readPass s.cfgp (rdstatAddrs s.cfgp) ((List.range 113).map v)
      ∧ Ended s (List.zipWith .read (rdstatAddrs s.cfgp) ((List.range 113).map v)) t
      ∧ EcKeptExcept s t []
      ∧ AccessFrame s { t with
          stat := s.stat, ok := s.ok, lastCode := s.lastCode, lastInfo := s.lastInfo,
          base := s.base, cnt := s.cnt, idx := s.idx }

/-- R64, R195, R197, R228, R256: the gateway faults port operation `j` of RDSTAT's read number `q`: the fields whose reads are
done are filled, the others and the percentages keep what they held; the trace, the latches and the sequencer's registers are
as the issued rows left them. -/
def Obligations.GatewayFaultCutsRdstat : Prop :=
  ∀ (s : State) (q j : Nat) (a : Addr), s.Ready → s.en = true → (rdstatAddrs s.cfgp)[q]? = some a → j < 8 →
    faultAfter s.cfgp (8 * q + j) s.env = true → (∀ b ∈ (rdstatAddrs s.cfgp).take q, readable s b) →
    ∃ (v : Nat → Byte) (t : State), exec .rdstat s = .next t
      ∧ List.Forall₂ (mayRead s) ((rdstatAddrs s.cfgp).take q) ((List.range q).map v)
      ∧ FaultLeft s (List.zipWith .read ((rdstatAddrs s.cfgp).take q) ((List.range q).map v)) (.read a 0) j t
      ∧ t.stat = statFilled s.stat v q
      ∧ EcKeptExcept s t []
      ∧ AccessFrame s { t with
          stat := s.stat, ok := s.ok, lastCode := s.lastCode, lastInfo := s.lastInfo,
          base := s.base, cnt := s.cnt, idx := s.idx }

/-- R202, R226: WRCFG with a table whose length is not 10 ends before any port operation, whatever bytes the tables hold;
the lifecycle check comes first. -/
def Obligations.WrcfgRefusesABadShape : Prop :=
  ∀ s : State, s.Ready → (∀ k : Fin 10, s.cfg[k].len.known = true) →
    (∃ k : Fin 10, s.cfg[k].len.val ≠ 10) →
    exec .wrcfg s = .next { s with
      lastCode := if s.en then .invalidShape else .notInitialized, lastInfo := 0, ok := false }

/-- R157, R201 to R207: WRCFG with `EN = 1` and a well-shaped `CFG` in a quiet environment: the ten tables, the two targets, and,
where the current point is below 10, the four live registers, else one warning; the port trace; no other EC register written;
`AR`, `DR`, `RW`, `STEP` and the latches as the last access leaves them. Of `BASE`, `CNT`, `IDX` it says nothing (log 18). -/
def Obligations.WrcfgWritesTablesAndRefreshes : Prop :=
  ∀ (s : State) (b : Fin 10 → Nat → Byte), s.Ready → s.en = true → quietFor s.cfgp 872 s.env = true →
    (∀ k : Fin 10, s.cfg[k].len = Reg.of 10) →
    (∀ (k : Fin 10) (i : Nat), i < 10 → s.cfg[k].bytes.byteAt i = some (b k i)) →
    readable s s.cfgp.rom[18] → readable s s.cfgp.rom[19] → readable s s.cfgp.rom[22] →
    ∃ (v1 v2 p : Byte) (t : State), exec .wrcfg s = .next t
      ∧ mayRead s s.cfgp.rom[18] v1 ∧ mayRead s s.cfgp.rom[19] v2 ∧ mayRead s s.cfgp.rom[22] p
      ∧ (∀ (k : Fin 10) (i : Fin 10), elemAddr (tableBase s.cfgp k) (BitVec.ofNat 8 i.val) ∉ s.cfgp.volatile →
          t.ecmem.byteAt (elemAddr (tableBase s.cfgp k) (BitVec.ofNat 8 i.val)).toNat = some (b k i.val))
      ∧ (s.cfgp.rom[20] ∉ s.cfgp.volatile → t.ecmem.byteAt s.cfgp.rom[20].toNat = some v1)
      ∧ (s.cfgp.rom[21] ∉ s.cfgp.volatile → t.ecmem.byteAt s.cfgp.rom[21].toNat = some v2)
      ∧ (p.toNat < 10 → ∀ k : Fin 29, k.val = 23 ∨ k.val = 24 → s.cfgp.rom[k] ∉ s.cfgp.volatile →
          t.ecmem.byteAt s.cfgp.rom[k].toNat = some (b 2 p.toNat))
      ∧ (p.toNat < 10 → ∀ k : Fin 29, k.val = 25 ∨ k.val = 26 → s.cfgp.rom[k] ∉ s.cfgp.volatile →
          t.ecmem.byteAt s.cfgp.rom[k].toNat = some (b 3 p.toNat))
      ∧ EcKeptExcept s t (tableIds.flatMap (rowAddrs s.cfgp) ++ [s.cfgp.rom[20], s.cfgp.rom[21]]
          ++ if p.toNat < 10 then [s.cfgp.rom[23], s.cfgp.rom[24], s.cfgp.rom[25], s.cfgp.rom[26]] else [])
      ∧ t.ok = true
      ∧ t.lastCode = (if p.toNat < 10 then (if s.cfgp.errClearOnEntry then .none else s.lastCode) else .partialWriteWarning)
      ∧ t.lastInfo = (if p.toNat < 10 then (if s.cfgp.errClearOnEntry then 0 else s.lastInfo) else 0)
      ∧ t.trace = s.trace
          ++ tableIds.flatMap (fun k => writePass s.cfgp (rowAddrs s.cfgp k) ((List.range 10).map (b k)))
          ++ readEvents s.cfgp s.cfgp.rom[18] v1 ++ writeEvents s.cfgp s.cfgp.rom[20] v1
          ++ readEvents s.cfgp s.cfgp.rom[19] v2 ++ writeEvents s.cfgp s.cfgp.rom[21] v2
          ++ readEvents s.cfgp s.cfgp.rom[22] p
          ++ (if p.toNat < 10 then
                writeEvents s.cfgp s.cfgp.rom[23] (b 2 p.toNat) ++ writeEvents s.cfgp s.cfgp.rom[24] (b 2 p.toNat)
                ++ writeEvents s.cfgp s.cfgp.rom[25] (b 3 p.toNat) ++ writeEvents s.cfgp s.cfgp.rom[26] (b 3 p.toNat)
              else [])
      ∧ Ended s (wrcfgAccesses s.cfgp b v1 v2 p) t
      ∧ AccessFrame s { t with
          ok := s.ok, lastCode := s.lastCode, lastInfo := s.lastInfo, base := s.base, cnt := s.cnt, idx := s.idx }

/-- R157, R203 to R206, R208, R228, R256: the gateway faults port operation `j` of WRCFG's access number `q`: the accesses before it
are done (so a table may be part new and part old), it and those after it are not, and the warning is not recorded; the EC
registers, the trace, the latches and the sequencer's registers are as the issued rows left them. Where WRCFG has no access
`q` (the live registers skipped) it ends before the fault. -/
def Obligations.GatewayFaultCutsWrcfg : Prop :=
  ∀ (s : State) (b : Fin 10 → Nat → Byte) (q j : Nat), s.Ready → s.en = true → q < 109 → j < 8 →
    faultAfter s.cfgp (8 * q + j) s.env = true →
    (∀ k : Fin 10, s.cfg[k].len = Reg.of 10) →
    (∀ (k : Fin 10) (i : Nat), i < 10 → s.cfg[k].bytes.byteAt i = some (b k i)) →
    readable s s.cfgp.rom[18] → readable s s.cfgp.rom[19] → readable s s.cfgp.rom[22] →
    ∃ (v1 v2 p : Byte) (t : State), exec .wrcfg s = .next t
      ∧ (100 < q → mayRead s s.cfgp.rom[18] v1) ∧ (102 < q → mayRead s s.cfgp.rom[19] v2)
      ∧ (104 < q → mayRead s s.cfgp.rom[22] p)
      ∧ (∀ cur, (wrcfgAccesses s.cfgp b v1 v2 p)[q]? = some cur →
          FaultLeft s ((wrcfgAccesses s.cfgp b v1 v2 p).take q) cur j t
          ∧ AccessFrame s { t with
              ok := s.ok, lastCode := s.lastCode, lastInfo := s.lastInfo, base := s.base, cnt := s.cnt, idx := s.idx })
      ∧ ((wrcfgAccesses s.cfgp b v1 v2 p)[q]? = none → t.ok = true ∧ t.lastCode = .partialWriteWarning)

/-! ## Rules of the whole machine -/

/-- R10, R23, R25, R28 to R30, R33, R60, R198: every step from a state in order leads to a state in order, whether a command is in
progress or not; and a whole command from a state in order, none being in progress, leaves none in progress. -/
def Obligations.EveryStepKeepsTheInvariant : Prop :=
  ∀ s t : State, s.Inv →
    (step s = .next t → t.Inv)
    ∧ ∀ i : Instr, exec i s = .next t → t.Inv ∧ t.busy = false ∧ t.stepNo = 0 ∧ t.hnd = t.en

/-- The initial state is in order, with any configuration. -/
def Obligations.InitialStateMeetsTheInvariant : Prop :=
  ∀ c : Cfgp, (State.resetWith c).Inv

/-- R88, R175: no step changes the configuration, the register map in it, or the step table. -/
def Obligations.ConfigurationIsConstant : Prop :=
  ∀ s t : State, step s = .next t → t.cfgp = s.cfgp

/-- R29: only INIT and DEINIT write `EN` and `HND`. -/
def Obligations.OnlyLifecycleCommandsWriteEnable : Prop :=
  ∀ (s t : State) (i : Instr), i ≠ .init → i ≠ .deinit → s.env.noPowerLoss = true →
    exec i s = .next t → t.en = s.en ∧ t.hnd = s.hnd

/-- R22: `RES8` is written by RDREG and GETERR only, `RES16` by ROMRD only, `RESX` by GETERR only. -/
def Obligations.ResultRegistersHaveTheirWriters : Prop :=
  ∀ (s t : State) (i : Instr), s.env.noPowerLoss = true → exec i s = .next t →
    ((∀ a, i ≠ .rdreg a) → i ≠ .geterr → t.res8 = s.res8)
    ∧ ((∀ k, i ≠ .romrd k) → t.res16 = s.res16)
    ∧ (i ≠ .geterr → t.resx = s.resx)

/-- R28, R32, R33: `STAT` is written by RDSTAT only, `XBUF` by RDARR and RDROW only, `CFG` by no command. -/
def Obligations.BuffersHaveTheirWriters : Prop :=
  ∀ (s t : State) (i : Instr), s.env.noPowerLoss = true → exec i s = .next t →
    (i ≠ .rdstat → t.stat = s.stat)
    ∧ ((∀ b n, i ≠ .rdarr b n) → (∀ k, i ≠ .rdrow k) → t.xbuf = s.xbuf)
    ∧ t.cfg = s.cfg

/-- R30, R228, R229: a command other than INIT, RDSTAT and WRCFG records nothing in `LASTERR` unless the gateway faults, which
needs `GW_FAULTS` and `EN = 1`, and then it records UNEXPECTED_FAULT, ends with `OK = 0` and changes neither `EN` nor `HND`. -/
def Obligations.RawCommandsRecordOnlyGatewayFaults : Prop :=
  ∀ (s t : State) (i : Instr), i ≠ .init → i ≠ .rdstat → i ≠ .wrcfg → s.env.noPowerLoss = true →
    exec i s = .next t →
    (t.lastCode = s.lastCode ∧ t.lastInfo = s.lastInfo)
    ∨ (t.lastCode = .unexpectedFault ∧ t.lastInfo = 0 ∧ t.ok = false ∧ t.stepNo = 0 ∧ t.en = s.en ∧ t.hnd = s.hnd
        ∧ s.cfgp.gwFaults = true ∧ s.en = true)

/-- R27, R138, R225 to R228, R232: a command that ends with `OK = 0` is ISINIT with `EN = 0`, or has recorded why: INIT a provider
failure, RDSTAT and WRCFG the lifecycle check, WRCFG the shape check, and any command the gateway's fault. -/
def Obligations.FailuresAreNamed : Prop :=
  ∀ (s t : State) (i : Instr), s.env.noPowerLoss = true → exec i s = .next t → t.ok = false →
    (i = .isinit ∧ s.en = false)
    ∨ (i = .init ∧ s.en = false ∧ t.en = false ∧ t.hnd = false
        ∧ (t.lastCode = .loadFailure ∧ t.lastInfo = 0 ∨ t.lastCode = .initFailure))
    ∨ ((i = .rdstat ∨ i = .wrcfg) ∧ s.en = false ∧ t.lastCode = .notInitialized ∧ t.lastInfo = 0)
    ∨ (i = .wrcfg ∧ s.en = true ∧ t.lastCode = .invalidShape ∧ t.lastInfo = 0)
    ∨ (s.cfgp.gwFaults = true ∧ s.en = true ∧ t.lastCode = .unexpectedFault ∧ t.lastInfo = 0)

/-- R24, R63, R85, R150, R212, R242: whatever the command and the environment, the events ECSEQ issues are complete accesses one
after another and at the end at most a part of one, 2040 events at most; with `EN = 0` there are none. -/
def Obligations.PortTraceIsMadeOfAccesses : Prop :=
  ∀ (s t : State) (i : Instr), exec i s = .next t →
    ∃ l, t.trace = s.trace ++ l ∧ IsAccessTrace s.cfgp l ∧ (l.filter BusEvent.ours).length ≤ 2040 ∧ (s.en = false → l = [])

/-- R196, R70, R137, R136: the commands that write no EC register leave every EC register outside `VOLATILE` as it was, however they
end. -/
def Obligations.ReadingCommandsStoreNothing : Prop :=
  ∀ (s t : State) (i : Instr), s.env.noForeign = true →
    (i = .init ∨ i = .deinit ∨ i = .isinit ∨ i = .geterr ∨ (∃ a, i = .rdreg a) ∨ (∃ b n, i = .rdarr b n)
      ∨ (∃ k, i = .romrd k) ∨ (∃ k, i = .rdrow k) ∨ i = .rdstat) →
    exec i s = .next t → EcKeptExcept s t []

/-- R154, R173, R180, R209: the commands that write EC registers leave every other EC register outside `VOLATILE` as it was,
however they end. -/
def Obligations.StoringCommandsStoreOnlyTheirRegisters : Prop :=
  ∀ (s t : State) (i : Instr), configOk s.cfgp = true → s.env.noForeign = true → exec i s = .next t →
    (∀ a d, i = .wrreg a d → EcKeptExcept s t [a])
    ∧ (∀ b n, i = .wrarr b n → EcKeptExcept s t (arrayAddrs b n.toNat))
    ∧ (∀ k : Fin 10, i = .wrrow (BitVec.ofNat 8 k.val) → EcKeptExcept s t (rowAddrs s.cfgp k))
    ∧ (i = .wrcfg → EcKeptExcept s t (tableIds.flatMap (rowAddrs s.cfgp)
        ++ [s.cfgp.rom[20], s.cfgp.rom[21], s.cfgp.rom[23], s.cfgp.rom[24], s.cfgp.rom[25], s.cfgp.rom[26]]))

/-- R77, R157: without foreign bus events no command reaches `TargetUnmodelled` or an unwritten latch of the target. -/
def Obligations.CommandsNeverLeaveTheTarget : Prop :=
  ∀ (s : State) (i : Instr), s.env.noForeign = true →
    exec i s ≠ .refused .targetUnmodelled ∧ ∀ l, exec i s ≠ .fault (.readUnspecified (.latch l))

/-! ## The reference target and the EC -/

/-- R74: a write to the address port selects, and nothing else changes (R62: the event is recorded). -/
def Obligations.AddressPortWriteSelects : Prop :=
  ∀ (m : Master) (v : Byte) (s : State),
    busWrite m s.cfgp.pAddr v s = .ok () { s with
      target := { s.target with idx := Reg.of v }, trace := s.trace ++ [.write m s.cfgp.pAddr v] }

/-- R75: events on the data port act on the index register selected, in a well-formed configuration with the latches known;
the four index values cannot overlap. -/
def Obligations.DataPortActsOnTheSelectedRegister : Prop :=
  ∀ (m : Master) (v ix sel h l : Byte) (s : State), configOk s.cfgp = true →
    s.target = ⟨Reg.of ix, Reg.of sel, Reg.of h, Reg.of l⟩ →
    [s.cfgp.cb0, s.cfgp.ixHi, s.cfgp.ixLo, s.cfgp.ixDp].Nodup
    ∧ (busWrite m s.cfgp.pData v s =
      if ix = s.cfgp.cb0 then .ok () { s with
          target := { s.target with sel := Reg.of v }, trace := s.trace ++ [.write m s.cfgp.pData v] }
      else if ix = s.cfgp.ixHi then .ok () { s with
          target := { s.target with ah := Reg.of v }, trace := s.trace ++ [.write m s.cfgp.pData v] }
      else if ix = s.cfgp.ixLo then .ok () { s with
          target := { s.target with al := Reg.of v }, trace := s.trace ++ [.write m s.cfgp.pData v] }
      else if ix = s.cfgp.ixDp ∧ sel = s.cfgp.cb1 then .ok () { s with
          ecmem := s.ecmem.put (h ++ l).toNat v, trace := s.trace ++ [.write m s.cfgp.pData v] }
      else .refused .targetUnmodelled)
    ∧ (ix = s.cfgp.ixDp ∧ sel = s.cfgp.cb1 → ∀ d, s.ecmem.byteAt (h ++ l).toNat = some d →
        busRead m s.cfgp.pData s = .ok d { s with trace := s.trace ++ [.read m s.cfgp.pData d] })
    ∧ (¬ (ix = s.cfgp.ixDp ∧ sel = s.cfgp.cb1) → busRead m s.cfgp.pData s = .refused .targetUnmodelled)

/-- R76: a read of the address port has no meaning; an event on any other port leaves the target and `ECMEM` alone. -/
def Obligations.OtherPortEventsLeaveTheTarget : Prop :=
  ∀ (m : Master) (p : Port) (v : Byte) (s : State),
    busRead m s.cfgp.pAddr s = .refused .targetUnmodelled
    ∧ (p ≠ s.cfgp.pAddr → p ≠ s.cfgp.pData →
        (∃ t, busWrite m p v s = .ok () t ∧ t.target = s.target ∧ t.ecmem = s.ecmem)
        ∧ ∃ x t, busRead m p s = .ok x t ∧ t.target = s.target ∧ t.ecmem = s.ecmem)

/-- R80: `EcUpdate` writes a register in `VOLATILE` and no latch, and the port trace does not record it. For another register R80
gives the EC no such step; that a scripted one then changes nothing is the model's choice of log 10. -/
def Obligations.EcUpdateWritesVolatileOnly : Prop :=
  ∀ (a : Addr) (v : Byte) (s : State),
    (a ∈ s.cfgp.volatile → agentMove (.ecUpdate a v) s = .ok () { s with ecmem := s.ecmem.put a.toNat v })
    ∧ (a ∉ s.cfgp.volatile → agentMove (.ecUpdate a v) s = .ok () s)

/-! ## The host's moves -/

/-- R28, R33 and log 15: the host's writes of `XBUF` and of `CFG`, a byte, a length or all at once, hold what was written and leave
the rest; a shorter length drops the bytes past it. One past an end, or a byte of a table whose length was never set, is
refused: the model's choice of log 15. -/
def Obligations.HostLoadsHoldTheirBytes : Prop :=
  ∀ (s : State) (k : Fin 10) (rest : List HostAction), s.Ready →
    (∀ bs : List Byte, s.host = .move (.loadXbuf bs) :: rest →
      if bs.length ≤ s.cfgp.xbufSize then
        ∃ m, step s = settle (.next { s with xbuf := m, host := rest })
          ∧ ∀ i, m.byteAt i = if i < bs.length then bs[i]? else s.xbuf.byteAt i
      else step s = .refused .noSuchPlace)
    ∧ (∀ (i : Nat) (v : Byte), s.host = .move (.setXbuf i v) :: rest →
      if i < s.cfgp.xbufSize then
        ∃ m, step s = settle (.next { s with xbuf := m, host := rest })
          ∧ ∀ l, m.byteAt l = if l = i then some v else s.xbuf.byteAt l
      else step s = .refused .noSuchPlace)
    ∧ (∀ bs : List Byte, s.host = .move (.loadCfg k bs) :: rest →
      if bs.length ≤ s.cfgp.cfgLmax then
        ∃ x : Vector CfgTable 10, step s = settle (.next { s with cfg := x, host := rest })
          ∧ (x[k]).len = Reg.of bs.length ∧ (∀ i, (x[k]).bytes.byteAt i = bs[i]?)
          ∧ ∀ l : Fin 10, l ≠ k → x[l] = s.cfg[l]
      else step s = .refused .noSuchPlace)
    ∧ (∀ n : Nat, s.host = .move (.setCfgLen k n) :: rest →
      if n ≤ s.cfgp.cfgLmax then
        ∃ x : Vector CfgTable 10, step s = settle (.next { s with cfg := x, host := rest })
          ∧ (x[k]).len = Reg.of n
          ∧ (∀ i, (x[k]).bytes.byteAt i = if i < n then (s.cfg[k]).bytes.byteAt i else none)
          ∧ ∀ l : Fin 10, l ≠ k → x[l] = s.cfg[l]
      else step s = .refused .noSuchPlace)
    ∧ ∀ (i : Nat) (v : Byte), s.host = .move (.setCfgByte k i v) :: rest →
      if (s.cfg[k]).len.known = true ∧ i < (s.cfg[k]).len.val then
        ∃ x : Vector CfgTable 10, step s = settle (.next { s with cfg := x, host := rest })
          ∧ (x[k]).len = (s.cfg[k]).len
          ∧ (∀ l, (x[k]).bytes.byteAt l = if l = i then some v else (s.cfg[k]).bytes.byteAt l)
          ∧ ∀ l : Fin 10, l ≠ k → x[l] = s.cfg[l]
      else step s = .refused .noSuchPlace

/-- R22, R25, R27, R28, R31, R242, R258: while `BUSY = 0` the host reads `OK` always, and a result register, a byte of `XBUF` or
a field of `STAT` where something has written it; where nothing has, the read is the model's one fault; the tables of `STAT`
are zero from reset on. That a read of `BUSY` answers, with 0, and that a byte past the end of `XBUF` is refused, are the
model's choices (log 15). -/
def Obligations.HostReadsWrittenResultsOnly : Prop :=
  ∀ (s : State) (rest : List HostAction), s.Ready →
    HostReads s rest .ok (some (if s.ok then 1 else 0)) ∧ HostReads s rest .busy (some 0)
    ∧ HostReads s rest .res8 (if s.res8.known then some s.res8.val.toNat else none)
    ∧ HostReads s rest .res16 (if s.res16.known then some s.res16.val.toNat else none)
    ∧ HostReads s rest .resx (if s.resx.known then some s.resx.val else none)
    ∧ (∀ i, i < s.cfgp.xbufSize → HostReads s rest (.xbuf i) ((s.xbuf.byteAt i).map BitVec.toNat))
    ∧ (∀ i, s.cfgp.xbufSize ≤ i → s.host = .move (.read (.xbuf i)) :: rest → step s = .refused .noSuchPlace)
    ∧ (∀ k i : Fin 10, HostReads s rest (.stat (.tab k i)) (some (s.stat.tab[k][i]).toNat))
    ∧ HostReads s rest (.stat .fan1Speed) (if s.stat.fan1Speed.known then some s.stat.fan1Speed.val.toNat else none)
    ∧ HostReads s rest (.stat .fan2Speed) (if s.stat.fan2Speed.known then some s.stat.fan2Speed.val.toNat else none)
    ∧ HostReads s rest (.stat .chipId1) (if s.stat.chipId1.known then some s.stat.chipId1.val.toNat else none)
    ∧ HostReads s rest (.stat .chipId2) (if s.stat.chipId2.known then some s.stat.chipId2.val.toNat else none)
    ∧ HostReads s rest (.stat .chipVer) (if s.stat.chipVer.known then some s.stat.chipVer.val.toNat else none)
    ∧ HostReads s rest (.stat .fwVer) (if s.stat.fwVer.known then some s.stat.fwVer.val.toNat else none)
    ∧ (∀ n : Fin 4, HostReads s rest (.stat (.tgt n))
        (if (s.stat.tgt[n]).known then some (s.stat.tgt[n]).val.toNat else none))
    ∧ HostReads s rest (.stat .curPoint) (if s.stat.curPoint.known then some s.stat.curPoint.val.toNat else none)
    ∧ HostReads s rest (.stat .fan1Pct) (if s.stat.fan1Pct.known then some s.stat.fan1Pct.val.toNat else none)
    ∧ HostReads s rest (.stat .fan2Pct) (if s.stat.fan2Pct.known then some s.stat.fan2Pct.val.toNat else none)
end

