-- ==== Sys2Proof/Laws/Memory.lean ====
section
/-!
SUPPORT. Byte memories: what a write changes, and that every operation keeps the canonical form and the bound.
-/
namespace Sys2Proof.Laws
open Sys2Proof.Machine

theorem byteAt_put (m : Memory) (a b : Nat) (v : Byte) :
    (m.put a v).byteAt b = if b = a then some v else m.byteAt b := by
  induction m with
  | nil => simp [Memory.put, Memory.byteAt]
  | cons c m ih =>
    obtain ⟨k, w⟩ := c
    simp only [Memory.put]
    split
    · simp [Memory.byteAt]
    · split <;> simp only [Memory.byteAt, ih] <;> grind

@[simp] theorem byteAt_put_same (m : Memory) (a : Nat) (v : Byte) : (m.put a v).byteAt a = some v := by simp [byteAt_put]

theorem byteAt_put_other (m : Memory) {a b : Nat} (v : Byte) (h : b ≠ a) : (m.put a v).byteAt b = m.byteAt b := by
  simp [byteAt_put, h]

theorem wf_cons_put (k a : Nat) (w v : Byte) (m : Memory) (h : Memory.wf ((k, w) :: m)) (hk : k < a) :
    Memory.wf ((k, w) :: m.put a v) := by
  induction m generalizing k w with
  | nil => simp [Memory.put, Memory.wf, hk]
  | cons c m ih =>
    obtain ⟨l, x⟩ := c
    simp only [Memory.wf, Bool.and_eq_true, decide_eq_true_eq] at h
    simp only [Memory.put]
    split
    · simp [Memory.wf, *]
    · split
      · subst_vars; cases m <;> simp_all [Memory.wf]
      · simp only [Memory.wf, Bool.and_eq_true, decide_eq_true_eq]
        exact ⟨h.1, ih l x h.2 (by omega)⟩

theorem wf_put (m : Memory) (a : Nat) (v : Byte) (h : Memory.wf m) : Memory.wf (m.put a v) := by
  cases m with
  | nil => rfl
  | cons c m =>
    obtain ⟨k, w⟩ := c
    simp only [Memory.put]
    split
    · simp [Memory.wf, *]
    · split
      · subst_vars; cases m <;> simp_all [Memory.wf]
      · exact wf_cons_put k a w v m h (by omega)

theorem below_put (m : Memory) (n a : Nat) (v : Byte) (h : Memory.below n m) (ha : a < n) : Memory.below n (m.put a v) := by
  induction m with
  | nil => simp [Memory.put, Memory.below, ha]
  | cons c m ih =>
    obtain ⟨k, w⟩ := c
    simp only [Memory.below, List.all_cons, Bool.and_eq_true, decide_eq_true_eq] at h ih
    simp only [Memory.put]
    split
    · simp [Memory.below, *]
    · split
      · simpa only [Memory.below, List.all_cons, Bool.and_eq_true, decide_eq_true_eq] using ⟨ha, h.2⟩
      · simpa only [Memory.below, List.all_cons, Bool.and_eq_true, decide_eq_true_eq] using ⟨h.1, ih h.2⟩

theorem byteAt_putMany (vs : List Byte) (m : Memory) (a b : Nat) :
    (m.putMany a vs).byteAt b = if a ≤ b ∧ b < a + vs.length then vs[b - a]? else m.byteAt b := by
  induction vs generalizing m a with
  | nil => grind [Memory.putMany]
  | cons v vs ih =>
    simp only [Memory.putMany, ih, byteAt_put, List.length_cons]
    by_cases hb : b = a
    · subst hb; simp
    · by_cases h1 : a + 1 ≤ b ∧ b < a + 1 + vs.length
      · have : b - a = (b - (a + 1)) + 1 := by omega
        rw [if_pos h1, if_pos (by omega), this, List.getElem?_cons_succ]
      · rw [if_neg h1, if_neg hb, if_neg (by omega)]

theorem wf_putMany (vs : List Byte) (m : Memory) (a : Nat) (h : Memory.wf m) : Memory.wf (m.putMany a vs) := by
  induction vs generalizing m a with
  | nil => exact h
  | cons v vs ih => exact ih _ _ (wf_put m a v h)

theorem below_putMany (vs : List Byte) (m : Memory) (n a : Nat) (h : Memory.below n m) (ha : a + vs.length ≤ n) :
    Memory.below n (m.putMany a vs) := by
  induction vs generalizing m a with
  | nil => exact h
  | cons v vs ih =>
    simp only [List.length_cons] at ha
    exact ih _ _ (below_put m n a v h (by omega)) (by omega)

theorem wf_tail {c : Host.Cell} {m : Memory} (h : Memory.wf (c :: m)) : Memory.wf m := by
  obtain ⟨k, w⟩ := c
  cases m with
  | nil => rfl
  | cons d m => obtain ⟨l, x⟩ := d; simp_all [Memory.wf]

theorem wf_head_lt {c : Host.Cell} {m : Memory} (h : Memory.wf (c :: m)) : ∀ d ∈ m, c.1 < d.1 := by
  induction m generalizing c with
  | nil => simp
  | cons e m ih =>
    have hlt : c.1 < e.1 := by simp_all [Memory.wf]
    intro d hd
    rcases List.mem_cons.mp hd with rfl | hd
    · exact hlt
    · exact Nat.lt_trans hlt (ih (wf_tail h) d hd)

theorem wf_cons {c : Host.Cell} {m : Memory} (h : Memory.wf m) (hlt : ∀ d ∈ m, c.1 < d.1) : Memory.wf (c :: m) := by
  cases m with
  | nil => rfl
  | cons d m => simp_all [Memory.wf]

theorem wf_cutAt (m : Memory) (n : Nat) (h : Memory.wf m) : Memory.wf (m.cutAt n) := by
  induction m with
  | nil => rfl
  | cons c m ih =>
    simp only [Memory.cutAt, List.filter_cons]
    split
    · refine wf_cons (ih (wf_tail h)) fun d hd => wf_head_lt h d (List.mem_of_mem_filter hd)
    · exact ih (wf_tail h)

theorem below_cutAt (m : Memory) (n : Nat) : Memory.below n (m.cutAt n) := by
  simp [Memory.below, Memory.cutAt]

theorem byteAt_cutAt (m : Memory) (n b : Nat) : (m.cutAt n).byteAt b = if b < n then m.byteAt b else none := by
  induction m with
  | nil => simp [Memory.cutAt, Memory.byteAt]
  | cons c m ih =>
    obtain ⟨k, w⟩ := c
    simp only [Memory.cutAt, List.filter_cons] at ih ⊢
    by_cases hk : k < n
    · simp only [hk, decide_true, if_true, Memory.byteAt, ih]
      grind
    · simp only [hk, decide_false, Bool.false_eq_true, if_false, ih, Memory.byteAt]
      grind


end Sys2Proof.Laws
end

