-- ==== Sys2Proof/Laws/Res.lean ====
section
/-!
SUPPORT. Results inside a command: sequencing, loops, and the rule by which a property of states is carried through both.
-/
namespace Sys2Proof.Laws
open Sys2Proof.Machine

variable {α β : Type}

@[simp] theorem bind_ok (a : α) (s : State) (k : α → State → Res β) : (Res.ok a s).bind k = k a s := rfl
@[simp] theorem bind_cut (c : Cut) (s : State) (k : α → State → Res β) : (Res.cut c s).bind k = .cut c s := rfl
@[simp] theorem bind_fault (f : Fault) (k : α → State → Res β) : (Res.fault f : Res α).bind k = .fault f := rfl
@[simp] theorem bind_refused (r : Refusal) (k : α → State → Res β) : (Res.refused r : Res α).bind k = .refused r := rfl

@[simp] theorem forEach_nil (body : α → State → Res Unit) (s : State) : forEach body [] s = .ok () s := rfl

@[simp] theorem forEach_cons (body : α → State → Res Unit) (x : α) (xs : List α) (s : State) :
    forEach body (x :: xs) s = (body x s).bind fun _ t => forEach body xs t := rfl

theorem bind_assoc {γ : Type} (r : Res α) (k : α → State → Res β) (l : β → State → Res γ) :
    (r.bind k).bind l = r.bind fun a s => (k a s).bind l := by cases r <;> rfl

theorem forEach_append (body : α → State → Res Unit) (xs ys : List α) (s : State) :
    forEach body (xs ++ ys) s = (forEach body xs s).bind fun _ t => forEach body ys t := by
  induction xs generalizing s with
  | nil => rfl
  | cons x xs ih => simp only [List.cons_append, forEach_cons, bind_assoc, ih]

/-- What a result satisfies: `Q` of its answer and state where it is done, `K` of its state where the command is cut, `F` of
the refusal or fault where the model stops. -/
def Sat (Q : α → State → Prop) (K : Cut → State → Prop) (F : Fault → Prop) (R : Refusal → Prop) : Res α → Prop
  | .ok a s => Q a s
  | .cut c s => K c s
  | .fault f => F f
  | .refused r => R r

variable {K : Cut → State → Prop} {F : Fault → Prop} {R : Refusal → Prop}

theorem Sat.bind {Q : α → State → Prop} {Q' : β → State → Prop} {r : Res α} {k : α → State → Res β}
    (h : Sat Q K F R r) (hk : ∀ a s, Q a s → Sat Q' K F R (k a s)) : Sat Q' K F R (r.bind k) := by
  cases r with
  | ok a s => exact hk a s h
  | cut c s => exact h
  | fault f => exact h
  | refused r => exact h

theorem Sat.mono {Q Q' : α → State → Prop} {K' : Cut → State → Prop} {F' : Fault → Prop} {R' : Refusal → Prop} {r : Res α}
    (h : Sat Q K F R r) (hQ : ∀ a s, Q a s → Q' a s) (hK : ∀ c s, K c s → K' c s) (hF : ∀ f, F f → F' f)
    (hR : ∀ x, R x → R' x) : Sat Q' K' F' R' r := by
  cases r with
  | ok a s => exact hQ a s h
  | cut c s => exact hK c s h
  | fault f => exact hF f h
  | refused r => exact hR r h

theorem Sat.forEach {P : State → Prop} {body : α → State → Res Unit} {xs : List α} {s : State} (h0 : P s)
    (h : ∀ x ∈ xs, ∀ s, P s → Sat (fun _ t => P t) K F R (body x s)) : Sat (fun _ t => P t) K F R (forEach body xs s) := by
  induction xs generalizing s with
  | nil => exact h0
  | cons x xs ih =>
    refine (h x (by simp) s h0).bind fun _ t ht => ih ht fun y hy => h y (by simp [hy])

theorem sat_known {Q : α → State → Prop} {p : Place} {v : Option α} {s : State} (hF : v = none → F (.readUnspecified p))
    (hQ : ∀ a, v = some a → Q a s) : Sat Q K F R (known p v s) := by
  cases v with
  | none => exact hF rfl
  | some a => exact hQ a rfl

/-- A look at a place, and what follows it. -/
theorem sat_look {Q : β → State → Prop} {p : Place} {v : Option α} {s : State} {k : α → State → Res β}
    (hF : v = none → F (.readUnspecified p)) (hk : ∀ a, v = some a → Sat Q K F R (k a s)) :
    Sat Q K F R ((known p v s).bind k) := by
  cases v with
  | none => exact hF rfl
  | some a => exact hk a rfl

end Sys2Proof.Laws
end

