-- ==== Sys2Proof/Laws/Env.lean ====
section
/-!
SUPPORT. The environment's draws: what quiet slots do (only the EC firmware's own writes), and what a draw keeps.
-/
namespace Sys2Proof.Laws
open Sys2Proof Sys2Proof.Machine

/-- What the EC firmware's steps can do to `ECMEM`: outside `VOLATILE` nothing; a byte that is listed stays listed. -/
structure EcDrift (vol : List Addr) (m m' : Memory) : Prop where
  kept : ∀ a : Addr, a ∉ vol → m'.byteAt a.toNat = m.byteAt a.toNat
  listed : ∀ a : Addr, m.byteAt a.toNat ≠ none → m'.byteAt a.toNat ≠ none

theorem EcDrift.refl (vol : List Addr) (m : Memory) : EcDrift vol m m := ⟨fun _ _ => rfl, fun _ h => h⟩

theorem EcDrift.trans {vol : List Addr} {m m' m'' : Memory} (h : EcDrift vol m m') (h' : EcDrift vol m' m'') :
    EcDrift vol m m'' :=
  ⟨fun a ha => (h'.kept a ha).trans (h.kept a ha), fun a ha => h'.listed a (h.listed a ha)⟩

theorem toNat_ne {a b : Addr} (h : a ≠ b) : a.toNat ≠ b.toNat := fun e => h (BitVec.eq_of_toNat_eq e)

theorem EcDrift.put {vol : List Addr} (m : Memory) {a : Addr} (v : Byte) (ha : a ∈ vol) : EcDrift vol m (m.put a.toNat v) := by
  refine ⟨fun b hb => byteAt_put_other m v (toNat_ne ?_), fun b hb => ?_⟩
  · rintro rfl; exact hb ha
  · by_cases h : b.toNat = a.toNat
    · simp [h]
    · rwa [byteAt_put_other m v h]

/-! ## Draws -/

theorem quietFor_bytesDrawn (c : Cfgp) (n k : Nat) (e : Env) : quietFor c n { e with bytesDrawn := k } = quietFor c n e := by
  induction n generalizing e with
  | zero => rfl
  | succ n ih =>
    have h1 : (drawSlot c { e with bytesDrawn := k }).1 = (drawSlot c e).1 := by simp only [drawSlot]; split <;> rfl
    have h2 : (drawSlot c { e with bytesDrawn := k }).2 = { (drawSlot c e).2 with bytesDrawn := k } := by
      simp only [drawSlot]; split <;> rfl
    simp only [quietFor, h1, h2, ih]

theorem faultAfter_bytesDrawn (c : Cfgp) (n k : Nat) (e : Env) :
    faultAfter c n { e with bytesDrawn := k } = faultAfter c n e := by
  induction n generalizing e with
  | zero => simp only [faultAfter, drawSlot]; split <;> rfl
  | succ n ih =>
    have h1 : (drawSlot c { e with bytesDrawn := k }).1 = (drawSlot c e).1 := by simp only [drawSlot]; split <;> rfl
    have h2 : (drawSlot c { e with bytesDrawn := k }).2 = { (drawSlot c e).2 with bytesDrawn := k } := by
      simp only [drawSlot]; split <;> rfl
    simp only [faultAfter, h1, h2, ih]

theorem drawSlot_noForeign (c : Cfgp) {e : Env} (h : e.noForeign = true) :
    (drawSlot c e).1.noForeign = true ∧ (drawSlot c e).2.noForeign = true := by
  unfold drawSlot
  split
  · rename_i x rest heq
    simp only [Env.noForeign, heq, List.all_cons, Bool.and_eq_true] at h ⊢
    exact ⟨h.1.1, h.1.2, h.2⟩
  · refine ⟨?_, h⟩
    simp only [Slot.noForeign]
    split <;> simp [AgentMove.isEc]

theorem drawSlot_noPowerLoss (c : Cfgp) {e : Env} (h : e.noPowerLoss = true) :
    (drawSlot c e).1.event ≠ .powerLoss ∧ (drawSlot c e).2.noPowerLoss = true := by
  unfold drawSlot
  split
  · rename_i x rest heq
    simp only [Env.noPowerLoss, heq, List.all_cons, Bool.and_eq_true, bne_iff_ne] at h
    exact ⟨h.1, h.2⟩
  · refine ⟨?_, h⟩
    dsimp only
    split <;> simp

/-- With no slots scripted the draws are the EC firmware's own. -/
theorem drawSlot_unscripted (c : Cfgp) {e : Env} (h : e.slots = []) : (drawSlot c e).1.noForeign = true := by
  simp only [drawSlot, h, Slot.noForeign]
  split <;> simp [AgentMove.isEc]

/-- With GW_FAULTS false and nothing scripted, every port operation completes. -/
theorem quietFor_plain (c : Cfgp) (n : Nat) {e : Env} (hs : e.slots = []) (hg : c.gwFaults = false) :
    quietFor c n e = true := by
  induction n generalizing e with
  | zero => rfl
  | succ n ih =>
    have h : quietFor c n (drawSlot c e).2 = true := ih (by simp [drawSlot, hs])
    have hf := drawSlot_unscripted c hs
    simp only [quietFor, Slot.quiet, hf, h, Bool.true_and, Bool.and_true]
    simp [drawSlot, hs, hg]

/-! ## Moves of the EC firmware -/

theorem ecUpdate_drift (a : Addr) (v : Byte) (s : State) :
    ∃ m, ecUpdate a v s = { s with ecmem := m } ∧ EcDrift s.cfgp.volatile s.ecmem m := by
  unfold ecUpdate
  split
  · rename_i hv
    exact ⟨_, rfl, EcDrift.put _ v (by simpa using hv)⟩
  · exact ⟨s.ecmem, rfl, EcDrift.refl _ _⟩

theorem ecMoves_drift (moves : List AgentMove) (s : State) (h : moves.all AgentMove.isEc = true) :
    ∃ m, forEach agentMove moves s = .ok () { s with ecmem := m } ∧ EcDrift s.cfgp.volatile s.ecmem m := by
  induction moves generalizing s with
  | nil => exact ⟨s.ecmem, rfl, EcDrift.refl _ _⟩
  | cons x xs ih =>
    simp only [List.all_cons, Bool.and_eq_true] at h
    cases x with
    | foreignWrite p v => simp [AgentMove.isEc] at h
    | foreignRead p => simp [AgentMove.isEc] at h
    | ecUpdate a v =>
      obtain ⟨m, hm, hd⟩ := ecUpdate_drift a v s
      obtain ⟨m', hm', hd'⟩ := ih { s with ecmem := m } h.2
      exact ⟨m', by simp only [forEach_cons, agentMove, bind_ok, hm, hm'], hd.trans hd'⟩

/-- A slot without foreign moves: only `ECMEM` in `VOLATILE` and the environment change. -/
theorem takeSlot_drift (s : State) (h : (drawSlot s.cfgp s.env).1.noForeign = true) :
    ∃ m, takeSlot s = .ok (drawSlot s.cfgp s.env).1.event { s with ecmem := m, env := (drawSlot s.cfgp s.env).2 }
      ∧ EcDrift s.cfgp.volatile s.ecmem m := by
  obtain ⟨m, hm, hd⟩ := ecMoves_drift (drawSlot s.cfgp s.env).1.moves { s with env := (drawSlot s.cfgp s.env).2 } h
  exact ⟨m, by simp only [takeSlot, hm, bind_ok], hd⟩

/-- A quiet port operation happens, after moves of the EC firmware only. -/
theorem gated_quiet {α : Type} (k : State → Res α) (s : State) (n : Nat) (h : quietFor s.cfgp (n + 1) s.env = true) :
    ∃ m e, gated k s = k { s with ecmem := m, env := e } ∧ EcDrift s.cfgp.volatile s.ecmem m
      ∧ quietFor s.cfgp n e = true := by
  simp only [quietFor, Slot.quiet, Bool.and_eq_true, Bool.or_eq_true, beq_iff_eq, Bool.not_eq_true'] at h
  obtain ⟨⟨hf, he⟩, hq⟩ := h
  obtain ⟨m, hm, hd⟩ := takeSlot_drift s hf
  refine ⟨m, _, ?_, hd, hq⟩
  simp only [gated, hm, bind_ok]
  rcases he with he | ⟨he, hg⟩
  · rw [he]
  · simp [he, hg]

end Sys2Proof.Laws
end

