-- ==== Sys2Proof/Laws/State.lean ====
section
/-!
SUPPORT. One lemma per field per named update of the state, true by unfolding.
-/
namespace Sys2Proof.Laws
open Sys2Proof.Machine

variable (s : State)

/-! ## record -/

@[simp] theorem record_cfgp (e : BusEvent) : (record e s).cfgp = s.cfgp := rfl
@[simp] theorem record_en (e : BusEvent) : (record e s).en = s.en := rfl
@[simp] theorem record_hnd (e : BusEvent) : (record e s).hnd = s.hnd := rfl
@[simp] theorem record_lastCode (e : BusEvent) : (record e s).lastCode = s.lastCode := rfl
@[simp] theorem record_lastInfo (e : BusEvent) : (record e s).lastInfo = s.lastInfo := rfl
@[simp] theorem record_ok (e : BusEvent) : (record e s).ok = s.ok := rfl
@[simp] theorem record_busy (e : BusEvent) : (record e s).busy = s.busy := rfl
@[simp] theorem record_res8 (e : BusEvent) : (record e s).res8 = s.res8 := rfl
@[simp] theorem record_res16 (e : BusEvent) : (record e s).res16 = s.res16 := rfl
@[simp] theorem record_resx (e : BusEvent) : (record e s).resx = s.resx := rfl
@[simp] theorem record_xbuf (e : BusEvent) : (record e s).xbuf = s.xbuf := rfl
@[simp] theorem record_stat (e : BusEvent) : (record e s).stat = s.stat := rfl
@[simp] theorem record_cfg (e : BusEvent) : (record e s).cfg = s.cfg := rfl
@[simp] theorem record_ar (e : BusEvent) : (record e s).ar = s.ar := rfl
@[simp] theorem record_dr (e : BusEvent) : (record e s).dr = s.dr := rfl
@[simp] theorem record_rw (e : BusEvent) : (record e s).rw = s.rw := rfl
@[simp] theorem record_stepNo (e : BusEvent) : (record e s).stepNo = s.stepNo := rfl
@[simp] theorem record_base (e : BusEvent) : (record e s).base = s.base := rfl
@[simp] theorem record_cnt (e : BusEvent) : (record e s).cnt = s.cnt := rfl
@[simp] theorem record_idx (e : BusEvent) : (record e s).idx = s.idx := rfl
@[simp] theorem record_phase (e : BusEvent) : (record e s).phase = s.phase := rfl
@[simp] theorem record_target (e : BusEvent) : (record e s).target = s.target := rfl
@[simp] theorem record_ecmem (e : BusEvent) : (record e s).ecmem = s.ecmem := rfl
@[simp] theorem record_env (e : BusEvent) : (record e s).env = s.env := rfl
@[simp] theorem record_host (e : BusEvent) : (record e s).host = s.host := rfl
@[simp] theorem record_seen (e : BusEvent) : (record e s).seen = s.seen := rfl
@[simp] theorem record_trace (e : BusEvent) : (record e s).trace = s.trace ++ [e] := rfl
@[simp] theorem record_calls (e : BusEvent) : (record e s).calls = s.calls := rfl

/-! ## writeEc -/

@[simp] theorem writeEc_cfgp (a : Addr) (v : Byte) : (writeEc a v s).cfgp = s.cfgp := rfl
@[simp] theorem writeEc_en (a : Addr) (v : Byte) : (writeEc a v s).en = s.en := rfl
@[simp] theorem writeEc_hnd (a : Addr) (v : Byte) : (writeEc a v s).hnd = s.hnd := rfl
@[simp] theorem writeEc_lastCode (a : Addr) (v : Byte) : (writeEc a v s).lastCode = s.lastCode := rfl
@[simp] theorem writeEc_lastInfo (a : Addr) (v : Byte) : (writeEc a v s).lastInfo = s.lastInfo := rfl
@[simp] theorem writeEc_ok (a : Addr) (v : Byte) : (writeEc a v s).ok = s.ok := rfl
@[simp] theorem writeEc_busy (a : Addr) (v : Byte) : (writeEc a v s).busy = s.busy := rfl
@[simp] theorem writeEc_res8 (a : Addr) (v : Byte) : (writeEc a v s).res8 = s.res8 := rfl
@[simp] theorem writeEc_res16 (a : Addr) (v : Byte) : (writeEc a v s).res16 = s.res16 := rfl
@[simp] theorem writeEc_resx (a : Addr) (v : Byte) : (writeEc a v s).resx = s.resx := rfl
@[simp] theorem writeEc_xbuf (a : Addr) (v : Byte) : (writeEc a v s).xbuf = s.xbuf := rfl
@[simp] theorem writeEc_stat (a : Addr) (v : Byte) : (writeEc a v s).stat = s.stat := rfl
@[simp] theorem writeEc_cfg (a : Addr) (v : Byte) : (writeEc a v s).cfg = s.cfg := rfl
@[simp] theorem writeEc_ar (a : Addr) (v : Byte) : (writeEc a v s).ar = s.ar := rfl
@[simp] theorem writeEc_dr (a : Addr) (v : Byte) : (writeEc a v s).dr = s.dr := rfl
@[simp] theorem writeEc_rw (a : Addr) (v : Byte) : (writeEc a v s).rw = s.rw := rfl
@[simp] theorem writeEc_stepNo (a : Addr) (v : Byte) : (writeEc a v s).stepNo = s.stepNo := rfl
@[simp] theorem writeEc_base (a : Addr) (v : Byte) : (writeEc a v s).base = s.base := rfl
@[simp] theorem writeEc_cnt (a : Addr) (v : Byte) : (writeEc a v s).cnt = s.cnt := rfl
@[simp] theorem writeEc_idx (a : Addr) (v : Byte) : (writeEc a v s).idx = s.idx := rfl
@[simp] theorem writeEc_phase (a : Addr) (v : Byte) : (writeEc a v s).phase = s.phase := rfl
@[simp] theorem writeEc_target (a : Addr) (v : Byte) : (writeEc a v s).target = s.target := rfl
@[simp] theorem writeEc_ecmem (a : Addr) (v : Byte) : (writeEc a v s).ecmem = s.ecmem.put a.toNat v := rfl
@[simp] theorem writeEc_env (a : Addr) (v : Byte) : (writeEc a v s).env = s.env := rfl
@[simp] theorem writeEc_host (a : Addr) (v : Byte) : (writeEc a v s).host = s.host := rfl
@[simp] theorem writeEc_seen (a : Addr) (v : Byte) : (writeEc a v s).seen = s.seen := rfl
@[simp] theorem writeEc_trace (a : Addr) (v : Byte) : (writeEc a v s).trace = s.trace := rfl
@[simp] theorem writeEc_calls (a : Addr) (v : Byte) : (writeEc a v s).calls = s.calls := rfl

/-! ## accept -/

@[simp] theorem accept_cfgp : (accept s).cfgp = s.cfgp := rfl
@[simp] theorem accept_en : (accept s).en = s.en := rfl
@[simp] theorem accept_hnd : (accept s).hnd = s.hnd := rfl
@[simp] theorem accept_lastCode : (accept s).lastCode = s.lastCode := rfl
@[simp] theorem accept_lastInfo : (accept s).lastInfo = s.lastInfo := rfl
@[simp] theorem accept_ok : (accept s).ok = s.ok := rfl
@[simp] theorem accept_busy : (accept s).busy = true := rfl
@[simp] theorem accept_res8 : (accept s).res8 = s.res8 := rfl
@[simp] theorem accept_res16 : (accept s).res16 = s.res16 := rfl
@[simp] theorem accept_resx : (accept s).resx = s.resx := rfl
@[simp] theorem accept_xbuf : (accept s).xbuf = s.xbuf := rfl
@[simp] theorem accept_stat : (accept s).stat = s.stat := rfl
@[simp] theorem accept_cfg : (accept s).cfg = s.cfg := rfl
@[simp] theorem accept_ar : (accept s).ar = s.ar := rfl
@[simp] theorem accept_dr : (accept s).dr = s.dr := rfl
@[simp] theorem accept_rw : (accept s).rw = s.rw := rfl
@[simp] theorem accept_stepNo : (accept s).stepNo = s.stepNo := rfl
@[simp] theorem accept_base : (accept s).base = s.base := rfl
@[simp] theorem accept_cnt : (accept s).cnt = s.cnt := rfl
@[simp] theorem accept_idx : (accept s).idx = s.idx := rfl
@[simp] theorem accept_phase : (accept s).phase = s.phase := rfl
@[simp] theorem accept_target : (accept s).target = s.target := rfl
@[simp] theorem accept_ecmem : (accept s).ecmem = s.ecmem := rfl
@[simp] theorem accept_env : (accept s).env = s.env := rfl
@[simp] theorem accept_host : (accept s).host = s.host := rfl
@[simp] theorem accept_seen : (accept s).seen = s.seen := rfl
@[simp] theorem accept_trace : (accept s).trace = s.trace := rfl
@[simp] theorem accept_calls : (accept s).calls = s.calls := rfl

/-! ## finish -/

@[simp] theorem finish_cfgp (b : Bool) : (finish b s).cfgp = s.cfgp := rfl
@[simp] theorem finish_en (b : Bool) : (finish b s).en = s.en := rfl
@[simp] theorem finish_hnd (b : Bool) : (finish b s).hnd = s.hnd := rfl
@[simp] theorem finish_lastCode (b : Bool) : (finish b s).lastCode = s.lastCode := rfl
@[simp] theorem finish_lastInfo (b : Bool) : (finish b s).lastInfo = s.lastInfo := rfl
@[simp] theorem finish_ok (b : Bool) : (finish b s).ok = b := rfl
@[simp] theorem finish_busy (b : Bool) : (finish b s).busy = false := rfl
@[simp] theorem finish_res8 (b : Bool) : (finish b s).res8 = s.res8 := rfl
@[simp] theorem finish_res16 (b : Bool) : (finish b s).res16 = s.res16 := rfl
@[simp] theorem finish_resx (b : Bool) : (finish b s).resx = s.resx := rfl
@[simp] theorem finish_xbuf (b : Bool) : (finish b s).xbuf = s.xbuf := rfl
@[simp] theorem finish_stat (b : Bool) : (finish b s).stat = s.stat := rfl
@[simp] theorem finish_cfg (b : Bool) : (finish b s).cfg = s.cfg := rfl
@[simp] theorem finish_ar (b : Bool) : (finish b s).ar = s.ar := rfl
@[simp] theorem finish_dr (b : Bool) : (finish b s).dr = s.dr := rfl
@[simp] theorem finish_rw (b : Bool) : (finish b s).rw = s.rw := rfl
@[simp] theorem finish_stepNo (b : Bool) : (finish b s).stepNo = s.stepNo := rfl
@[simp] theorem finish_base (b : Bool) : (finish b s).base = s.base := rfl
@[simp] theorem finish_cnt (b : Bool) : (finish b s).cnt = s.cnt := rfl
@[simp] theorem finish_idx (b : Bool) : (finish b s).idx = s.idx := rfl
@[simp] theorem finish_phase (b : Bool) : (finish b s).phase = s.phase := rfl
@[simp] theorem finish_target (b : Bool) : (finish b s).target = s.target := rfl
@[simp] theorem finish_ecmem (b : Bool) : (finish b s).ecmem = s.ecmem := rfl
@[simp] theorem finish_env (b : Bool) : (finish b s).env = s.env := rfl
@[simp] theorem finish_host (b : Bool) : (finish b s).host = s.host := rfl
@[simp] theorem finish_seen (b : Bool) : (finish b s).seen = s.seen := rfl
@[simp] theorem finish_trace (b : Bool) : (finish b s).trace = s.trace := rfl
@[simp] theorem finish_calls (b : Bool) : (finish b s).calls = s.calls := rfl

/-! ## raise -/

@[simp] theorem raise_cfgp (k : ErrKind) (n : Nat) : (raise k n s).cfgp = s.cfgp := rfl
@[simp] theorem raise_en (k : ErrKind) (n : Nat) : (raise k n s).en = s.en := rfl
@[simp] theorem raise_hnd (k : ErrKind) (n : Nat) : (raise k n s).hnd = s.hnd := rfl
@[simp] theorem raise_lastCode (k : ErrKind) (n : Nat) : (raise k n s).lastCode = k := rfl
@[simp] theorem raise_lastInfo (k : ErrKind) (n : Nat) : (raise k n s).lastInfo = n := rfl
@[simp] theorem raise_ok (k : ErrKind) (n : Nat) : (raise k n s).ok = s.ok := rfl
@[simp] theorem raise_busy (k : ErrKind) (n : Nat) : (raise k n s).busy = s.busy := rfl
@[simp] theorem raise_res8 (k : ErrKind) (n : Nat) : (raise k n s).res8 = s.res8 := rfl
@[simp] theorem raise_res16 (k : ErrKind) (n : Nat) : (raise k n s).res16 = s.res16 := rfl
@[simp] theorem raise_resx (k : ErrKind) (n : Nat) : (raise k n s).resx = s.resx := rfl
@[simp] theorem raise_xbuf (k : ErrKind) (n : Nat) : (raise k n s).xbuf = s.xbuf := rfl
@[simp] theorem raise_stat (k : ErrKind) (n : Nat) : (raise k n s).stat = s.stat := rfl
@[simp] theorem raise_cfg (k : ErrKind) (n : Nat) : (raise k n s).cfg = s.cfg := rfl
@[simp] theorem raise_ar (k : ErrKind) (n : Nat) : (raise k n s).ar = s.ar := rfl
@[simp] theorem raise_dr (k : ErrKind) (n : Nat) : (raise k n s).dr = s.dr := rfl
@[simp] theorem raise_rw (k : ErrKind) (n : Nat) : (raise k n s).rw = s.rw := rfl
@[simp] theorem raise_stepNo (k : ErrKind) (n : Nat) : (raise k n s).stepNo = s.stepNo := rfl
@[simp] theorem raise_base (k : ErrKind) (n : Nat) : (raise k n s).base = s.base := rfl
@[simp] theorem raise_cnt (k : ErrKind) (n : Nat) : (raise k n s).cnt = s.cnt := rfl
@[simp] theorem raise_idx (k : ErrKind) (n : Nat) : (raise k n s).idx = s.idx := rfl
@[simp] theorem raise_phase (k : ErrKind) (n : Nat) : (raise k n s).phase = s.phase := rfl
@[simp] theorem raise_target (k : ErrKind) (n : Nat) : (raise k n s).target = s.target := rfl
@[simp] theorem raise_ecmem (k : ErrKind) (n : Nat) : (raise k n s).ecmem = s.ecmem := rfl
@[simp] theorem raise_env (k : ErrKind) (n : Nat) : (raise k n s).env = s.env := rfl
@[simp] theorem raise_host (k : ErrKind) (n : Nat) : (raise k n s).host = s.host := rfl
@[simp] theorem raise_seen (k : ErrKind) (n : Nat) : (raise k n s).seen = s.seen := rfl
@[simp] theorem raise_trace (k : ErrKind) (n : Nat) : (raise k n s).trace = s.trace := rfl
@[simp] theorem raise_calls (k : ErrKind) (n : Nat) : (raise k n s).calls = s.calls := rfl

/-! ## advance -/

@[simp] theorem advance_cfgp : (advance s).cfgp = s.cfgp := rfl
@[simp] theorem advance_en : (advance s).en = s.en := rfl
@[simp] theorem advance_hnd : (advance s).hnd = s.hnd := rfl
@[simp] theorem advance_lastCode : (advance s).lastCode = s.lastCode := rfl
@[simp] theorem advance_lastInfo : (advance s).lastInfo = s.lastInfo := rfl
@[simp] theorem advance_ok : (advance s).ok = s.ok := rfl
@[simp] theorem advance_busy : (advance s).busy = s.busy := rfl
@[simp] theorem advance_res8 : (advance s).res8 = s.res8 := rfl
@[simp] theorem advance_res16 : (advance s).res16 = s.res16 := rfl
@[simp] theorem advance_resx : (advance s).resx = s.resx := rfl
@[simp] theorem advance_xbuf : (advance s).xbuf = s.xbuf := rfl
@[simp] theorem advance_stat : (advance s).stat = s.stat := rfl
@[simp] theorem advance_cfg : (advance s).cfg = s.cfg := rfl
@[simp] theorem advance_ar : (advance s).ar = s.ar := rfl
@[simp] theorem advance_dr : (advance s).dr = s.dr := rfl
@[simp] theorem advance_rw : (advance s).rw = s.rw := rfl
@[simp] theorem advance_stepNo : (advance s).stepNo = s.stepNo + 1 := rfl
@[simp] theorem advance_base : (advance s).base = s.base := rfl
@[simp] theorem advance_cnt : (advance s).cnt = s.cnt := rfl
@[simp] theorem advance_idx : (advance s).idx = s.idx := rfl
@[simp] theorem advance_phase : (advance s).phase = s.phase := rfl
@[simp] theorem advance_target : (advance s).target = s.target := rfl
@[simp] theorem advance_ecmem : (advance s).ecmem = s.ecmem := rfl
@[simp] theorem advance_env : (advance s).env = s.env := rfl
@[simp] theorem advance_host : (advance s).host = s.host := rfl
@[simp] theorem advance_seen : (advance s).seen = s.seen := rfl
@[simp] theorem advance_trace : (advance s).trace = s.trace := rfl
@[simp] theorem advance_calls : (advance s).calls = s.calls := rfl

/-! ## loadArray -/

@[simp] theorem loadArray_cfgp (b : Addr) (n : BitVec 8) : (loadArray b n s).cfgp = s.cfgp := rfl
@[simp] theorem loadArray_en (b : Addr) (n : BitVec 8) : (loadArray b n s).en = s.en := rfl
@[simp] theorem loadArray_hnd (b : Addr) (n : BitVec 8) : (loadArray b n s).hnd = s.hnd := rfl
@[simp] theorem loadArray_lastCode (b : Addr) (n : BitVec 8) : (loadArray b n s).lastCode = s.lastCode := rfl
@[simp] theorem loadArray_lastInfo (b : Addr) (n : BitVec 8) : (loadArray b n s).lastInfo = s.lastInfo := rfl
@[simp] theorem loadArray_ok (b : Addr) (n : BitVec 8) : (loadArray b n s).ok = s.ok := rfl
@[simp] theorem loadArray_busy (b : Addr) (n : BitVec 8) : (loadArray b n s).busy = s.busy := rfl
@[simp] theorem loadArray_res8 (b : Addr) (n : BitVec 8) : (loadArray b n s).res8 = s.res8 := rfl
@[simp] theorem loadArray_res16 (b : Addr) (n : BitVec 8) : (loadArray b n s).res16 = s.res16 := rfl
@[simp] theorem loadArray_resx (b : Addr) (n : BitVec 8) : (loadArray b n s).resx = s.resx := rfl
@[simp] theorem loadArray_xbuf (b : Addr) (n : BitVec 8) : (loadArray b n s).xbuf = s.xbuf := rfl
@[simp] theorem loadArray_stat (b : Addr) (n : BitVec 8) : (loadArray b n s).stat = s.stat := rfl
@[simp] theorem loadArray_cfg (b : Addr) (n : BitVec 8) : (loadArray b n s).cfg = s.cfg := rfl
@[simp] theorem loadArray_ar (b : Addr) (n : BitVec 8) : (loadArray b n s).ar = s.ar := rfl
@[simp] theorem loadArray_dr (b : Addr) (n : BitVec 8) : (loadArray b n s).dr = s.dr := rfl
@[simp] theorem loadArray_rw (b : Addr) (n : BitVec 8) : (loadArray b n s).rw = s.rw := rfl
@[simp] theorem loadArray_stepNo (b : Addr) (n : BitVec 8) : (loadArray b n s).stepNo = s.stepNo := rfl
@[simp] theorem loadArray_base (b : Addr) (n : BitVec 8) : (loadArray b n s).base = b := rfl
@[simp] theorem loadArray_cnt (b : Addr) (n : BitVec 8) : (loadArray b n s).cnt = n := rfl
@[simp] theorem loadArray_idx (b : Addr) (n : BitVec 8) : (loadArray b n s).idx = s.idx := rfl
@[simp] theorem loadArray_phase (b : Addr) (n : BitVec 8) : (loadArray b n s).phase = s.phase := rfl
@[simp] theorem loadArray_target (b : Addr) (n : BitVec 8) : (loadArray b n s).target = s.target := rfl
@[simp] theorem loadArray_ecmem (b : Addr) (n : BitVec 8) : (loadArray b n s).ecmem = s.ecmem := rfl
@[simp] theorem loadArray_env (b : Addr) (n : BitVec 8) : (loadArray b n s).env = s.env := rfl
@[simp] theorem loadArray_host (b : Addr) (n : BitVec 8) : (loadArray b n s).host = s.host := rfl
@[simp] theorem loadArray_seen (b : Addr) (n : BitVec 8) : (loadArray b n s).seen = s.seen := rfl
@[simp] theorem loadArray_trace (b : Addr) (n : BitVec 8) : (loadArray b n s).trace = s.trace := rfl
@[simp] theorem loadArray_calls (b : Addr) (n : BitVec 8) : (loadArray b n s).calls = s.calls := rfl

/-! ## setIdx -/

@[simp] theorem setIdx_cfgp (i : Nat) : (setIdx i s).cfgp = s.cfgp := rfl
@[simp] theorem setIdx_en (i : Nat) : (setIdx i s).en = s.en := rfl
@[simp] theorem setIdx_hnd (i : Nat) : (setIdx i s).hnd = s.hnd := rfl
@[simp] theorem setIdx_lastCode (i : Nat) : (setIdx i s).lastCode = s.lastCode := rfl
@[simp] theorem setIdx_lastInfo (i : Nat) : (setIdx i s).lastInfo = s.lastInfo := rfl
@[simp] theorem setIdx_ok (i : Nat) : (setIdx i s).ok = s.ok := rfl
@[simp] theorem setIdx_busy (i : Nat) : (setIdx i s).busy = s.busy := rfl
@[simp] theorem setIdx_res8 (i : Nat) : (setIdx i s).res8 = s.res8 := rfl
@[simp] theorem setIdx_res16 (i : Nat) : (setIdx i s).res16 = s.res16 := rfl
@[simp] theorem setIdx_resx (i : Nat) : (setIdx i s).resx = s.resx := rfl
@[simp] theorem setIdx_xbuf (i : Nat) : (setIdx i s).xbuf = s.xbuf := rfl
@[simp] theorem setIdx_stat (i : Nat) : (setIdx i s).stat = s.stat := rfl
@[simp] theorem setIdx_cfg (i : Nat) : (setIdx i s).cfg = s.cfg := rfl
@[simp] theorem setIdx_ar (i : Nat) : (setIdx i s).ar = s.ar := rfl
@[simp] theorem setIdx_dr (i : Nat) : (setIdx i s).dr = s.dr := rfl
@[simp] theorem setIdx_rw (i : Nat) : (setIdx i s).rw = s.rw := rfl
@[simp] theorem setIdx_stepNo (i : Nat) : (setIdx i s).stepNo = s.stepNo := rfl
@[simp] theorem setIdx_base (i : Nat) : (setIdx i s).base = s.base := rfl
@[simp] theorem setIdx_cnt (i : Nat) : (setIdx i s).cnt = s.cnt := rfl
@[simp] theorem setIdx_idx (i : Nat) : (setIdx i s).idx = BitVec.ofNat 8 i := rfl
@[simp] theorem setIdx_phase (i : Nat) : (setIdx i s).phase = s.phase := rfl
@[simp] theorem setIdx_target (i : Nat) : (setIdx i s).target = s.target := rfl
@[simp] theorem setIdx_ecmem (i : Nat) : (setIdx i s).ecmem = s.ecmem := rfl
@[simp] theorem setIdx_env (i : Nat) : (setIdx i s).env = s.env := rfl
@[simp] theorem setIdx_host (i : Nat) : (setIdx i s).host = s.host := rfl
@[simp] theorem setIdx_seen (i : Nat) : (setIdx i s).seen = s.seen := rfl
@[simp] theorem setIdx_trace (i : Nat) : (setIdx i s).trace = s.trace := rfl
@[simp] theorem setIdx_calls (i : Nat) : (setIdx i s).calls = s.calls := rfl

/-! ## putXbuf -/

@[simp] theorem putXbuf_cfgp (i : Nat) (v : Byte) : (putXbuf i v s).cfgp = s.cfgp := rfl
@[simp] theorem putXbuf_en (i : Nat) (v : Byte) : (putXbuf i v s).en = s.en := rfl
@[simp] theorem putXbuf_hnd (i : Nat) (v : Byte) : (putXbuf i v s).hnd = s.hnd := rfl
@[simp] theorem putXbuf_lastCode (i : Nat) (v : Byte) : (putXbuf i v s).lastCode = s.lastCode := rfl
@[simp] theorem putXbuf_lastInfo (i : Nat) (v : Byte) : (putXbuf i v s).lastInfo = s.lastInfo := rfl
@[simp] theorem putXbuf_ok (i : Nat) (v : Byte) : (putXbuf i v s).ok = s.ok := rfl
@[simp] theorem putXbuf_busy (i : Nat) (v : Byte) : (putXbuf i v s).busy = s.busy := rfl
@[simp] theorem putXbuf_res8 (i : Nat) (v : Byte) : (putXbuf i v s).res8 = s.res8 := rfl
@[simp] theorem putXbuf_res16 (i : Nat) (v : Byte) : (putXbuf i v s).res16 = s.res16 := rfl
@[simp] theorem putXbuf_resx (i : Nat) (v : Byte) : (putXbuf i v s).resx = s.resx := rfl
@[simp] theorem putXbuf_xbuf (i : Nat) (v : Byte) : (putXbuf i v s).xbuf = s.xbuf.put i v := rfl
@[simp] theorem putXbuf_stat (i : Nat) (v : Byte) : (putXbuf i v s).stat = s.stat := rfl
@[simp] theorem putXbuf_cfg (i : Nat) (v : Byte) : (putXbuf i v s).cfg = s.cfg := rfl
@[simp] theorem putXbuf_ar (i : Nat) (v : Byte) : (putXbuf i v s).ar = s.ar := rfl
@[simp] theorem putXbuf_dr (i : Nat) (v : Byte) : (putXbuf i v s).dr = s.dr := rfl
@[simp] theorem putXbuf_rw (i : Nat) (v : Byte) : (putXbuf i v s).rw = s.rw := rfl
@[simp] theorem putXbuf_stepNo (i : Nat) (v : Byte) : (putXbuf i v s).stepNo = s.stepNo := rfl
@[simp] theorem putXbuf_base (i : Nat) (v : Byte) : (putXbuf i v s).base = s.base := rfl
@[simp] theorem putXbuf_cnt (i : Nat) (v : Byte) : (putXbuf i v s).cnt = s.cnt := rfl
@[simp] theorem putXbuf_idx (i : Nat) (v : Byte) : (putXbuf i v s).idx = s.idx := rfl
@[simp] theorem putXbuf_phase (i : Nat) (v : Byte) : (putXbuf i v s).phase = s.phase := rfl
@[simp] theorem putXbuf_target (i : Nat) (v : Byte) : (putXbuf i v s).target = s.target := rfl
@[simp] theorem putXbuf_ecmem (i : Nat) (v : Byte) : (putXbuf i v s).ecmem = s.ecmem := rfl
@[simp] theorem putXbuf_env (i : Nat) (v : Byte) : (putXbuf i v s).env = s.env := rfl
@[simp] theorem putXbuf_host (i : Nat) (v : Byte) : (putXbuf i v s).host = s.host := rfl
@[simp] theorem putXbuf_seen (i : Nat) (v : Byte) : (putXbuf i v s).seen = s.seen := rfl
@[simp] theorem putXbuf_trace (i : Nat) (v : Byte) : (putXbuf i v s).trace = s.trace := rfl
@[simp] theorem putXbuf_calls (i : Nat) (v : Byte) : (putXbuf i v s).calls = s.calls := rfl

/-! ## putTab -/

@[simp] theorem putTab_cfgp (t : Fin 10) (i : Nat) (v : Byte) : (putTab t i v s).cfgp = s.cfgp := rfl
@[simp] theorem putTab_en (t : Fin 10) (i : Nat) (v : Byte) : (putTab t i v s).en = s.en := rfl
@[simp] theorem putTab_hnd (t : Fin 10) (i : Nat) (v : Byte) : (putTab t i v s).hnd = s.hnd := rfl
@[simp] theorem putTab_lastCode (t : Fin 10) (i : Nat) (v : Byte) : (putTab t i v s).lastCode = s.lastCode := rfl
@[simp] theorem putTab_lastInfo (t : Fin 10) (i : Nat) (v : Byte) : (putTab t i v s).lastInfo = s.lastInfo := rfl
@[simp] theorem putTab_ok (t : Fin 10) (i : Nat) (v : Byte) : (putTab t i v s).ok = s.ok := rfl
@[simp] theorem putTab_busy (t : Fin 10) (i : Nat) (v : Byte) : (putTab t i v s).busy = s.busy := rfl
@[simp] theorem putTab_res8 (t : Fin 10) (i : Nat) (v : Byte) : (putTab t i v s).res8 = s.res8 := rfl
@[simp] theorem putTab_res16 (t : Fin 10) (i : Nat) (v : Byte) : (putTab t i v s).res16 = s.res16 := rfl
@[simp] theorem putTab_resx (t : Fin 10) (i : Nat) (v : Byte) : (putTab t i v s).resx = s.resx := rfl
@[simp] theorem putTab_xbuf (t : Fin 10) (i : Nat) (v : Byte) : (putTab t i v s).xbuf = s.xbuf := rfl
@[simp] theorem putTab_cfg (t : Fin 10) (i : Nat) (v : Byte) : (putTab t i v s).cfg = s.cfg := rfl
@[simp] theorem putTab_ar (t : Fin 10) (i : Nat) (v : Byte) : (putTab t i v s).ar = s.ar := rfl
@[simp] theorem putTab_dr (t : Fin 10) (i : Nat) (v : Byte) : (putTab t i v s).dr = s.dr := rfl
@[simp] theorem putTab_rw (t : Fin 10) (i : Nat) (v : Byte) : (putTab t i v s).rw = s.rw := rfl
@[simp] theorem putTab_stepNo (t : Fin 10) (i : Nat) (v : Byte) : (putTab t i v s).stepNo = s.stepNo := rfl
@[simp] theorem putTab_base (t : Fin 10) (i : Nat) (v : Byte) : (putTab t i v s).base = s.base := rfl
@[simp] theorem putTab_cnt (t : Fin 10) (i : Nat) (v : Byte) : (putTab t i v s).cnt = s.cnt := rfl
@[simp] theorem putTab_idx (t : Fin 10) (i : Nat) (v : Byte) : (putTab t i v s).idx = s.idx := rfl
@[simp] theorem putTab_phase (t : Fin 10) (i : Nat) (v : Byte) : (putTab t i v s).phase = s.phase := rfl
@[simp] theorem putTab_target (t : Fin 10) (i : Nat) (v : Byte) : (putTab t i v s).target = s.target := rfl
@[simp] theorem putTab_ecmem (t : Fin 10) (i : Nat) (v : Byte) : (putTab t i v s).ecmem = s.ecmem := rfl
@[simp] theorem putTab_env (t : Fin 10) (i : Nat) (v : Byte) : (putTab t i v s).env = s.env := rfl
@[simp] theorem putTab_host (t : Fin 10) (i : Nat) (v : Byte) : (putTab t i v s).host = s.host := rfl
@[simp] theorem putTab_seen (t : Fin 10) (i : Nat) (v : Byte) : (putTab t i v s).seen = s.seen := rfl
@[simp] theorem putTab_trace (t : Fin 10) (i : Nat) (v : Byte) : (putTab t i v s).trace = s.trace := rfl
@[simp] theorem putTab_calls (t : Fin 10) (i : Nat) (v : Byte) : (putTab t i v s).calls = s.calls := rfl

/-! ## setTable -/

@[simp] theorem setTable_cfgp (t : Fin 10) (x : CfgTable) : (setTable t x s).cfgp = s.cfgp := rfl
@[simp] theorem setTable_en (t : Fin 10) (x : CfgTable) : (setTable t x s).en = s.en := rfl
@[simp] theorem setTable_hnd (t : Fin 10) (x : CfgTable) : (setTable t x s).hnd = s.hnd := rfl
@[simp] theorem setTable_lastCode (t : Fin 10) (x : CfgTable) : (setTable t x s).lastCode = s.lastCode := rfl
@[simp] theorem setTable_lastInfo (t : Fin 10) (x : CfgTable) : (setTable t x s).lastInfo = s.lastInfo := rfl
@[simp] theorem setTable_ok (t : Fin 10) (x : CfgTable) : (setTable t x s).ok = s.ok := rfl
@[simp] theorem setTable_busy (t : Fin 10) (x : CfgTable) : (setTable t x s).busy = s.busy := rfl
@[simp] theorem setTable_res8 (t : Fin 10) (x : CfgTable) : (setTable t x s).res8 = s.res8 := rfl
@[simp] theorem setTable_res16 (t : Fin 10) (x : CfgTable) : (setTable t x s).res16 = s.res16 := rfl
@[simp] theorem setTable_resx (t : Fin 10) (x : CfgTable) : (setTable t x s).resx = s.resx := rfl
@[simp] theorem setTable_xbuf (t : Fin 10) (x : CfgTable) : (setTable t x s).xbuf = s.xbuf := rfl
@[simp] theorem setTable_stat (t : Fin 10) (x : CfgTable) : (setTable t x s).stat = s.stat := rfl
@[simp] theorem setTable_cfg (t : Fin 10) (x : CfgTable) : (setTable t x s).cfg = s.cfg.set t x := rfl
@[simp] theorem setTable_ar (t : Fin 10) (x : CfgTable) : (setTable t x s).ar = s.ar := rfl
@[simp] theorem setTable_dr (t : Fin 10) (x : CfgTable) : (setTable t x s).dr = s.dr := rfl
@[simp] theorem setTable_rw (t : Fin 10) (x : CfgTable) : (setTable t x s).rw = s.rw := rfl
@[simp] theorem setTable_stepNo (t : Fin 10) (x : CfgTable) : (setTable t x s).stepNo = s.stepNo := rfl
@[simp] theorem setTable_base (t : Fin 10) (x : CfgTable) : (setTable t x s).base = s.base := rfl
@[simp] theorem setTable_cnt (t : Fin 10) (x : CfgTable) : (setTable t x s).cnt = s.cnt := rfl
@[simp] theorem setTable_idx (t : Fin 10) (x : CfgTable) : (setTable t x s).idx = s.idx := rfl
@[simp] theorem setTable_phase (t : Fin 10) (x : CfgTable) : (setTable t x s).phase = s.phase := rfl
@[simp] theorem setTable_target (t : Fin 10) (x : CfgTable) : (setTable t x s).target = s.target := rfl
@[simp] theorem setTable_ecmem (t : Fin 10) (x : CfgTable) : (setTable t x s).ecmem = s.ecmem := rfl
@[simp] theorem setTable_env (t : Fin 10) (x : CfgTable) : (setTable t x s).env = s.env := rfl
@[simp] theorem setTable_host (t : Fin 10) (x : CfgTable) : (setTable t x s).host = s.host := rfl
@[simp] theorem setTable_seen (t : Fin 10) (x : CfgTable) : (setTable t x s).seen = s.seen := rfl
@[simp] theorem setTable_trace (t : Fin 10) (x : CfgTable) : (setTable t x s).trace = s.trace := rfl
@[simp] theorem setTable_calls (t : Fin 10) (x : CfgTable) : (setTable t x s).calls = s.calls := rfl

/-! ## pushWord -/

@[simp] theorem pushWord_cfgp (w : CmdWord) : (pushWord w s).cfgp = s.cfgp := rfl
@[simp] theorem pushWord_en (w : CmdWord) : (pushWord w s).en = s.en := rfl
@[simp] theorem pushWord_hnd (w : CmdWord) : (pushWord w s).hnd = s.hnd := rfl
@[simp] theorem pushWord_lastCode (w : CmdWord) : (pushWord w s).lastCode = s.lastCode := rfl
@[simp] theorem pushWord_lastInfo (w : CmdWord) : (pushWord w s).lastInfo = s.lastInfo := rfl
@[simp] theorem pushWord_ok (w : CmdWord) : (pushWord w s).ok = s.ok := rfl
@[simp] theorem pushWord_busy (w : CmdWord) : (pushWord w s).busy = s.busy := rfl
@[simp] theorem pushWord_res8 (w : CmdWord) : (pushWord w s).res8 = s.res8 := rfl
@[simp] theorem pushWord_res16 (w : CmdWord) : (pushWord w s).res16 = s.res16 := rfl
@[simp] theorem pushWord_resx (w : CmdWord) : (pushWord w s).resx = s.resx := rfl
@[simp] theorem pushWord_xbuf (w : CmdWord) : (pushWord w s).xbuf = s.xbuf := rfl
@[simp] theorem pushWord_stat (w : CmdWord) : (pushWord w s).stat = s.stat := rfl
@[simp] theorem pushWord_cfg (w : CmdWord) : (pushWord w s).cfg = s.cfg := rfl
@[simp] theorem pushWord_ar (w : CmdWord) : (pushWord w s).ar = s.ar := rfl
@[simp] theorem pushWord_dr (w : CmdWord) : (pushWord w s).dr = s.dr := rfl
@[simp] theorem pushWord_rw (w : CmdWord) : (pushWord w s).rw = s.rw := rfl
@[simp] theorem pushWord_stepNo (w : CmdWord) : (pushWord w s).stepNo = s.stepNo := rfl
@[simp] theorem pushWord_base (w : CmdWord) : (pushWord w s).base = s.base := rfl
@[simp] theorem pushWord_cnt (w : CmdWord) : (pushWord w s).cnt = s.cnt := rfl
@[simp] theorem pushWord_idx (w : CmdWord) : (pushWord w s).idx = s.idx := rfl
@[simp] theorem pushWord_phase (w : CmdWord) : (pushWord w s).phase = s.phase := rfl
@[simp] theorem pushWord_target (w : CmdWord) : (pushWord w s).target = s.target := rfl
@[simp] theorem pushWord_ecmem (w : CmdWord) : (pushWord w s).ecmem = s.ecmem := rfl
@[simp] theorem pushWord_env (w : CmdWord) : (pushWord w s).env = s.env := rfl
@[simp] theorem pushWord_host (w : CmdWord) : (pushWord w s).host = .command w :: s.host := rfl
@[simp] theorem pushWord_seen (w : CmdWord) : (pushWord w s).seen = s.seen := rfl
@[simp] theorem pushWord_trace (w : CmdWord) : (pushWord w s).trace = s.trace := rfl
@[simp] theorem pushWord_calls (w : CmdWord) : (pushWord w s).calls = s.calls := rfl

/-! ## readBegun -/

@[simp] theorem readBegun_cfgp (a : Addr) : (readBegun a s).cfgp = s.cfgp := rfl
@[simp] theorem readBegun_en (a : Addr) : (readBegun a s).en = s.en := rfl
@[simp] theorem readBegun_hnd (a : Addr) : (readBegun a s).hnd = s.hnd := rfl
@[simp] theorem readBegun_lastCode (a : Addr) : (readBegun a s).lastCode = s.lastCode := rfl
@[simp] theorem readBegun_lastInfo (a : Addr) : (readBegun a s).lastInfo = s.lastInfo := rfl
@[simp] theorem readBegun_ok (a : Addr) : (readBegun a s).ok = s.ok := rfl
@[simp] theorem readBegun_busy (a : Addr) : (readBegun a s).busy = s.busy := rfl
@[simp] theorem readBegun_res8 (a : Addr) : (readBegun a s).res8 = s.res8 := rfl
@[simp] theorem readBegun_res16 (a : Addr) : (readBegun a s).res16 = s.res16 := rfl
@[simp] theorem readBegun_resx (a : Addr) : (readBegun a s).resx = s.resx := rfl
@[simp] theorem readBegun_xbuf (a : Addr) : (readBegun a s).xbuf = s.xbuf := rfl
@[simp] theorem readBegun_stat (a : Addr) : (readBegun a s).stat = s.stat := rfl
@[simp] theorem readBegun_cfg (a : Addr) : (readBegun a s).cfg = s.cfg := rfl
@[simp] theorem readBegun_ar (a : Addr) : (readBegun a s).ar = a := rfl
@[simp] theorem readBegun_dr (a : Addr) : (readBegun a s).dr = s.dr := rfl
@[simp] theorem readBegun_rw (a : Addr) : (readBegun a s).rw = false := rfl
@[simp] theorem readBegun_stepNo (a : Addr) : (readBegun a s).stepNo = 0 := rfl
@[simp] theorem readBegun_base (a : Addr) : (readBegun a s).base = s.base := rfl
@[simp] theorem readBegun_cnt (a : Addr) : (readBegun a s).cnt = s.cnt := rfl
@[simp] theorem readBegun_idx (a : Addr) : (readBegun a s).idx = s.idx := rfl
@[simp] theorem readBegun_phase (a : Addr) : (readBegun a s).phase = s.phase := rfl
@[simp] theorem readBegun_target (a : Addr) : (readBegun a s).target = s.target := rfl
@[simp] theorem readBegun_ecmem (a : Addr) : (readBegun a s).ecmem = s.ecmem := rfl
@[simp] theorem readBegun_env (a : Addr) : (readBegun a s).env = s.env := rfl
@[simp] theorem readBegun_host (a : Addr) : (readBegun a s).host = s.host := rfl
@[simp] theorem readBegun_seen (a : Addr) : (readBegun a s).seen = s.seen := rfl
@[simp] theorem readBegun_trace (a : Addr) : (readBegun a s).trace = s.trace := rfl
@[simp] theorem readBegun_calls (a : Addr) : (readBegun a s).calls = s.calls := rfl

/-! ## writeBegun -/

@[simp] theorem writeBegun_cfgp (a : Addr) (d : Byte) : (writeBegun a d s).cfgp = s.cfgp := rfl
@[simp] theorem writeBegun_en (a : Addr) (d : Byte) : (writeBegun a d s).en = s.en := rfl
@[simp] theorem writeBegun_hnd (a : Addr) (d : Byte) : (writeBegun a d s).hnd = s.hnd := rfl
@[simp] theorem writeBegun_lastCode (a : Addr) (d : Byte) : (writeBegun a d s).lastCode = s.lastCode := rfl
@[simp] theorem writeBegun_lastInfo (a : Addr) (d : Byte) : (writeBegun a d s).lastInfo = s.lastInfo := rfl
@[simp] theorem writeBegun_ok (a : Addr) (d : Byte) : (writeBegun a d s).ok = s.ok := rfl
@[simp] theorem writeBegun_busy (a : Addr) (d : Byte) : (writeBegun a d s).busy = s.busy := rfl
@[simp] theorem writeBegun_res8 (a : Addr) (d : Byte) : (writeBegun a d s).res8 = s.res8 := rfl
@[simp] theorem writeBegun_res16 (a : Addr) (d : Byte) : (writeBegun a d s).res16 = s.res16 := rfl
@[simp] theorem writeBegun_resx (a : Addr) (d : Byte) : (writeBegun a d s).resx = s.resx := rfl
@[simp] theorem writeBegun_xbuf (a : Addr) (d : Byte) : (writeBegun a d s).xbuf = s.xbuf := rfl
@[simp] theorem writeBegun_stat (a : Addr) (d : Byte) : (writeBegun a d s).stat = s.stat := rfl
@[simp] theorem writeBegun_cfg (a : Addr) (d : Byte) : (writeBegun a d s).cfg = s.cfg := rfl
@[simp] theorem writeBegun_ar (a : Addr) (d : Byte) : (writeBegun a d s).ar = a := rfl
@[simp] theorem writeBegun_dr (a : Addr) (d : Byte) : (writeBegun a d s).dr = d := rfl
@[simp] theorem writeBegun_rw (a : Addr) (d : Byte) : (writeBegun a d s).rw = true := rfl
@[simp] theorem writeBegun_stepNo (a : Addr) (d : Byte) : (writeBegun a d s).stepNo = 0 := rfl
@[simp] theorem writeBegun_base (a : Addr) (d : Byte) : (writeBegun a d s).base = s.base := rfl
@[simp] theorem writeBegun_cnt (a : Addr) (d : Byte) : (writeBegun a d s).cnt = s.cnt := rfl
@[simp] theorem writeBegun_idx (a : Addr) (d : Byte) : (writeBegun a d s).idx = s.idx := rfl
@[simp] theorem writeBegun_phase (a : Addr) (d : Byte) : (writeBegun a d s).phase = s.phase := rfl
@[simp] theorem writeBegun_target (a : Addr) (d : Byte) : (writeBegun a d s).target = s.target := rfl
@[simp] theorem writeBegun_ecmem (a : Addr) (d : Byte) : (writeBegun a d s).ecmem = s.ecmem := rfl
@[simp] theorem writeBegun_env (a : Addr) (d : Byte) : (writeBegun a d s).env = s.env := rfl
@[simp] theorem writeBegun_host (a : Addr) (d : Byte) : (writeBegun a d s).host = s.host := rfl
@[simp] theorem writeBegun_seen (a : Addr) (d : Byte) : (writeBegun a d s).seen = s.seen := rfl
@[simp] theorem writeBegun_trace (a : Addr) (d : Byte) : (writeBegun a d s).trace = s.trace := rfl
@[simp] theorem writeBegun_calls (a : Addr) (d : Byte) : (writeBegun a d s).calls = s.calls := rfl

end Sys2Proof.Laws
end

