-- ==== Sys2Proof/Laws/Access.lean ====
section
/-!
SUPPORT. The eight-step access: what a complete one does in a quiet environment, and what it does with EN = 0.
-/
namespace Sys2Proof.Laws
open Sys2Proof Sys2Proof.Machine

/-- The parts of R7 an access rests on. -/
structure PortsOk (c : Cfgp) : Prop where
  ports : c.pAddr ≠ c.pData
  cb0_ixHi : c.cb0 ≠ c.ixHi
  cb0_ixLo : c.cb0 ≠ c.ixLo
  cb0_ixDp : c.cb0 ≠ c.ixDp
  ixHi_ixLo : c.ixHi ≠ c.ixLo
  ixHi_ixDp : c.ixHi ≠ c.ixDp
  ixLo_ixDp : c.ixLo ≠ c.ixDp

theorem portsOk_of_configOk {c : Cfgp} (h : configOk c = true) : PortsOk c := by
  simp only [configOk, distinct, Bool.and_eq_true, bne_iff_ne, List.contains_cons, List.contains_nil, Bool.or_false,
    Bool.not_eq_true', Bool.or_eq_false_iff, beq_eq_false_iff_ne] at h
  obtain ⟨⟨⟨⟨⟨⟨⟨⟨h1, h2⟩, -⟩, -⟩, -⟩, -⟩, -⟩, -⟩, -⟩ := h
  obtain ⟨⟨h3, h4, h5⟩, ⟨h6, h7⟩, h8, -⟩ := h2
  exact ⟨h1, h3, h4, h5, h6, h7, h8⟩

@[simp] theorem value_of {α : Type} (v : α) : (Reg.of v).value = some v := rfl

@[simp] theorem known_some {α : Type} (p : Place) (v : α) (s : State) : known p (some v) s = .ok v s := rfl

@[simp] theorem known_none {α : Type} (p : Place) (s : State) :
    known p (none : Option α) s = .fault (.readUnspecified p) := rfl

@[simp] theorem cat16_bytes (a : Addr) : cat16 (hiByte a) (loByte a) = a := by
  apply BitVec.eq_of_getLsbD_eq
  intro i hi
  simp only [cat16, hiByte, loByte, BitVec.getLsbD_append, BitVec.getLsbD_extractLsb']
  by_cases h : i < 8
  · simp [h]
  · simp [h, show i - 8 < 8 by omega, show 8 + (i - 8) = i by omega]

/-! ## What becomes of the next port operations -/

/-- What cuts the next port operation that reaches the bus, if anything does (R228, R252). -/
def fate (c : Cfgp) (e : Env) : Option Cut :=
  match (drawSlot c e).1.event with
  | .complete => none
  | .fault => if c.gwFaults then some .gatewayFault else none
  | .powerLoss => some .powerLoss

/-- The environment after `n` port operations. -/
def envAfter (c : Cfgp) : Nat → Env → Env
  | 0, e => e
  | n + 1, e => (drawSlot c (envAfter c n e)).2

/-- No foreign master moves before the next `n` port operations, as long as none is cut. -/
def Calm (c : Cfgp) (n : Nat) (e : Env) : Prop :=
  ∀ i, i < n → (∀ k, k < i → fate c (envAfter c k e) = none) → (drawSlot c (envAfter c i e)).1.noForeign = true

theorem envAfter_succ (c : Cfgp) (n : Nat) (e : Env) : envAfter c (n + 1) e = envAfter c n (drawSlot c e).2 := by
  induction n with
  | zero => rfl
  | succ n ih => rw [envAfter, ih, envAfter]

theorem envAfter_noForeign (c : Cfgp) (n : Nat) {e : Env} (h : e.noForeign = true) : (envAfter c n e).noForeign = true := by
  induction n with
  | zero => exact h
  | succ n ih => exact (drawSlot_noForeign c ih).2

theorem envAfter_noPowerLoss (c : Cfgp) (n : Nat) {e : Env} (h : e.noPowerLoss = true) :
    (envAfter c n e).noPowerLoss = true := by
  induction n with
  | zero => exact h
  | succ n ih => exact (drawSlot_noPowerLoss c ih).2

theorem Calm.of_noForeign (c : Cfgp) (n : Nat) {e : Env} (h : e.noForeign = true) : Calm c n e :=
  fun i _ _ => (drawSlot_noForeign c (envAfter_noForeign c i h)).1

theorem fate_ne_powerLoss (c : Cfgp) {e : Env} (h : e.noPowerLoss = true) : fate c e ≠ some .powerLoss := by
  have := (drawSlot_noPowerLoss c h).1
  unfold fate
  split <;> simp_all

theorem fate_gatewayFault {c : Cfgp} {e : Env} (h : fate c e = some .gatewayFault) : c.gwFaults = true := by
  unfold fate at h
  split at h <;> simp_all

/-- Quiet port operations: no foreign bus event, nothing cut. -/
theorem quietFor_split (c : Cfgp) (k n : Nat) (e : Env) (h : quietFor c (n + k) e = true) :
    (∀ i, i < k → (drawSlot c (envAfter c i e)).1.noForeign = true ∧ fate c (envAfter c i e) = none)
      ∧ quietFor c n (envAfter c k e) = true := by
  induction k generalizing e with
  | zero => exact ⟨fun i hi => absurd hi (Nat.not_lt_zero i), h⟩
  | succ k ih =>
    simp only [quietFor, Slot.quiet, Bool.and_eq_true, Bool.or_eq_true, beq_iff_eq,
      Bool.not_eq_true'] at h
    obtain ⟨⟨hf, he⟩, hq⟩ := h
    obtain ⟨h1, h2⟩ := ih _ hq
    refine ⟨fun i hi => ?_, by rw [envAfter_succ]; exact h2⟩
    cases i with
    | zero => refine ⟨hf, ?_⟩; rcases he with he | ⟨he, hg⟩ <;> simp [envAfter, fate, *]
    | succ i => rw [envAfter_succ]; exact h1 i (by omega)

/-- What is to come: `n` quiet port operations, and, where `f` is set, after them one that the gateway faults. -/
def ahead (f : Bool) (c : Cfgp) (n : Nat) (e : Env) : Bool :=
  match f with
  | false => quietFor c n e
  | true => faultAfter c n e

/-- The first `k` port operations are quiet, and the rest is to come. -/
theorem ahead_split (f : Bool) (c : Cfgp) (k n : Nat) (e : Env) (h : ahead f c (n + k) e = true) :
    (∀ i, i < k → (drawSlot c (envAfter c i e)).1.noForeign = true ∧ fate c (envAfter c i e) = none)
      ∧ ahead f c n (envAfter c k e) = true := by
  cases f with
  | false => exact quietFor_split c k n e h
  | true =>
    simp only [ahead] at h ⊢
    induction k generalizing e with
    | zero => exact ⟨fun i hi => absurd hi (Nat.not_lt_zero i), h⟩
    | succ k ih =>
      rw [show n + (k + 1) = (n + k) + 1 by omega] at h
      simp only [faultAfter, Slot.quiet, Bool.and_eq_true, Bool.or_eq_true, beq_iff_eq, Bool.not_eq_true'] at h
      obtain ⟨⟨hf, he⟩, hq⟩ := h
      obtain ⟨h1, h2⟩ := ih _ hq
      refine ⟨fun i hi => ?_, by rw [envAfter_succ]; exact h2⟩
      cases i with
      | zero => refine ⟨hf, ?_⟩; rcases he with he | ⟨he, hg⟩ <;> simp [envAfter, fate, *]
      | succ i => rw [envAfter_succ]; exact h1 i (by omega)

theorem ahead_bytesDrawn (f : Bool) (c : Cfgp) (n k : Nat) (e : Env) :
    ahead f c n { e with bytesDrawn := k } = ahead f c n e := by
  cases f with
  | false => exact quietFor_bytesDrawn c n k e
  | true => exact faultAfter_bytesDrawn c n k e

/-- The gateway faults the port operation after `j` quiet ones (R228). -/
theorem faultAfter_split (c : Cfgp) (j : Nat) (e : Env) (h : faultAfter c j e = true) :
   (∀ i, i < j → (drawSlot c (envAfter c i e)).1.noForeign = true ∧ fate c (envAfter c i e) = none)
   ∧ (drawSlot c (envAfter c j e)).1.noForeign = true ∧ fate c (envAfter c j e) = some .gatewayFault := by
  induction j generalizing e with
  | zero =>
    simp only [faultAfter, Bool.and_eq_true, beq_iff_eq] at h
    exact ⟨fun i hi => absurd hi (Nat.not_lt_zero i), h.1.1, by simp [envAfter, fate, h]⟩
  | succ j ih =>
    simp only [faultAfter, Slot.quiet, Bool.and_eq_true, Bool.or_eq_true, beq_iff_eq, Bool.not_eq_true'] at h
    obtain ⟨⟨hf, he⟩, hq⟩ := h
    obtain ⟨h1, h2⟩ := ih _ hq
    refine ⟨fun i hi => ?_, by rw [envAfter_succ]; exact h2⟩
    cases i with
    | zero => refine ⟨hf, ?_⟩; rcases he with he | ⟨he, hg⟩ <;> simp [envAfter, fate, *]
    | succ i => rw [envAfter_succ]; exact h1 i (by omega)

/-- The gate before a port operation when no foreign master moves: only the EC firmware's own writes, then the operation
or the cut. -/
theorem gated_calm {α : Type} (k : State → Res α) (s : State) (h : (drawSlot s.cfgp s.env).1.noForeign = true) :
    ∃ m, EcDrift s.cfgp.volatile s.ecmem m ∧
      gated k s = match fate s.cfgp s.env with
        | none => k { s with ecmem := m, env := (drawSlot s.cfgp s.env).2 }
        | some c => .cut c { s with ecmem := m, env := (drawSlot s.cfgp s.env).2 } := by
  obtain ⟨m, hm, hd⟩ := takeSlot_drift s h
  refine ⟨m, hd, ?_⟩
  simp only [gated, hm, bind_ok, fate]
  cases (drawSlot s.cfgp s.env).1.event with
  | complete => rfl
  | powerLoss => rfl
  | fault => by_cases hg : s.cfgp.gwFaults <;> simp [hg]

/-! ## The rows of an access, without foreign bus events -/

/-- An access begun in `s` (`AR`, `DR`, `RW` loaded), after `j` of its rows. -/
def rowsDone (s : State) (j : Nat) (m : Memory) (e : Env) : State :=
  { s with ecmem := m, env := e, stepNo := BitVec.ofNat 3 j, target := latchesAfter s.cfgp s.ar s.target j,
           trace := s.trace ++ (preEvents s.cfgp s.ar).take j }

/-- The first `j` rows of the access begun in `s` are done and none was cut. -/
def Midway (s : State) (j : Nat) (t : State) : Prop :=
  ∃ m, EcDrift s.cfgp.volatile s.ecmem m ∧ (∀ i, i < j → fate s.cfgp (envAfter s.cfgp i s.env) = none)
    ∧ t = rowsDone s j m (envAfter s.cfgp j s.env)

/-- The access begun in `s` was cut after `j` of its rows, for some `j` below 8 (R228, R252). -/
def Stopped (s : State) (c : Cut) (t : State) : Prop :=
  ∃ j m, j < 8 ∧ EcDrift s.cfgp.volatile s.ecmem m ∧ (∀ i, i < j → fate s.cfgp (envAfter s.cfgp i s.env) = none)
    ∧ fate s.cfgp (envAfter s.cfgp j s.env) = some c ∧ t = rowsDone s j m (envAfter s.cfgp (j + 1) s.env)

/-- A port operation of row `j`: it is cut, or it is done where the environment has left `ECMEM`. -/
theorem row_calm {α : Type} {Q : α → State → Prop} {F : Fault → Prop} {R : Refusal → Prop} {s t : State} {j : Nat}
    (k : State → Res α) (hj : j < 8) (hc : Calm s.cfgp 8 s.env) (h : Midway s j t)
    (hk : ∀ m, EcDrift s.cfgp.volatile s.ecmem m → (∀ i, i < j + 1 → fate s.cfgp (envAfter s.cfgp i s.env) = none) →
      Sat Q (Stopped s) F R (k (rowsDone s j m (envAfter s.cfgp (j + 1) s.env)))) :
    Sat Q (Stopped s) F R (gated k t) := by
  obtain ⟨m, hd, hf, rfl⟩ := h
  obtain ⟨m', hd', he⟩ := gated_calm k (rowsDone s j m (envAfter s.cfgp j s.env)) (hc j hj hf)
  rw [he]
  have hd'' : EcDrift s.cfgp.volatile s.ecmem m' := hd.trans hd'
  cases hfate : fate s.cfgp (envAfter s.cfgp j s.env) with
  | none =>
    simp only [rowsDone, hfate]
    refine hk m' hd'' fun i hi => ?_
    rcases Nat.lt_succ_iff_lt_or_eq.mp hi with hi | rfl
    · exact hf i hi
    · exact hfate
  | some c =>
    simp only [rowsDone, hfate]
    exact ⟨j, m', hj, hd'', hf, hfate, rfl⟩

/-- Row `j` of the step table, for the rows that are the same in both directions (R150). -/
theorem preRow_calm {s t : State} {j : Nat} (hj : j < 7) (he : s.en = true) (hp : PortsOk s.cfgp)
    (hc : Calm s.cfgp 8 s.env) (h : Midway s j t) (r : StepRow) (hr : stepTable[j]? = some r) :
    Sat (fun _ u => Midway s (j + 1) u) (Stopped s) (fun _ => False) (fun _ => False) (issueRow r t) := by
  have hen : t.en = true := by obtain ⟨m, -, -, rfl⟩ := h; exact he
  have hcfg : t.cfgp = s.cfgp := by obtain ⟨m, -, -, rfl⟩ := h; rfl
  have har : t.ar = s.ar := by obtain ⟨m, -, -, rfl⟩ := h; rfl
  have key : ∀ (p : Port) (v : Byte) (b : Target),
      (∀ m e, targetWrite p v (rowsDone s j m e) = .ok () { rowsDone s j m e with target := b }) →
      b = latchesAfter s.cfgp s.ar s.target (j + 1) →
      (preEvents s.cfgp s.ar).take (j + 1) = (preEvents s.cfgp s.ar).take j ++ [.write .ecseq p v] →
      Sat (fun _ u => Midway s (j + 1) u) (Stopped s) (fun _ => False) (fun _ => False)
        ((gwWrite p v t).bind fun _ s => .ok () (advance s)) := by
    intro p v b hw hb htr
    rw [gwWrite, if_pos hen]
    refine Sat.bind (Q := fun _ u => ∃ m, EcDrift s.cfgp.volatile s.ecmem m
      ∧ (∀ i, i < j + 1 → fate s.cfgp (envAfter s.cfgp i s.env) = none)
      ∧ u = record (.write .ecseq p v) { rowsDone s j m (envAfter s.cfgp (j + 1) s.env) with target := b })
      (row_calm _ (by omega) hc h fun m hd hf => ?_) ?_
    · rw [busWrite, hw, bind_ok]
      exact ⟨m, hd, hf, rfl⟩
    · rintro _ _ ⟨m, hd, hf, rfl⟩
      refine ⟨m, hd, hf, ?_⟩
      subst hb
      simp only [advance, record, rowsDone, htr, List.append_assoc, BitVec.ofNat_add]
      rfl
  obtain rfl | rfl | rfl | rfl | rfl | rfl | rfl : j = 0 ∨ j = 1 ∨ j = 2 ∨ j = 3 ∨ j = 4 ∨ j = 5 ∨ j = 6 := by omega
  all_goals
    obtain rfl := Option.some.inj hr
    simp only [issueRow, Bool.false_and, Bool.false_eq_true, if_false, portOf, srcByte, hcfg, har]
    refine key _ _ _ (fun m e => ?_) rfl rfl
    simp [targetWrite, targetWriteData, rowsDone, latchesAfter, latchedAt, hp.ports.symm, hp.cb0_ixHi.symm,
      hp.cb0_ixLo.symm, hp.ixHi_ixLo.symm]

/-- Rows 0 to 6 (R150, R157): the latches hold the address whatever they held before. -/
theorem preRows_calm {s : State} (he : s.en = true) (hp : PortsOk s.cfgp) (hc : Calm s.cfgp 8 s.env) (h0 : s.stepNo = 0) :
    Sat (fun _ u => Midway s 7 u) (Stopped s) (fun _ => False) (fun _ => False) (forEach issueRow (stepTable.take 7) s) := by
  have hs : Midway s 0 s :=
    ⟨s.ecmem, EcDrift.refl _ _, fun i hi => absurd hi (Nat.not_lt_zero i), by
      cases s; cases h0; simp [rowsDone, latchesAfter, envAfter]⟩
  simp only [stepTable, List.take_succ_cons, List.take_zero, forEach_cons, forEach_nil]
  refine (preRow_calm (by omega) he hp hc hs _ rfl).bind fun _ t ht => ?_
  refine (preRow_calm (by omega) he hp hc ht _ rfl).bind fun _ t ht => ?_
  refine (preRow_calm (by omega) he hp hc ht _ rfl).bind fun _ t ht => ?_
  refine (preRow_calm (by omega) he hp hc ht _ rfl).bind fun _ t ht => ?_
  refine (preRow_calm (by omega) he hp hc ht _ rfl).bind fun _ t ht => ?_
  refine (preRow_calm (by omega) he hp hc ht _ rfl).bind fun _ t ht => ?_
  exact (preRow_calm (by omega) he hp hc ht _ rfl).bind fun _ t ht => ht

/-! ## Accesses without foreign bus events -/

/-- An access begun in `s` is complete: `ECMEM` is `m`, and the last event was `last`. -/
def accessDone (s : State) (m : Memory) (e : Env) (last : BusEvent) : State :=
  { s with ecmem := m, env := e, stepNo := 0, target := latchedAt s.cfgp s.ar,
           trace := s.trace ++ (preEvents s.cfgp s.ar ++ [last]) }

/-- Everything `EcWrite` can do without foreign bus events (R152): the byte is in `ECMEM` and the trace is the eight events,
or it was cut. -/
theorem ecWrite_calm (a : Addr) (d : Byte) (s : State) (he : s.en = true) (hp : PortsOk s.cfgp)
    (hc : Calm s.cfgp 8 s.env) :
    Sat (fun _ t => ∃ m, EcDrift s.cfgp.volatile s.ecmem m
        ∧ (∀ i, i < 8 → fate s.cfgp (envAfter s.cfgp i s.env) = none)
        ∧ t = accessDone (writeBegun a d s) (m.put a.toNat d) (envAfter s.cfgp 8 s.env) (.write .ecseq s.cfgp.pData d))
      (Stopped (writeBegun a d s)) (fun _ => False) (fun _ => False) (ecWrite a d s) := by
  have hsplit : stepTable = stepTable.take 7 ++ [⟨.data, true, .dr⟩] := rfl
  rw [ecWrite, hsplit, forEach_append]
  refine (preRows_calm (s := writeBegun a d s) he hp hc rfl).bind fun _ t ht => ?_
  have hrw : t.rw = true := by obtain ⟨m, -, -, rfl⟩ := ht; rfl
  have hdr : t.dr = d := by obtain ⟨m, -, -, rfl⟩ := ht; rfl
  have hen : t.en = true := by obtain ⟨m, -, -, rfl⟩ := ht; exact he
  have hcfg : t.cfgp = s.cfgp := by obtain ⟨m, -, -, rfl⟩ := ht; rfl
  simp only [forEach_cons, forEach_nil, issueRow, hrw, Bool.not_true, Bool.and_false, Bool.false_eq_true, if_false,
    portOf, srcByte, hdr, hcfg, gwWrite, hen, if_true, bind_assoc, bind_ok]
  refine Sat.bind (Q := fun _ u => ∃ m, EcDrift s.cfgp.volatile s.ecmem m
      ∧ (∀ i, i < 8 → fate s.cfgp (envAfter s.cfgp i s.env) = none)
      ∧ u = record (.write .ecseq s.cfgp.pData d)
        (writeEc a d (rowsDone (writeBegun a d s) 7 m (envAfter s.cfgp 8 s.env))))
    (row_calm _ (by omega) hc ht fun m hd hf => ?_) ?_
  · have : busWrite .ecseq s.cfgp.pData d (rowsDone (writeBegun a d s) 7 m (envAfter s.cfgp 8 s.env))
        = .ok () (record (.write .ecseq s.cfgp.pData d)
          (writeEc a d (rowsDone (writeBegun a d s) 7 m (envAfter s.cfgp 8 s.env)))) := by
      simp [busWrite, targetWrite, hp.ports.symm, targetWriteData, rowsDone, writeBegun, latchesAfter, latchedAt,
        hp.cb0_ixDp.symm, hp.ixHi_ixDp.symm, hp.ixLo_ixDp.symm, latchedAddr]
    exact this ▸ ⟨m, hd, hf, rfl⟩
  · rintro _ _ ⟨m, hd, hf, rfl⟩
    exact ⟨m, hd, hf, by simp [advance, record, writeEc, rowsDone, accessDone, writeBegun, preEvents, latchesAfter]⟩

/-- Everything `EcRead` can do without foreign bus events (R151): a byte the register may give and the eight events, or it
was cut, or the register has no byte to give (U1, U5). -/
theorem ecRead_calm (a : Addr) (s : State) (he : s.en = true) (hp : PortsOk s.cfgp) (hc : Calm s.cfgp 8 s.env) :
    Sat (fun v t => ∃ m k, EcDrift s.cfgp.volatile s.ecmem m ∧ readable s a ∧ (mayRead s a v ∧ m.byteAt a.toNat = some v)
        ∧ (∀ i, i < 8 → fate s.cfgp (envAfter s.cfgp i s.env) = none)
        ∧ t = accessDone { readBegun a s with dr := v } m { envAfter s.cfgp 8 s.env with bytesDrawn := k }
            (.read .ecseq s.cfgp.pData v))
      (Stopped (readBegun a s)) (fun f => f = .readUnspecified (.ecmem a) ∧ ¬ readable s a
        ∧ ∀ i, i < 8 → fate s.cfgp (envAfter s.cfgp i s.env) = none) (fun _ => False)
      (ecRead a s) := by
  have hsplit : stepTable = stepTable.take 7 ++ [⟨.data, true, .dr⟩] := rfl
  rw [ecRead, hsplit, forEach_append, bind_assoc]
  refine Sat.bind ((preRows_calm (s := readBegun a s) he hp hc rfl).mono (fun _ _ h => h) (fun _ _ h => h)
    (fun _ h => h.elim) (fun _ h => h.elim)) fun _ t ht => ?_
  have hrw : t.rw = false := by obtain ⟨m, -, -, rfl⟩ := ht; rfl
  have hen : t.en = true := by obtain ⟨m, -, -, rfl⟩ := ht; exact he
  have hcfg : t.cfgp = s.cfgp := by obtain ⟨m, -, -, rfl⟩ := ht; rfl
  simp only [forEach_cons, forEach_nil, issueRow, hrw, Bool.not_false, Bool.and_true, if_true,
    portOf, hcfg, gwRead, hen, bind_assoc, bind_ok]
  refine Sat.bind (Q := fun v u => ∃ m k, EcDrift s.cfgp.volatile s.ecmem m ∧ readable s a
      ∧ (mayRead s a v ∧ m.byteAt a.toNat = some v)
      ∧ (∀ i, i < 8 → fate s.cfgp (envAfter s.cfgp i s.env) = none)
      ∧ u = record (.read .ecseq s.cfgp.pData v)
        (rowsDone (readBegun a s) 7 m { envAfter s.cfgp 8 s.env with bytesDrawn := k }))
    (row_calm _ (by omega) hc ht fun m hd hf => ?_) ?_
  · have hb : busRead .ecseq s.cfgp.pData (rowsDone (readBegun a s) 7 m (envAfter s.cfgp 8 s.env))
        = (readEc a (rowsDone (readBegun a s) 7 m (envAfter s.cfgp 8 s.env))).bind fun v u =>
          .ok v (record (.read .ecseq s.cfgp.pData v) u) := by
      simp [busRead, targetRead, hp.ports.symm, targetReadData, rowsDone, readBegun, latchesAfter, latchedAt, latchedAddr]
    refine hb ▸ ?_
    have hm : (rowsDone (readBegun a s) 7 m (envAfter s.cfgp 8 s.env)).ecmem = m := rfl
    cases hbyte : m.byteAt a.toNat with
    | some v =>
      simp only [readEc, hm, hbyte, bind_ok]
      refine ⟨m, _, hd, ?_, ⟨?_, hbyte⟩, hf, rfl⟩
      · by_cases hv : a ∈ s.cfgp.volatile
        · exact .inr hv
        · exact .inl ((hd.kept a hv).symm.trans hbyte ▸ nofun)
      · by_cases hv : a ∈ s.cfgp.volatile
        · exact .inl hv
        · exact .inr ((hd.kept a hv).symm.trans hbyte)
    | none =>
      have hcfg' : (rowsDone (readBegun a s) 7 m (envAfter s.cfgp 8 s.env)).cfgp = s.cfgp := rfl
      by_cases hv : a ∈ s.cfgp.volatile
      · simp only [readEc, hm, hbyte, hcfg', List.contains_iff_mem, hv, if_true, bind_ok]
        exact ⟨_, _, hd.trans (EcDrift.put m _ hv), .inr hv, ⟨.inl hv, by simp⟩, hf, rfl⟩
      · simp only [readEc, hm, hbyte, hcfg', List.contains_iff_mem, hv, if_false, bind_fault]
        exact ⟨rfl, fun hr => hr.elim (fun hr => hd.listed a hr hbyte) hv, hf⟩
  · rintro v _ ⟨m, k, hd, hr, hmay, hf, rfl⟩
    exact ⟨m, k, hd, hr, hmay, hf,
      by simp [advance, record, rowsDone, accessDone, readBegun, preEvents, latchesAfter]⟩

/-! ## Accesses in a quiet environment -/

variable {f : Bool}

/-- Where the environment leaves `ECMEM` and itself after quiet port operations, with `n` quiet ones to come. -/
structure Drifted (f : Bool) (s : State) (n : Nat) (m : Memory) (e : Env) : Prop where
  drift : EcDrift s.cfgp.volatile s.ecmem m
  quiet : ahead f s.cfgp n e = true

theorem calm_of_quiet {c : Cfgp} {n : Nat} {e : Env} (h : ahead f c (n + 8) e = true) : Calm c 8 e :=
  fun i hi _ => ((ahead_split f c 8 n e h).1 i hi).1

theorem not_stopped_of_quiet {s : State} {n : Nat} (h : ahead f s.cfgp (n + 8) s.env = true) (c : Cut) (t : State) :
    ¬ Stopped s c t := by
  rintro ⟨j, m, hj, -, -, hf, -⟩
  rw [((ahead_split f _ 8 n _ h).1 j hj).2] at hf
  cases hf

/-- `EcWrite` in a quiet environment (R152, R157): the byte is in `ECMEM`, the trace is the eight events. -/
theorem ecWrite_quiet (a : Addr) (d : Byte) (s : State) (n : Nat) (he : s.en = true) (hc : PortsOk s.cfgp)
    (hq : ahead f s.cfgp (n + 8) s.env = true) :
    ∃ m e, Drifted f s n m e ∧ ecWrite a d s = .ok () { s with
      ar := a, dr := d, rw := true, stepNo := 0, ecmem := m.put a.toNat d, env := e, target := latchedAt s.cfgp a,
      trace := s.trace ++ writeEvents s.cfgp a d } := by
  have h := ecWrite_calm a d s he hc (calm_of_quiet hq)
  cases hw : ecWrite a d s with
  | ok u t =>
    rw [hw] at h
    obtain ⟨m, hd, -, rfl⟩ := h
    exact ⟨m, _, ⟨hd, (ahead_split f _ 8 n _ hq).2⟩, rfl⟩
  | cut c t => rw [hw] at h; exact absurd h (not_stopped_of_quiet (s := writeBegun a d s) hq c t)
  | fault f => rw [hw] at h; exact h.elim
  | refused r => rw [hw] at h; exact h.elim

/-- `EcRead` in a quiet environment of a register that has a byte (R151, R157). -/
theorem ecRead_quiet (a : Addr) (s : State) (n : Nat) (he : s.en = true) (hc : PortsOk s.cfgp)
    (hq : ahead f s.cfgp (n + 8) s.env = true) (hr : readable s a) :
    ∃ v m e, Drifted f s n m e ∧ (mayRead s a v ∧ m.byteAt a.toNat = some v) ∧ ecRead a s = .ok v { s with
      ar := a, dr := v, rw := false, stepNo := 0, ecmem := m, env := e, target := latchedAt s.cfgp a,
      trace := s.trace ++ readEvents s.cfgp a v } := by
  have h := ecRead_calm a s he hc (calm_of_quiet hq)
  cases hw : ecRead a s with
  | ok v t =>
    rw [hw] at h
    obtain ⟨m, k, hd, -, hm, -, rfl⟩ := h
    exact ⟨v, m, _, ⟨hd, by rw [ahead_bytesDrawn]; exact (ahead_split f _ 8 n _ hq).2⟩, hm, rfl⟩
  | cut c t => rw [hw] at h; exact absurd h (not_stopped_of_quiet (s := readBegun a s) hq c t)
  | fault f => rw [hw] at h; exact absurd hr h.2.1
  | refused r => rw [hw] at h; exact h.elim

/-- `EcRead` in a quiet environment of a register that has no byte and is not the EC's own: the model's fault (U1, U5). -/
theorem ecRead_unspecified (a : Addr) (s : State) (he : s.en = true) (hc : PortsOk s.cfgp)
    (hq : quietFor s.cfgp 8 s.env = true) (hr : ¬ readable s a) :
    ecRead a s = .fault (.readUnspecified (.ecmem a)) := by
  have h := ecRead_calm a s he hc (calm_of_quiet (f := false) (n := 0) hq)
  cases hw : ecRead a s with
  | ok v t =>
    rw [hw] at h
    obtain ⟨m, k, -, hr', -⟩ := h
    exact absurd hr' hr
  | cut c t => rw [hw] at h; exact absurd h (not_stopped_of_quiet (f := false) (s := readBegun a s) (n := 0) hq c t)
  | fault f => rw [hw] at h; rw [h.1]
  | refused r => rw [hw] at h; exact h.elim

/-! ## Accesses the gateway cuts (R228) -/

/-- The one way an access is stopped where the gateway faults the port operation after `j` quiet ones. -/
theorem stopped_of_fault {s t : State} {c : Cut} {j : Nat} (hf : faultAfter s.cfgp j s.env = true) (h : Stopped s c t) :
    ∃ m e, EcDrift s.cfgp.volatile s.ecmem m ∧ c = .gatewayFault ∧ t = rowsDone s j m e := by
  obtain ⟨h1, -, h3⟩ := faultAfter_split _ _ _ hf
  obtain ⟨k, m, -, hd, hn, hc, rfl⟩ := h
  rcases Nat.lt_trichotomy k j with hk | rfl | hk
  · rw [(h1 k hk).2] at hc; cases hc
  · rw [h3] at hc; exact ⟨m, _, hd, (Option.some.inj hc).symm, rfl⟩
  · have := hn j hk; rw [h3] at this; cases this

theorem calm_of_fault {c : Cfgp} {j : Nat} {e : Env} (hf : faultAfter c j e = true) : Calm c 8 e := by
  obtain ⟨h1, h2, h3⟩ := faultAfter_split _ _ _ hf
  intro i hi hk
  rcases Nat.lt_trichotomy i j with h | rfl | h
  · exact (h1 i h).1
  · exact h2
  · have := hk j h; rw [h3] at this; cases this

theorem not_all_of_fault {c : Cfgp} {j : Nat} {e : Env} (hj : j < 8) (hf : faultAfter c j e = true) :
    ¬ ∀ i, i < 8 → fate c (envAfter c i e) = none := fun h => by
  have := h j hj; rw [(faultAfter_split _ _ _ hf).2.2] at this; cases this

/-- `EcRead` where the gateway faults port operation `j`: cut there, `j` rows done. -/
theorem ecRead_cut (a : Addr) (s : State) {j : Nat} (he : s.en = true) (hp : PortsOk s.cfgp) (hj : j < 8)
    (hf : faultAfter s.cfgp j s.env = true) :
    ∃ m e, EcDrift s.cfgp.volatile s.ecmem m ∧ ecRead a s = .cut .gatewayFault (rowsDone (readBegun a s) j m e) := by
  have h := ecRead_calm a s he hp (calm_of_fault hf)
  cases hx : ecRead a s with
  | ok v t => rw [hx] at h; obtain ⟨m, k, -, -, -, hn, -⟩ := h; exact absurd hn (not_all_of_fault hj hf)
  | refused r => rw [hx] at h; exact h.elim
  | fault x => rw [hx] at h; exact absurd h.2.2 (not_all_of_fault hj hf)
  | cut c t =>
    rw [hx] at h
    obtain ⟨m, e, hd, rfl, rfl⟩ := stopped_of_fault (s := readBegun a s) hf h
    exact ⟨m, e, hd, rfl⟩

/-- `EcWrite` where the gateway faults port operation `j`: cut there, `j` rows done. -/
theorem ecWrite_cut (a : Addr) (d : Byte) (s : State) {j : Nat} (he : s.en = true) (hp : PortsOk s.cfgp) (hj : j < 8)
    (hf : faultAfter s.cfgp j s.env = true) :
    ∃ m e, EcDrift s.cfgp.volatile s.ecmem m ∧ ecWrite a d s = .cut .gatewayFault (rowsDone (writeBegun a d s) j m e) := by
  have h := ecWrite_calm a d s he hp (calm_of_fault hf)
  cases hx : ecWrite a d s with
  | ok v t => rw [hx] at h; obtain ⟨m, -, hn, -⟩ := h; exact absurd hn (not_all_of_fault hj hf)
  | refused r => rw [hx] at h; exact h.elim
  | fault x => rw [hx] at h; exact h.elim
  | cut c t =>
    rw [hx] at h
    obtain ⟨m, e, hd, rfl, rfl⟩ := stopped_of_fault (s := writeBegun a d s) hf h
    exact ⟨m, e, hd, rfl⟩

/-! ## Accesses with EN = 0 (R133, R134, R140) -/

/-- `EcWrite` with `EN = 0`: nothing but the sequencer's own registers. -/
theorem ecWrite_disabled (a : Addr) (d : Byte) (s : State) (he : s.en = false) :
    ecWrite a d s = .ok () { s with ar := a, dr := d, rw := true, stepNo := 0 } := by
  simp [ecWrite, writeBegun, stepTable, issueRow, gwWrite, he, advance]

/-- `EcRead` with `EN = 0`: the silent zero, and nothing but the sequencer's own registers. -/
theorem ecRead_disabled (a : Addr) (s : State) (he : s.en = false) :
    ecRead a s = .ok 0 { s with ar := a, dr := 0, rw := false, stepNo := 0 } := by
  simp [ecRead, readBegun, stepTable, issueRow, gwWrite, gwRead, he, advance]

end Sys2Proof.Laws
end

