-- ==== Sys2Proof/Laws/Frame.lean ====
section
/-!
SUPPORT. What an operation inside a command can change in ANY environment: the registers it keeps, the events it issues, the
invariant it carries. One relation, `Acts`, one lemma per shared operation.
-/
namespace Sys2Proof.Laws
open Sys2Proof Sys2Proof.Machine

/-- Which registers an operation may write, beside those of the sequencer and the EC side. -/
structure May where
  enable : Bool := false
  res8 : Bool := false
  res16 : Bool := false
  resx : Bool := false
  xbuf : Bool := false
  stat : Bool := false
  err : Bool := false

/-- The part of the invariant that holds inside a command as well. -/
def InvBody (s : State) : Prop :=
  Memory.wf s.ecmem = true ∧ Memory.below 65536 s.ecmem = true
  ∧ Memory.wf s.xbuf = true ∧ Memory.below s.cfgp.xbufSize s.xbuf = true
  ∧ (∀ t : Fin 10, s.cfg[t].inOrder s.cfgp = true)
  ∧ s.hnd = s.en
  ∧ (s.lastCode ≠ .initFailure → s.lastInfo = 0) ∧ s.lastInfo < 2 ^ s.cfgp.statusW
  ∧ hiByte s.stat.fwVer.val = 0

/-- What every operation inside a command keeps. -/
structure Kept (w : May) (s t : State) : Prop where
  cfgp : t.cfgp = s.cfgp
  enable : w.enable = false → t.en = s.en ∧ t.hnd = s.hnd ∧ t.calls = s.calls
  busy : t.busy = s.busy
  ok : t.ok = s.ok
  res8 : w.res8 = false → t.res8 = s.res8
  res16 : w.res16 = false → t.res16 = s.res16
  resx : w.resx = false → t.resx = s.resx
  xbuf : w.xbuf = false → t.xbuf = s.xbuf
  stat : w.stat = false → t.stat = s.stat
  err : w.err = false → t.lastCode = s.lastCode ∧ t.lastInfo = s.lastInfo
  cfg : t.cfg = s.cfg
  host : t.host = s.host
  seen : t.seen = s.seen
  phase : t.phase = s.phase
  power : s.env.noPowerLoss = true → t.env.noPowerLoss = true
  inv : configOk s.cfgp = true → InvBody s → InvBody t

/-- The events ECSEQ issued from `s` to `t`. -/
def Ours (s t : State) (es : List BusEvent) : Prop := ∃ l, t.trace = s.trace ++ l ∧ l.filter BusEvent.ours = es

/-- An operation that is done: what it keeps, at most `n` complete accesses issued, none with `EN = 0`. -/
structure Acts (w : May) (n : Nat) (s t : State) : Prop extends Kept w s t where
  step : s.stepNo = 0 → t.stepNo = 0
  trace : ∃ done : List Access, Ours s t (done.flatMap (Access.events s.cfgp)) ∧ done.length ≤ n
  silent : s.en = false → t.trace = s.trace

/-- An operation that was cut: what it keeps, fewer than `n` complete accesses and part of one issued, and why it was cut. -/
structure ActsCut (w : May) (n : Nat) (c : Cut) (s t : State) : Prop extends Kept w s t where
  trace : ∃ (done : List Access) (last : Access) (j : Nat), j < 8 ∧ done.length < n
    ∧ Ours s t (done.flatMap (Access.events s.cfgp) ++ (last.events s.cfgp).take j)
  enabled : s.en = true
  powerLoss : c = .powerLoss → s.env.noPowerLoss = false
  gatewayFault : c = .gatewayFault → s.cfgp.gwFaults = true

/-- Everything an operation inside a command can do in any environment. -/
def ActsSat {α : Type} (w : May) (n : Nat) (s : State) (r : Res α) : Prop :=
  Sat (fun _ t => Acts w n s t) (fun c t => ActsCut w n c s t) (fun _ => True) (fun _ => True) r

/-! ## Composition -/

theorem Ours.refl (s : State) : Ours s s [] := ⟨[], by simp, rfl⟩

theorem Ours.trans {s t u : State} {es es' : List BusEvent} (h : Ours s t es) (h' : Ours t u es') : Ours s u (es ++ es') := by
  obtain ⟨l, hl, rfl⟩ := h
  obtain ⟨l', hl', rfl⟩ := h'
  exact ⟨l ++ l', by rw [hl', hl, List.append_assoc], by simp⟩

theorem Kept.refl (w : May) (s : State) : Kept w s s :=
  ⟨rfl, fun _ => ⟨rfl, rfl, rfl⟩, rfl, rfl, fun _ => rfl, fun _ => rfl, fun _ => rfl, fun _ => rfl, fun _ => rfl,
    fun _ => ⟨rfl, rfl⟩, rfl, rfl, rfl, rfl, id, fun _ => id⟩

theorem Kept.trans {w : May} {s t u : State} (h : Kept w s t) (h' : Kept w t u) : Kept w s u where
  cfgp := h'.cfgp.trans h.cfgp
  enable hw := ⟨(h'.enable hw).1.trans (h.enable hw).1, (h'.enable hw).2.1.trans (h.enable hw).2.1,
    (h'.enable hw).2.2.trans (h.enable hw).2.2⟩
  busy := h'.busy.trans h.busy
  ok := h'.ok.trans h.ok
  res8 hw := (h'.res8 hw).trans (h.res8 hw)
  res16 hw := (h'.res16 hw).trans (h.res16 hw)
  resx hw := (h'.resx hw).trans (h.resx hw)
  xbuf hw := (h'.xbuf hw).trans (h.xbuf hw)
  stat hw := (h'.stat hw).trans (h.stat hw)
  err hw := ⟨(h'.err hw).1.trans (h.err hw).1, (h'.err hw).2.trans (h.err hw).2⟩
  cfg := h'.cfg.trans h.cfg
  host := h'.host.trans h.host
  seen := h'.seen.trans h.seen
  phase := h'.phase.trans h.phase
  power hp := h'.power (h.power hp)
  inv hc hi := h'.inv (h.cfgp ▸ hc) (h.inv hc hi)

theorem Acts.refl (w : May) (n : Nat) (s : State) : Acts w n s s :=
  ⟨Kept.refl w s, id, ⟨[], Ours.refl s, Nat.zero_le n⟩, fun _ => rfl⟩

/-- Operations that write neither `EN` nor `HND` follow one another. -/
theorem Acts.trans {w : May} (hw : w.enable = false) {n n' : Nat} {s t u : State} (h : Acts w n s t) (h' : Acts w n' t u) :
    Acts w (n + n') s u := by
  refine ⟨h.toKept.trans h'.toKept, fun h0 => h'.step (h.step h0), ?_, fun he => ?_⟩
  · obtain ⟨d, ho, hn⟩ := h.trace
    obtain ⟨d', ho', hn'⟩ := h'.trace
    exact ⟨d ++ d', by rw [List.flatMap_append]; exact ho.trans (h.cfgp ▸ ho'), by simp; omega⟩
  · rw [h'.silent ((h.enable hw).1.trans he), h.silent he]

theorem ActsCut.after {w : May} (hw : w.enable = false) {n n' : Nat} {c : Cut} {s t u : State} (h : Acts w n s t)
    (h' : ActsCut w n' c t u) : ActsCut w (n + n') c s u := by
  refine ⟨h.toKept.trans h'.toKept, ?_, (h.enable hw).1 ▸ h'.enabled, fun hc => ?_, fun hc => h.cfgp ▸ h'.gatewayFault hc⟩
  · obtain ⟨d, ho, hn⟩ := h.trace
    obtain ⟨d', last, j, hj, hn', ho'⟩ := h'.trace
    exact ⟨d ++ d', last, j, hj, by simp; omega,
      by rw [List.flatMap_append, List.append_assoc]; exact ho.trans (h.cfgp ▸ ho')⟩
  · have := h'.powerLoss hc
    cases hp : s.env.noPowerLoss with
    | false => rfl
    | true => rw [h.power hp] at this; cases this

theorem ActsSat.bind {α β : Type} {w : May} (hw : w.enable = false) {n n' : Nat} {s : State} {r : Res α}
    {k : α → State → Res β} (h : ActsSat w n s r) (hk : ∀ a t, Acts w n s t → ActsSat w n' t (k a t)) :
    ActsSat w (n + n') s (r.bind k) := by
  cases r with
  | ok a t => exact (hk a t h).mono (fun _ _ h' => h.trans hw h') (fun _ _ h' => .after hw h h') (fun _ h => h) fun _ h => h
  | cut c t =>
    have h : ActsCut w n c s t := h
    refine ⟨h.toKept, ?_, h.enabled, h.powerLoss, h.gatewayFault⟩
    obtain ⟨d, last, j, hj, hn, ho⟩ := h.trace
    exact ⟨d, last, j, hj, Nat.lt_of_lt_of_le hn (Nat.le_add_right n n'), ho⟩
  | fault f => trivial
  | refused r => trivial

theorem ActsSat.mono {α : Type} {w : May} {n n' : Nat} {s : State} {r : Res α} (h : ActsSat w n s r) (hn : n ≤ n') :
    ActsSat w n' s r := by
  refine Sat.mono h (fun _ t h => ?_) (fun c t h => ?_) (fun _ h => h) fun _ h => h
  · obtain ⟨d, ho, hd⟩ := h.trace
    exact ⟨h.toKept, h.step, ⟨d, ho, hd.trans hn⟩, h.silent⟩
  · obtain ⟨d, last, j, hj, hd, ho⟩ := h.trace
    exact ⟨h.toKept, ⟨d, last, j, hj, Nat.lt_of_lt_of_le hd hn, ho⟩, h.enabled, h.powerLoss, h.gatewayFault⟩

theorem ActsSat.forEach {α : Type} {w : May} (hw : w.enable = false) {n : Nat} {body : α → State → Res Unit} {xs : List α}
    {s : State} (h : ∀ x ∈ xs, ∀ t, ActsSat w n t (body x t)) : ActsSat w (n * xs.length) s (forEach body xs s) := by
  induction xs generalizing s with
  | nil => exact Acts.refl w _ s
  | cons x xs ih =>
    rw [List.length_cons, Nat.mul_succ, Nat.add_comm, forEach_cons]
    exact (h x (by simp) s).bind hw fun _ t _ => ih fun y hy => h y (by simp [hy])

/-- An operation that stops, or only looks. -/
theorem ActsSat.known {α : Type} (w : May) (n : Nat) (p : Place) (v : Option α) (s : State) : ActsSat w n s (known p v s) := by
  cases v with
  | none => trivial
  | some a => exact Acts.refl w n s

/-! ## Bus events and draws -/

/-- Between two rows: everything but the EC side, the environment and the trace stays. -/
structure Between (s t : State) : Prop extends Kept {} s t where
  ar : t.ar = s.ar
  dr : t.dr = s.dr
  rw : t.rw = s.rw
  step : t.stepNo = s.stepNo
  base : t.base = s.base
  cnt : t.cnt = s.cnt
  idx : t.idx = s.idx

theorem Between.trans {s t u : State} (h : Between s t) (h' : Between t u) : Between s u :=
  ⟨h.toKept.trans h'.toKept, h'.ar.trans h.ar, h'.dr.trans h.dr, h'.rw.trans h.rw, h'.step.trans h.step,
    h'.base.trans h.base, h'.cnt.trans h.cnt, h'.idx.trans h.idx⟩

/-- A write of an EC register, of the latches, of the environment's counters or of the trace. -/
theorem between_of {s : State} (m : Memory) (e : Env) (t : Target) (tr : List BusEvent)
    (hm : Memory.wf s.ecmem = true → Memory.below 65536 s.ecmem = true → Memory.wf m = true ∧ Memory.below 65536 m = true)
    (he : s.env.noPowerLoss = true → e.noPowerLoss = true) :
    Between s { s with ecmem := m, env := e, target := t, trace := tr } :=
  ⟨⟨rfl, fun _ => ⟨rfl, rfl, rfl⟩, rfl, rfl, fun _ => rfl, fun _ => rfl, fun _ => rfl, fun _ => rfl, fun _ => rfl,
    fun _ => ⟨rfl, rfl⟩, rfl, rfl, rfl, rfl, he,
    fun _ hi => ⟨(hm hi.1 hi.2.1).1, (hm hi.1 hi.2.1).2, hi.2.2⟩⟩, rfl, rfl, rfl, rfl, rfl, rfl, rfl⟩

theorem put_ok {m : Memory} (a : Addr) (v : Byte) (h : Memory.wf m = true) (h' : Memory.below 65536 m = true) :
    Memory.wf (m.put a.toNat v) = true ∧ Memory.below 65536 (m.put a.toNat v) = true :=
  ⟨wf_put m _ v h, below_put m _ _ v h' a.isLt⟩

/-- A bus operation of the target: it is done with the trace as it was, or the model stops. -/
def BusSat {α : Type} (s : State) (es : α → List BusEvent) (r : Res α) : Prop :=
  Sat (fun a t => Between s t ∧ t.trace = s.trace ++ es a) (fun _ _ => False) (fun _ => True) (fun _ => True) r

theorem readEc_bus (a : Addr) (s : State) : BusSat s (fun _ => []) (readEc a s) := by
  unfold readEc
  split
  · exact ⟨between_of s.ecmem s.env s.target s.trace (fun h h' => ⟨h, h'⟩) id, by simp⟩
  · split
    · exact ⟨between_of _ _ s.target s.trace (fun h h' => put_ok a _ h h') id, by simp⟩
    · trivial

theorem targetWrite_bus (p : Port) (v : Byte) (s : State) : BusSat s (fun _ => []) (targetWrite p v s) := by
  have key : ∀ t : Target, BusSat s (fun _ : Unit => []) (.ok () { s with target := t }) := fun t =>
    ⟨between_of s.ecmem s.env t s.trace (fun h h' => ⟨h, h'⟩) id, by simp⟩
  unfold targetWrite
  split
  · exact key _
  · split
    · refine sat_look (fun _ => trivial) fun ix _ => ?_
      split
      · exact key _
      · split
        · exact key _
        · split
          · exact key _
          · split
            · refine sat_look (fun _ => trivial) fun sel _ => ?_
              split
              · rw [latchedAddr, bind_assoc]
                refine sat_look (fun _ => trivial) fun h _ => ?_
                rw [bind_assoc]
                refine sat_look (fun _ => trivial) fun l _ => ?_
                exact ⟨between_of _ s.env s.target s.trace (fun h h' => put_ok _ v h h') id, by simp [writeEc]⟩
              · trivial
            · trivial
    · exact ⟨between_of s.ecmem s.env s.target s.trace (fun h h' => ⟨h, h'⟩) id, by simp⟩

theorem targetRead_bus (p : Port) (s : State) : BusSat s (fun _ => []) (targetRead p s) := by
  unfold targetRead
  split
  · trivial
  · split
    · refine sat_look (fun _ => trivial) fun ix _ => ?_
      split
      · refine sat_look (fun _ => trivial) fun sel _ => ?_
        split
        · rw [latchedAddr, bind_assoc]
          refine sat_look (fun _ => trivial) fun h _ => ?_
          rw [bind_assoc]
          refine sat_look (fun _ => trivial) fun l _ => ?_
          exact readEc_bus _ s
        · trivial
      · trivial
    · exact ⟨between_of s.ecmem _ s.target s.trace (fun h h' => ⟨h, h'⟩) id, by simp⟩

theorem busWrite_bus (m : Master) (p : Port) (v : Byte) (s : State) :
    BusSat s (fun _ => [.write m p v]) (busWrite m p v s) := by
  refine (targetWrite_bus p v s).bind fun _ t ht => ?_
  exact ⟨ht.1.trans (between_of t.ecmem t.env t.target _ (fun h h' => ⟨h, h'⟩) id), by simp [record, ht.2]⟩

theorem busRead_bus (m : Master) (p : Port) (s : State) : BusSat s (fun v => [.read m p v]) (busRead m p s) := by
  refine (targetRead_bus p s).bind fun v t ht => ?_
  exact ⟨ht.1.trans (between_of t.ecmem t.env t.target _ (fun h h' => ⟨h, h'⟩) id), by simp [record, ht.2]⟩

theorem agentMove_between (x : AgentMove) (s : State) :
    Sat (fun _ t => Between s t ∧ Ours s t []) (fun _ _ => False) (fun _ => True) (fun _ => True) (agentMove x s) := by
  cases x with
  | ecUpdate a v =>
    simp only [agentMove, ecUpdate]
    split
    · exact ⟨between_of _ s.env s.target s.trace (fun h h' => put_ok a v h h') id, Ours.refl _⟩
    · exact ⟨between_of s.ecmem s.env s.target s.trace (fun h h' => ⟨h, h'⟩) id, Ours.refl s⟩
  | foreignWrite p v => exact (busWrite_bus .foreign p v s).mono (fun _ t h => ⟨h.1, _, h.2, rfl⟩) (fun _ _ h => h) (fun _ h => h) fun _ h => h
  | foreignRead p =>
    exact (busRead_bus .foreign p s).bind fun v t h => ⟨h.1, _, h.2, rfl⟩

theorem agentMoves_between (xs : List AgentMove) (s : State) :
    Sat (fun _ t => Between s t ∧ Ours s t []) (fun _ _ => False) (fun _ => True) (fun _ => True) (forEach agentMove xs s) := by
  have h0 : Between s s := between_of s.ecmem s.env s.target s.trace (fun h h' => ⟨h, h'⟩) id
  refine Sat.forEach (P := fun t => Between s t ∧ Ours s t []) ⟨h0, Ours.refl s⟩ fun x _ t ht => ?_
  exact (agentMove_between x t).mono (fun _ u h => ⟨ht.1.trans h.1, ht.2.trans h.2⟩) (fun _ _ h => h) (fun _ h => h) fun _ h => h

/-- A draw of the environment: ECSEQ issues nothing. -/
theorem takeSlot_between (s : State) :
    Sat (fun e t => Between s t ∧ Ours s t [] ∧ (e = .powerLoss → s.env.noPowerLoss = false)) (fun _ _ => False)
      (fun _ => True) (fun _ => True) (takeSlot s) := by
  refine (agentMoves_between _ _).bind fun _ t ht => ?_
  have h0 : Between s { s with env := (drawSlot s.cfgp s.env).2 } :=
    between_of s.ecmem _ s.target s.trace (fun h h' => ⟨h, h'⟩) fun h => (drawSlot_noPowerLoss _ h).2
  refine ⟨h0.trans ht.1, ht.2, fun he => ?_⟩
  cases hp : s.env.noPowerLoss with
  | false => rfl
  | true => exact absurd he (drawSlot_noPowerLoss s.cfgp hp).1

/-- Where a port operation is cut: ECSEQ has issued nothing more. -/
structure CutAt (c : Cut) (s t : State) : Prop extends Between s t where
  ours : Ours s t []
  powerLoss : c = .powerLoss → s.env.noPowerLoss = false
  gatewayFault : c = .gatewayFault → s.cfgp.gwFaults = true

theorem gated_between {α : Type} {k : State → Res α} {es : α → List BusEvent} {s : State}
    (hk : ∀ t, BusSat t es (k t)) :
    Sat (fun a t => Between s t ∧ Ours s t ((es a).filter BusEvent.ours)) (fun c t => CutAt c s t) (fun _ => True) (fun _ => True)
      (gated k s) := by
  refine Sat.bind (Q := fun e t => Between s t ∧ Ours s t [] ∧ (e = .powerLoss → s.env.noPowerLoss = false))
    ((takeSlot_between s).mono (fun _ _ h => h) (fun _ _ h => h.elim) (fun _ h => h) fun _ h => h) fun e t h => ?_
  have done : Sat (fun a u => Between s u ∧ Ours s u ((es a).filter BusEvent.ours)) (fun c u => CutAt c s u) (fun _ => True)
      (fun _ => True) (k t) :=
    (hk t).mono (fun _ u h' => ⟨h.1.trans h'.1, h.2.1.trans ⟨_, h'.2, rfl⟩⟩) (fun _ _ h => h.elim) (fun _ h => h) fun _ h => h
  cases e with
  | complete => exact done
  | powerLoss => exact ⟨h.1, h.2.1, fun _ => h.2.2 rfl, nofun⟩
  | fault =>
    dsimp only
    split
    · rename_i hg
      exact ⟨h.1, h.2.1, nofun, fun _ => h.1.cfgp ▸ hg⟩
    · exact done

/-! ## Rows and accesses -/

/-- The access begun in `s`, after `j` of its rows, in any environment. -/
structure Along (s : State) (j : Nat) (t : State) : Prop extends Kept {} s t where
  ar : t.ar = s.ar
  dr : t.dr = s.dr
  rw : t.rw = s.rw
  step : t.stepNo = BitVec.ofNat 3 j
  ours : Ours s t ((preEvents s.cfgp s.ar).take j)

/-- The access begun in `s`, cut after some of its rows. -/
structure CutAlong (c : Cut) (s t : State) : Prop extends Kept {} s t where
  ours : ∃ j, j < 8 ∧ Ours s t ((preEvents s.cfgp s.ar).take j)
  powerLoss : c = .powerLoss → s.env.noPowerLoss = false
  gatewayFault : c = .gatewayFault → s.cfgp.gwFaults = true

theorem Along.cut {s t u : State} {j : Nat} {c : Cut} (hj : j < 8) (h : Along s j t) (h' : CutAt c t u) : CutAlong c s u := by
  refine ⟨h.toKept.trans h'.toKept, ⟨j, hj, ?_⟩, fun hc => ?_, fun hc => h.cfgp ▸ h'.gatewayFault hc⟩
  · have := h.ours.trans h'.ours
    rwa [List.append_nil] at this
  · have := h'.powerLoss hc
    cases hp : s.env.noPowerLoss with
    | false => rfl
    | true => rw [h.power hp] at this; cases this

theorem kept_advance (s : State) : Kept {} s (advance s) :=
  ⟨rfl, fun _ => ⟨rfl, rfl, rfl⟩, rfl, rfl, fun _ => rfl, fun _ => rfl, fun _ => rfl, fun _ => rfl, fun _ => rfl,
    fun _ => ⟨rfl, rfl⟩, rfl, rfl, rfl, rfl, id, fun _ => id⟩

theorem preRow_along {s t : State} {j : Nat} (hj : j < 7) (he : s.en = true) (h : Along s j t) (r : StepRow)
    (hr : stepTable[j]? = some r) :
    Sat (fun _ u => Along s (j + 1) u) (fun c u => CutAlong c s u) (fun _ => True) (fun _ => True) (issueRow r t) := by
  have hen : t.en = true := (h.enable rfl).1.trans he
  have key : ∀ (p : Port) (v : Byte),
      (preEvents s.cfgp s.ar).take (j + 1) = (preEvents s.cfgp s.ar).take j ++ [.write .ecseq p v] →
      Sat (fun _ u => Along s (j + 1) u) (fun c u => CutAlong c s u) (fun _ => True) (fun _ => True)
        ((gwWrite p v t).bind fun _ s => .ok () (advance s)) := by
    intro p v htr
    rw [gwWrite, if_pos hen]
    refine ((gated_between fun t => busWrite_bus .ecseq p v t).mono (fun _ _ h => h) (fun c u h' => h.cut (by omega) h')
      (fun _ h => h) fun _ h => h).bind fun _ u hu => ?_
    refine ⟨h.toKept.trans (hu.1.toKept.trans (kept_advance u)), hu.1.ar.trans h.ar, hu.1.dr.trans h.dr, hu.1.rw.trans h.rw,
      ?_, ?_⟩
    · simp only [advance, hu.1.step, h.step, BitVec.ofNat_add]; rfl
    · rw [htr]; exact h.ours.trans hu.2
  obtain rfl | rfl | rfl | rfl | rfl | rfl | rfl : j = 0 ∨ j = 1 ∨ j = 2 ∨ j = 3 ∨ j = 4 ∨ j = 5 ∨ j = 6 := by omega
  all_goals
    obtain rfl := Option.some.inj hr
    simp only [issueRow, Bool.false_and, Bool.false_eq_true, if_false, portOf, srcByte, h.cfgp, h.ar]
    exact key _ _ rfl

theorem preRows_along {s : State} (he : s.en = true) (h0 : s.stepNo = 0) :
    Sat (fun _ u => Along s 7 u) (fun c u => CutAlong c s u) (fun _ => True) (fun _ => True)
      (forEach issueRow (stepTable.take 7) s) := by
  have hs : Along s 0 s := ⟨Kept.refl _ s, rfl, rfl, rfl, h0, Ours.refl s⟩
  simp only [stepTable, List.take_succ_cons, List.take_zero, forEach_cons, forEach_nil]
  refine (preRow_along (by omega) he hs _ rfl).bind fun _ t ht => ?_
  refine (preRow_along (by omega) he ht _ rfl).bind fun _ t ht => ?_
  refine (preRow_along (by omega) he ht _ rfl).bind fun _ t ht => ?_
  refine (preRow_along (by omega) he ht _ rfl).bind fun _ t ht => ?_
  refine (preRow_along (by omega) he ht _ rfl).bind fun _ t ht => ?_
  refine (preRow_along (by omega) he ht _ rfl).bind fun _ t ht => ?_
  exact (preRow_along (by omega) he ht _ rfl).bind fun _ t ht => ht

theorem Kept.weaken {s t : State} (w : May) (h : Kept {} s t) : Kept w s t :=
  ⟨h.cfgp, fun _ => h.enable rfl, h.busy, h.ok, fun _ => h.res8 rfl, fun _ => h.res16 rfl, fun _ => h.resx rfl,
    fun _ => h.xbuf rfl, fun _ => h.stat rfl, fun _ => h.err rfl, h.cfg, h.host, h.seen, h.phase, h.power, h.inv⟩

/-- A register of the sequencer is loaded. -/
theorem kept_load (s : State) (ar : Addr) (dr : Byte) (rw : Bool) (st : BitVec 3) (base : Addr) (cnt idx : BitVec 8) :
    Kept {} s { s with ar := ar, dr := dr, rw := rw, stepNo := st, base := base, cnt := cnt, idx := idx } :=
  ⟨rfl, fun _ => ⟨rfl, rfl, rfl⟩, rfl, rfl, fun _ => rfl, fun _ => rfl, fun _ => rfl, fun _ => rfl, fun _ => rfl,
    fun _ => ⟨rfl, rfl⟩, rfl, rfl, rfl, rfl, id, fun _ => id⟩

theorem CutAlong.acts {w : May} {c : Cut} {s b t : State} (x : Access) (hk : Kept {} s b) (he : s.en = true)
    (htr : b.trace = s.trace) (hx : ∀ j, j < 8 → (preEvents b.cfgp b.ar).take j = (x.events s.cfgp).take j)
    (hpl : b.env = s.env) (h : CutAlong c b t) : ActsCut w 1 c s t := by
  obtain ⟨j, hj, l, hl, hf⟩ := h.ours
  exact ⟨(hk.trans h.toKept).weaken w, ⟨[], x, j, hj, by simp, l, htr ▸ hl, by rw [hf, hx j hj]; simp⟩, he,
    fun hc => hpl ▸ h.powerLoss hc, fun hc => hk.cfgp ▸ h.gatewayFault hc⟩

/-- `EcWrite` in any environment (R152). -/
theorem ecWrite_acts (w : May) (a : Addr) (d : Byte) (s : State) : ActsSat w 1 s (ecWrite a d s) := by
  have hb : Kept {} s (writeBegun a d s) := kept_load s a d true 0 s.base s.cnt s.idx
  cases he : s.en with
  | false =>
    rw [ecWrite_disabled a d s he]
    exact ⟨hb.weaken w, fun _ => rfl, ⟨[], Ours.refl s, by simp⟩, fun _ => rfl⟩
  | true =>
    have hcut : ∀ c t, CutAlong c (writeBegun a d s) t → ActsCut w 1 c s t := fun c t h =>
      h.acts (.write a d) hb he rfl (fun j hj => by
        simp only [Access.events, writeEvents, writeBegun]
        rw [List.take_append_of_le_length (by simp [preEvents]; omega)]) rfl
    have hsplit : stepTable = stepTable.take 7 ++ [⟨.data, true, .dr⟩] := rfl
    rw [ecWrite, hsplit, forEach_append]
    refine ((preRows_along (s := writeBegun a d s) he rfl).mono (fun _ _ h => h) hcut (fun _ h => h) fun _ h => h).bind
      fun _ t ht => ?_
    have hen : t.en = true := (ht.enable rfl).1.trans he
    have hrw : t.rw = true := ht.rw
    have hdr : t.dr = d := ht.dr
    have hcfg : t.cfgp = s.cfgp := ht.cfgp
    simp only [forEach_cons, forEach_nil, issueRow, hrw, Bool.not_true, Bool.and_false, Bool.false_eq_true, if_false,
      portOf, srcByte, gwWrite, hen, if_true, bind_assoc, bind_ok]
    refine ((gated_between fun t => busWrite_bus .ecseq _ _ t).mono (fun _ _ h => h)
      (fun c u h' => hcut c u (ht.cut (by omega) h')) (fun _ h => h) fun _ h => h).bind fun _ u hu => ?_
    refine ⟨(hb.trans (ht.toKept.trans (hu.1.toKept.trans (kept_advance u)))).weaken w, fun _ => ?_,
      ⟨[.write a d], ?_, by simp⟩, fun h => by rw [he] at h; cases h⟩
    · simp [advance, hu.1.step, ht.step]
    · have := ht.ours.trans hu.2
      rw [hdr, hcfg] at this
      simpa [Ours, advance, Access.events, writeEvents, preEvents, writeBegun, BusEvent.ours] using this

/-- `EcRead` in any environment (R151). -/
theorem ecRead_acts (w : May) (a : Addr) (s : State) : ActsSat w 1 s (ecRead a s) := by
  have hb : Kept {} s (readBegun a s) := kept_load s a s.dr false 0 s.base s.cnt s.idx
  cases he : s.en with
  | false =>
    rw [ecRead_disabled a s he]
    exact ⟨(kept_load s a 0 false 0 s.base s.cnt s.idx).weaken w, fun _ => rfl, ⟨[], Ours.refl s, by simp⟩, fun _ => rfl⟩
  | true =>
    have hcut : ∀ c t, CutAlong c (readBegun a s) t → ActsCut w 1 c s t := fun c t h =>
      h.acts (.read a 0) hb he rfl (fun j hj => by
        simp only [Access.events, readEvents, readBegun]
        rw [List.take_append_of_le_length (by simp [preEvents]; omega)]) rfl
    have hsplit : stepTable = stepTable.take 7 ++ [⟨.data, true, .dr⟩] := rfl
    rw [ecRead, hsplit, forEach_append, bind_assoc]
    refine ((preRows_along (s := readBegun a s) he rfl).mono (fun _ _ h => h) hcut (fun _ h => h) fun _ h => h).bind
      fun _ t ht => ?_
    have hen : t.en = true := (ht.enable rfl).1.trans he
    have hrw : t.rw = false := ht.rw
    have hcfg : t.cfgp = s.cfgp := ht.cfgp
    simp only [forEach_cons, forEach_nil, issueRow, hrw, Bool.not_false, Bool.and_true, if_true,
      portOf, gwRead, hen, bind_assoc, bind_ok]
    refine ((gated_between fun t => busRead_bus .ecseq _ t).mono (fun _ _ h => h)
      (fun c u h' => hcut c u (ht.cut (by omega) h')) (fun _ h => h) fun _ h => h).bind fun v u hu => ?_
    refine ⟨(hb.trans (ht.toKept.trans (hu.1.toKept.trans
        (kept_load u u.ar v u.rw (u.stepNo + 1) u.base u.cnt u.idx)))).weaken w, fun _ => ?_,
      ⟨[.read a v], ?_, by simp⟩, fun h => by rw [he] at h; cases h⟩
    · simp [advance, hu.1.step, ht.step]
    · have := ht.ours.trans hu.2
      rw [hcfg] at this
      simpa [Ours, advance, Access.events, readEvents, preEvents, readBegun, BusEvent.ours] using this

end Sys2Proof.Laws
end

