-- ==== Sys2Proof/Laws/Bodies.lean ====
section
/-!
SUPPORT. Each command's body, what it can do in any environment, and what `exec` answers given that.
-/
namespace Sys2Proof.Laws
open Sys2Proof Sys2Proof.Machine

/-- What a command does between its acceptance and `done` (R10). -/
def body : Instr → State → Res Bool
  | .init, s => .ok (initResult s).1 (initResult s).2
  | .deinit, s => .ok true { (if s.hnd then { invokeDeinit s with hnd := false } else s) with en := false }
  | .isinit, s => .ok s.en s
  | .geterr, s => .ok true (reportError s)
  | .rdreg a, s => (ecRead a s).bind fun v s => .ok true { s with res8 := Reg.of v }
  | .wrreg a d, s => (ecWrite a d s).bind fun _ s => .ok true s
  | .rdarr b n, s => rdarrBody b n s
  | .wrarr b n, s => wrarrBody b n s
  | .romrd k, s =>
    match romIndexOf k with
    | some k => .ok true (lookUp k s)
    | none => .refused .illFormedOperand
  | .rdrow t, s =>
    match tableIdOf t with
    | some t => rdarrBody (tableBase s.cfgp t) 10 s
    | none => .refused .illFormedOperand
  | .wrrow t, s =>
    match tableIdOf t with
    | some t => wrarrBody (tableBase s.cfgp t) 10 s
    | none => .refused .illFormedOperand
  | .rdstat, s => whenInitialized readStatus s
  | .wrcfg, s => whenInitialized writeConfig s

theorem tableIdOf_wf {t : Byte} (h : t.toNat ≤ 9) : tableIdOf t = some ⟨t.toNat, by omega⟩ := by
  simp [tableIdOf, show t.toNat < 10 by omega]

theorem romIndexOf_wf {k : Byte} (h : k.toNat ≤ 28) : romIndexOf k = some ⟨k.toNat, by omega⟩ := by
  simp [romIndexOf, show k.toNat < 29 by omega]

theorem exec_wf (i : Instr) (s : State) (h : i.wf = true) : exec i s = runCommand (body i) s := by
  cases i with
  | romrd k =>
    simp only [exec, execRomrd, runCommand, body, romIndexOf_wf (of_decide_eq_true h)]
  | rdrow t =>
    simp only [exec, execRdrow, body, tableIdOf_wf (of_decide_eq_true h), runCommand, accept]
  | wrrow t =>
    simp only [exec, execWrrow, body, tableIdOf_wf (of_decide_eq_true h), runCommand, accept]
  | _ => rfl

theorem exec_illFormed (i : Instr) (s : State) (h : i.wf = false) : exec i s = .refused .illFormedOperand := by
  cases i with
  | romrd k => simp [exec, execRomrd, romIndexOf, show ¬ k.toNat < 29 by simp [Instr.wf] at h; omega]
  | rdrow t => simp [exec, execRdrow, tableIdOf, show ¬ t.toNat < 10 by simp [Instr.wf] at h; omega]
  | wrrow t => simp [exec, execWrrow, tableIdOf, show ¬ t.toNat < 10 by simp [Instr.wf] at h; omega]
  | _ => cases h

theorem exec_ready (i : Instr) (s : State) (h : i.wf = true) (hs : s.Ready) : exec i s = complete (body i (accept s)) := by
  rw [exec_wf i s h, runCommand, if_pos hs.1, if_neg (by simp [hs.2])]

/-- A command whose body is done. -/
theorem exec_ok {i : Instr} {s t : State} {b : Bool} (h : i.wf = true) (hs : s.Ready) (hb : body i (accept s) = .ok b t) :
    exec i s = .next (finish b t) := by rw [exec_ready i s h hs, hb]; rfl

/-- What `exec` answers: nothing but the three ends of a command's body. -/
theorem exec_next {i : Instr} {s t : State} (h : exec i s = .next t) :
    i.wf = true ∧ s.Ready ∧
      ((∃ b u, body i (accept s) = .ok b u ∧ t = finish b u)
        ∨ (∃ u, body i (accept s) = .cut .gatewayFault u ∧ t = takeGatewayFault u)
        ∨ (∃ u, body i (accept s) = .cut .powerLoss u ∧ t = resetInstance u)) := by
  cases hw : i.wf with
  | false => rw [exec_illFormed i s hw] at h; cases h
  | true =>
    rw [exec_wf i s hw, runCommand] at h
    split at h
    · rename_i hc
      split at h
      · cases h
      · rename_i hb
        refine ⟨rfl, ⟨hc, by simpa using hb⟩, ?_⟩
        cases hr : body i (accept s) with
        | ok b u => rw [hr] at h; exact .inl ⟨b, u, rfl, (Host.Outcome.next.inj h).symm⟩
        | cut c u =>
          rw [hr] at h
          cases c with
          | gatewayFault => exact .inr (.inl ⟨u, rfl, (Host.Outcome.next.inj h).symm⟩)
          | powerLoss => exact .inr (.inr ⟨u, rfl, (Host.Outcome.next.inj h).symm⟩)
        | fault f => rw [hr] at h; cases h
        | refused r => rw [hr] at h; cases h
    · cases h

/-! ## Bodies in any environment -/

/-- An update of registers that are not the sequencer's. -/
theorem Kept.acts {w : May} {s t : State} (n : Nat) (h : Kept w s t) (hs : t.stepNo = s.stepNo) (ht : t.trace = s.trace) :
    Acts w n s t :=
  ⟨h, fun h0 => hs.trans h0, ⟨[], ⟨[], by rw [ht, List.append_nil], rfl⟩, Nat.zero_le n⟩, fun _ => ht⟩

theorem kept_putXbuf (i : Nat) (v : Byte) (s : State) (hi : i < 255) : Kept { xbuf := true } s (putXbuf i v s) := by
  refine ⟨rfl, fun _ => ⟨rfl, rfl, rfl⟩, rfl, rfl, fun _ => rfl, fun _ => rfl, fun _ => rfl, by simp, fun _ => rfl,
    fun _ => ⟨rfl, rfl⟩, rfl, rfl, rfl, rfl, id, fun hc hb => ?_⟩
  obtain ⟨h1, h2, h3, h4, h5⟩ := hb
  simp only [configOk, Bool.and_eq_true, decide_eq_true_eq] at hc
  exact ⟨h1, h2, wf_put _ _ _ h3, below_put _ _ _ _ h4 (by simp only [putXbuf]; omega), h5⟩

/-- An update of `STAT` that keeps `fw_ver[15:8]` zero. -/
theorem kept_stat (s : State) (st : Stat) (h : hiByte s.stat.fwVer.val = 0 → hiByte st.fwVer.val = 0) :
    Kept { stat := true, err := true } s { s with stat := st } := by
  refine ⟨rfl, fun _ => ⟨rfl, rfl, rfl⟩, rfl, rfl, fun _ => rfl, fun _ => rfl, fun _ => rfl, fun _ => rfl, by simp,
    by simp, rfl, rfl, rfl, rfl, id, fun _ hb => ?_⟩
  obtain ⟨h1, h2, h3, h4, h5, h6, h7, h8, h9⟩ := hb
  exact ⟨h1, h2, h3, h4, h5, h6, h7, h8, h h9⟩

/-- Recording an error without a status code. -/
theorem kept_raise (w : May) (hw : w.err = true) (k : ErrKind) (s : State) : Kept w s (raise k 0 s) := by
  refine ⟨rfl, fun _ => ⟨rfl, rfl, rfl⟩, rfl, rfl, fun _ => rfl, fun _ => rfl, fun _ => rfl, fun _ => rfl, fun _ => rfl,
    by simp [hw], rfl, rfl, rfl, rfl, id, fun _ hb => ?_⟩
  obtain ⟨h1, h2, h3, h4, h5, h6, -, -, h9⟩ := hb
  exact ⟨h1, h2, h3, h4, h5, h6, fun _ => rfl, Nat.two_pow_pos _, h9⟩

/-- The entry clear touches `LASTERR` only (R30, R136). -/
theorem entryClear_eq (s : State) : entryClear s = { s with
    lastCode := if s.cfgp.errClearOnEntry then .none else s.lastCode,
    lastInfo := if s.cfgp.errClearOnEntry then 0 else s.lastInfo } := by
  unfold entryClear raise
  cases s.cfgp.errClearOnEntry <;> rfl

theorem kept_entryClear (w : May) (hw : w.err = true) (s : State) : Kept w s (entryClear s) := by
  unfold entryClear
  split
  · exact kept_raise w hw .none s
  · exact Kept.refl w s

theorem readArray_acts {w : May} (hw : w.enable = false) (put : Nat → Byte → State → State) (b : Addr) (n : BitVec 8) (s : State)
    (hput : ∀ i v s, i < 255 → Acts w 0 s (put i v s)) : ActsSat w n.toNat s (readArray put b n s) := by
  have h0 : Acts w 0 s (loadArray b n s) := ((kept_load s s.ar s.dr s.rw s.stepNo b n s.idx).weaken w).acts 0 rfl rfl
  have := ActsSat.bind hw (r := .ok () (loadArray b n s)) (k := fun _ s => forEach (readElem put) (List.range n.toNat) s) h0
    fun _ t _ => ActsSat.forEach hw (n := 1) fun i hi t => ?_
  · rw [List.length_range, Nat.one_mul, Nat.zero_add] at this
    exact this
  · have h1 : Acts w 0 t (setIdx i t) := ((kept_load t t.ar t.dr t.rw t.stepNo t.base t.cnt _).weaken w).acts 0 rfl rfl
    have hi : i < 255 := by have := n.isLt; simp at hi; omega
    have := ActsSat.bind hw (r := .ok () (setIdx i t))
      (k := fun _ s => (ecRead (curAddr s) s).bind fun v s => .ok () (put i v s)) h1
      fun _ u _ => (ecRead_acts w (curAddr u) u).bind hw fun v x _ => (hput i v x hi : ActsSat w 0 x (.ok () _))
    exact this

theorem writeArray_acts {w : May} (hw : w.enable = false) (src : Nat → State → Res Byte) (b : Addr) (n : BitVec 8) (s : State)
    (hsrc : ∀ i s, ActsSat w 0 s (src i s)) : ActsSat w n.toNat s (writeArray src b n s) := by
  have h0 : Acts w 0 s (loadArray b n s) := ((kept_load s s.ar s.dr s.rw s.stepNo b n s.idx).weaken w).acts 0 rfl rfl
  have := ActsSat.bind hw (r := .ok () (loadArray b n s)) (k := fun _ s => forEach (writeElem src) (List.range n.toNat) s) h0
    fun _ t _ => ActsSat.forEach hw (n := 1) fun i _ t => ?_
  · rw [List.length_range, Nat.one_mul, Nat.zero_add] at this
    exact this
  · have h1 : Acts w 0 t (setIdx i t) := ((kept_load t t.ar t.dr t.rw t.stepNo t.base t.cnt _).weaken w).acts 0 rfl rfl
    have := ActsSat.bind hw (r := .ok () (setIdx i t)) (k := fun _ s => (src i s).bind fun v s => ecWrite (curAddr s) v s) h1
      fun _ u _ => (hsrc i u).bind hw fun v x _ => ecWrite_acts w (curAddr x) v x
    exact this

/-- Which registers a command may write (R22, R28 to R33). -/
def may : Instr → May
  | .init => { enable := true, err := true }
  | .deinit => { enable := true }
  | .isinit => {}
  | .geterr => { res8 := true, resx := true }
  | .rdreg _ => { res8 := true }
  | .wrreg _ _ => {}
  | .rdarr _ _ => { xbuf := true }
  | .wrarr _ _ => {}
  | .romrd _ => { res16 := true }
  | .rdrow _ => { xbuf := true }
  | .wrrow _ => {}
  | .rdstat => { stat := true, err := true }
  | .wrcfg => { err := true }

theorem kept_res (w : May) (s : State) (r8 : Reg Byte) (r16 : Reg (BitVec 16)) (rx : Reg Nat) (h8 : w.res8 = false → r8 = s.res8)
    (h16 : w.res16 = false → r16 = s.res16) (hx : w.resx = false → rx = s.resx) :
    Kept w s { s with res8 := r8, res16 := r16, resx := rx } :=
  ⟨rfl, fun _ => ⟨rfl, rfl, rfl⟩, rfl, rfl, h8, h16, hx, fun _ => rfl, fun _ => rfl, fun _ => ⟨rfl, rfl⟩, rfl, rfl, rfl, rfl, id,
    fun _ => id⟩

theorem readStatus_acts (s : State) : ActsSat { stat := true, err := true } 113 s (readStatus s) := by
  have hread : ∀ a t, ActsSat { stat := true, err := true } 1 t (ecRead a t) := fun a t => ecRead_acts _ a t
  have hput : ∀ (t : State) (st : Stat), (hiByte t.stat.fwVer.val = 0 → hiByte st.fwVer.val = 0) →
      ActsSat { stat := true, err := true } 0 t (.ok () { t with stat := st } : Res Unit) :=
    fun t st h => (kept_stat t st h).acts 0 rfl rfl
  have htach : ∀ (l h : Fin 29) (put : BitVec 16 → Stat → Stat) (t : State), (∀ v st, (put v st).fwVer = st.fwVer) →
      ActsSat { stat := true, err := true } 2 t (readTach l h put t) := fun l h put t hp =>
    (hread _ t).bind rfl fun a t _ => (hread _ t).bind (n' := 0) rfl fun b t _ => hput t _ (by rw [hp]; exact id)
  have hrow : ∀ (k : Fin 10) (t : State), ActsSat { stat := true, err := true } 10 t (rowRead k t) := fun k t =>
    readArray_acts rfl (putTab k) _ 10 t fun i v t _ => (kept_stat t (putTab k i v t).stat id).acts 0 rfl rfl
  have hscalar : ∀ r ∈ scalarReads, ∀ t : State, ActsSat { stat := true, err := true } 1 t (readScalar r t) := by
    intro r hr t
    refine (hread _ t).bind (n' := 0) rfl fun v t _ => hput t _ fun h => ?_
    simp only [scalarReads, List.mem_cons, List.not_mem_nil, or_false] at hr
    rcases hr with rfl | rfl | rfl | rfl | rfl | rfl | rfl | rfl | rfl
    all_goals first | exact h | (simp only [Reg.of, hiByte, zext16]; apply BitVec.eq_of_toNat_eq; simp; omega)
  refine ((htach _ _ (fun v st => { st with fan1Speed := Reg.of v }) s fun _ _ => rfl).bind (n' := 111) rfl fun _ t _ => ?_)
  refine ((htach _ _ (fun v st => { st with fan2Speed := Reg.of v }) t fun _ _ => rfl).bind (n' := 109) rfl fun _ t _ => ?_)
  refine ((ActsSat.forEach rfl fun k _ t => hrow k t).bind (n := 100) (n' := 9) rfl fun _ t _ => ?_)
  refine ((ActsSat.forEach rfl hscalar).bind (n := 9) (n' := 0) rfl fun _ t _ => ?_)
  exact (kept_stat t (derivePcts t).stat id).acts 0 rfl rfl

theorem shapeOk_same (ts : List (Fin 10)) (s : State) :
    Sat (fun _ t => t = s) (fun _ _ => False) (fun _ => True) (fun _ => False) (shapeOk ts s) := by
  induction ts with
  | nil => rfl
  | cons t ts ih =>
    refine sat_look (fun _ => trivial) fun n _ => ?_
    split
    · exact ih
    · rfl

theorem writeConfig_acts (s : State) : ActsSat { err := true } 109 s (writeConfig s) := by
  have hread : ∀ a t, ActsSat { err := true } 1 t (ecRead a t) := fun a t => ecRead_acts _ a t
  have hwrite : ∀ a d t, ActsSat { err := true } 1 t (ecWrite a d t) := fun a d t => ecWrite_acts _ a d t
  have hrow : ∀ (k : Fin 10) (t : State), ActsSat { err := true } 10 t (rowWrite k t) := fun k t =>
    writeArray_acts rfl (cfgByte k) _ 10 t fun i t => ActsSat.known _ 0 _ _ t
  have htgt : ∀ (a b : Fin 29) (t : State), ActsSat { err := true } 2 t (refreshTarget a b t) := fun a b t =>
    (hread _ t).bind (n' := 1) rfl fun v t _ => hwrite _ v t
  have hlive : ∀ (k : Fin 10) (a b : Fin 29) (p : Byte) (t : State), ActsSat { err := true } 2 t (refreshLive k a b p t) := by
    intro k a b p t
    refine (ActsSat.known _ 0 _ _ t).bind (n' := 2) rfl fun n t _ => ?_
    split
    · refine (ActsSat.known _ 0 _ _ t).bind (n' := 2) rfl fun v t _ => ?_
      exact (hwrite _ v t).bind (n' := 1) rfl fun _ t _ => (hwrite _ v t).bind (n' := 0) rfl fun _ t _ => Acts.refl _ 0 t
    · exact Acts.refl _ 2 t
  have hderived : ∀ t : State, ActsSat { err := true } 9 t (refreshDerived t) := by
    intro t
    refine (htgt _ _ t).bind (n' := 7) rfl fun _ t _ => ?_
    refine (htgt _ _ t).bind (n' := 5) rfl fun _ t _ => ?_
    refine (hread _ t).bind (n' := 4) rfl fun p t _ => ?_
    refine (hlive _ _ _ p t).bind (n' := 2) rfl fun x t _ => ?_
    refine (hlive _ _ _ p t).bind (n' := 0) rfl fun y t _ => ?_
    split
    · exact (kept_raise _ rfl _ t).acts 0 rfl rfl
    · exact Acts.refl _ 0 t
  have h0 : ActsSat { err := true } 0 s (shapeOk tableIds s) :=
    (shapeOk_same tableIds s).mono (fun _ t h => by subst h; exact Acts.refl _ 0 t) (fun _ _ h => h.elim) (fun _ h => h) fun _ _ => trivial
  refine h0.bind (n' := 109) rfl fun fits t _ => ?_
  split
  · exact (ActsSat.forEach rfl fun k _ t => hrow k t).bind (n := 100) (n' := 9) rfl fun _ t _ => hderived t
  · exact (kept_raise _ rfl _ t).acts 109 rfl rfl

theorem whenInitialized_acts {w : May} (hw : w.enable = false) (he : w.err = true) {n : Nat} {k : State → Res Bool} (s : State)
    (h : ∀ t, ActsSat w n t (k t)) : ActsSat w n s (whenInitialized k s) := by
  unfold whenInitialized
  split
  · have h0 : Acts w 0 s (entryClear s) :=
      (kept_entryClear w he s).acts 0 (by unfold entryClear; split <;> rfl) (by unfold entryClear; split <;> rfl)
    have := ActsSat.bind hw (r := .ok () (entryClear s)) (k := fun _ s => k s) h0 fun _ t _ => h t
    rw [Nat.zero_add] at this
    exact this
  · exact (kept_raise w he .notInitialized s).acts n rfl rfl

theorem lifecycle_acts {s t : State} (n : Nat) (hc : t.cfgp = s.cfgp) (hb : t.busy = s.busy) (ho : t.ok = s.ok)
    (h8 : t.res8 = s.res8) (h16 : t.res16 = s.res16) (hx : t.resx = s.resx) (hxb : t.xbuf = s.xbuf) (hst : t.stat = s.stat)
    (hcf : t.cfg = s.cfg) (hh : t.host = s.host) (hs : t.seen = s.seen) (hph : t.phase = s.phase) (hsl : t.env.slots = s.env.slots)
    (hm : t.ecmem = s.ecmem) (hstep : t.stepNo = s.stepNo) (htr : t.trace = s.trace) (w : May) (hw : w.enable = true)
    (herr : w.err = false → t.lastCode = s.lastCode ∧ t.lastInfo = s.lastInfo)
    (hi : s.hnd = s.en → t.hnd = t.en)
    (hl : (s.lastCode ≠ .initFailure → s.lastInfo = 0) → s.lastInfo < 2 ^ s.cfgp.statusW →
      (t.lastCode ≠ .initFailure → t.lastInfo = 0) ∧ t.lastInfo < 2 ^ s.cfgp.statusW) : Acts w n s t := by
  refine Kept.acts n ⟨hc, by simp [hw], hb, ho, fun _ => h8, fun _ => h16, fun _ => hx, fun _ => hxb, fun _ => hst, herr, hcf,
    hh, hs, hph, by simp [Env.noPowerLoss, hsl], fun _ hb => ?_⟩ hstep htr
  obtain ⟨h1, h2, h3, h4, h5, h6, h7, h8, h9⟩ := hb
  obtain ⟨h7, h8⟩ := hl h7 h8
  exact ⟨by rwa [hm], by rwa [hm], by rwa [hxb], by rwa [hxb, hc], by rwa [hc, hcf], hi h6, h7, by rwa [hc], by rwa [hst]⟩

theorem drawLoad_slots (e : Env) : (drawLoad e).2.slots = e.slots := by unfold drawLoad; split <;> rfl

theorem drawInit_slots (e : Env) : (drawInit e).2.slots = e.slots := by unfold drawInit; split <;> rfl

theorem drawLoad_rests (e : Env) : (drawLoad e).2.rests = e.rests := by unfold drawLoad; split <;> rfl

theorem drawInit_rests (e : Env) : (drawInit e).2.rests = e.rests := by unfold drawInit; split <;> rfl

theorem initFresh_acts (s : State) : Acts { enable := true, err := true } 0 s (initFresh s).2 := by
  unfold initFresh initAnswered loadFailed invokeLoad invokeInit
  dsimp only
  split
  · apply lifecycle_acts <;> first | rfl | exact drawLoad_slots _ | skip
    · simp
    · exact fun _ => rfl
    · exact fun _ _ => ⟨fun _ => rfl, Nat.two_pow_pos _⟩
  · split
    · apply lifecycle_acts <;> first | rfl | exact (drawInit_slots _).trans (drawLoad_slots _) | skip
      · simp
      · exact fun _ => rfl
      · exact fun _ _ => ⟨fun h => absurd rfl h, Nat.mod_lt _ (Nat.two_pow_pos _)⟩
    · apply lifecycle_acts <;> first | rfl | exact (drawInit_slots _).trans (drawLoad_slots _) | skip
      · simp
      · exact fun _ => rfl
      · exact fun h h' => ⟨h, h'⟩

theorem initResult_eq (s : State) : initResult s = initOutcome s := by
  unfold initResult initOutcome initFresh initAnswered loadFailed invokeLoad invokeInit drawLoad drawInit entryClear raise
  dsimp only
  repeat' split
  all_goals rfl

theorem initResult_acts (s : State) : Acts { enable := true, err := true } 0 s (initResult s).2 := by
  rw [initResult_eq, initOutcome]
  split
  · exact Acts.refl _ 0 s
  · unfold entryClear
    split
    · have h := initFresh_acts (raise .none 0 s)
      exact ⟨(kept_raise _ rfl .none s).trans h.toKept, h.step, h.trace, h.silent⟩
    · exact initFresh_acts s

theorem rdarrBody_acts (b : Addr) (n : BitVec 8) (s : State) : ActsSat { xbuf := true } n.toNat s (rdarrBody b n s) := by
  have h : ActsSat { xbuf := true } n.toNat s (readArray putXbuf b n s) :=
    readArray_acts rfl putXbuf b n s fun i v t hi => (kept_putXbuf i v t hi).acts 0 rfl rfl
  refine h.bind (n' := 0) rfl fun _ t _ => ?_
  exact Acts.refl _ 0 t

theorem wrarrBody_acts (b : Addr) (n : BitVec 8) (s : State) : ActsSat {} n.toNat s (wrarrBody b n s) := by
  have h : ActsSat {} n.toNat s (writeArray xbufByte b n s) :=
    writeArray_acts rfl xbufByte b n s fun i t => ActsSat.known _ 0 _ _ t
  refine h.bind (n' := 0) rfl fun _ t _ => ?_
  exact Acts.refl _ 0 t

/-- How many complete accesses a command issues at most (R153, R154, R170, R179, R180, R212). -/
def accessBound : Instr → Nat
  | .init => 0
  | .deinit => 0
  | .isinit => 0
  | .geterr => 0
  | .rdreg _ => 1
  | .wrreg _ _ => 1
  | .rdarr _ n => n.toNat
  | .wrarr _ n => n.toNat
  | .romrd _ => 0
  | .rdrow _ => 10
  | .wrrow _ => 10
  | .rdstat => 113
  | .wrcfg => 109

theorem accessBound_le (i : Instr) : accessBound i ≤ 255 := by
  cases i with
  | rdarr b n => exact Nat.le_of_lt_succ n.isLt
  | wrarr b n => exact Nat.le_of_lt_succ n.isLt
  | _ => simp [accessBound]

/-- Everything a command's body can do in any environment. -/
theorem body_acts (i : Instr) (s : State) : ActsSat (may i) (accessBound i) s (body i s) := by
  cases i with
  | init => exact initResult_acts s
  | deinit =>
    simp only [body, may]
    split
    · apply lifecycle_acts <;> first | rfl | skip
      · exact fun _ => ⟨rfl, rfl⟩
      · exact fun _ => rfl
      · exact fun h h' => ⟨h, h'⟩
    · rename_i hh
      apply lifecycle_acts <;> first | rfl | skip
      · exact fun _ => ⟨rfl, rfl⟩
      · exact fun _ => by simpa using hh
      · exact fun h h' => ⟨h, h'⟩
  | isinit => exact Acts.refl _ 0 s
  | geterr => exact (kept_res _ s _ s.res16 _ (by simp [may]) (fun _ => rfl) (by simp [may])).acts 0 rfl rfl
  | rdreg a =>
    exact (ecRead_acts _ a s).bind (n' := 0) rfl fun v t _ =>
      (kept_res _ t _ t.res16 t.resx (by simp [may]) (fun _ => rfl) fun _ => rfl).acts 0 rfl rfl
  | wrreg a d => exact (ecWrite_acts _ a d s).bind (n' := 0) rfl fun _ t _ => Acts.refl _ 0 t
  | rdarr b n => exact rdarrBody_acts b n s
  | wrarr b n => exact wrarrBody_acts b n s
  | romrd k =>
    simp only [body]
    split
    · exact (kept_res _ s s.res8 _ s.resx (fun _ => rfl) (by simp [may]) fun _ => rfl).acts 0 rfl rfl
    · trivial
  | rdrow t =>
    simp only [body]
    split
    · exact rdarrBody_acts _ 10 s
    · trivial
  | wrrow t =>
    simp only [body]
    split
    · exact wrarrBody_acts _ 10 s
    · trivial
  | rdstat => exact whenInitialized_acts rfl rfl s readStatus_acts
  | wrcfg => exact whenInitialized_acts rfl rfl s writeConfig_acts

/-- What a command can lead to, in any environment: its body is done, or the gateway faulted in it, or power was lost in it. -/
theorem exec_acts {i : Instr} {s t : State} (h : exec i s = .next t) :
    (∃ b u, Acts (may i) (accessBound i) (accept s) u ∧ t = finish b u)
      ∨ (∃ u, ActsCut (may i) (accessBound i) .gatewayFault (accept s) u ∧ t = takeGatewayFault u)
      ∨ (∃ u, ActsCut (may i) (accessBound i) .powerLoss (accept s) u ∧ t = resetInstance u) := by
  obtain ⟨-, -, ⟨b, u, hb, rfl⟩ | ⟨u, hb, rfl⟩ | ⟨u, hb, rfl⟩⟩ := exec_next h
  all_goals have hs := body_acts i (accept s); rw [hb] at hs
  · exact .inl ⟨b, u, hs, rfl⟩
  · exact .inr (.inl ⟨u, hs, rfl⟩)
  · exact .inr (.inr ⟨u, hs, rfl⟩)

end Sys2Proof.Laws
end

