-- ==== Sys2Proof/Laws/Encoding.lean ====
section
/-!
SUPPORT. The three fields of a command word (R100 to R102): a word made of fields has them, and a word is made of its fields.
-/
namespace Sys2Proof.Laws
open Sys2Proof

@[simp] theorem opcOf_wordOf (o : Byte) (a : Addr) (i : Byte) : opcOf (wordOf o a i) = o := by
  apply BitVec.eq_of_getLsbD_eq
  intro k hk
  simp only [opcOf, wordOf, BitVec.getLsbD_extractLsb', BitVec.getLsbD_append]
  simp [hk, show ¬ 24 + k < 8 by omega, show ¬ 24 + k - 8 < 16 by omega,
    show 24 + k - 8 - 16 = k by omega]

@[simp] theorem addrOf_wordOf (o : Byte) (a : Addr) (i : Byte) : addrOf (wordOf o a i) = a := by
  apply BitVec.eq_of_getLsbD_eq
  intro k hk
  simp only [addrOf, wordOf, BitVec.getLsbD_extractLsb', BitVec.getLsbD_append]
  simp [hk, show ¬ 8 + k < 8 by omega]

@[simp] theorem immOf_wordOf (o : Byte) (a : Addr) (i : Byte) : immOf (wordOf o a i) = i := by
  apply BitVec.eq_of_getLsbD_eq
  intro k hk
  simp only [immOf, wordOf, BitVec.getLsbD_extractLsb', BitVec.getLsbD_append]
  simp [hk]

theorem wordOf_fields (w : CmdWord) : wordOf (opcOf w) (addrOf w) (immOf w) = w := by
  apply BitVec.eq_of_getLsbD_eq
  intro k hk
  simp only [wordOf, opcOf, addrOf, immOf, BitVec.getLsbD_append, BitVec.getLsbD_extractLsb']
  by_cases h : k < 8
  · simp [h]
  · by_cases h' : k - 8 < 16
    · simp [h, h', show 8 + (k - 8) = k by omega]
    · simp [h, h', show k - 8 - 16 < 8 by omega, show 24 + (k - 8 - 16) = k by omega]

/-- A word is determined by its fields. -/
theorem word_eq {w : CmdWord} {o : Byte} {a : Addr} {i : Byte} (h1 : opcOf w = o) (h2 : addrOf w = a) (h3 : immOf w = i) :
    w = wordOf o a i := by rw [← h1, ← h2, ← h3, wordOf_fields]

theorem wordOf_inj {o o' : Byte} {a a' : Addr} {i i' : Byte} :
    wordOf o a i = wordOf o' a' i' ↔ o = o' ∧ a = a' ∧ i = i' := by
  refine ⟨fun h => ⟨?_, ?_, ?_⟩, by rintro ⟨rfl, rfl, rfl⟩; rfl⟩
  · simpa using congrArg opcOf h
  · simpa using congrArg addrOf h
  · simpa using congrArg immOf h

/-- A mask acts on the three fields apart (R103). -/
theorem wordOf_and (o o' : Byte) (a a' : Addr) (i i' : Byte) :
    wordOf o a i &&& wordOf o' a' i' = wordOf (o &&& o') (a &&& a') (i &&& i') := by
  apply BitVec.eq_of_getLsbD_eq
  intro k hk
  simp only [wordOf, BitVec.getLsbD_and, BitVec.getLsbD_append]
  split <;> [skip; split] <;> simp

/-- A row selects a word by its three fields (R103). -/
theorem selects_fields (r : OpcodeRow) (w : CmdWord) :
    r.selects w = true ↔ opcOf w &&& opcOf r.maskBits = opcOf r.matchBits ∧ addrOf w &&& addrOf r.maskBits = addrOf r.matchBits
      ∧ immOf w &&& immOf r.maskBits = immOf r.matchBits ∧ (immOf w).toNat ≤ r.kmax := by
  have h : w &&& r.maskBits = r.matchBits ↔ opcOf w &&& opcOf r.maskBits = opcOf r.matchBits
      ∧ addrOf w &&& addrOf r.maskBits = addrOf r.matchBits ∧ immOf w &&& immOf r.maskBits = immOf r.matchBits := by
    conv_lhs => rw [← wordOf_fields w, ← wordOf_fields r.maskBits, ← wordOf_fields r.matchBits]
    rw [wordOf_and, wordOf_inj]
  simp only [OpcodeRow.selects, Bool.and_eq_true, beq_iff_eq, decide_eq_true_eq, h, and_assoc]

/-- The decoder by fields (R103, R105). -/
theorem decode_wordOf (o : Byte) (a : Addr) (m : Byte) : decode (wordOf o a m) =
  if o = 0x01 then (if a = 0 ∧ m = 0 then .ok .init else .error .zFieldSet)
  else if o = 0x02 then (if a = 0 ∧ m = 0 then .ok .deinit else .error .zFieldSet)
  else if o = 0x03 then (if a = 0 ∧ m = 0 then .ok .isinit else .error .zFieldSet)
  else if o = 0x04 then (if a = 0 ∧ m = 0 then .ok .geterr else .error .zFieldSet)
  else if o = 0x10 then
    if m = 0 then .ok (.rdreg a) else .error .rdregImmSet
  else if o = 0x11 then .ok (.wrreg a m)
  else if o = 0x12 then .ok (.rdarr a m)
  else if o = 0x13 then .ok (.wrarr a m)
  else if o = 0x20 then (if a = 0 then (if m.toNat ≤ 28 then .ok (.romrd m) else .error .indexOutOfRange) else .error .kFieldSet)
  else if o = 0x21 then (if a = 0 then (if m.toNat ≤ 9 then .ok (.rdrow m) else .error .indexOutOfRange) else .error .kFieldSet)
  else if o = 0x22 then (if a = 0 then (if m.toNat ≤ 9 then .ok (.wrrow m) else .error .indexOutOfRange) else .error .kFieldSet)
  else if o = 0x30 then (if a = 0 ∧ m = 0 then .ok .rdstat else .error .zFieldSet)
  else if o = 0x31 then (if a = 0 ∧ m = 0 then .ok .wrcfg else .error .zFieldSet)
  else .error .unknownOpcode := by
  simp only [decode, opcOf_wordOf, addrOf_wordOf, immOf_wordOf, decodeZ, decodeK]

/-- What a word that decodes holds, and what it decodes to (R103, R105). -/
theorem decode_ok {o : Byte} {a : Addr} {m : Byte} {i : Instr} (h : decode (wordOf o a m) = .ok i) :
    (o = 0x01 ∧ a = 0 ∧ m = 0 ∧ i = .init)
    ∨ (o = 0x02 ∧ a = 0 ∧ m = 0 ∧ i = .deinit)
    ∨ (o = 0x03 ∧ a = 0 ∧ m = 0 ∧ i = .isinit)
    ∨ (o = 0x04 ∧ a = 0 ∧ m = 0 ∧ i = .geterr)
    ∨ (o = 0x10 ∧ m = 0 ∧ i = .rdreg a)
    ∨ (o = 0x11 ∧ i = .wrreg a m)
    ∨ (o = 0x12 ∧ i = .rdarr a m)
    ∨ (o = 0x13 ∧ i = .wrarr a m)
    ∨ (o = 0x20 ∧ a = 0 ∧ m.toNat ≤ 28 ∧ i = .romrd m)
    ∨ (o = 0x21 ∧ a = 0 ∧ m.toNat ≤ 9 ∧ i = .rdrow m)
    ∨ (o = 0x22 ∧ a = 0 ∧ m.toNat ≤ 9 ∧ i = .wrrow m)
    ∨ (o = 0x30 ∧ a = 0 ∧ m = 0 ∧ i = .rdstat)
    ∨ (o = 0x31 ∧ a = 0 ∧ m = 0 ∧ i = .wrcfg) := by
  rw [decode_wordOf] at h
  by_cases ho : o = 0x01
  · rw [if_pos ho] at h
    split at h <;> cases h
    rename_i hz
    exact .inl ⟨ho, hz.1, hz.2, rfl⟩
  rw [if_neg ho] at h
  refine .inr ?_
  by_cases ho : o = 0x02
  · rw [if_pos ho] at h
    split at h <;> cases h
    rename_i hz
    exact .inl ⟨ho, hz.1, hz.2, rfl⟩
  rw [if_neg ho] at h
  refine .inr ?_
  by_cases ho : o = 0x03
  · rw [if_pos ho] at h
    split at h <;> cases h
    rename_i hz
    exact .inl ⟨ho, hz.1, hz.2, rfl⟩
  rw [if_neg ho] at h
  refine .inr ?_
  by_cases ho : o = 0x04
  · rw [if_pos ho] at h
    split at h <;> cases h
    rename_i hz
    exact .inl ⟨ho, hz.1, hz.2, rfl⟩
  rw [if_neg ho] at h
  refine .inr ?_
  by_cases ho : o = 0x10
  · rw [if_pos ho] at h
    split at h <;> cases h
    rename_i hz
    exact .inl ⟨ho, hz, rfl⟩
  rw [if_neg ho] at h
  refine .inr ?_
  by_cases ho : o = 0x11
  · rw [if_pos ho] at h
    exact .inl ⟨ho, (Except.ok.inj h).symm⟩
  rw [if_neg ho] at h
  refine .inr ?_
  by_cases ho : o = 0x12
  · rw [if_pos ho] at h
    exact .inl ⟨ho, (Except.ok.inj h).symm⟩
  rw [if_neg ho] at h
  refine .inr ?_
  by_cases ho : o = 0x13
  · rw [if_pos ho] at h
    exact .inl ⟨ho, (Except.ok.inj h).symm⟩
  rw [if_neg ho] at h
  refine .inr ?_
  by_cases ho : o = 0x20
  · rw [if_pos ho] at h
    split at h <;> [split at h; skip] <;> cases h
    rename_i hz hk
    exact .inl ⟨ho, hz, hk, rfl⟩
  rw [if_neg ho] at h
  refine .inr ?_
  by_cases ho : o = 0x21
  · rw [if_pos ho] at h
    split at h <;> [split at h; skip] <;> cases h
    rename_i hz hk
    exact .inl ⟨ho, hz, hk, rfl⟩
  rw [if_neg ho] at h
  refine .inr ?_
  by_cases ho : o = 0x22
  · rw [if_pos ho] at h
    split at h <;> [split at h; skip] <;> cases h
    rename_i hz hk
    exact .inl ⟨ho, hz, hk, rfl⟩
  rw [if_neg ho] at h
  refine .inr ?_
  by_cases ho : o = 0x30
  · rw [if_pos ho] at h
    split at h <;> cases h
    rename_i hz
    exact .inl ⟨ho, hz.1, hz.2, rfl⟩
  rw [if_neg ho] at h
  refine .inr ?_
  by_cases ho : o = 0x31
  · rw [if_pos ho] at h
    split at h <;> cases h
    rename_i hz
    exact ⟨ho, hz.1, hz.2, rfl⟩
  rw [if_neg ho] at h
  cases h

end Sys2Proof.Laws
end

