-- ==== Sys2Proof/Laws/PerInstr.lean ====
section
/-!
SUPPORT. The family of statements made per instruction: the encoding of a well-formed command selects its own row of R103.
-/
namespace Sys2Proof.Laws.TableRow
open Sys2Proof

/-- The encoding of a well-formed command selects the row of R103 that has the command's mnemonic. -/
def Statement (i : Instr) : Prop :=
  i.wf = true → ∃ r ∈ opcodeRows, r.mnemonic = i.mnemonic ∧ r.selects (encode i) = true

theorem init : Statement .init := fun _ => ⟨opcodeRows[0], by decide, by decide, by decide⟩
theorem deinit : Statement .deinit := fun _ => ⟨opcodeRows[1], by decide, by decide, by decide⟩
theorem isinit : Statement .isinit := fun _ => ⟨opcodeRows[2], by decide, by decide, by decide⟩
theorem geterr : Statement .geterr := fun _ => ⟨opcodeRows[3], by decide, by decide, by decide⟩

/-- A row whose mask covers the opcode alone, or the opcode and a field the command leaves zero. -/
theorem selects_of {n : Nat} (hn : n < 13) {o : Byte} {a : Addr} {m : Byte}
    (ho : o &&& opcOf opcodeRows[n].maskBits = opcOf opcodeRows[n].matchBits)
    (ha : a &&& addrOf opcodeRows[n].maskBits = addrOf opcodeRows[n].matchBits)
    (hm : m &&& immOf opcodeRows[n].maskBits = immOf opcodeRows[n].matchBits)
    (hk : m.toNat ≤ opcodeRows[n].kmax) : opcodeRows[n].selects (wordOf o a m) = true :=
  (selects_fields _ _).mpr (by simp only [opcOf_wordOf, addrOf_wordOf, immOf_wordOf]; exact ⟨ho, ha, hm, hk⟩)

/-- A field a row's mask does not cover. -/
theorem free {w : Nat} (x : BitVec w) {mask bits : BitVec w} (h : mask = 0) (h' : bits = 0) : x &&& mask = bits := by
  rw [h, h']; exact BitVec.and_zero

theorem byte_le (m : Byte) : m.toNat ≤ 255 := Nat.le_of_lt_succ m.isLt

theorem rdreg (a : Addr) : Statement (.rdreg a) := fun _ =>
  ⟨opcodeRows[4], by decide, rfl, selects_of (n := 4) (by decide) (by decide) (free a (by decide) (by decide)) (by decide) (by decide)⟩
theorem wrreg (a : Addr) (d : Byte) : Statement (.wrreg a d) := fun _ =>
  ⟨opcodeRows[5], by decide, rfl,
    selects_of (n := 5) (by decide) (by decide) (free a (by decide) (by decide)) (free d (by decide) (by decide)) (byte_le d)⟩
theorem rdarr (b : Addr) (n : Byte) : Statement (.rdarr b n) := fun _ =>
  ⟨opcodeRows[6], by decide, rfl,
    selects_of (n := 6) (by decide) (by decide) (free b (by decide) (by decide)) (free n (by decide) (by decide)) (byte_le n)⟩
theorem wrarr (b : Addr) (n : Byte) : Statement (.wrarr b n) := fun _ =>
  ⟨opcodeRows[7], by decide, rfl,
    selects_of (n := 7) (by decide) (by decide) (free b (by decide) (by decide)) (free n (by decide) (by decide)) (byte_le n)⟩
theorem romrd (k : Byte) : Statement (.romrd k) := fun h =>
  ⟨opcodeRows[8], by decide, rfl,
    selects_of (n := 8) (by decide) (by decide) (by decide) (free k (by decide) (by decide)) (of_decide_eq_true h)⟩
theorem rdrow (t : Byte) : Statement (.rdrow t) := fun h =>
  ⟨opcodeRows[9], by decide, rfl,
    selects_of (n := 9) (by decide) (by decide) (by decide) (free t (by decide) (by decide)) (of_decide_eq_true h)⟩
theorem wrrow (t : Byte) : Statement (.wrrow t) := fun h =>
  ⟨opcodeRows[10], by decide, rfl,
    selects_of (n := 10) (by decide) (by decide) (by decide) (free t (by decide) (by decide)) (of_decide_eq_true h)⟩
theorem rdstat : Statement .rdstat := fun _ => ⟨opcodeRows[11], by decide, by decide, by decide⟩
theorem wrcfg : Statement .wrcfg := fun _ => ⟨opcodeRows[12], by decide, by decide, by decide⟩

end Sys2Proof.Laws.TableRow
end

