-- ==== Sys2Proof/Laws/Runs.lean ====
section
/-!
SUPPORT. Chains of accesses in a quiet environment: one relation, `Ran`, says what any of them does, and each shared
operation has one lemma that says which chain it is.
-/
namespace Sys2Proof.Laws
open Sys2Proof Sys2Proof.Machine

/-- Every read of a chain finds a byte its register may give. -/
def readsOk (vol : List Addr) : List Access → (Addr → Option Byte) → Prop
  | [], _ => True
  | .read a v :: xs, f => (a ∈ vol ∨ f a = some v) ∧ readsOk vol xs f
  | .write b d :: xs, f => readsOk vol xs fun a => if a = b then some d else f a

/-- The EC registers of a state. -/
def ecRegs (s : State) (a : Addr) : Option Byte := s.ecmem.byteAt a.toNat

/-- The chain `xs` of complete accesses leads from `s` to `t`, with `n` quiet port operations to come; `XBUF`, `STAT` and the
sequencer's own registers aside, nothing else changes. -/
structure Ran (cut : Bool) (n : Nat) (s : State) (xs : List Access) (t : State) : Prop where
  cfgp : t.cfgp = s.cfgp
  en : t.en = s.en
  hnd : t.hnd = s.hnd
  lastCode : t.lastCode = s.lastCode
  lastInfo : t.lastInfo = s.lastInfo
  ok : t.ok = s.ok
  busy : t.busy = s.busy
  res8 : t.res8 = s.res8
  res16 : t.res16 = s.res16
  resx : t.resx = s.resx
  cfg : t.cfg = s.cfg
  host : t.host = s.host
  seen : t.seen = s.seen
  calls : t.calls = s.calls
  trace : t.trace = s.trace ++ xs.flatMap (Access.events s.cfgp)
  quiet : ahead cut s.cfgp n t.env = true
  regs : ∀ a : Addr, a ∉ s.cfgp.volatile → ecRegs t a = afterRun xs (ecRegs s) a
  listed : ∀ a : Addr, ecRegs s a ≠ none → ecRegs t a ≠ none
  reads : readsOk s.cfgp.volatile xs (ecRegs s)
  ends : Ended s xs t
  phase : t.phase = s.phase

variable {cut : Bool}

/-- What a chain does not touch of ECSEQ: the buffers and the array engine's registers. -/
structure SameBuffers (s t : State) : Prop where
  xbuf : t.xbuf = s.xbuf
  stat : t.stat = s.stat
  base : t.base = s.base
  cnt : t.cnt = s.cnt
  idx : t.idx = s.idx

theorem afterRun_congr (xs : List Access) {f g : Addr → Option Byte} {a : Addr} (h : f a = g a) :
    afterRun xs f a = afterRun xs g a := by
  induction xs generalizing f g with
  | nil => exact h
  | cons x xs ih =>
    cases x with
    | read b v => exact ih h
    | write b d => exact ih (by simp only [h])

theorem afterRun_append (xs ys : List Access) (f : Addr → Option Byte) :
    afterRun (xs ++ ys) f = afterRun ys (afterRun xs f) := by
  induction xs generalizing f with
  | nil => rfl
  | cons x xs ih => cases x <;> exact ih _

theorem readsOk_congr {vol : List Addr} (xs : List Access) {f g : Addr → Option Byte} (h : ∀ a, a ∉ vol → f a = g a)
    (hr : readsOk vol xs f) : readsOk vol xs g := by
  induction xs generalizing f g with
  | nil => trivial
  | cons x xs ih =>
    cases x with
    | read b v =>
      refine ⟨?_, ih h hr.2⟩
      by_cases hv : b ∈ vol
      · exact .inl hv
      · exact .inr (h b hv ▸ hr.1.resolve_left hv)
    | write b d => exact ih (fun a ha => by simp only [h a ha]) hr

theorem readsOk_append {vol : List Addr} (xs ys : List Access) (f : Addr → Option Byte) :
    readsOk vol (xs ++ ys) f ↔ readsOk vol xs f ∧ readsOk vol ys (afterRun xs f) := by
  induction xs generalizing f with
  | nil => simp [readsOk, afterRun]
  | cons x xs ih => cases x <;> simp [readsOk, afterRun, ih, and_assoc]

/-- The registers a chain writes. -/
def writtenIn (xs : List Access) : List Addr :=
  xs.filterMap fun x => match x with
    | .read _ _ => none
    | .write a _ => some a

theorem afterRun_other (xs : List Access) (f : Addr → Option Byte) {a : Addr} (h : a ∉ writtenIn xs) :
    afterRun xs f a = f a := by
  induction xs generalizing f with
  | nil => rfl
  | cons x xs ih =>
    cases x with
    | read b v => exact ih f h
    | write b d =>
      simp only [writtenIn, List.filterMap_cons, List.mem_cons, not_or] at h
      rw [afterRun, ih _ h.2, if_neg h.1]

/-- The last write of a register in a chain decides what it holds. -/
theorem afterRun_last (xs ys : List Access) (f : Addr → Option Byte) {a : Addr} (d : Byte) (h : a ∉ writtenIn ys) :
    afterRun (xs ++ .write a d :: ys) f a = some d := by
  rw [afterRun_append, afterRun, afterRun_other ys _ h, if_pos rfl]

theorem writtenIn_append (xs ys : List Access) : writtenIn (xs ++ ys) = writtenIn xs ++ writtenIn ys := List.filterMap_append

@[simp] theorem writtenIn_reads (as : List Addr) (vs : List Byte) : writtenIn (List.zipWith Access.read as vs) = [] := by
  induction as generalizing vs with
  | nil => rfl
  | cons a as ih => cases vs <;> [rfl; exact ih _]

/-- A chain of reads only. -/
theorem readsOk_reads {s : State} (as : List Addr) (vs : List Byte) (hl : vs.length = as.length)
    (h : readsOk s.cfgp.volatile (List.zipWith Access.read as vs) (ecRegs s)) : List.Forall₂ (mayRead s) as vs := by
  induction as generalizing vs with
  | nil => cases vs <;> simp_all
  | cons a as ih =>
    cases vs with
    | nil => simp at hl
    | cons v vs => exact .cons h.1 (ih vs (by simpa using hl) h.2)

theorem readPass_eq (c : Cfgp) (as : List Addr) (vs : List Byte) :
    (List.zipWith Access.read as vs).flatMap (Access.events c) = readPass c as vs := by
  simp only [readPass, List.flatMap, List.map_zipWith, Access.events]

theorem writePass_eq (c : Cfgp) (as : List Addr) (vs : List Byte) :
    (List.zipWith Access.write as vs).flatMap (Access.events c) = writePass c as vs := by
  simp only [writePass, List.flatMap, List.map_zipWith, Access.events]

/-- A chain of no accesses. -/
theorem Ran.refl {n : Nat} {s : State} (hq : ahead cut s.cfgp n s.env = true) : Ran cut n s [] s :=
  ⟨rfl, rfl, rfl, rfl, rfl, rfl, rfl, rfl, rfl, rfl, rfl, rfl, rfl, rfl, by simp, hq, fun _ _ => rfl, fun _ h => h, trivial,
    ⟨rfl, rfl, rfl, rfl, rfl, rfl⟩, rfl⟩

theorem ended_trans {s t u : State} {xs ys : List Access} (h : Ended s xs t) (h' : Ended t ys u) (hc : t.cfgp = s.cfgp) :
    Ended s (xs ++ ys) u := by
  rw [Ended, latchesOf, List.getLast?_append]
  rw [Ended, latchesOf] at h h'
  cases hy : ys.getLast? with
  | none =>
    rw [hy] at h'
    obtain ⟨h1, h2, h3, h4, h5, h6⟩ := h'
    rw [Option.none_or, h1, h2, h3, h4, h5, h6]
    exact h
  | some y =>
    rw [hy] at h'
    rw [Option.some_or]
    exact hc ▸ h'

theorem Ran.trans {n n' : Nat} {s t u : State} {xs ys : List Access} (h : Ran cut n' s xs t) (h' : Ran cut n t ys u) :
    Ran cut n s (xs ++ ys) u where
  cfgp := h'.cfgp.trans h.cfgp
  en := h'.en.trans h.en
  hnd := h'.hnd.trans h.hnd
  lastCode := h'.lastCode.trans h.lastCode
  lastInfo := h'.lastInfo.trans h.lastInfo
  ok := h'.ok.trans h.ok
  busy := h'.busy.trans h.busy
  res8 := h'.res8.trans h.res8
  res16 := h'.res16.trans h.res16
  resx := h'.resx.trans h.resx
  cfg := h'.cfg.trans h.cfg
  host := h'.host.trans h.host
  seen := h'.seen.trans h.seen
  calls := h'.calls.trans h.calls
  trace := by rw [h'.trace, h.trace, h.cfgp, List.flatMap_append, List.append_assoc]
  quiet := h.cfgp ▸ h'.quiet
  regs a ha := by
    rw [h'.regs a (h.cfgp ▸ ha), afterRun_append]
    exact afterRun_congr ys (h.regs a ha)
  listed a ha := h'.listed a (h.listed a ha)
  reads := (readsOk_append xs ys _).mpr
    ⟨h.reads, readsOk_congr ys (fun a ha => h.regs a ha) (h.cfgp ▸ h'.reads)⟩
  ends := ended_trans h.ends h'.ends h.cfgp
  phase := h'.phase.trans h.phase

/-- A chain after, or before, an update of the registers a chain says nothing of. -/
theorem Ran.update {n : Nat} {s t : State} {xs : List Access} (h : Ran cut n s xs t) (xb : Memory) (st : Stat) (b : Addr)
    (c i : BitVec 8) : Ran cut n s xs { t with xbuf := xb, stat := st, base := b, cnt := c, idx := i } :=
  ⟨h.cfgp, h.en, h.hnd, h.lastCode, h.lastInfo, h.ok, h.busy, h.res8, h.res16, h.resx, h.cfg, h.host, h.seen, h.calls, h.trace,
    h.quiet, h.regs, h.listed, h.reads, h.ends, h.phase⟩

theorem Ran.before {n : Nat} {s t : State} {xs : List Access} (xb : Memory) (st : Stat) (b : Addr) (c i : BitVec 8)
    (h : Ran cut n { s with xbuf := xb, stat := st, base := b, cnt := c, idx := i } xs t) : Ran cut n s xs t :=
  ⟨h.cfgp, h.en, h.hnd, h.lastCode, h.lastInfo, h.ok, h.busy, h.res8, h.res16, h.resx, h.cfg, h.host, h.seen, h.calls, h.trace,
    h.quiet, h.regs, h.listed, h.reads, h.ends, h.phase⟩

theorem Ran.readable {n : Nat} {s t : State} {xs : List Access} (h : Ran cut n s xs t) {a : Addr} (hr : readable s a) :
    readable t a := hr.elim (fun hr => .inl (h.listed a hr)) fun hr => .inr (h.cfgp ▸ hr)

/-! ## Accesses -/

/-- `EcRead` (R151). -/
theorem ecRead_ran (a : Addr) (s : State) (n : Nat) (he : s.en = true) (hp : PortsOk s.cfgp)
    (hq : ahead cut s.cfgp (n + 8) s.env = true) (hr : readable s a) :
    ∃ v t, ecRead a s = .ok v t ∧ Ran cut n s [.read a v] t ∧ SameBuffers s t := by
  obtain ⟨v, m, e, hd, hm, h⟩ := ecRead_quiet a s n he hp hq hr
  exact ⟨v, _, h, ⟨rfl, rfl, rfl, rfl, rfl, rfl, rfl, rfl, rfl, rfl, rfl, rfl, rfl, rfl, by simp [Access.events], hd.quiet,
    hd.drift.kept, hd.drift.listed, ⟨hm.1, trivial⟩, ⟨rfl, rfl, rfl, rfl, rfl, hm.2⟩, rfl⟩, ⟨rfl, rfl, rfl, rfl, rfl⟩⟩

/-- `EcWrite` (R152). -/
theorem ecWrite_ran (a : Addr) (d : Byte) (s : State) (n : Nat) (he : s.en = true) (hp : PortsOk s.cfgp)
    (hq : ahead cut s.cfgp (n + 8) s.env = true) :
    ∃ t, ecWrite a d s = .ok () t ∧ Ran cut n s [.write a d] t ∧ SameBuffers s t ∧ ecRegs t a = some d := by
  obtain ⟨m, e, hd, h⟩ := ecWrite_quiet a d s n he hp hq
  refine ⟨_, h, ⟨rfl, rfl, rfl, rfl, rfl, rfl, rfl, rfl, rfl, rfl, rfl, rfl, rfl, rfl, by simp [Access.events], hd.quiet,
    fun b hb => ?_, fun b hb => ?_, trivial, ⟨rfl, rfl, rfl, rfl, rfl, byteAt_put_same m _ d⟩, rfl⟩, ⟨rfl, rfl, rfl, rfl, rfl⟩, byteAt_put_same m _ d⟩
  · by_cases hba : b = a
    · subst hba; simp [ecRegs, afterRun]
    · simp only [ecRegs, afterRun, hba, if_false]
      exact (byteAt_put_other m d (toNat_ne hba)).trans (hd.drift.kept b hb)
  · by_cases hba : b = a
    · subst hba; simp [ecRegs]
    · simp only [ecRegs]
      rw [byteAt_put_other m d (toNat_ne hba)]
      exact hd.drift.listed b hb

/-! ## Arrays (R170 to R173) -/

/-- The address of element `i` of the array at `b`. -/
abbrev elemAt (b : Addr) (i : Nat) : Addr := elemAddr b (BitVec.ofNat 8 i)

/-- An array read from element `j` on, `k` elements: the bytes it finds, delivered by `put` one by one. -/
theorem readElems_ran {put : Nat → Byte → State → State}
    (hput : ∀ i v t, ∃ xb st, put i v t = { t with xbuf := xb, stat := st }) (b : Addr) (n : Nat) (k j : Nat) (s : State)
    (he : s.en = true) (hp : PortsOk s.cfgp) (hb : s.base = b) (hq : ahead cut s.cfgp (n + 8 * k) s.env = true)
    (hr : ∀ i, i < k → readable s (elemAt b (j + i))) :
    ∃ vs t, vs.length = k ∧ forEach (readElem put) (List.range' j k) s = .ok () t
      ∧ Ran cut n s (List.zipWith Access.read ((List.range' j k).map (elemAt b)) vs) t
      ∧ t.base = b ∧ t.cnt = s.cnt ∧ t.idx = (if k = 0 then s.idx else BitVec.ofNat 8 (j + k - 1))
      ∧ ∀ f : Nat → Byte → Memory × Stat → Memory × Stat,
          (∀ i v t, put i v t = { t with xbuf := (f i v (t.xbuf, t.stat)).1, stat := (f i v (t.xbuf, t.stat)).2 }) →
          (t.xbuf, t.stat) = (List.zip (List.range' j k) vs).foldl (fun x y => f y.1 y.2 x) (s.xbuf, s.stat) := by
  induction k generalizing j s with
  | zero => exact ⟨[], s, rfl, rfl, Ran.refl hq, hb, rfl, rfl, fun _ _ => rfl⟩
  | succ k ih =>
    have hq' : ahead cut s.cfgp (n + 8 * k + 8) s.env = true := by rw [show n + 8 * k + 8 = n + 8 * (k + 1) by omega]; exact hq
    have haddr : curAddr (setIdx j s) = elemAt b j := by simp only [curAddr, setIdx, hb, elemAt]
    have hr0 : readable (setIdx j s) (elemAt b j) := hr 0 (Nat.zero_lt_succ k)
    obtain ⟨v, t, h, hran, hsame⟩ := ecRead_ran (elemAt b j) (setIdx j s) (n + 8 * k) he hp hq' hr0
    obtain ⟨xb, st, hxb⟩ := hput j v t
    have hran : Ran cut (n + 8 * k) s [.read (elemAt b j) v] (put j v t) := by
      rw [hxb]
      exact Ran.before s.xbuf s.stat s.base s.cnt (BitVec.ofNat 8 j) (hran.update xb st t.base t.cnt t.idx)
    have hbase : (put j v t).base = b := by rw [hxb]; exact hsame.base.trans hb
    obtain ⟨vs, u, hlen, h', hran', hb', hc', hi', hf'⟩ := ih (j + 1) (put j v t) (hran.en.trans he) (hran.cfgp ▸ hp) hbase
      (hran.cfgp ▸ hran.quiet) fun i hi => hran.readable (by
        have := hr (i + 1) (by omega)
        rwa [show j + (i + 1) = j + 1 + i by omega] at this)
    refine ⟨v :: vs, u, by simp [hlen], ?_, hran.trans hran', hb', ?_, ?_, fun f hf => ?_⟩
    · rw [List.range'_succ, forEach_cons, readElem, haddr, h, bind_ok, bind_ok, h']
    · rw [hc', hxb]; exact hsame.cnt
    · rw [hi', if_neg (Nat.succ_ne_zero k)]
      by_cases hk : k = 0
      · subst hk; rw [if_pos rfl, hxb]; exact hsame.idx
      · rw [if_neg hk]; congr 1; omega
    · rw [hf' f hf, List.range'_succ, List.zip_cons_cons, List.foldl_cons]
      have : ((put j v t).xbuf, (put j v t).stat) = f j v (s.xbuf, s.stat) := by
        rw [hf j v t]
        have h1 : t.xbuf = s.xbuf := hsame.xbuf
        have h2 : t.stat = s.stat := hsame.stat
        simp only [h1, h2]
      rw [this]

/-- `IDX` after the last element of an array of `n` (R172). -/
theorem lastIdx (n i : BitVec 8) : (if n.toNat = 0 then i else BitVec.ofNat 8 (0 + n.toNat - 1)) = if n = 0 then i else n - 1 := by
  have h : n.toNat = 0 ↔ n = 0 := ⟨fun h => BitVec.eq_of_toNat_eq h, fun h => h ▸ rfl⟩
  by_cases hn : n = 0
  · rw [if_pos (h.mpr hn), if_pos hn]
  · rw [if_neg fun e => hn (h.mp e), if_neg hn]
    have := mt h.mp hn
    bv_omega

/-- An array read (R172): the chain of reads at the array's addresses; the bytes found, delivered in order. -/
theorem readArray_ran {put : Nat → Byte → State → State} (f : Nat → Byte → Memory × Stat → Memory × Stat)
    (hf : ∀ i v t, put i v t = { t with xbuf := (f i v (t.xbuf, t.stat)).1, stat := (f i v (t.xbuf, t.stat)).2 })
    (b : Addr) (n : BitVec 8) (k : Nat) (s : State) (he : s.en = true) (hp : PortsOk s.cfgp)
    (hq : ahead cut s.cfgp (k + 8 * n.toNat) s.env = true) (hr : ∀ a ∈ arrayAddrs b n.toNat, readable s a) :
    ∃ vs t, vs.length = n.toNat ∧ readArray put b n s = .ok () t
      ∧ Ran cut k s (List.zipWith Access.read (arrayAddrs b n.toNat) vs) t ∧ t.base = b ∧ t.cnt = n
      ∧ t.idx = (if n = 0 then s.idx else n - 1)
      ∧ (t.xbuf, t.stat) = (List.zip (List.range n.toNat) vs).foldl (fun x y => f y.1 y.2 x) (s.xbuf, s.stat) := by
  obtain ⟨vs, t, hlen, h, hran, hb, hc, hx, hd⟩ := readElems_ran (fun i v t => ⟨_, _, hf i v t⟩) b k n.toNat 0 (loadArray b n s)
    he hp rfl hq fun i hi => by
      rw [Nat.zero_add]
      exact hr _ (List.mem_map.mpr ⟨i, List.mem_range.mpr hi, rfl⟩)
  rw [← List.range_eq_range'] at h hran hd
  exact ⟨vs, t, hlen, h, Ran.before s.xbuf s.stat b n s.idx hran, hb, hc, hx.trans (lastIdx n s.idx), hd f hf⟩

/-- An array write from element `j` on, `k` elements, of the bytes `src` gives. -/
theorem writeElems_ran {src : Nat → State → Res Byte} (b : Addr) (vals : Nat → Byte) (n : Nat) (k j : Nat) (s : State)
    (he : s.en = true) (hp : PortsOk s.cfgp) (hb : s.base = b) (hq : ahead cut s.cfgp (n + 8 * k) s.env = true)
    (hsrc : ∀ i t, j ≤ i → i < j + k → t.xbuf = s.xbuf → t.cfg = s.cfg → src i t = .ok (vals i) t) :
    ∃ t, forEach (writeElem src) (List.range' j k) s = .ok () t
      ∧ Ran cut n s ((List.range' j k).map fun i => .write (elemAt b i) (vals i)) t
      ∧ t.base = b ∧ t.cnt = s.cnt ∧ t.idx = (if k = 0 then s.idx else BitVec.ofNat 8 (j + k - 1))
      ∧ t.xbuf = s.xbuf ∧ t.stat = s.stat := by
  induction k generalizing j s with
  | zero => exact ⟨s, rfl, Ran.refl hq, hb, rfl, rfl, rfl, rfl⟩
  | succ k ih =>
    have hq' : ahead cut s.cfgp (n + 8 * k + 8) s.env = true := by rw [show n + 8 * k + 8 = n + 8 * (k + 1) by omega]; exact hq
    have haddr : curAddr (setIdx j s) = elemAt b j := by simp only [curAddr, setIdx, hb, elemAt]
    obtain ⟨t, h, hran, hsame, -⟩ := ecWrite_ran (elemAt b j) (vals j) (setIdx j s) (n + 8 * k) he hp hq'
    have hran : Ran cut (n + 8 * k) s [.write (elemAt b j) (vals j)] t :=
      Ran.before s.xbuf s.stat s.base s.cnt (BitVec.ofNat 8 j) hran
    have hxb : t.xbuf = s.xbuf := hsame.xbuf
    obtain ⟨u, h', hran', hb', hc', hi', hx', hs'⟩ := ih (j + 1) t (hran.en.trans he) (hran.cfgp ▸ hp) (hsame.base.trans hb)
      (hran.cfgp ▸ hran.quiet) fun i x h1 h2 h3 h4 =>
        hsrc i x (by omega) (by omega) (h3.trans hxb) (h4.trans hran.cfg)
    refine ⟨u, ?_, hran.trans hran', hb', hc'.trans hsame.cnt, ?_, hx'.trans hxb, hs'.trans hsame.stat⟩
    rotate_left
    · rw [hi', if_neg (Nat.succ_ne_zero k)]
      by_cases hk : k = 0
      · subst hk; rw [if_pos rfl]; exact hsame.idx
      · rw [if_neg hk]; congr 1; omega
    rw [List.range'_succ, forEach_cons, writeElem, hsrc j (setIdx j s) (Nat.le_refl j) (by omega) rfl rfl, bind_ok, haddr, h,
      bind_ok, h']

/-- An array write (R173): the chain of writes at the array's addresses of the bytes given. -/
theorem writeArray_ran {src : Nat → State → Res Byte} (b : Addr) (n : BitVec 8) (vals : Nat → Byte) (k : Nat) (s : State)
    (he : s.en = true) (hp : PortsOk s.cfgp) (hq : ahead cut s.cfgp (k + 8 * n.toNat) s.env = true)
    (hsrc : ∀ i t, i < n.toNat → t.xbuf = s.xbuf → t.cfg = s.cfg → src i t = .ok (vals i) t) :
    ∃ t, writeArray src b n s = .ok () t
      ∧ Ran cut k s ((List.range n.toNat).map fun i => .write (elemAt b i) (vals i)) t
      ∧ t.base = b ∧ t.cnt = n ∧ t.idx = (if n = 0 then s.idx else n - 1) ∧ t.xbuf = s.xbuf ∧ t.stat = s.stat := by
  obtain ⟨t, h, hran, hb, hc, hi, hx, hs⟩ := writeElems_ran b vals k n.toNat 0 (loadArray b n s) he hp rfl hq
    fun i t _ hi hx hc => hsrc i t (by omega) hx hc
  rw [← List.range_eq_range'] at h hran
  exact ⟨t, h, Ran.before s.xbuf s.stat b n s.idx hran, hb, hc, hi.trans (lastIdx n s.idx), hx, hs⟩

/-- The chain of an array write, as its addresses and its bytes. -/
theorem arrayWrites_eq (b : Addr) (n : Nat) (vals : Nat → Byte) :
    ((List.range n).map fun i => Access.write (elemAt b i) (vals i))
      = List.zipWith Access.write (arrayAddrs b n) ((List.range n).map vals) := by
  simp only [arrayAddrs, List.zipWith_map, List.zipWith_self]

theorem writtenIn_array (b : Addr) (n : Nat) (vals : Nat → Byte) :
    writtenIn ((List.range n).map fun i => .write (elemAt b i) (vals i)) = arrayAddrs b n := by
  simp only [writtenIn, arrayAddrs, List.filterMap_map]
  exact List.filterMap_eq_map (f := fun i => elemAt b i) ▸ rfl

theorem elemAt_inj (b : Addr) {i j : Nat} (hi : i < 256) (hj : j < 256) (h : elemAt b i = elemAt b j) : i = j := by
  have h := congrArg BitVec.toNat h
  have hb := b.isLt
  simp [elemAt, elemAddr] at h
  omega

/-- After an array write every element's register holds its byte: the addresses of up to 256 elements do not meet. -/
theorem afterRun_array (b : Addr) (n : Nat) (vals : Nat → Byte) (f : Addr → Option Byte) (hn : n ≤ 256) {k : Nat} (hk : k < n) :
    afterRun ((List.range n).map fun i => .write (elemAt b i) (vals i)) f (elemAt b k) = some (vals k) := by
  induction n with
  | zero => omega
  | succ n ih =>
    rw [List.range_succ, List.map_append, List.map_cons, List.map_nil]
    rcases Nat.lt_succ_iff_lt_or_eq.mp hk with hk' | rfl
    · rw [afterRun_append, afterRun, afterRun, if_neg fun h => ?_, ih (by omega) hk']
      have := elemAt_inj b (by omega) (by omega) h
      omega
    · exact afterRun_last _ [] f (vals k) (by simp [writtenIn])

/-! ## Where the gateway cuts a chain (R228, R256) -/

/-- A chain, and then an access cut after `j` of its rows: what the command leaves, and what stands for the frame. -/
structure CutAfter (s : State) (xs : List Access) (cur : Access) (j : Nat) (u : State) : Prop where
  left : FaultLeft s xs cur j (takeGatewayFault u)
  frame : AccessFrame { s with busy := false } { takeGatewayFault u with
    ok := s.ok, lastCode := s.lastCode, lastInfo := s.lastInfo, xbuf := s.xbuf, stat := s.stat,
    base := s.base, cnt := s.cnt, idx := s.idx }
  regs : ∀ a : Addr, a ∉ s.cfgp.volatile → ecRegs u a = afterRun xs (ecRegs s) a

theorem Ran.lastByte {n : Nat} {s t : State} {xs : List Access} (h : Ran cut n s xs t) :
    t.dr = (xs.getLast?.map Access.byte).getD s.dr := by
  have := h.ends.2
  cases hx : xs.getLast? with
  | none => rw [hx] at this; exact this.2.1
  | some x => rw [hx] at this; exact this.2.1

theorem Ran.cutAfter {n : Nat} {s t b : State} {xs : List Access} {cur : Access} {j : Nat} {m : Memory} {e : Env}
    (h : Ran cut n s xs t)
    (hb : b = { t with ar := cur.addr, dr := if cur.isWrite then cur.byte else t.dr, rw := cur.isWrite, stepNo := 0 })
    (hd : EcDrift t.cfgp.volatile t.ecmem m) :
    CutAfter s xs cur j (rowsDone b j m e) := by
  have hregs : ∀ a : Addr, a ∉ s.cfgp.volatile → ecRegs (rowsDone b j m e) a = afterRun xs (ecRegs s) a :=
    fun a ha => (hd.kept a (h.cfgp ▸ ha)).trans (h.regs a ha)
  refine ⟨⟨rfl, rfl, rfl, rfl, rfl, by rw [hb]; rfl, by rw [hb]; rfl, ?_, ?_, ?_, hregs⟩, ?_, hregs⟩
  · rw [← h.lastByte, hb]; rfl
  · show b.trace ++ (preEvents b.cfgp b.ar).take j = _
    rw [hb]
    show t.trace ++ (preEvents t.cfgp cur.addr).take j = _
    rw [h.trace, h.cfgp, List.append_assoc]
  · show latchesAfter b.cfgp b.ar b.target j = _
    rw [hb, ← h.ends.1, ← h.cfgp]
  · rw [hb]
    exact ⟨h.cfgp, h.en, h.hnd, rfl, rfl, rfl, rfl, h.res8, h.res16, h.resx, rfl, rfl, h.cfg, rfl, rfl, rfl, h.phase, h.host,
      h.seen, h.calls⟩

/-- A chain, and then a read the gateway cuts. -/
theorem Ran.ecRead_cut {s t : State} {xs : List Access} {j : Nat} (h : Ran true j s xs t) (a : Addr) (v : Byte) (hj : j < 8)
    (he : s.en = true) (hp : PortsOk s.cfgp) :
    ∃ m e, ecRead a t = .cut .gatewayFault (rowsDone (readBegun a t) j m e)
      ∧ CutAfter s xs (.read a v) j (rowsDone (readBegun a t) j m e) := by
  obtain ⟨m, e, hd, hx⟩ := Laws.ecRead_cut a t (h.en.trans he) (h.cfgp ▸ hp) hj (h.cfgp ▸ h.quiet)
  exact ⟨m, e, hx, h.cutAfter rfl hd⟩

/-- A chain, and then a write the gateway cuts. -/
theorem Ran.ecWrite_cut {s t : State} {xs : List Access} {j : Nat} (h : Ran true j s xs t) (a : Addr) (d : Byte) (hj : j < 8)
    (he : s.en = true) (hp : PortsOk s.cfgp) :
    ∃ m e, ecWrite a d t = .cut .gatewayFault (rowsDone (writeBegun a d t) j m e)
      ∧ CutAfter s xs (.write a d) j (rowsDone (writeBegun a d t) j m e) := by
  obtain ⟨m, e, hd, hx⟩ := Laws.ecWrite_cut a d t (h.en.trans he) (h.cfgp ▸ hp) hj (h.cfgp ▸ h.quiet)
  exact ⟨m, e, hx, h.cutAfter rfl hd⟩

/-! ## Arrays with EN = 0 (R133, R134, R140) -/

/-- An access with `EN = 0`: the sequencer's own registers are loaded, and nothing else happens. -/
structure Silent (s t : State) : Prop where
  frame : AccessFrame s { t with base := s.base, cnt := s.cnt, idx := s.idx, xbuf := s.xbuf }
  ecmem : t.ecmem = s.ecmem
  target : t.target = s.target
  env : t.env = s.env
  trace : t.trace = s.trace

theorem Silent.refl (s : State) : Silent s s := by
  refine ⟨?_, rfl, rfl, rfl, rfl⟩
  constructor <;> rfl

theorem Silent.trans {s t u : State} (h : Silent s t) (h' : Silent t u) : Silent s u := by
  refine ⟨?_, h'.ecmem.trans h.ecmem, h'.target.trans h.target, h'.env.trans h.env, h'.trace.trans h.trace⟩
  constructor <;> first | rfl | skip
  · exact h'.frame.cfgp.trans h.frame.cfgp
  · exact h'.frame.en.trans h.frame.en
  · exact h'.frame.hnd.trans h.frame.hnd
  · exact h'.frame.lastCode.trans h.frame.lastCode
  · exact h'.frame.lastInfo.trans h.frame.lastInfo
  · exact h'.frame.ok.trans h.frame.ok
  · exact h'.frame.busy.trans h.frame.busy
  · exact h'.frame.res8.trans h.frame.res8
  · exact h'.frame.res16.trans h.frame.res16
  · exact h'.frame.resx.trans h.frame.resx
  · exact h'.frame.stat.trans h.frame.stat
  · exact h'.frame.cfg.trans h.frame.cfg
  · exact h'.frame.phase.trans h.frame.phase
  · exact h'.frame.host.trans h.frame.host
  · exact h'.frame.seen.trans h.frame.seen
  · exact h'.frame.calls.trans h.frame.calls

/-- An array read into `XBUF` with `EN = 0`: silent, and every element reads as zero. -/
theorem readArray_disabled (b : Addr) (n : BitVec 8) (s : State) (he : s.en = false) :
    ∃ t, readArray putXbuf b n s = .ok () t ∧ Silent s t ∧ t.xbuf = s.xbuf.putMany 0 (List.replicate n.toNat 0) := by
  have key : ∀ (k j : Nat) (s : State), s.en = false → ∃ t, forEach (readElem putXbuf) (List.range' j k) s = .ok () t
      ∧ Silent s t ∧ t.xbuf = s.xbuf.putMany j (List.replicate k 0) := by
    intro k
    induction k with
    | zero => exact fun j s _ => ⟨s, rfl, Silent.refl s, rfl⟩
    | succ k ih =>
      intro j s he
      have h := ecRead_disabled (curAddr (setIdx j s)) (setIdx j s) he
      obtain ⟨t, h', hs, hx⟩ := ih (j + 1) (putXbuf j 0 { setIdx j s with
        ar := curAddr (setIdx j s), dr := 0, rw := false, stepNo := 0 }) he
      refine ⟨t, ?_, Silent.trans ?_ hs, hx⟩
      · rw [List.range'_succ, forEach_cons, readElem, h, bind_ok, bind_ok, h']
      · refine ⟨?_, rfl, rfl, rfl, rfl⟩
        constructor <;> rfl
  obtain ⟨t, h, hs, hx⟩ := key n.toNat 0 (loadArray b n s) he
  rw [← List.range_eq_range'] at h
  refine ⟨t, h, Silent.trans ?_ hs, hx⟩
  refine ⟨?_, rfl, rfl, rfl, rfl⟩
  constructor <;> rfl

/-- An array write from element `j` on, `k` elements, with `EN = 0`. -/
theorem writeElems_disabled (k j : Nat) (s : State) (he : s.en = false)
    (hx : ∀ i, j ≤ i → i < j + k → s.xbuf.byteAt i ≠ none) :
    ∃ t, forEach (writeElem xbufByte) (List.range' j k) s = .ok () t ∧ Silent s t ∧ t.xbuf = s.xbuf := by
  induction k generalizing j s with
  | zero => exact ⟨s, rfl, Silent.refl s, rfl⟩
  | succ k ih =>
    obtain ⟨v, hv⟩ := Option.ne_none_iff_exists'.mp (hx j (Nat.le_refl j) (by omega))
    have hsrc : xbufByte j (setIdx j s) = .ok v (setIdx j s) := by
      rw [xbufByte, show (setIdx j s).xbuf = s.xbuf from rfl, hv]; rfl
    have h := ecWrite_disabled (curAddr (setIdx j s)) v (setIdx j s) he
    obtain ⟨t, h', hs, hx'⟩ := ih (j + 1) { setIdx j s with
      ar := curAddr (setIdx j s), dr := v, rw := true, stepNo := 0 } he fun i h1 h2 => hx i (by omega) (by omega)
    refine ⟨t, ?_, Silent.trans ?_ hs, hx'⟩
    · rw [List.range'_succ, forEach_cons, writeElem, hsrc, bind_ok, h, bind_ok, h']
    · refine ⟨?_, rfl, rfl, rfl, rfl⟩
      constructor <;> rfl

/-- An array write from `XBUF` with `EN = 0`: silent. -/
theorem writeArray_disabled (b : Addr) (n : BitVec 8) (s : State) (he : s.en = false)
    (hx : ∀ k, k < n.toNat → s.xbuf.byteAt k ≠ none) :
    ∃ t, writeArray xbufByte b n s = .ok () t ∧ Silent s t ∧ t.xbuf = s.xbuf := by
  obtain ⟨t, h, hs, hx'⟩ := writeElems_disabled n.toNat 0 (loadArray b n s) he fun i _ hi => hx i (by omega)
  rw [← List.range_eq_range'] at h
  refine ⟨t, h, Silent.trans ?_ hs, hx'⟩
  refine ⟨?_, rfl, rfl, rfl, rfl⟩
  constructor <;> rfl

end Sys2Proof.Laws
end

