-- ==== Sys2Proof/Laws/Snapshot.lean ====
section
/-!
SUPPORT. The parts of RDSTAT and WRCFG in a quiet environment (R195, R201): which chain of accesses each is, and what it
leaves in STAT.
-/
namespace Sys2Proof.Laws
open Sys2Proof Sys2Proof.Machine

variable {cut : Bool}

/-! ## RDSTAT (R195) -/

/-- One tachometer (R64): the low byte's register first. -/
theorem readTach_ran (l h : Fin 29) (put : BitVec 16 → Stat → Stat) (s : State) (n : Nat) (he : s.en = true)
    (hp : PortsOk s.cfgp) (hq : ahead cut s.cfgp (n + 16) s.env = true) (hl : readable s (romAt s.cfgp l))
    (hh : readable s (romAt s.cfgp h)) :
    ∃ v w t, readTach l h put s = .ok () t
      ∧ Ran cut n s [.read (romAt s.cfgp l) v, .read (romAt s.cfgp h) w] t
      ∧ t.xbuf = s.xbuf ∧ t.stat = put (cat16 w v) s.stat := by
  obtain ⟨v, t, h1, r1, b1⟩ := ecRead_ran (romAt s.cfgp l) s (n + 8) he hp hq hl
  obtain ⟨w, u, h2, r2, b2⟩ := ecRead_ran (romAt t.cfgp h) t n (r1.en.trans he) (r1.cfgp ▸ hp) (r1.cfgp ▸ r1.quiet)
    (r1.readable (r1.cfgp ▸ hh))
  refine ⟨v, w, { u with stat := put (cat16 w v) u.stat }, ?_, ?_, b2.xbuf.trans b1.xbuf, ?_⟩
  · simp only [readTach, h1, bind_ok, h2]
  · have := r1.trans r2
    rw [r1.cfgp] at this
    exact this.update u.xbuf _ u.base u.cnt u.idx
  · show put _ u.stat = _
    rw [b2.stat, b1.stat]

/-- A list of single-byte reads (R195): the bytes found, put where each belongs. -/
theorem readScalars_ran (rs : List ScalarRead) (s : State) (n : Nat) (he : s.en = true) (hp : PortsOk s.cfgp)
    (hq : ahead cut s.cfgp (n + 8 * rs.length) s.env = true) (hr : ∀ r ∈ rs, readable s (romAt s.cfgp r.rom)) :
    ∃ vs t, vs.length = rs.length ∧ forEach readScalar rs s = .ok () t
      ∧ Ran cut n s (List.zipWith (fun r v => .read (romAt s.cfgp r.rom) v) rs vs) t
      ∧ t.xbuf = s.xbuf ∧ t.stat = (List.zip rs vs).foldl (fun st x => x.1.put x.2 st) s.stat := by
  induction rs generalizing s with
  | nil => exact ⟨[], s, rfl, rfl, Ran.refl hq, rfl, rfl⟩
  | cons r rs ih =>
    have hq' : ahead cut s.cfgp (n + 8 * rs.length + 8) s.env = true := by
      rw [show n + 8 * rs.length + 8 = n + 8 * (r :: rs).length by simp; omega]; exact hq
    obtain ⟨v, t, h, ran, same⟩ := ecRead_ran (romAt s.cfgp r.rom) s (n + 8 * rs.length) he hp hq' (hr r (by simp))
    have ran : Ran cut (n + 8 * rs.length) s [.read (romAt s.cfgp r.rom) v] { t with stat := r.put v t.stat } :=
      ran.update t.xbuf _ t.base t.cnt t.idx
    obtain ⟨vs, u, hl, h', ran', hx, hs⟩ := ih { t with stat := r.put v t.stat } (ran.en.trans he) (ran.cfgp ▸ hp)
      (ran.cfgp ▸ ran.quiet) fun x hx => ran.readable (ran.cfgp ▸ hr x (by simp [hx]))
    refine ⟨v :: vs, u, by simp [hl], ?_, ?_, hx.trans same.xbuf, ?_⟩
    · simp only [forEach_cons, readScalar, h, bind_ok, h']
    · have := ran.trans ran'
      rwa [ran.cfgp] at this
    · rw [hs, List.zip_cons_cons, List.foldl_cons]
      simp only [same.stat]

/-- The snapshot with entry `i` of table `k` set. -/
def setTab (k : Fin 10) (i : Nat) (v : Byte) (st : Stat) : Stat :=
  { st with tab := st.tab.set k (st.tab[k].setIfInBounds i v) }

/-- The snapshot with the ten entries of table `k` set. -/
def setRow (k : Fin 10) (w : Nat → Byte) (st : Stat) : Stat :=
  (List.range 10).foldl (fun st i => setTab k i (w i) st) st

/-- One row read of RDSTAT (R181). -/
theorem rowRead_ran (k : Fin 10) (s : State) (n : Nat) (he : s.en = true) (hp : PortsOk s.cfgp)
    (hq : ahead cut s.cfgp (n + 80) s.env = true) (hr : ∀ a ∈ rowAddrs s.cfgp k, readable s a) :
    ∃ (w : Nat → Byte) (t : State), rowRead k s = .ok () t
      ∧ Ran cut n s (List.zipWith Access.read (rowAddrs s.cfgp k) ((List.range 10).map w)) t
      ∧ t.xbuf = s.xbuf ∧ t.stat = setRow k w s.stat := by
  obtain ⟨vs, t, hl, h, ran, -, -, -, hd⟩ := readArray_ran (put := putTab k)
    (fun i v x => (x.1, setTab k i v x.2)) (fun _ _ _ => rfl) (tableBase s.cfgp k) 10 n s he hp hq hr
  have hvs : vs = (List.range 10).map fun i => vs[i]?.getD 0 := by
    apply List.ext_getElem (by simpa using hl)
    intro i h1 h2
    simp [h1]
  refine ⟨fun i => vs[i]?.getD 0, t, h, by rw [← hvs]; exact ran, ?_⟩
  have fold : ∀ (m : Nat) (is : List Nat) (f : Nat → Byte) (x : Memory × Stat),
      (List.zip is (is.map f)).foldl (fun x y => (x.1, setTab k y.1 y.2 x.2)) x
        = (x.1, is.foldl (fun st i => setTab k i (f i) st) x.2) := by
    intro m is f
    induction is with
    | nil => exact fun _ => rfl
    | cons i is ih => exact fun x => ih _
  rw [hvs] at hd
  have hd := hd.trans (fold 10 (List.range 10) _ _)
  exact ⟨congrArg Prod.fst hd, congrArg Prod.snd hd⟩

/-- The row reads of a list of tables without repeats. -/
theorem rowReads_ran (ts : List (Fin 10)) (s : State) (n : Nat) (he : s.en = true) (hp : PortsOk s.cfgp) (hn : ts.Nodup)
    (hq : ahead cut s.cfgp (n + 80 * ts.length) s.env = true) (hr : ∀ k ∈ ts, ∀ a ∈ rowAddrs s.cfgp k, readable s a) :
    ∃ (w : Fin 10 → Nat → Byte) (t : State), forEach rowRead ts s = .ok () t
      ∧ Ran cut n s (ts.flatMap fun k => List.zipWith Access.read (rowAddrs s.cfgp k) ((List.range 10).map (w k))) t
      ∧ t.xbuf = s.xbuf ∧ t.stat = ts.foldl (fun st k => setRow k (w k) st) s.stat := by
  induction ts generalizing s with
  | nil => exact ⟨fun _ _ => 0, s, rfl, Ran.refl hq, rfl, rfl⟩
  | cons k ts ih =>
    have hq' : ahead cut s.cfgp (n + 80 * ts.length + 80) s.env = true := by
      rw [show n + 80 * ts.length + 80 = n + 80 * (k :: ts).length by simp; omega]; exact hq
    obtain ⟨wk, t, h, ran, hx, hs⟩ := rowRead_ran k s (n + 80 * ts.length) he hp hq' (hr k (by simp))
    obtain ⟨w, u, h', ran', hx', hs'⟩ := ih t (ran.en.trans he) (ran.cfgp ▸ hp) (List.nodup_cons.mp hn).2
      (ran.cfgp ▸ ran.quiet) fun j hj a ha => ran.readable (hr j (by simp [hj]) a (ran.cfgp ▸ ha))
    have hk : k ∉ ts := (List.nodup_cons.mp hn).1
    have hw : ∀ j ∈ ts, Function.update w k wk j = w j := fun j hj =>
      Function.update_of_ne (by rintro rfl; exact hk hj) _ _
    refine ⟨Function.update w k wk, u, ?_, ?_, hx'.trans hx, ?_⟩
    · rw [forEach_cons, h, bind_ok, h']
    · rw [List.flatMap_cons, Function.update_self]
      have : ts.flatMap (fun j => List.zipWith Access.read (rowAddrs s.cfgp j) ((List.range 10).map (Function.update w k wk j)))
          = ts.flatMap fun j => List.zipWith Access.read (rowAddrs t.cfgp j) ((List.range 10).map (w j)) := by
        rw [ran.cfgp]
        exact List.flatMap_congr fun j hj => by rw [hw j hj]
      rw [this]
      exact ran.trans ran'
    · rw [hs', hs, List.foldl_cons, Function.update_self]
      have : ∀ (l : List (Fin 10)) (st : Stat), (∀ j ∈ l, Function.update w k wk j = w j) →
          l.foldl (fun st j => setRow j (w j) st) st = l.foldl (fun st j => setRow j (Function.update w k wk j) st) st := by
        intro l
        induction l with
        | nil => exact fun _ _ => rfl
        | cons j l ih =>
          intro st hl
          simp only [List.foldl_cons, hl j (by simp)]
          exact ih _ fun x hx => hl x (by simp [hx])
      exact this ts _ hw

/-- After the ten rows, every entry of the snapshot's tables is the byte read. -/
theorem setRows_tab (w : Fin 10 → Nat → Byte) (st : Stat) :
    tableIds.foldl (fun st k => setRow k (w k) st) st
      = { st with tab := Vector.ofFn fun k => Vector.ofFn fun i => w k i.val } := by
  have hrow : ∀ (k : Fin 10) (f : Nat → Byte) (st : Stat),
      setRow k f st = { st with tab := st.tab.set k (Vector.ofFn fun i => f i.val) } := by
    intro k f st
    have step : ∀ (m : Nat) (st : Stat), m ≤ 10 → (List.range m).foldl (fun st i => setTab k i (f i) st) st
        = { st with tab := st.tab.set k (Vector.ofFn fun i => if i.val < m then f i.val else st.tab[k][i]) } := by
      intro m st hm
      induction m with
      | zero =>
        have : st.tab.set k (Vector.ofFn fun i => if i.val < 0 then f i.val else st.tab[k][i]) = st.tab := by
          apply Vector.ext
          intro j hj
          rw [Vector.getElem_set]
          split
          · rename_i h; subst h; apply Vector.ext; intro i hi; simp
          · rfl
        rw [this]; rfl
      | succ m ih =>
        rw [List.range_succ, List.foldl_append, ih (by omega), List.foldl_cons, List.foldl_nil, setTab]
        congr 1
        apply Vector.ext
        intro j hj
        simp only [Fin.getElem_fin, Vector.getElem_set]
        split
        · apply Vector.ext
          intro i hi
          simp only [Vector.getElem_setIfInBounds, Vector.getElem_ofFn]
          grind
        · rfl
    rw [setRow, step 10 st (Nat.le_refl 10)]
    congr 2
  have hall : ∀ (ts : List (Fin 10)) (st : Stat), ts.foldl (fun st k => setRow k (w k) st) st
      = { st with tab := Vector.ofFn fun k => if k ∈ ts then Vector.ofFn fun i => w k i.val else st.tab[k] } := by
    intro ts
    induction ts with
    | nil =>
      intro st
      have : (Vector.ofFn fun k : Fin 10 => if k ∈ ([] : List (Fin 10)) then Vector.ofFn fun i => w k i.val else st.tab[k])
          = st.tab := by apply Vector.ext; intro k hk; simp
      rw [this]; rfl
    | cons k ts ih =>
      intro st
      rw [List.foldl_cons, ih, hrow]
      congr 1
      apply Vector.ext
      intro j hj
      simp only [Vector.getElem_ofFn, Fin.getElem_fin, Vector.getElem_set, List.mem_cons]
      grind
  rw [hall]
  congr 1

theorem tgt_set (x : Vector (Reg Byte) 4) (a b c d : Reg Byte) :
    (((x.set 0 a).set 1 b).set 2 c).set 3 d = #v[a, b, c, d] := by
  apply Vector.ext
  intro i hi
  obtain rfl | rfl | rfl | rfl : i = 0 ∨ i = 1 ∨ i = 2 ∨ i = 3 := by omega
  all_goals simp

/-- RDSTAT past the lifecycle check (R195): 113 reads in order, and the whole snapshot from the bytes they found. -/
theorem readStatus_ran (s : State) (he : s.en = true) (hp : PortsOk s.cfgp) (hq : ahead cut s.cfgp 904 s.env = true)
    (hr : ∀ a ∈ rdstatAddrs s.cfgp, readable s a) :
    ∃ (v : Nat → Byte) (t : State), readStatus s = .ok true t
      ∧ Ran cut 0 s (List.zipWith Access.read (rdstatAddrs s.cfgp) ((List.range 113).map v)) t ∧ t.xbuf = s.xbuf
      ∧ t.stat = {
          fan1Speed := Reg.of (cat16 (v 1) (v 0)), fan2Speed := Reg.of (cat16 (v 3) (v 2)),
          tab := Vector.ofFn fun k => Vector.ofFn fun i => v (4 + 10 * k.val + i.val),
          chipId1 := Reg.of (v 104), chipId2 := Reg.of (v 105), chipVer := Reg.of (v 106),
          fwVer := Reg.of (zext16 (v 107)),
          tgt := #v[Reg.of (v 108), Reg.of (v 109), Reg.of (v 110), Reg.of (v 111)],
          curPoint := Reg.of (v 112),
          fan1Pct := Reg.of (pct (cat16 (v 1) (v 0)) s.cfgp.fan1Max),
          fan2Pct := Reg.of (pct (cat16 (v 3) (v 2)) s.cfgp.fan2Max) } := by
  have single : ∀ k : Fin 29, 10 ≤ k.val → k.val ≤ 22 → readable s (romAt s.cfgp k) := by
    intro k h1 h2
    apply hr
    simp only [rdstatAddrs, List.mem_append, List.mem_map]
    by_cases h : k.val ≤ 13
    · left; left; refine ⟨k, ?_, rfl⟩; revert k; decide
    · right; refine ⟨k, ?_, rfl⟩; revert k; decide
  obtain ⟨a0, a1, t1, h1, r1, x1, p1⟩ := readTach_ran romFan1TachL romFan1TachH (fun v st => { st with fan1Speed := Reg.of v })
    s 888 he hp hq (single _ (by decide) (by decide)) (single _ (by decide) (by decide))
  obtain ⟨a2, a3, t2, h2, r2, x2, p2⟩ := readTach_ran romFan2TachL romFan2TachH (fun v st => { st with fan2Speed := Reg.of v })
    t1 872 (r1.en.trans he) (r1.cfgp ▸ hp) (r1.cfgp ▸ r1.quiet) (r1.readable (r1.cfgp ▸ single _ (by decide) (by decide)))
    (r1.readable (r1.cfgp ▸ single _ (by decide) (by decide)))
  have r2 := r1.trans r2
  obtain ⟨w, t3, h3, r3, x3, p3⟩ := rowReads_ran tableIds t2 72 (r2.en.trans he) (r2.cfgp ▸ hp) (by decide) (r2.cfgp ▸ r2.quiet)
    fun k hk a ha => r2.readable (hr a (by
      rw [r2.cfgp] at ha
      exact List.mem_append_left _ (List.mem_append_right _ (List.mem_flatMap.mpr ⟨k, hk, ha⟩))))
  have r3 := r2.trans r3
  obtain ⟨vs, t4, hl, h4, r4, x4, p4⟩ := readScalars_ran scalarReads t3 0 (r3.en.trans he) (r3.cfgp ▸ hp) (r3.cfgp ▸ r3.quiet) (by
    intro r hr
    refine r3.readable (r3.cfgp ▸ ?_)
    simp only [scalarReads, List.mem_cons, List.not_mem_nil, or_false] at hr
    rcases hr with rfl | rfl | rfl | rfl | rfl | rfl | rfl | rfl | rfl <;> exact single _ (by decide) (by decide))
  have r4 := r3.trans r4
  rw [r1.cfgp, r2.cfgp, r3.cfgp] at r4
  obtain ⟨b0, b1, b2, b3, b4, b5, b6, b7, b8, rfl⟩ :
      ∃ b0 b1 b2 b3 b4 b5 b6 b7 b8, vs = [b0, b1, b2, b3, b4, b5, b6, b7, b8] := by
    match vs, hl with
    | [b0, b1, b2, b3, b4, b5, b6, b7, b8], _ => exact ⟨_, _, _, _, _, _, _, _, _, rfl⟩
  obtain ⟨v, hv⟩ : ∃ v : Nat → Byte, v = fun i =>
      if i < 4 then [a0, a1, a2, a3].getD i 0
      else if i < 104 then (if h : (i - 4) / 10 < 10 then w ⟨(i - 4) / 10, h⟩ ((i - 4) % 10) else 0)
      else [b0, b1, b2, b3, b4, b5, b6, b7, b8].getD (i - 104) 0 := ⟨_, rfl⟩
  have hxs : List.zipWith Access.read (rdstatAddrs s.cfgp) ((List.range 113).map v)
      = [.read (romAt s.cfgp 10) a0, .read (romAt s.cfgp 11) a1] ++ [.read (romAt s.cfgp 12) a2, .read (romAt s.cfgp 13) a3]
        ++ (tableIds.flatMap fun k => List.zipWith Access.read (rowAddrs s.cfgp k) ((List.range 10).map (w k)))
        ++ List.zipWith (fun r v => .read (romAt s.cfgp r.rom) v) scalarReads [b0, b1, b2, b3, b4, b5, b6, b7, b8] := by
    subst hv; rfl
  refine ⟨v, derivePcts t4, ?_, ?_, x4.trans (x3.trans (x2.trans x1)), ?_⟩
  · simp only [readStatus, h1, bind_ok, h2, h3, h4]
  · rw [hxs]
    exact r4.update t4.xbuf _ t4.base t4.cnt t4.idx
  · simp only [derivePcts, r4.cfgp, p4, p3, p2, p1, setRows_tab, scalarReads, List.zip_cons_cons, List.zip_nil_right,
      List.foldl_cons, List.foldl_nil, Reg.of]
    rw [tgt_set]
    subst hv
    rfl

/-! ## WRCFG (R201) -/

theorem shapeOk_ok (ts : List (Fin 10)) (s : State) (h : ∀ k ∈ ts, s.cfg[k].len = Reg.of 10) :
    shapeOk ts s = .ok true s := by
  induction ts with
  | nil => rfl
  | cons k ts ih =>
    simp only [shapeOk, cfgLen, h k (by simp), value_of, known_some, bind_ok, if_true]
    exact ih fun j hj => h j (by simp [hj])

/-- The table writes of WRCFG (R203): each row's ten writes, in the list's order. -/
theorem rowWrites_ran (ts : List (Fin 10)) (b : Fin 10 → Nat → Byte) (s : State) (n : Nat) (he : s.en = true)
    (hp : PortsOk s.cfgp) (hq : ahead cut s.cfgp (n + 80 * ts.length) s.env = true)
    (hb : ∀ k ∈ ts, ∀ i, i < 10 → s.cfg[k].bytes.byteAt i = some (b k i)) :
    ∃ t, forEach rowWrite ts s = .ok () t
      ∧ Ran cut n s (ts.flatMap fun k => (List.range 10).map fun i => .write (elemAt (tableBase s.cfgp k) i) (b k i)) t
      ∧ t.xbuf = s.xbuf ∧ t.stat = s.stat := by
  induction ts generalizing s with
  | nil => exact ⟨s, rfl, Ran.refl hq, rfl, rfl⟩
  | cons k ts ih =>
    have hq' : ahead cut s.cfgp (n + 80 * ts.length + 80) s.env = true := by
      rw [show n + 80 * ts.length + 80 = n + 80 * (k :: ts).length by simp; omega]; exact hq
    obtain ⟨t, h, ran, -, -, -, hx, hs⟩ := writeArray_ran (src := cfgByte k) (tableBase s.cfgp k) 10 (b k) (n + 80 * ts.length) s
      he hp hq' fun i t hi _ hc => by
        have hbyte : t.cfg[k].bytes.byteAt i = some (b k i) := by rw [hc]; exact hb k (by simp) i hi
        rw [cfgByte, hbyte]; rfl
    obtain ⟨u, h', ran', hx', hs'⟩ := ih t (ran.en.trans he) (ran.cfgp ▸ hp) (ran.cfgp ▸ ran.quiet)
      (by rw [ran.cfg]; exact fun j hj => hb j (by simp [hj]))
    refine ⟨u, ?_, ?_, hx'.trans hx, hs'.trans hs⟩
    · rw [forEach_cons, rowWrite, h, bind_ok, h']
    · rw [ran.cfgp] at ran'
      exact ran.trans ran'

/-- One target refresh (R204). -/
theorem refreshTarget_ran (curve duty : Fin 29) (s : State) (n : Nat) (he : s.en = true) (hp : PortsOk s.cfgp)
    (hq : ahead cut s.cfgp (n + 16) s.env = true) (hr : readable s (romAt s.cfgp curve)) :
    ∃ v t, refreshTarget curve duty s = .ok () t
      ∧ Ran cut n s [.read (romAt s.cfgp curve) v, .write (romAt s.cfgp duty) v] t ∧ t.xbuf = s.xbuf ∧ t.stat = s.stat := by
  obtain ⟨v, t, h1, r1, b1⟩ := ecRead_ran (romAt s.cfgp curve) s (n + 8) he hp hq hr
  obtain ⟨u, h2, r2, b2, -⟩ := ecWrite_ran (romAt t.cfgp duty) v t n (r1.en.trans he) (r1.cfgp ▸ hp) (r1.cfgp ▸ r1.quiet)
  rw [r1.cfgp] at h2 r2
  exact ⟨v, u, by simp only [refreshTarget, h1, bind_ok, r1.cfgp, h2], r1.trans r2, b2.xbuf.trans b1.xbuf,
    b2.stat.trans b1.stat⟩

/-- One pair of live registers (R205, R206), for a table of ten entries. -/
theorem refreshLive_ran (k : Fin 10) (fan1 fan2 : Fin 29) (p : Byte) (d : Byte) (s : State) (n : Nat) (he : s.en = true)
    (hp : PortsOk s.cfgp) (hq : ahead cut s.cfgp (n + 16) s.env = true) (hl : s.cfg[k].len = Reg.of 10)
    (hb : p.toNat < 10 → s.cfg[k].bytes.byteAt p.toNat = some d) :
    ∃ m t, refreshLive k fan1 fan2 p s = .ok (!decide (p.toNat < 10)) t
      ∧ Ran cut m s (if p.toNat < 10 then [.write (romAt s.cfgp fan1) d, .write (romAt s.cfgp fan2) d] else []) t
      ∧ n ≤ m ∧ t.xbuf = s.xbuf ∧ t.stat = s.stat := by
  by_cases h : p.toNat < 10
  · obtain ⟨t, h1, r1, b1, -⟩ := ecWrite_ran (romAt s.cfgp fan1) d s (n + 8) he hp hq
    obtain ⟨u, h2, r2, b2, -⟩ := ecWrite_ran (romAt t.cfgp fan2) d t n (r1.en.trans he) (r1.cfgp ▸ hp) (r1.cfgp ▸ r1.quiet)
    rw [r1.cfgp] at h2 r2
    refine ⟨n, u, ?_, by rw [if_pos h]; exact r1.trans r2, Nat.le_refl n, b2.xbuf.trans b1.xbuf, b2.stat.trans b1.stat⟩
    simp only [refreshLive, cfgLen, hl, value_of, known_some, bind_ok, h, if_true, cfgByte, hb h, h1, r1.cfgp, h2,
      decide_true, Bool.not_true]
  · refine ⟨n + 16, s, ?_, by rw [if_neg h]; exact Ran.refl hq, by omega, rfl, rfl⟩
    simp only [refreshLive, cfgLen, hl, value_of, known_some, bind_ok, h, if_false, decide_false, Bool.not_false]

theorem quietFor_le (c : Cfgp) {n m : Nat} (e : Env) (h : n ≤ m) (hq : quietFor c m e = true) : quietFor c n e = true := by
  induction n generalizing m e with
  | zero => rfl
  | succ n ih =>
    cases m with
    | zero => omega
    | succ m =>
      simp only [quietFor, Bool.and_eq_true] at hq ⊢
      exact ⟨hq.1, ih _ (by omega) hq.2⟩

/-- WRCFG's accesses, part by part: the tables, each target, the current point, each pair of live registers. -/
theorem wrcfgAccesses_eq (c : Cfgp) (b : Fin 10 → Nat → Byte) (v1 v2 p : Byte) :
    wrcfgAccesses c b v1 v2 p = rowWrites c b
      ++ [.read (romAt c 18) v1, .write (romAt c 20) v1] ++ [.read (romAt c 19) v2, .write (romAt c 21) v2]
      ++ [.read (romAt c 22) p]
      ++ (if p.toNat < 10 then [.write (romAt c 23) (b 2 p.toNat), .write (romAt c 24) (b 2 p.toNat)] else [])
      ++ if p.toNat < 10 then [.write (romAt c 25) (b 3 p.toNat), .write (romAt c 26) (b 3 p.toNat)] else [] := by
  simp only [wrcfgAccesses, refreshAccesses]
  split <;> simp

/-- WRCFG past the lifecycle check with a well-shaped `CFG` (R201): its chain, and the warning where `k` is not below 10. -/
theorem writeConfig_ran (b : Fin 10 → Nat → Byte) (s : State) (he : s.en = true) (hp : PortsOk s.cfgp)
    (hq : quietFor s.cfgp 872 s.env = true) (hl : ∀ k : Fin 10, s.cfg[k].len = Reg.of 10)
    (hb : ∀ (k : Fin 10) (i : Nat), i < 10 → s.cfg[k].bytes.byteAt i = some (b k i))
    (h18 : readable s (romAt s.cfgp 18)) (h19 : readable s (romAt s.cfgp 19)) (h22 : readable s (romAt s.cfgp 22)) :
    ∃ (v1 v2 p : Byte) (n : Nat) (t : State),
      writeConfig s = .ok true (if p.toNat < 10 then t else raise .partialWriteWarning 0 t)
      ∧ Ran false n s (wrcfgAccesses s.cfgp b v1 v2 p) t ∧ t.xbuf = s.xbuf ∧ t.stat = s.stat := by
  obtain ⟨t1, h1, r1, x1, p1⟩ := rowWrites_ran (cut := false) tableIds b s 72 he hp hq fun k _ => hb k
  obtain ⟨v1, t2, h2, r2, x2, p2⟩ := refreshTarget_ran romFan1TgtCurve romFan1TgtDuty t1 56 (r1.en.trans he) (r1.cfgp ▸ hp)
    (r1.cfgp ▸ r1.quiet) (r1.readable (r1.cfgp ▸ h18))
  have r2 := r1.trans r2
  obtain ⟨v2, t3, h3, r3, x3, p3⟩ := refreshTarget_ran romFan2TgtCurve romFan2TgtDuty t2 40 (r2.en.trans he) (r2.cfgp ▸ hp)
    (r2.cfgp ▸ r2.quiet) (r2.readable (r2.cfgp ▸ h19))
  have r3 := r2.trans r3
  obtain ⟨p, t4, h4, r4, b4⟩ := ecRead_ran (romAt t3.cfgp romCurPoint) t3 32 (r3.en.trans he) (r3.cfgp ▸ hp)
    (r3.cfgp ▸ r3.quiet) (r3.readable (r3.cfgp ▸ h22))
  have r4 := r3.trans r4
  obtain ⟨m5, t5, h5, r5, n5, x5, p5⟩ := refreshLive_ran tabAccTime romFan1CurAcc romFan2CurAcc p (b 2 p.toNat) t4 16
    (r4.en.trans he) (r4.cfgp ▸ hp) (r4.cfgp ▸ r4.quiet) (by rw [r4.cfg]; exact hl _)
    fun h => by rw [r4.cfg]; exact hb _ _ h
  have r5 := r4.trans r5
  obtain ⟨m6, t6, h6, r6, -, x6, p6⟩ := refreshLive_ran (cut := false) tabDecTime romFan1CurDec romFan2CurDec p (b 3 p.toNat) t5 0
    (r5.en.trans he) (r5.cfgp ▸ hp) (quietFor_le _ _ (by omega) (r5.cfgp ▸ r5.quiet)) (by rw [r5.cfg]; exact hl _)
    fun h => by rw [r5.cfg]; exact hb _ _ h
  have r6 := r5.trans r6
  refine ⟨v1, v2, p, m6, t6, ?_, ?_, ?_, ?_⟩
  · simp only [writeConfig, shapeOk_ok tableIds s fun k _ => hl k, bind_ok, if_true, h1, refreshDerived, h2, h3, h4, h5, h6,
      Bool.or_self, Bool.not_eq_true', decide_eq_false_iff_not, ite_not]
  · rw [r1.cfgp, r2.cfgp, r3.cfgp, r4.cfgp, r5.cfgp] at r6
    rw [wrcfgAccesses_eq]
    exact r6
  · rw [x6, x5, b4.xbuf, x3, x2, x1]
  · rw [p6, p5, b4.stat, p3, p2, p1]

end Sys2Proof.Laws
end

