-- ==== Sys2Proof/Laws/PortStep.lean ====
section
/-!
SUPPORT. A command one step at a time (R10, D30): what one row does in any environment, what is left of a command at each of
its phases, and that one step leaves what is left after it.
-/
namespace Sys2Proof.Laws
open Sys2Proof Sys2Proof.Machine

/-! ## One row -/

/-- A row of the step table is done, in any environment: one further row, at most one event of ECSEQ's. -/
structure RowDone (s t : State) : Prop extends Kept {} s t where
  ar : t.ar = s.ar
  rw : t.rw = s.rw
  dr : s.rw = true → t.dr = s.dr
  step : t.stepNo = s.stepNo + 1
  base : t.base = s.base
  cnt : t.cnt = s.cnt
  idx : t.idx = s.idx
  ours : ∃ es, es.length ≤ 1 ∧ Ours s t es

theorem Between.refl (s : State) : Between s s := ⟨Kept.refl _ s, rfl, rfl, rfl, rfl, rfl, rfl, rfl⟩

theorem Between.row {s t : State} (h : Between s t) (es : List BusEvent) (hl : es.length ≤ 1) (ho : Ours s t es) (v : Byte)
    (hv : s.rw = true → v = s.dr) : RowDone s (advance { t with dr := v }) :=
  ⟨h.toKept.trans (kept_load t t.ar v t.rw (t.stepNo + 1) t.base t.cnt t.idx), h.ar, h.rw, hv,
    by simp [advance, h.step], h.base, h.cnt, h.idx, ⟨es, hl, ho⟩⟩

/-- One port operation in any environment. -/
theorem issueRow_sat (r : StepRow) (s : State) :
    Sat (fun _ t => RowDone s t) (fun c t => CutAt c s t) (fun _ => True) (fun _ => True) (issueRow r s) := by
  unfold issueRow
  split
  · rename_i hr
    have hrw : s.rw = false := by simpa using (Bool.and_eq_true_iff.mp hr).2
    unfold gwRead
    split
    · refine (gated_between fun t => busRead_bus .ecseq _ t).bind fun v t h => ?_
      exact h.1.row _ (List.length_filter_le _ _) h.2 v fun h => by rw [hrw] at h; cases h
    · exact (Between.refl s).row [] (by simp) (Ours.refl s) 0 fun h => by rw [hrw] at h; cases h
  · unfold gwWrite
    split
    · refine (gated_between fun t => busWrite_bus .ecseq _ _ t).bind fun _ t h => ?_
      exact h.1.row _ (List.length_filter_le _ _) h.2 t.dr fun _ => h.1.dr
    · exact (Between.refl s).row [] (by simp) (Ours.refl s) s.dr fun _ => rfl

/-- The rows of an access, in any environment, from any row on. -/
structure RowsDone (s t : State) : Prop extends Kept {} s t where
  ar : t.ar = s.ar
  rw : t.rw = s.rw
  dr : s.rw = true → t.dr = s.dr
  base : t.base = s.base
  cnt : t.cnt = s.cnt
  idx : t.idx = s.idx

theorem rows_sat (rs : List StepRow) (s : State) :
    Sat (fun _ t => RowsDone s t) (fun _ _ => True) (fun _ => True) (fun _ => True) (forEach issueRow rs s) := by
  refine Sat.forEach (P := fun t => RowsDone s t) ⟨Kept.refl _ s, rfl, rfl, fun _ => rfl, rfl, rfl, rfl⟩ fun r _ t h => ?_
  refine (issueRow_sat r t).mono (fun _ u h' => ?_) (fun _ _ _ => trivial) (fun _ h => h) fun _ h => h
  exact ⟨h.toKept.trans h'.toKept, h'.ar.trans h.ar, h'.rw.trans h.rw,
    fun hw => (h'.dr (h.rw.trans hw)).trans (h.dr hw), h'.base.trans h.base, h'.cnt.trans h.cnt, h'.idx.trans h.idx⟩

theorem bind_congr {α β : Type} {Q : α → State → Prop} {K : Cut → State → Prop} {F : Fault → Prop} {R : Refusal → Prop}
    {r : Res α} {k k' : α → State → Res β} (h : Sat Q K F R r) (hk : ∀ a t, Q a t → k a t = k' a t) : r.bind k = r.bind k' := by
  cases r with
  | ok a t => exact hk a t h
  | cut c t => rfl
  | fault f => rfl
  | refused f => rfl

/-! ## What is left of a command at a phase -/

/-- RDSTAT from its `n`-th single-byte read on. -/
def scalarsFrom (n : Nat) (s : State) : Res Bool :=
  (forEach readScalar (scalarReads.drop n) s).bind fun _ s => .ok true (derivePcts s)

/-- RDSTAT from table `t` on. -/
def statRowsFrom (t : Nat) (s : State) : Res Bool :=
  (forEach rowRead (tableIds.drop t) s).bind fun _ s => scalarsFrom 0 s

/-- WRCFG from table `t` on. -/
def cfgRowsFrom (t : Nat) (s : State) : Res Bool :=
  (forEach rowWrite (tableIds.drop t) s).bind fun _ s => refreshDerived s

/-- WRCFG from the deceleration registers on. -/
def decFrom (k : Byte) (skipped : Bool) (s : State) : Res Bool :=
  (refreshLive tabDecTime romFan1CurDec romFan2CurDec k s).bind fun x s =>
    .ok true (if skipped || x then raise .partialWriteWarning 0 s else s)

/-- WRCFG from the acceleration registers on. -/
def accFrom (k : Byte) (s : State) : Res Bool :=
  (refreshLive tabAccTime romFan1CurAcc romFan2CurAcc k s).bind fun x s => decFrom k x s

/-- WRCFG from the read of the current point on. -/
def pointFrom (s : State) : Res Bool := (ecRead (romAt s.cfgp romCurPoint) s).bind accFrom

/-- WRCFG from fan 2's target on. -/
def targetFrom (s : State) : Res Bool := (refreshTarget romFan2TgtCurve romFan2TgtDuty s).bind fun _ s => pointFrom s

/-- The elements of an array read from `i` on. -/
def readFrom (put : Nat → Byte → State → State) (i : Nat) (s : State) : Res Unit :=
  forEach (readElem put) (List.range' i (s.cnt.toNat - i)) s

/-- The elements of an array write from `i` on. -/
def writeFrom (src : Nat → State → Res Byte) (i : Nat) (s : State) : Res Unit :=
  forEach (writeElem src) (List.range' i (s.cnt.toNat - i)) s

/-- What is left of a command once the access in progress is complete. -/
def restAfter : Purpose → State → Res Bool
  | .rdreg, s => .ok true { s with res8 := Reg.of s.dr }
  | .wrreg, s => .ok true s
  | .rdarr, s => (readFrom putXbuf (s.idx.toNat + 1) (putXbuf s.idx.toNat s.dr s)).bind fun _ s => .ok true s
  | .wrarr, s => (writeFrom xbufByte (s.idx.toNat + 1) s).bind fun _ s => .ok true s
  | .tachLow .fan1, s =>
    (ecRead (romAt s.cfgp romFan1TachH) s).bind fun h t => (fun u =>
      (readTach romFan2TachL romFan2TachH (fun v st => { st with fan2Speed := Reg.of v }) u).bind fun _ s => statRowsFrom 0 s)
        (putSpeed .fan1 (cat16 h s.dr) t)
  | .tachLow .fan2, s =>
    (ecRead (romAt s.cfgp romFan2TachH) s).bind fun h t => statRowsFrom 0 (putSpeed .fan2 (cat16 h s.dr) t)
  | .tachHigh .fan1 low, s =>
    (readTach romFan2TachL romFan2TachH (fun v st => { st with fan2Speed := Reg.of v }) (putSpeed .fan1 (cat16 s.dr low) s)).bind
      fun _ s => statRowsFrom 0 s
  | .tachHigh .fan2 low, s => statRowsFrom 0 (putSpeed .fan2 (cat16 s.dr low) s)
  | .statRow t, s =>
    (readFrom (putTab t) (s.idx.toNat + 1) (putTab t s.idx.toNat s.dr s)).bind fun _ s => statRowsFrom (t.val + 1) s
  | .scalar n, s => scalarsFrom (n.val + 1) { s with stat := (scalarRead n).put s.dr s.stat }
  | .cfgRow t, s => (writeFrom (cfgByte t) (s.idx.toNat + 1) s).bind fun _ s => cfgRowsFrom (t.val + 1) s
  | .curve .fan1, s => (ecWrite (romAt s.cfgp romFan1TgtDuty) s.dr s).bind fun _ s => targetFrom s
  | .curve .fan2, s => (ecWrite (romAt s.cfgp romFan2TgtDuty) s.dr s).bind fun _ s => pointFrom s
  | .duty .fan1, s => targetFrom s
  | .duty .fan2, s => pointFrom s
  | .point, s => accFrom s.dr s
  | .live .acc .fan1 k x, s => (ecWrite (romAt s.cfgp romFan2CurAcc) s.dr s).bind fun _ s => decFrom k x s
  | .live .acc .fan2 k x, s => decFrom k x s
  | .live .dec .fan1 _ x, s =>
    (ecWrite (romAt s.cfgp romFan2CurDec) s.dr s).bind fun _ s =>
      .ok true (if x then raise .partialWriteWarning 0 s else s)
  | .live .dec .fan2 _ x, s => .ok true (if x then raise .partialWriteWarning 0 s else s)

/-- What is left of a command at a phase: `OK` and the state it ends with, or how it is cut or stops. -/
def rest : Phase → State → Res Bool
  | .load, s => .ok (initFresh s).1 (initFresh s).2
  | .init, s => .ok (initAnswered s).1 (initAnswered s).2
  | .deinit, s => .ok true { invokeDeinit s with hnd := false, en := false }
  | .access p, s => (forEach issueRow (stepTable.drop s.stepNo.toNat) s).bind fun _ s => restAfter p s
  | .complete b, s => .ok b s

/-! ## From one access to the next -/

theorem ecRead_bind {α : Type} (a : Addr) (s : State) (k : Byte → State → Res α) :
    (ecRead a s).bind k = (forEach issueRow stepTable (readBegun a s)).bind fun _ t => k t.dr t := by
  rw [ecRead, bind_assoc]; rfl

/-- A read of the map and what follows it, as its phase. -/
theorem rest_romRead (p : Purpose) (k : Fin 29) (s : State) :
    (beginRomRead p k s).bind rest = (ecRead (romAt s.cfgp k) s).bind fun _ t => restAfter p t := by
  rw [ecRead_bind]; rfl

theorem rest_romWrite (p : Purpose) (k : Fin 29) (v : Byte) (s : State) :
    (beginRomWrite p k v s).bind rest = (ecWrite (romAt s.cfgp k) v s).bind fun _ t => restAfter p t := rfl

theorem range'_pos {i n : Nat} (h : i < n) : List.range' i (n - i) = i :: List.range' (i + 1) (n - (i + 1)) := by
  rw [show n - i = (n - (i + 1)) + 1 by omega, List.range'_succ]

theorem setIdx_toNat {i : Nat} {s : State} (h : i < s.cnt.toNat) : (setIdx i s).idx.toNat = i := by
  have := s.cnt.isLt
  simp only [setIdx, BitVec.toNat_ofNat]
  omega

/-- An array read from element `i` on, as its phase, given what its access does at the end. -/
theorem rest_readOn {p : Purpose} {next : State → Res Phase} {put : Nat → Byte → State → State} {k : State → Res Bool}
    (hcnt : ∀ i v t, (put i v t).cnt = t.cnt)
    (hp : ∀ t, restAfter p t = (readFrom put (t.idx.toNat + 1) (put t.idx.toNat t.dr t)).bind fun _ s => k s)
    (hn : ∀ t, (next t).bind rest = k t) (i : Nat) (s : State) :
    (readOn p next i s).bind rest = (readFrom put i s).bind fun _ s => k s := by
  unfold readOn
  by_cases h : i < s.cnt.toNat
  · rw [if_pos h, readFrom, range'_pos h, forEach_cons, readElem, bind_assoc, bind_assoc, ecRead_bind]
    refine bind_congr (rows_sat stepTable (readBegun (curAddr (setIdx i s)) (setIdx i s))) fun _ t ht => ?_
    have hi : t.idx.toNat = i := by rw [ht.idx]; exact setIdx_toNat h
    have hc : (put i t.dr t).cnt = s.cnt := (hcnt _ _ _).trans ht.cnt
    rw [hp, hi, readFrom, bind_ok, hc]
  · rw [if_neg h, readFrom, show s.cnt.toNat - i = 0 by omega]
    exact hn s

/-- An array write from element `i` on, as its phase. -/
theorem rest_writeOn {p : Purpose} {next : State → Res Phase} {src : Nat → State → Res Byte} {k : State → Res Bool}
    (hsrc : ∀ i t, ∃ f v, src i t = known f v t)
    (hp : ∀ t, restAfter p t = (writeFrom src (t.idx.toNat + 1) t).bind fun _ s => k s)
    (hn : ∀ t, (next t).bind rest = k t) (i : Nat) (s : State) :
    (writeOn p src next i s).bind rest = (writeFrom src i s).bind fun _ s => k s := by
  unfold writeOn
  by_cases h : i < s.cnt.toNat
  · rw [if_pos h, writeFrom, range'_pos h, forEach_cons, writeElem, bind_assoc, bind_assoc, bind_assoc]
    obtain ⟨f, v, hv⟩ := hsrc i (setIdx i s)
    rw [hv]
    cases v with
    | none => rfl
    | some v =>
      rw [known_some, bind_ok, bind_ok, bind_ok, ecWrite]
      refine bind_congr (rows_sat stepTable (writeBegun (curAddr (setIdx i s)) v (setIdx i s))) fun _ t ht => ?_
      have hi : t.idx.toNat = i := by rw [ht.idx]; exact setIdx_toNat h
      have hc : t.cnt = s.cnt := ht.cnt
      rw [hp, hi, writeFrom, hc]
  · rw [if_neg h, writeFrom, show s.cnt.toNat - i = 0 by omega]
    exact hn s

theorem rest_completes (b : Bool) (s : State) : (completes b s).bind rest = .ok b s := rfl

theorem rest_rdarr (i : Nat) (s : State) :
    (readOn .rdarr (completes true) i s).bind rest = (readFrom putXbuf i s).bind fun _ s => .ok true s :=
  rest_readOn (put := putXbuf) (k := fun s => .ok true s) (fun _ _ _ => rfl) (fun _ => rfl) (fun _ => rfl) i s

theorem rest_wrarr (i : Nat) (s : State) :
    (writeOn .wrarr xbufByte (completes true) i s).bind rest = (writeFrom xbufByte i s).bind fun _ s => .ok true s :=
  rest_writeOn (fun _ _ => ⟨_, _, rfl⟩) (fun _ => rfl) (fun _ => rfl) i s

theorem scalarReads_drop {n : Nat} (h : n < 9) : scalarReads.drop n = scalarRead ⟨n, h⟩ :: scalarReads.drop (n + 1) :=
  List.drop_eq_getElem_cons h

theorem tableIds_drop {t : Nat} (h : t < 10) : tableIds.drop t = ⟨t, h⟩ :: tableIds.drop (t + 1) := by
  have : ∀ t : Fin 10, tableIds.drop t.val = t :: tableIds.drop (t.val + 1) := by decide
  exact this ⟨t, h⟩

theorem rest_scalar (n : Nat) (s : State) : (beginScalar n s).bind rest = scalarsFrom n s := by
  unfold beginScalar
  by_cases h : n < 9
  · rw [dif_pos h, rest_romRead, scalarsFrom, scalarReads_drop h, forEach_cons, readScalar, bind_assoc, bind_assoc,
      ecRead_bind, ecRead_bind]
    rfl
  · rw [dif_neg h, scalarsFrom, List.drop_eq_nil_of_le (show scalarReads.length ≤ n by simp only [scalarReads, List.length]; omega)]
    rfl

theorem readArray_eq (put : Nat → Byte → State → State) (b : Addr) (n : BitVec 8) (s : State) :
    readArray put b n s = readFrom put 0 (loadArray b n s) := by rw [readArray, List.range_eq_range']; rfl

theorem writeArray_eq (src : Nat → State → Res Byte) (b : Addr) (n : BitVec 8) (s : State) :
    writeArray src b n s = writeFrom src 0 (loadArray b n s) := by rw [writeArray, List.range_eq_range']; rfl

theorem rest_statRow (t : Nat) (s : State) : (beginStatRow t s).bind rest = statRowsFrom t s := by
  have key : ∀ (m t : Nat) (s : State), 10 - t = m → (beginStatRow t s).bind rest = statRowsFrom t s := by
    intro m
    induction m with
    | zero =>
      intro t s ht
      rw [beginStatRow, dif_neg (by omega), rest_scalar, statRowsFrom,
        List.drop_eq_nil_of_le (show tableIds.length ≤ t by simp only [tableIds, List.length]; omega)]
      rfl
    | succ m ih =>
      intro t s ht
      have h : t < 10 := by omega
      rw [beginStatRow, dif_pos h, statRowsFrom, tableIds_drop h, forEach_cons, rowRead, readArray_eq, bind_assoc]
      rw [readOn, if_pos (by show 0 < 10; omega), readFrom, range'_pos (by show 0 < 10; omega), forEach_cons, readElem,
        bind_assoc, bind_assoc, ecRead_bind]
      refine bind_congr (rows_sat stepTable (readBegun (curAddr (setIdx 0 (loadArray (tableBase s.cfgp ⟨t, h⟩) 10 s)))
        (setIdx 0 (loadArray (tableBase s.cfgp ⟨t, h⟩) 10 s)))) fun _ u hu => ?_
      have hi : u.idx.toNat = 0 := by rw [hu.idx]; rfl
      have hc : (putTab ⟨t, h⟩ 0 u.dr u).cnt = 10 := hu.cnt
      rw [restAfter, hi, readFrom, hc, bind_ok]
      rfl
  exact key _ t s rfl

theorem rest_statRow_on (t : Fin 10) (i : Nat) (s : State) :
    (readOn (.statRow t) (beginStatRow (t.val + 1)) i s).bind rest
      = (readFrom (putTab t) i s).bind fun _ s => statRowsFrom (t.val + 1) s :=
  rest_readOn (put := putTab t) (k := statRowsFrom (t.val + 1)) (fun _ _ _ => rfl) (fun _ => rfl) (rest_statRow (t.val + 1)) i s

theorem rest_live (t : Timing) (k : Byte) (x : Bool) (next : Bool → State → Res Phase) (kk : Bool → State → Res Bool)
    (hp : ∀ s, restAfter (.live t .fan1 k x) s
      = (ecWrite (romAt s.cfgp (liveRom t .fan2)) s.dr s).bind fun _ s => kk x s)
    (hn : ∀ s, (next true s).bind rest = kk true s) (s : State) :
    (beginLive t k x next s).bind rest
      = (refreshLive (timingTable t) (liveRom t .fan1) (liveRom t .fan2) k s).bind fun y s => kk (x || y) s := by
  unfold beginLive refreshLive
  rw [bind_assoc, bind_assoc, cfgLen]
  cases s.cfg[timingTable t].len.value with
  | none => rfl
  | some n =>
    rw [known_some, bind_ok, bind_ok]
    split
    · rw [bind_assoc, bind_assoc, cfgByte]
      cases s.cfg[timingTable t].bytes.byteAt k.toNat with
      | none => rfl
      | some v =>
        rw [known_some, bind_ok, bind_ok, rest_romWrite, bind_assoc, ecWrite]
        refine bind_congr (rows_sat stepTable (writeBegun _ v s)) fun _ u hu => ?_
        have hd : u.dr = v := hu.dr rfl
        rw [hp, hd, bind_assoc]
        simp only [bind_ok, Bool.or_false]
    · rw [bind_ok, hn, Bool.or_true]

theorem rest_dec (k : Byte) (x : Bool) (s : State) : (beginDec k x s).bind rest = decFrom k x s :=
  rest_live .dec k x endRefresh (fun y s => .ok true (if y then raise .partialWriteWarning 0 s else s)) (fun _ => rfl)
    (fun _ => rfl) s

theorem rest_acc (k : Byte) (s : State) : (beginAcc k s).bind rest = accFrom k s := by
  have := rest_live .acc k false (beginDec k) (decFrom k) (fun _ => rfl) (rest_dec k true) s
  simp only [Bool.false_or] at this
  exact this

theorem rest_refresh (s : State) : (beginRefresh s).bind rest = refreshDerived s := by
  rw [beginRefresh, rest_romRead, refreshDerived, refreshTarget, bind_assoc]
  rw [ecRead_bind, ecRead_bind]
  refine bind_congr (rows_sat _ _) fun _ t _ => ?_
  show (ecWrite _ _ _).bind _ = (ecWrite _ _ _).bind _
  refine congrArg _ ?_
  funext _ s
  rw [targetFrom]
  refine congrArg _ ?_
  funext _ s
  rw [pointFrom]
  refine congrArg _ ?_
  funext k s
  rw [accFrom]
  rfl

theorem rest_cfgRow (t : Nat) (s : State) : (beginCfgRow t s).bind rest = cfgRowsFrom t s := by
  have key : ∀ (m t : Nat) (s : State), 10 - t = m → (beginCfgRow t s).bind rest = cfgRowsFrom t s := by
    intro m
    induction m with
    | zero =>
      intro t s ht
      rw [beginCfgRow, dif_neg (by omega), rest_refresh, cfgRowsFrom,
        List.drop_eq_nil_of_le (show tableIds.length ≤ t by simp only [tableIds, List.length]; omega)]
      rfl
    | succ m ih =>
      intro t s ht
      have h : t < 10 := by omega
      rw [beginCfgRow, dif_pos h, cfgRowsFrom, tableIds_drop h, forEach_cons, rowWrite, writeArray_eq, bind_assoc]
      rw [writeOn, if_pos (by show 0 < 10; omega), writeFrom, range'_pos (by show 0 < 10; omega), forEach_cons, writeElem,
        bind_assoc, bind_assoc, bind_assoc, cfgByte]
      cases (setIdx 0 (loadArray (tableBase s.cfgp ⟨t, h⟩) 10 s)).cfg[(⟨t, h⟩ : Fin 10)].bytes.byteAt 0 with
      | none => rfl
      | some v =>
        rw [known_some, bind_ok, bind_ok, bind_ok, ecWrite]
        refine bind_congr (rows_sat stepTable (writeBegun _ v _)) fun _ u hu => ?_
        have hi : u.idx.toNat = 0 := by rw [hu.idx]; rfl
        have hc : u.cnt = 10 := hu.cnt
        rw [restAfter, hi, writeFrom, hc]
        rfl
  exact key _ t s rfl

theorem rest_cfgRow_on (t : Fin 10) (i : Nat) (s : State) :
    (writeOn (.cfgRow t) (cfgByte t) (beginCfgRow (t.val + 1)) i s).bind rest
      = (writeFrom (cfgByte t) i s).bind fun _ s => cfgRowsFrom (t.val + 1) s :=
  rest_writeOn (fun _ _ => ⟨_, _, rfl⟩) (fun _ => rfl) (rest_cfgRow (t.val + 1)) i s

theorem tach_eq (h : Fin 29) (f : Fan) (low : Byte) (k : State → Res Bool) (s : State)
    (hp : ∀ t, restAfter (.tachHigh f low) t = k (putSpeed f (cat16 t.dr low) t)) :
    (beginRomRead (.tachHigh f low) h s).bind rest
      = (ecRead (romAt s.cfgp h) s).bind fun v t => k (putSpeed f (cat16 v low) t) := by
  rw [rest_romRead, ecRead_bind, ecRead_bind]
  simp only [hp]

/-- What is left after an access is what is left at the next phase. -/
theorem restAfter_eq (p : Purpose) (s : State) : restAfter p s = (afterAccess p s).bind rest := by
  cases p with
  | rdreg => rfl
  | wrreg => rfl
  | rdarr => exact (rest_rdarr _ _).symm
  | wrarr => exact (rest_wrarr _ _).symm
  | tachLow f =>
    cases f with
    | fan1 => exact (tach_eq _ .fan1 s.dr (fun u => (readTach romFan2TachL romFan2TachH
        (fun v st => { st with fan2Speed := Reg.of v }) u).bind fun _ s => statRowsFrom 0 s) s fun _ => rfl).symm
    | fan2 => exact (tach_eq _ .fan2 s.dr (statRowsFrom 0) s fun _ => rfl).symm
  | tachHigh f low =>
    cases f with
    | fan1 =>
      simp only [afterAccess, restAfter]
      rw [rest_romRead, ecRead_bind, readTach, bind_assoc, ecRead_bind]
      simp only [restAfter, bind_assoc, bind_ok]
      rfl
    | fan2 => exact (rest_statRow 0 _).symm
  | statRow t => exact (rest_statRow_on t _ _).symm
  | scalar n => exact (rest_scalar _ _).symm
  | cfgRow t => exact (rest_cfgRow_on t _ _).symm
  | curve f => cases f <;> rfl
  | duty f =>
    cases f with
    | fan1 =>
      simp only [afterAccess, restAfter]
      rw [rest_romRead, ecRead_bind, targetFrom, refreshTarget, bind_assoc, ecRead_bind]
      rfl
    | fan2 =>
      simp only [afterAccess, restAfter]
      rw [rest_romRead, ecRead_bind, pointFrom, ecRead_bind]
      rfl
  | point => exact (rest_acc _ _).symm
  | live t f k x =>
    cases t <;> cases f
    · rfl
    · exact (rest_dec k x s).symm
    · rfl
    · rfl

/-! ## One step -/

/-- One step of a command in progress, but for the completion: the phase of the next step. -/
def unit : Phase → State → Res Phase
  | .load, s => loadCall s
  | .init, s => completes (initAnswered s).1 (initAnswered s).2
  | .deinit, s => completes true { invokeDeinit s with hnd := false, en := false }
  | .access p, s => accessStep p s
  | .complete b, s => completes b s

theorem stepTable_drop (n : BitVec 3) : stepTable.drop n.toNat = rowAt n :: stepTable.drop (n.toNat + 1) :=
  List.drop_eq_getElem_cons n.isLt

/-- What is left at a phase is one step and then what is left at the next phase. -/
theorem rest_step (p : Phase) (s : State) : rest p s = (unit p s).bind rest := by
  cases p with
  | load =>
    cases h : (invokeLoad s).1 <;> simp only [rest, unit, initFresh, loadCall, h] <;> rfl
  | init => rfl
  | deinit => rfl
  | complete b => rfl
  | access p =>
    rw [rest, unit, accessStep, stepTable_drop, forEach_cons, bind_assoc, bind_assoc]
    refine bind_congr (issueRow_sat (rowAt s.stepNo) s) fun _ t ht => ?_
    by_cases h7 : s.stepNo = 7
    · have h0 : t.stepNo = 0 := by rw [ht.step, h7]; rfl
      rw [if_pos h0, h7, ← restAfter_eq]
      rfl
    · have hn : t.stepNo ≠ 0 := by
        rw [ht.step]; revert h7; generalize s.stepNo = n; revert n; decide
      have hs : s.stepNo.toNat + 1 = t.stepNo.toNat := by
        rw [ht.step]; revert h7; generalize s.stepNo = n; revert n; decide
      rw [if_neg hn, hs]
      rfl

/-- A command's body is what it does at its start and then what is left. -/
theorem body_start (i : Instr) (s : State) : body i s = (start i s).bind rest := by
  cases i with
  | init => simp only [body, start, initResult_eq, initOutcome]; split <;> rfl
  | deinit => simp only [body, start]; split <;> rfl
  | isinit => rfl
  | geterr => rfl
  | rdreg a => rw [body, ecRead_bind]; rfl
  | wrreg a d => rfl
  | rdarr b n => rw [start, beginRdarr, rest_rdarr, body, rdarrBody, readArray_eq]
  | wrarr b n => rw [start, beginWrarr, rest_wrarr, body, wrarrBody, writeArray_eq]
  | romrd k => cases h : romIndexOf k <;> simp only [body, start, h] <;> rfl
  | rdrow t =>
    cases h : tableIdOf t with
    | some t => simp only [body, start, h]; rw [beginRdarr, rest_rdarr, rdarrBody, readArray_eq]
    | none => simp only [body, start, h]; rfl
  | wrrow t =>
    cases h : tableIdOf t with
    | some t => simp only [body, start, h]; rw [beginWrarr, rest_wrarr, wrarrBody, writeArray_eq]
    | none => simp only [body, start, h]; rfl
  | rdstat =>
    simp only [body, start, whenInitialized]
    split
    · rw [rest_romRead, ecRead_bind, readStatus, readTach, bind_assoc, ecRead_bind]
      simp only [restAfter, bind_assoc, bind_ok]
      rfl
    · rfl
  | wrcfg =>
    simp only [body, start, whenInitialized]
    split
    · rw [writeConfig, bind_assoc]
      refine congrArg _ ?_
      funext fits t
      split
      · rw [rest_cfgRow]; rfl
      · rfl
    · rfl

end Sys2Proof.Laws
end

