-- ==== Sys2Proof/Laws/PortKeeps.lean ====
section
/-!
SUPPORT. What one step of a command in progress keeps, in any environment, and that it does not look at the phase.
-/
namespace Sys2Proof.Laws
open Sys2Proof Sys2Proof.Machine

/-! ## What is kept between two accesses -/

/-- The registers a command's accesses may lead it to write. -/
def mayAny : May := { res8 := true, xbuf := true, stat := true, err := true }

/-- What holds of the phase reached from `s` in `t`: an access, of an array read at one of its elements; or the completion. -/
def Reached (s : State) (p : Phase) (t : State) : Prop :=
  match p with
  | .access .rdarr => t.idx.toNat < t.cnt.toNat
  | .access _ => True
  | .complete _ => t.stepNo = s.stepNo
  | _ => False

/-- What prepares the next step in `r`, from `s`: registers are kept but for those of `mayAny`; nothing is cut. -/
def Prepares (s : State) (r : Res Phase) : Prop :=
  Sat (fun p t => Kept mayAny s t ∧ Reached s p t) (fun _ _ => False) (fun _ => True) (fun _ => True) r

theorem Prepares.from {s t : State} {r : Res Phase} (h : Prepares t r) (hk : Kept mayAny s t) (hs : t.stepNo = s.stepNo) :
    Prepares s r := by
  refine h.mono (fun p u hu => ⟨hk.trans hu.1, ?_⟩) (fun _ _ h => h) (fun _ h => h) fun _ h => h
  have := hu.2
  unfold Reached at this ⊢
  split at this <;> simp_all

theorem prepares_completes (b : Bool) (s : State) : Prepares s (completes b s) := ⟨Kept.refl _ s, rfl⟩

theorem prepares_access {p : Purpose} (hp : p ≠ .rdarr) {s t : State} (h : Kept mayAny s t) : Prepares s (.ok (.access p) t) := by
  refine ⟨h, ?_⟩
  cases p <;> trivial

theorem kept_readBegun (w : May) (a : Addr) (s : State) : Kept w s (readBegun a s) :=
  (kept_load s a s.dr false 0 s.base s.cnt s.idx).weaken w

theorem kept_writeBegun (w : May) (a : Addr) (d : Byte) (s : State) : Kept w s (writeBegun a d s) :=
  (kept_load s a d true 0 s.base s.cnt s.idx).weaken w

theorem kept_setIdx (w : May) (i : Nat) (s : State) : Kept w s (setIdx i s) :=
  (kept_load s s.ar s.dr s.rw s.stepNo s.base s.cnt (BitVec.ofNat 8 i)).weaken w

theorem kept_loadArray (w : May) (b : Addr) (n : BitVec 8) (s : State) : Kept w s (loadArray b n s) :=
  (kept_load s s.ar s.dr s.rw s.stepNo b n s.idx).weaken w

theorem prepares_romRead {p : Purpose} (hp : p ≠ .rdarr) (k : Fin 29) (s : State) : Prepares s (beginRomRead p k s) :=
  prepares_access hp (kept_readBegun _ _ s)

theorem prepares_romWrite {p : Purpose} (hp : p ≠ .rdarr) (k : Fin 29) (v : Byte) (s : State) :
    Prepares s (beginRomWrite p k v s) := prepares_access hp (kept_writeBegun _ _ v s)

theorem prepares_readOn {p : Purpose} {next : State → Res Phase} (i : Nat) (s : State) (hn : Prepares s (next s)) :
    Prepares s (readOn p next i s) := by
  unfold readOn
  split
  · rename_i h
    refine ⟨(kept_setIdx _ i s).trans (kept_readBegun _ _ _), ?_⟩
    have hi := setIdx_toNat h
    cases p <;> first | trivial | (show (setIdx i s).idx.toNat < s.cnt.toNat; omega)
  · exact hn

theorem prepares_writeOn {p : Purpose} (hp : p ≠ .rdarr) {src : Nat → State → Res Byte} {next : State → Res Phase} (i : Nat)
    (s : State) (hsrc : ∀ i t, ∃ f v, src i t = known f v t) (hn : Prepares s (next s)) :
    Prepares s (writeOn p src next i s) := by
  unfold writeOn
  split
  · obtain ⟨f, v, hv⟩ := hsrc i (setIdx i s)
    rw [hv]
    refine sat_look (fun _ => trivial) fun v _ => ?_
    exact prepares_access hp ((kept_setIdx _ i s).trans (kept_writeBegun _ _ v _))
  · exact hn

theorem kept_anyStat (s : State) (st : Stat) (h : hiByte s.stat.fwVer.val = 0 → hiByte st.fwVer.val = 0) :
    Kept mayAny s { s with stat := st } := by
  refine ⟨rfl, fun _ => ⟨rfl, rfl, rfl⟩, rfl, rfl, fun _ => rfl, fun _ => rfl, fun _ => rfl, fun _ => rfl, by simp [mayAny],
    by simp, rfl, rfl, rfl, rfl, id, fun _ hb => ?_⟩
  obtain ⟨h1, h2, h3, h4, h5, h6, h7, h8, h9⟩ := hb
  exact ⟨h1, h2, h3, h4, h5, h6, h7, h8, h h9⟩

theorem kept_anyXbuf (i : Nat) (v : Byte) (s : State) (hi : i < 255) : Kept mayAny s (putXbuf i v s) := by
  have h := kept_putXbuf i v s hi
  exact ⟨h.cfgp, fun _ => h.enable rfl, h.busy, h.ok, fun _ => h.res8 rfl, fun _ => h.res16 rfl, fun _ => h.resx rfl,
    by simp [mayAny], fun _ => h.stat rfl, fun _ => h.err rfl, h.cfg, h.host, h.seen, h.phase, h.power, h.inv⟩

theorem prepares_scalar (n : Nat) (s : State) : Prepares s (beginScalar n s) := by
  unfold beginScalar
  split
  · exact prepares_romRead (by simp) _ s
  · exact (prepares_completes true (derivePcts s)).from (kept_anyStat s (derivePcts s).stat id) rfl

theorem prepares_statRow (t : Nat) (s : State) : Prepares s (beginStatRow t s) := by
  unfold beginStatRow
  split
  · exact (prepares_readOn 0 _ (prepares_scalar 0 _)).from (kept_loadArray _ _ _ s) rfl
  · exact prepares_scalar 0 s

theorem prepares_refresh (s : State) : Prepares s (beginRefresh s) := prepares_romRead (by simp) _ s

theorem prepares_cfgRow (t : Nat) (s : State) : Prepares s (beginCfgRow t s) := by
  unfold beginCfgRow
  split
  · exact (prepares_writeOn (by simp) 0 _ (fun _ _ => ⟨_, _, rfl⟩) (prepares_refresh _)).from (kept_loadArray _ _ _ s) rfl
  · exact prepares_refresh s

theorem prepares_endRefresh (b : Bool) (s : State) : Prepares s (endRefresh b s) := by
  unfold endRefresh
  split
  · exact (prepares_completes true _).from (kept_raise _ rfl .partialWriteWarning s) rfl
  · exact prepares_completes true s

theorem prepares_live (t : Timing) (k : Byte) (x : Bool) {next : Bool → State → Res Phase} (s : State)
    (hn : ∀ b, Prepares s (next b s)) : Prepares s (beginLive t k x next s) := by
  unfold beginLive
  refine sat_look (fun _ => trivial) fun n _ => ?_
  split
  · refine sat_look (fun _ => trivial) fun v _ => ?_
    exact prepares_romWrite (by simp) _ v s
  · exact hn true

theorem prepares_dec (k : Byte) (x : Bool) (s : State) : Prepares s (beginDec k x s) :=
  prepares_live .dec k x s fun b => prepares_endRefresh b s

theorem prepares_acc (k : Byte) (s : State) : Prepares s (beginAcc k s) := prepares_live .acc k false s fun b => prepares_dec k b s

theorem scalarRead_fwVer (n : Fin 9) (v : Byte) (st : Stat) (h : hiByte st.fwVer.val = 0) :
    hiByte ((scalarRead n).put v st).fwVer.val = 0 := by
  have hz : hiByte (zext16 v) = 0 := by simp only [hiByte, zext16]; apply BitVec.eq_of_toNat_eq; simp; omega
  match n with
  | 0 | 1 | 2 | 4 | 5 | 6 | 7 | 8 => exact h
  | 3 => exact hz

/-- What follows an access's last row keeps, and where it leads. -/
theorem prepares_after (p : Purpose) (s : State) (hi : p = .rdarr → s.idx.toNat < 255) : Prepares s (afterAccess p s) := by
  have stat : ∀ (st : Stat) {r : Res Phase}, (hiByte s.stat.fwVer.val = 0 → hiByte st.fwVer.val = 0) →
      Prepares { s with stat := st } r → Prepares s r := fun st r hst h => h.from (kept_anyStat s st hst) rfl
  cases p with
  | rdreg =>
    refine (prepares_completes true _).from (t := { s with res8 := Reg.of s.dr }) ?_ rfl
    exact kept_res mayAny s _ s.res16 s.resx (by simp [mayAny]) (fun _ => rfl) fun _ => rfl
  | wrreg => exact prepares_completes true s
  | rdarr => exact (prepares_readOn _ _ (prepares_completes true _)).from (kept_anyXbuf _ _ s (hi rfl)) rfl
  | wrarr => exact prepares_writeOn (by simp) _ s (fun _ _ => ⟨_, _, rfl⟩) (prepares_completes true s)
  | tachLow f => exact prepares_romRead (by simp) _ s
  | tachHigh f low =>
    cases f with
    | fan1 =>
      exact stat (putSpeed .fan1 (cat16 s.dr low) s).stat id (prepares_romRead (p := .tachLow .fan2) (by simp) _ _)
    | fan2 => exact stat (putSpeed .fan2 (cat16 s.dr low) s).stat id (prepares_statRow 0 (putSpeed .fan2 (cat16 s.dr low) s))
  | statRow t =>
    exact stat (putTab t s.idx.toNat s.dr s).stat id
      (prepares_readOn _ (putTab t s.idx.toNat s.dr s) (prepares_statRow _ _))
  | scalar n => exact stat _ (scalarRead_fwVer n s.dr s.stat) (prepares_scalar _ _)
  | cfgRow t => exact prepares_writeOn (by simp) _ s (fun _ _ => ⟨_, _, rfl⟩) (prepares_cfgRow _ s)
  | curve f => exact prepares_romWrite (by simp) _ _ s
  | duty f => cases f <;> exact prepares_romRead (by simp) _ s
  | point => exact prepares_acc s.dr s
  | live t f k x =>
    cases f with
    | fan1 => exact prepares_romWrite (by simp) _ _ s
    | fan2 =>
      cases t with
      | acc => exact prepares_dec k x s
      | dec => exact prepares_endRefresh x s

/-- What holds at the phase a step leads to: an access, of an array read at one of its elements; or the completion, `STEP` at
zero. -/
def AtPhase (p : Phase) (t : State) : Prop :=
  match p with
  | .access .rdarr => t.idx.toNat < t.cnt.toNat
  | .access _ => True
  | .complete _ => t.stepNo = 0
  | _ => False

theorem Reached.at {s t : State} {p : Phase} (h : Reached s p t) (h0 : s.stepNo = 0) : AtPhase p t := by
  cases p with
  | access x => cases x <;> exact h
  | complete b => exact Eq.trans h h0
  | load => exact h.elim
  | init => exact h.elim
  | deinit => exact h.elim

/-- One port operation of an access in progress: registers are kept, and the next step is another row of the same access, or
what follows its last; or it is cut where it stood. -/
theorem accessStep_sat (p : Purpose) (s : State) (hi : p = .rdarr → s.idx.toNat < s.cnt.toNat) :
    Sat (fun q t => Kept mayAny s t ∧ AtPhase q t) (fun c t => CutAt c s t) (fun _ => True) (fun _ => True)
      (accessStep p s) := by
  refine (issueRow_sat (rowAt s.stepNo) s).bind fun _ t ht => ?_
  split
  · rename_i h0
    have hp : Prepares t (afterAccess p t) := prepares_after p t fun h => by
      have := hi h
      rw [ht.idx]
      omega
    exact hp.mono (fun q u hu => ⟨(ht.toKept.weaken mayAny).trans hu.1, hu.2.at h0⟩) (fun _ _ h => h.elim) (fun _ h => h)
      fun _ h => h
  · refine ⟨ht.toKept.weaken mayAny, ?_⟩
    cases p <;> first | trivial | (show t.idx.toNat < t.cnt.toNat; rw [ht.idx, ht.cnt]; exact hi rfl)

/-! ## The phase is not looked at -/

/-- A state with another phase. -/
def withPhase (x : Option Phase) (s : State) : State := { s with phase := x }

/-- A result with another phase in its state. -/
def resWithPhase {α : Type} (x : Option Phase) : Res α → Res α
  | .ok a s => .ok a (withPhase x s)
  | .cut c s => .cut c (withPhase x s)
  | .fault f => .fault f
  | .refused r => .refused r

/-- An operation that does not look at the phase. -/
def Blind {α : Type} (f : State → Res α) : Prop := ∀ x s, f (withPhase x s) = resWithPhase x (f s)

variable {α β : Type}

theorem Blind.bind {f : State → Res α} {k : α → State → Res β} (hf : Blind f) (hk : ∀ a, Blind (k a)) :
    Blind fun s => (f s).bind k := by
  intro x s
  show (f (withPhase x s)).bind k = resWithPhase x ((f s).bind k)
  rw [hf x s]
  cases f s with
  | ok a t => exact hk a x t
  | cut c t => rfl
  | fault f => rfl
  | refused r => rfl

theorem Blind.forEach {body : α → State → Res Unit} (h : ∀ a, Blind (body a)) (xs : List α) : Blind (forEach body xs) := by
  induction xs with
  | nil => exact fun _ _ => rfl
  | cons a xs ih => exact Blind.bind (h a) fun _ => ih

/-- A look at a place and an operation on what stands there. -/
theorem Blind.look {p : Place} {v : State → Option α} {k : α → State → Res β} (hv : ∀ x s, v (withPhase x s) = v s)
    (hk : ∀ a, Blind (k a)) : Blind fun s => (known p (v s) s).bind k := by
  intro x s
  show (known p (v (withPhase x s)) (withPhase x s)).bind k = resWithPhase x ((known p (v s) s).bind k)
  rw [hv]
  cases v s with
  | none => rfl
  | some a => exact hk a x s

/-- Either of two operations, by a test that does not look at the phase. -/
theorem Blind.ite {c : State → Prop} [∀ s, Decidable (c s)] {f g : State → Res α} (hc : ∀ x s, c (withPhase x s) ↔ c s) (hf : Blind f)
    (hg : Blind g) : Blind fun s => if c s then f s else g s := by
  intro x s
  show (if c (withPhase x s) then f (withPhase x s) else g (withPhase x s)) = resWithPhase x (if c s then f s else g s)
  by_cases h : c s
  · rw [if_pos h, if_pos ((hc x s).mpr h)]; exact hf x s
  · rw [if_neg h, if_neg (mt (hc x s).mp h)]; exact hg x s

theorem blind_readEc (a : Addr) : Blind (readEc a) := by
  intro x s
  unfold readEc
  show (match s.ecmem.byteAt a.toNat with
    | some v => _
    | none => if s.cfgp.volatile.contains a then _ else _) = _
  cases s.ecmem.byteAt a.toNat with
  | some v => rfl
  | none => dsimp only; split <;> rfl

theorem blind_latchedAddr : Blind latchedAddr :=
  Blind.look (v := fun s => s.target.ah.value) (fun _ _ => rfl) fun _ =>
    Blind.look (v := fun s => s.target.al.value) (fun _ _ => rfl) fun _ _ _ => rfl

theorem blind_targetWrite (p : Port) (v : Byte) : Blind (targetWrite p v) := by
  refine Blind.ite (fun _ _ => Iff.rfl) (fun _ _ => rfl) (Blind.ite (fun _ _ => Iff.rfl) ?_ fun _ _ => rfl)
  refine Blind.look (v := fun s => s.target.idx.value) (fun _ _ => rfl) fun ix => ?_
  refine Blind.ite (fun _ _ => Iff.rfl) (fun _ _ => rfl) (Blind.ite (fun _ _ => Iff.rfl) (fun _ _ => rfl)
    (Blind.ite (fun _ _ => Iff.rfl) (fun _ _ => rfl) (Blind.ite (fun _ _ => Iff.rfl) ?_ fun _ _ => rfl)))
  refine Blind.look (v := fun s => s.target.sel.value) (fun _ _ => rfl) fun sel => ?_
  exact Blind.ite (fun _ _ => Iff.rfl) (Blind.bind blind_latchedAddr fun _ _ _ => rfl) fun _ _ => rfl

theorem blind_targetRead (p : Port) : Blind (targetRead p) := by
  refine Blind.ite (fun _ _ => Iff.rfl) (fun _ _ => rfl) (Blind.ite (fun _ _ => Iff.rfl) ?_ fun _ _ => rfl)
  refine Blind.look (v := fun s => s.target.idx.value) (fun _ _ => rfl) fun ix => ?_
  refine Blind.ite (fun _ _ => Iff.rfl) ?_ fun _ _ => rfl
  refine Blind.look (v := fun s => s.target.sel.value) (fun _ _ => rfl) fun sel => ?_
  exact Blind.ite (fun _ _ => Iff.rfl) (Blind.bind blind_latchedAddr blind_readEc) fun _ _ => rfl

theorem blind_busWrite (m : Master) (p : Port) (v : Byte) : Blind (busWrite m p v) :=
  Blind.bind (blind_targetWrite p v) fun _ _ _ => rfl

theorem blind_busRead (m : Master) (p : Port) : Blind (busRead m p) := Blind.bind (blind_targetRead p) fun _ _ _ => rfl

theorem blind_agentMove (m : AgentMove) : Blind (agentMove m) := by
  cases m with
  | ecUpdate a v =>
    intro x s
    show Res.ok () (ecUpdate a v (withPhase x s)) = .ok () (withPhase x (ecUpdate a v s))
    unfold ecUpdate
    show Res.ok () (if s.cfgp.volatile.contains a then _ else _) = _
    split <;> rfl
  | foreignWrite p v => exact blind_busWrite .foreign p v
  | foreignRead p => exact Blind.bind (blind_busRead .foreign p) fun _ _ _ => rfl

theorem blind_takeSlot : Blind takeSlot := by
  intro x s
  have h := Blind.forEach blind_agentMove (drawSlot s.cfgp s.env).1.moves x { s with env := (drawSlot s.cfgp s.env).2 }
  show (forEach agentMove (drawSlot s.cfgp s.env).1.moves (withPhase x { s with env := (drawSlot s.cfgp s.env).2 })).bind _
    = resWithPhase x ((forEach agentMove (drawSlot s.cfgp s.env).1.moves { s with env := (drawSlot s.cfgp s.env).2 }).bind _)
  rw [h]
  cases forEach agentMove (drawSlot s.cfgp s.env).1.moves { s with env := (drawSlot s.cfgp s.env).2 } <;> rfl

theorem blind_gated {k : State → Res α} (hk : Blind k) : Blind (gated k) := by
  refine Blind.bind blind_takeSlot fun e => ?_
  cases e with
  | complete => exact hk
  | powerLoss => exact fun _ _ => rfl
  | fault => exact Blind.ite (fun _ _ => Iff.rfl) (fun _ _ => rfl) hk

theorem blind_issueRow (r : StepRow) : Blind (issueRow r) := by
  have hr : ∀ p, Blind (gwRead p) := fun p =>
    Blind.ite (fun _ _ => Iff.rfl) (blind_gated (blind_busRead .ecseq p)) fun _ _ => rfl
  have hw : ∀ p v, Blind (gwWrite p v) := fun p v =>
    Blind.ite (fun _ _ => Iff.rfl) (blind_gated (blind_busWrite .ecseq p v)) fun _ _ => rfl
  refine Blind.ite (fun _ _ => Iff.rfl) (fun x s => ?_) fun x s => ?_
  · exact Blind.bind (hr (portOf s.cfgp r.port)) (fun _ _ _ => rfl) x s
  · exact Blind.bind (hw (portOf s.cfgp r.port) (srcByte s r.src)) (fun _ _ _ => rfl) x s

theorem blind_readOn {p : Purpose} {next : State → Res Phase} (hn : Blind next) (i : Nat) : Blind (readOn p next i) :=
  Blind.ite (fun _ _ => Iff.rfl) (fun _ _ => rfl) hn

theorem blind_writeOn {p : Purpose} {src : Nat → State → Res Byte} {next : State → Res Phase} (hs : ∀ i, Blind (src i))
    (hn : Blind next) (i : Nat) : Blind (writeOn p src next i) :=
  Blind.ite (fun _ _ => Iff.rfl) (fun x s => Blind.bind (hs i) (fun _ _ _ => rfl) x (setIdx i s)) hn

theorem blind_known {p : Place} {v : State → Option α} (hv : ∀ x s, v (withPhase x s) = v s) : Blind fun s => known p (v s) s := by
  intro x s
  show known p (v (withPhase x s)) (withPhase x s) = resWithPhase x (known p (v s) s)
  rw [hv]
  cases v s <;> rfl

theorem blind_xbufByte (i : Nat) : Blind (xbufByte i) := blind_known (v := fun s => s.xbuf.byteAt i) fun _ _ => rfl

theorem blind_cfgByte (t : Fin 10) (i : Nat) : Blind (cfgByte t i) :=
  blind_known (v := fun s => s.cfg[t].bytes.byteAt i) fun _ _ => rfl

theorem blind_scalar (n : Nat) : Blind (beginScalar n) := by
  unfold beginScalar
  split
  · exact fun _ _ => rfl
  · exact fun _ _ => rfl

theorem blind_statRow (t : Nat) : Blind (beginStatRow t) := by
  unfold beginStatRow
  split
  · exact fun x s => blind_readOn (blind_scalar 0) 0 x (loadArray _ 10 s)
  · exact blind_scalar 0

theorem blind_cfgRow (t : Nat) : Blind (beginCfgRow t) := by
  unfold beginCfgRow
  split
  · exact fun x s => blind_writeOn (blind_cfgByte _) (fun _ _ => rfl) 0 x (loadArray _ 10 s)
  · exact fun _ _ => rfl

theorem blind_endRefresh (b : Bool) : Blind (endRefresh b) := by cases b <;> exact fun _ _ => rfl

theorem blind_live (t : Timing) (k : Byte) (y : Bool) {next : Bool → State → Res Phase} (hn : ∀ b, Blind (next b)) :
    Blind (beginLive t k y next) :=
  Blind.look (v := fun s => s.cfg[timingTable t].len.value) (fun _ _ => rfl) fun n =>
    Blind.ite (c := fun _ => k.toNat < n) (fun _ _ => Iff.rfl)
      (Blind.bind (blind_cfgByte (timingTable t) k.toNat) fun _ _ _ => rfl) (hn true)

theorem blind_dec (k : Byte) (y : Bool) : Blind (beginDec k y) := blind_live .dec k y blind_endRefresh

theorem blind_acc (k : Byte) : Blind (beginAcc k) := blind_live .acc k false (blind_dec k)

theorem blind_after (p : Purpose) : Blind (afterAccess p) := by
  cases p with
  | rdarr => exact fun x s => blind_readOn (fun _ _ => rfl) _ x (putXbuf s.idx.toNat s.dr s)
  | wrarr => exact fun x s => blind_writeOn blind_xbufByte (fun _ _ => rfl) _ x s
  | tachHigh f low =>
    cases f with
    | fan1 => exact fun _ _ => rfl
    | fan2 => exact fun x s => blind_statRow 0 x (putSpeed .fan2 (cat16 s.dr low) s)
  | statRow t => exact fun x s => blind_readOn (blind_statRow _) _ x (putTab t s.idx.toNat s.dr s)
  | scalar n => exact fun x s => blind_scalar _ x { s with stat := (scalarRead n).put s.dr s.stat }
  | cfgRow t => exact fun x s => blind_writeOn (blind_cfgByte t) (blind_cfgRow _) _ x s
  | duty f => cases f <;> exact fun _ _ => rfl
  | point => exact fun x s => blind_acc s.dr x s
  | live t f k y =>
    cases f with
    | fan1 => exact fun _ _ => rfl
    | fan2 =>
      cases t with
      | acc => exact blind_dec k y
      | dec => exact blind_endRefresh y
  | _ => exact fun _ _ => rfl

/-- One step of a command in progress does not look at the phase it is given in the state. -/
theorem blind_unit (p : Phase) : Blind (unit p) := by
  cases p with
  | load =>
    intro x s
    show (match (drawLoad s.env).1 with | .fail => _ | .ok => _) = resWithPhase x (match (drawLoad s.env).1 with | .fail => _ | .ok => _)
    cases (drawLoad s.env).1 <;> rfl
  | init =>
    intro x s
    have h : initAnswered (withPhase x s) = ((initAnswered s).1, withPhase x (initAnswered s).2) := by
      show (match (drawInit s.env).1 with | .refused c => _ | .ok => _) = _
      unfold initAnswered
      show _ = ((match (drawInit s.env).1 with | .refused c => _ | .ok => _ : Bool × State).1,
        withPhase x (match (drawInit s.env).1 with | .refused c => _ | .ok => _ : Bool × State).2)
      cases (drawInit s.env).1 <;> rfl
    show completes (initAnswered (withPhase x s)).1 (initAnswered (withPhase x s)).2 = _
    rw [h]
    rfl
  | deinit => exact fun _ _ => rfl
  | complete b => exact fun _ _ => rfl
  | access q =>
    intro x s
    refine Blind.bind (blind_issueRow (rowAt s.stepNo)) (fun _ => ?_) x s
    exact Blind.ite (c := fun s => s.stepNo = 0) (fun _ _ => Iff.rfl) (blind_after q) fun _ _ => rfl

end Sys2Proof.Laws
end

