-- ==== Sys2Proof/Laws/Prefix.lean ====
section
/-!
SUPPORT. RDSTAT and WRCFG up to any one of their accesses: the accesses before it are done, and the command goes on with it.
What cuts or stops that access cuts or stops the command there.
-/
namespace Sys2Proof.Laws
open Sys2Proof Sys2Proof.Machine

variable {cut : Bool}

/-! ## Arrays element by element (R172, R173) -/

theorem range_split {q n : Nat} (h : q < n) : List.range n = List.range' 0 q ++ q :: List.range' (q + 1) (n - (q + 1)) := by
  rw [List.range_eq_range', ← range'_pos h]
  have := List.range'_append_1 (s := 0) (m := q) (n := n - q)
  rw [Nat.zero_add] at this
  rw [this, show q + (n - q) = n by omega]

/-- An array read up to its element `q`: the elements before it are done and delivered, and it goes on with that element. -/
theorem readArray_at {put : Nat → Byte → State → State} (f : Nat → Byte → Memory × Stat → Memory × Stat)
    (hf : ∀ i v t, put i v t = { t with xbuf := (f i v (t.xbuf, t.stat)).1, stat := (f i v (t.xbuf, t.stat)).2 })
    (b : Addr) (n : BitVec 8) {q : Nat} (hq : q < n.toNat) (k : Nat) (s : State) (he : s.en = true) (hp : PortsOk s.cfgp)
    (ha : ahead cut s.cfgp (k + 8 * q) s.env = true) (hr : ∀ a ∈ arrayAddrs b q, readable s a) :
    ∃ vs t, ∃ g : Byte → State → Res Unit, vs.length = q
      ∧ Ran cut k s (List.zipWith Access.read (arrayAddrs b q) vs) t
      ∧ t.base = b ∧ t.cnt = n ∧ t.idx = BitVec.ofNat 8 q
      ∧ (t.xbuf, t.stat) = (List.zip (List.range q) vs).foldl (fun x y => f y.1 y.2 x) (s.xbuf, s.stat)
      ∧ readArray put b n s = (ecRead (elemAt b q) t).bind g := by
  obtain ⟨vs, t, hlen, h, hran, hb, hc, -, hd⟩ := readElems_ran (fun i v t => ⟨_, _, hf i v t⟩) b k q 0 (loadArray b n s) he hp
    rfl ha fun i hi => by
      rw [Nat.zero_add]
      exact hr _ (List.mem_map.mpr ⟨i, List.mem_range.mpr hi, rfl⟩)
  have hd := hd f hf
  rw [← List.range_eq_range'] at hran hd
  have hran := Ran.before s.xbuf s.stat b n s.idx hran
  refine ⟨vs, setIdx q t, fun v s => (Res.ok () (put q v s)).bind fun _ => forEach (readElem put) (List.range' (q + 1) (n.toNat - (q + 1))),
    hlen, hran.update t.xbuf t.stat t.base t.cnt (BitVec.ofNat 8 q), hb, hc, rfl, hd, ?_⟩
  rw [readArray, range_split hq, forEach_append, h, bind_ok, forEach_cons, readElem, bind_assoc, curAddr,
    show (setIdx q t).base = b from hb]
  rfl

/-- An array write up to its element `q`: the elements before it are done, and it goes on with that element. -/
theorem writeArray_at {src : Nat → State → Res Byte} (b : Addr) (n : BitVec 8) (vals : Nat → Byte) {q : Nat} (hq : q < n.toNat)
    (k : Nat) (s : State) (he : s.en = true) (hp : PortsOk s.cfgp) (ha : ahead cut s.cfgp (k + 8 * q) s.env = true)
    (hsrc : ∀ i t, i < q → t.xbuf = s.xbuf → t.cfg = s.cfg → src i t = .ok (vals i) t) :
    ∃ t, ∃ g : Unit → State → Res Unit, Ran cut k s ((List.range q).map fun i => .write (elemAt b i) (vals i)) t
      ∧ t.base = b ∧ t.cnt = n ∧ t.idx = BitVec.ofNat 8 q ∧ t.xbuf = s.xbuf ∧ t.stat = s.stat
      ∧ writeArray src b n s = (src q t).bind fun v s => (ecWrite (curAddr s) v s).bind g := by
  obtain ⟨t, h, hran, hb, hc, -, hx, hs⟩ := writeElems_ran (src := src) b vals k q 0 (loadArray b n s) he hp rfl ha
    fun i t _ hi hx hc => hsrc i t (by omega) hx hc
  rw [← List.range_eq_range'] at hran
  have hran := Ran.before s.xbuf s.stat b n s.idx hran
  refine ⟨setIdx q t, fun _ => forEach (writeElem src) (List.range' (q + 1) (n.toNat - (q + 1))),
    hran.update t.xbuf t.stat t.base t.cnt (BitVec.ofNat 8 q), hb, hc, rfl, hx, hs, ?_⟩
  rw [writeArray, range_split hq, forEach_append, h, bind_ok, forEach_cons, writeElem, bind_assoc]

/-! ## RDSTAT read by read -/

/-- The address of RDSTAT's read number `q` (R195). -/
def statAddr (c : Cfgp) (q : Nat) : Addr :=
  if q < 4 then romAt c (Fin.ofNat 29 (10 + q))
  else if q < 104 then elemAt (tableBase c (Fin.ofNat 10 ((q - 4) / 10))) ((q - 4) % 10)
  else romAt c (Fin.ofNat 29 (q - 90))

theorem rdstatAddrs_eq (c : Cfgp) : rdstatAddrs c = (List.range 113).map (statAddr c) := rfl

/-- The first `q` reads of RDSTAT. -/
def statReads (c : Cfgp) (v : Nat → Byte) (q : Nat) : List Access := (List.range q).map fun i => .read (statAddr c i) (v i)

theorem rdstatAddrs_get {c : Cfgp} {q : Nat} {a : Addr} (h : (rdstatAddrs c)[q]? = some a) : q < 113 ∧ a = statAddr c q := by
  rw [rdstatAddrs_eq, List.getElem?_map, Option.map_eq_some_iff] at h
  obtain ⟨i, hi, rfl⟩ := h
  obtain ⟨h, rfl⟩ := List.getElem?_eq_some_iff.mp hi
  simp only [List.length_range] at h
  exact ⟨h, by simp⟩

theorem rdstatAddrs_take (c : Cfgp) {q : Nat} (h : q ≤ 113) : (rdstatAddrs c).take q = (List.range q).map (statAddr c) := by
  rw [rdstatAddrs_eq, ← List.map_take, List.take_range, Nat.min_eq_left h]

theorem statReads_eq (c : Cfgp) (v : Nat → Byte) {q : Nat} (h : q ≤ 113) :
    statReads c v q = List.zipWith .read ((rdstatAddrs c).take q) ((List.range q).map v) := by
  rw [rdstatAddrs_take c h, statReads, List.zipWith_map, List.zipWith_self]

/-- The read number `q` added. -/
def found (v : Nat → Byte) (q : Nat) (b : Byte) (i : Nat) : Byte := if i = q then b else v i

theorem statReads_succ (c : Cfgp) (v : Nat → Byte) (q : Nat) (b : Byte) :
    statReads c (found v q b) (q + 1) = statReads c v q ++ [.read (statAddr c q) b] := by
  rw [statReads, List.range_succ, List.map_append, List.map_cons, List.map_nil, found, if_pos rfl]
  congr 1
  refine List.map_congr_left fun i hi => ?_
  rw [found, if_neg (Nat.ne_of_lt (List.mem_range.mp hi))]

/-! What the reads fill in. -/

theorem statFilled_zero (st : Stat) (v : Nat → Byte) : statFilled st v 0 = st := by
  have ht : (Vector.ofFn fun k : Fin 10 => Vector.ofFn fun i : Fin 10 =>
      st.tab[k][i]) = st.tab := by
    apply Vector.ext; intro k hk; apply Vector.ext; intro i hi; simp
  have hg : (Vector.ofFn fun n : Fin 4 => st.tgt[n]) = st.tgt := by
    apply Vector.ext; intro k hk; simp
  simp only [statFilled, Nat.not_lt_zero, if_false, ht, hg]

/-- The tables after one more read, for a read that is to none of them. -/
theorem filledTab_other (st : Stat) (v : Nat → Byte) (b : Byte) {q : Nat} (h : q < 4 ∨ 104 ≤ q) :
    (statFilled st (found v q b) (q + 1)).tab = (statFilled st v q).tab := by
  apply Vector.ext; intro k hk; apply Vector.ext; intro i hi
  simp only [statFilled, Vector.getElem_ofFn, found]
  by_cases hc : 4 + 10 * k + i < q
  · rw [if_pos hc, if_pos (by omega), if_neg (by omega)]
  · rw [if_neg hc, if_neg (by omega)]

/-- The tables after the read of entry `i` of table `k`. -/
theorem filledTab_row (st : Stat) (v : Nat → Byte) (b : Byte) (k : Fin 10) {i : Nat} (hi : i < 10) :
    (statFilled st (found v (4 + 10 * k.val + i) b) (4 + 10 * k.val + i + 1)).tab
      = (statFilled st v (4 + 10 * k.val + i)).tab.set k ((statFilled st v (4 + 10 * k.val + i)).tab[k].setIfInBounds i b) := by
  apply Vector.ext; intro k' hk'; apply Vector.ext; intro i' hi'
  have hk := k.isLt
  simp only [Vector.getElem_set]
  split
  · subst k'
    simp only [Vector.getElem_setIfInBounds, Fin.getElem_fin]
    split
    · subst i'; simp [statFilled, found]
    · simp only [statFilled, Vector.getElem_ofFn, found]
      by_cases hc : 4 + 10 * k.val + i' < 4 + 10 * k.val + i
      · rw [if_pos hc, if_pos (by omega), if_neg (by omega)]
      · rw [if_neg hc, if_neg (by omega)]
  · simp only [statFilled, Vector.getElem_ofFn, found]
    by_cases hc : 4 + 10 * k' + i' < 4 + 10 * k.val + i
    · rw [if_pos hc, if_pos (by omega), if_neg (by omega)]
    · rw [if_neg hc, if_neg (by omega)]

/-- The four targets after one more read. -/
theorem filledTgt (st : Stat) (v : Nat → Byte) (b : Byte) (q : Nat) :
    (statFilled st (found v q b) (q + 1)).tgt
      = if h : 108 ≤ q ∧ q < 112 then (statFilled st v q).tgt.set (q - 108) (Reg.of b) else (statFilled st v q).tgt := by
  apply Vector.ext; intro n hn
  split
  · rename_i h
    rw [Vector.getElem_set]
    split
    · rename_i hq; simp only [statFilled, Vector.getElem_ofFn, found]; rw [if_pos (by omega), if_pos (by omega)]
    · simp only [statFilled, Vector.getElem_ofFn, found]
      by_cases hc : 108 + n < q
      · rw [if_pos hc, if_pos (by omega), if_neg (by omega)]
      · rw [if_neg hc, if_neg (by omega)]
  · simp only [statFilled, Vector.getElem_ofFn, found]
    by_cases hc : 108 + n < q
    · rw [if_pos hc, if_pos (by omega), if_neg (by omega)]
    · rw [if_neg hc, if_neg (by omega)]

/-- What the phase of RDSTAT's read number `q` is for. -/
def statPurpose (v : Nat → Byte) (q : Nat) : Purpose :=
  if q = 0 then .tachLow .fan1 else if q = 1 then .tachHigh .fan1 (v 0) else if q = 2 then .tachLow .fan2
  else if q = 3 then .tachHigh .fan2 (v 2) else if q < 104 then .statRow (Fin.ofNat 10 ((q - 4) / 10))
  else .scalar (Fin.ofNat 9 (q - 104))

/-- RDSTAT, begun in `s`, is in `t` at its read number `q`, with `n` port operations ahead. -/
structure AtRead (cut : Bool) (n : Nat) (s : State) (q : Nat) (v : Nat → Byte) (t : State) : Prop where
  ran : Ran cut n s (statReads s.cfgp v q) t
  stat : t.stat = statFilled s.stat v q
  xbuf : t.xbuf = s.xbuf
  row : 4 ≤ q → q < 104 → t.base = tableBase s.cfgp (Fin.ofNat 10 ((q - 4) / 10)) ∧ t.cnt = 10
    ∧ t.idx = BitVec.ofNat 8 ((q - 4) % 10)
  rest : readStatus s = (ecRead (statAddr s.cfgp q) t).bind fun _ u => restAfter (statPurpose v q) u

theorem rest_begun (p : Purpose) (a : Addr) (s : State) :
    rest (.access p) (readBegun a s) = (ecRead a s).bind fun _ t => restAfter p t := by
  rw [ecRead_bind]; rfl

theorem stat_ext {a b : Stat} (h1 : a.fan1Speed = b.fan1Speed) (h2 : a.fan2Speed = b.fan2Speed) (h3 : a.tab = b.tab)
    (h4 : a.chipId1 = b.chipId1) (h5 : a.chipId2 = b.chipId2) (h6 : a.chipVer = b.chipVer) (h7 : a.fwVer = b.fwVer)
    (h8 : a.tgt = b.tgt) (h9 : a.curPoint = b.curPoint) (h10 : a.fan1Pct = b.fan1Pct) (h11 : a.fan2Pct = b.fan2Pct) : a = b := by
  cases a; cases b; simp_all

/-- The fields but the tables after the read of entry `i` of table `k`. -/
theorem filled_row (st : Stat) (v : Nat → Byte) (b : Byte) (k : Fin 10) {i : Nat} (hi : i < 10) :
    statFilled st (found v (4 + 10 * k.val + i) b) (4 + 10 * k.val + i + 1)
      = { statFilled st v (4 + 10 * k.val + i) with
          tab := (statFilled st v (4 + 10 * k.val + i)).tab.set k
            ((statFilled st v (4 + 10 * k.val + i)).tab[k].setIfInBounds i b) } := by
  have hk := k.isLt
  refine stat_ext ?_ ?_ (filledTab_row st v b k hi) ?_ ?_ ?_ ?_ ?_ ?_ rfl rfl
  case refine_7 => rw [filledTgt, dif_neg (by omega)]
  all_goals
    generalize hq : 4 + 10 * k.val + i = q
    have h1 : 4 ≤ q := by omega
    have h2 : q < 104 := by omega
    simp only [statFilled, found]
    clear hq
    grind

theorem filled_other (st : Stat) (v : Nat → Byte) (b : Byte) {q : Nat} (h : q < 4 ∨ 104 ≤ q) (h' : q ≤ 112) :
    statFilled st (found v q b) (q + 1)
      = if q = 1 then { statFilled st v q with fan1Speed := Reg.of (cat16 b (v 0)) }
        else if q = 3 then { statFilled st v q with fan2Speed := Reg.of (cat16 b (v 2)) }
        else if 104 ≤ q then (scalarRead (Fin.ofNat 9 (q - 104))).put b (statFilled st v q)
        else statFilled st v q := by
  obtain rfl | rfl | rfl | rfl | rfl | rfl | rfl | rfl | rfl | rfl | rfl | rfl | rfl : q = 0 ∨ q = 1 ∨ q = 2 ∨ q = 3 ∨ q = 104
    ∨ q = 105 ∨ q = 106 ∨ q = 107 ∨ q = 108 ∨ q = 109 ∨ q = 110 ∨ q = 111 ∨ q = 112 := by omega
  all_goals
    refine stat_ext ?_ ?_ ((filledTab_other st v b h).trans ?_) ?_ ?_ ?_ ?_ ((filledTgt st v b _).trans ?_) ?_ ?_ ?_
    all_goals rfl

/-- Where RDSTAT goes after the access to `statAddr q`: to the next, with the byte filled in. -/
theorem afterStat (s u : State) (q : Nat) (v : Nat → Byte) (hq : q < 112) (hcfg : u.cfgp = s.cfgp)
    (hstat : u.stat = statFilled s.stat v q)
    (hrow : 4 ≤ q → q < 104 → u.base = tableBase s.cfgp (Fin.ofNat 10 ((q - 4) / 10)) ∧ u.cnt = 10
      ∧ u.idx = BitVec.ofNat 8 ((q - 4) % 10)) :
    ∃ b c i, afterAccess (statPurpose v q) u = .ok (.access (statPurpose (found v q u.dr) (q + 1)))
        (readBegun (statAddr s.cfgp (q + 1))
          { u with stat := statFilled s.stat (found v q u.dr) (q + 1), base := b, cnt := c, idx := i })
      ∧ (4 ≤ q + 1 → q + 1 < 104 → b = tableBase s.cfgp (Fin.ofNat 10 ((q + 1 - 4) / 10)) ∧ c = 10
          ∧ i = BitVec.ofNat 8 ((q + 1 - 4) % 10)) := by
  by_cases hlow : q < 4
  · rw [filled_other _ _ _ (.inl hlow) (by omega), ← hstat, ← hcfg]
    obtain rfl | rfl | rfl | rfl : q = 0 ∨ q = 1 ∨ q = 2 ∨ q = 3 := by omega
    · exact ⟨_, _, _, rfl, by omega⟩
    · exact ⟨_, _, _, rfl, by omega⟩
    · exact ⟨_, _, _, rfl, by omega⟩
    · exact ⟨_, _, _, rfl, fun _ _ => ⟨rfl, rfl, rfl⟩⟩
  by_cases hhigh : 104 ≤ q
  · rw [filled_other _ _ _ (.inr hhigh) (by omega), ← hstat, ← hcfg]
    obtain rfl | rfl | rfl | rfl | rfl | rfl | rfl | rfl : q = 104 ∨ q = 105 ∨ q = 106 ∨ q = 107 ∨ q = 108 ∨ q = 109
      ∨ q = 110 ∨ q = 111 := by omega
    all_goals exact ⟨_, _, _, rfl, by omega⟩
  obtain ⟨hb, hc, hi⟩ := hrow (by omega) (by omega)
  obtain ⟨k, i, hi10, rfl⟩ : ∃ (k : Fin 10) (i : Nat), i < 10 ∧ q = 4 + 10 * k.val + i :=
    ⟨⟨(q - 4) / 10, by omega⟩, (q - 4) % 10, by omega, by simp only; omega⟩
  have hk := k.isLt
  have hdiv : (4 + 10 * k.val + i - 4) / 10 = k.val := by omega
  have hmod : (4 + 10 * k.val + i - 4) % 10 = i := by omega
  have hfin : Fin.ofNat 10 k.val = k := Fin.ext (Nat.mod_eq_of_lt hk)
  rw [hdiv, hfin] at hb
  rw [hmod] at hi
  have hidx : u.idx.toNat = i := by rw [hi]; simp only [BitVec.toNat_ofNat]; omega
  have hp : statPurpose v (4 + 10 * k.val + i) = .statRow k := by
    unfold statPurpose
    rw [if_neg (by omega), if_neg (by omega), if_neg (by omega), if_neg (by omega), if_pos (by omega), hdiv, hfin]
  rw [hp, filled_row _ _ _ _ hi10, ← hstat]
  simp only [afterAccess, hidx]
  by_cases h9 : i = 9
  · subst h9
    by_cases hk9 : k.val = 9
    · obtain rfl : k = 9 := Fin.ext hk9
      rw [readOn, if_neg (by rw [putTab]; simp only [hc]; decide), beginStatRow, dif_neg (by decide), ← hcfg]
      exact ⟨_, _, _, rfl, fun _ h => absurd h (by decide)⟩
    · have hk' : k.val + 1 < 10 := by omega
      have hs : statPurpose (found v (4 + 10 * k.val + 9) u.dr) (4 + 10 * k.val + 9 + 1) = .statRow ⟨k.val + 1, hk'⟩ := by
        unfold statPurpose
        rw [if_neg (by omega), if_neg (by omega), if_neg (by omega), if_neg (by omega), if_pos (by omega)]
        congr 1
        apply Fin.ext
        simp only [Fin.ofNat]
        omega
      have ha : statAddr s.cfgp (4 + 10 * k.val + 9 + 1) = elemAt (tableBase s.cfgp ⟨k.val + 1, hk'⟩) 0 := by
        unfold statAddr
        rw [if_neg (by omega), if_pos (by omega), show (4 + 10 * k.val + 9 + 1 - 4) % 10 = 0 by omega]
        congr 2
        apply Fin.ext
        simp only [Fin.ofNat]
        omega
      rw [readOn, if_neg (by rw [putTab]; simp only [hc]; decide), beginStatRow, dif_pos hk', readOn,
        if_pos (by show 0 < 10; decide), hs, ha, ← hcfg]
      refine ⟨_, _, _, rfl, fun _ _ => ⟨?_, rfl, ?_⟩⟩
      · show tableBase u.cfgp _ = tableBase u.cfgp _
        congr 1
        apply Fin.ext
        simp only [Fin.ofNat]
        omega
      · rw [show (4 + 10 * k.val + 9 + 1 - 4) % 10 = 0 by omega]
  · have hs : statPurpose (found v (4 + 10 * k.val + i) u.dr) (4 + 10 * k.val + i + 1) = .statRow k := by
      unfold statPurpose
      rw [if_neg (by omega), if_neg (by omega), if_neg (by omega), if_neg (by omega), if_pos (by omega),
        show (4 + 10 * k.val + i + 1 - 4) / 10 = k.val by omega, hfin]
    have ha : statAddr s.cfgp (4 + 10 * k.val + i + 1) = elemAt (tableBase s.cfgp k) (i + 1) := by
      unfold statAddr
      rw [if_neg (by omega), if_pos (by omega), show (4 + 10 * k.val + i + 1 - 4) / 10 = k.val by omega, hfin,
        show (4 + 10 * k.val + i + 1 - 4) % 10 = i + 1 by omega]
    rw [readOn, if_pos (by rw [putTab]; simp only [hc]; show i + 1 < 10; omega), hs, ha, ← hb]
    refine ⟨u.base, u.cnt, BitVec.ofNat 8 (i + 1), rfl, fun _ _ => ⟨?_, hc, ?_⟩⟩
    · rw [show (4 + 10 * k.val + i + 1 - 4) / 10 = k.val by omega, hfin, hb]
    · rw [show (4 + 10 * k.val + i + 1 - 4) % 10 = i + 1 by omega]

theorem rest_readStatus (s : State) :
    readStatus s = (ecRead (statAddr s.cfgp 0) s).bind fun _ u => restAfter (.tachLow .fan1) u := by
  rw [show statAddr s.cfgp 0 = romAt s.cfgp (tachLowRom .fan1) from rfl, ecRead_bind, readStatus, readTach, bind_assoc, ecRead_bind]
  simp only [restAfter, bind_assoc, bind_ok]
  rfl

theorem AtRead.start {n : Nat} {s : State} (v : Nat → Byte) (hq : ahead cut s.cfgp n s.env = true) : AtRead cut n s 0 v s :=
  ⟨Ran.refl hq, (statFilled_zero s.stat v).symm, rfl, by omega, rest_readStatus s⟩

theorem AtRead.next {n q : Nat} {s t : State} {v : Nat → Byte} (h : AtRead cut (n + 8) s q v t) (hq : q < 112) (he : s.en = true)
    (hp : PortsOk s.cfgp) (hr : readable t (statAddr s.cfgp q)) : ∃ v' t', AtRead cut n s (q + 1) v' t' := by
  obtain ⟨b, u, hx, hran, hsame⟩ := ecRead_ran (statAddr s.cfgp q) t n (h.ran.en.trans he) (h.ran.cfgp ▸ hp)
    (h.ran.cfgp ▸ h.ran.quiet) hr
  have hran := h.ran.trans hran
  have hdr : u.dr = b := by have := hran.ends.2; rw [List.getLast?_append] at this; exact this.2.1
  obtain ⟨bb, c, i, ha, hrow⟩ := afterStat s u q v hq hran.cfgp (hsame.stat.trans h.stat) fun h1 h2 => by
    obtain ⟨x, y, z⟩ := h.row h1 h2
    exact ⟨hsame.base.trans x, hsame.cnt.trans y, hsame.idx.trans z⟩
  subst hdr
  refine ⟨found v q u.dr, { u with stat := statFilled s.stat (found v q u.dr) (q + 1), base := bb, cnt := c, idx := i }, ?_, rfl, hsame.xbuf.trans h.xbuf, hrow, ?_⟩
  · rw [statReads_succ]; exact hran.update u.xbuf _ bb c i
  · rw [h.rest, hx, bind_ok, restAfter_eq, ha, bind_ok, rest_begun]

/-- RDSTAT up to its read number `q` (R195, R197): the reads before it are done and their fields filled, and it goes on with
that read. -/
theorem readStatus_at {q : Nat} (hq : q < 113) (n : Nat) (s : State) (he : s.en = true) (hp : PortsOk s.cfgp)
    (ha : ahead cut s.cfgp (n + 8 * q) s.env = true) (hr : ∀ i, i < q → readable s (statAddr s.cfgp i)) :
    ∃ v t, AtRead cut n s q v t := by
  induction q generalizing n with
  | zero => exact ⟨fun _ => 0, s, AtRead.start _ ha⟩
  | succ q ih =>
    obtain ⟨v, t, h⟩ := ih (by omega) (n + 8) (by rw [show n + 8 + 8 * q = n + 8 * (q + 1) by omega]; exact ha)
      fun i hi => hr i (by omega)
    exact h.next (by omega) he hp (h.ran.readable (hr q (Nat.lt_succ_self q)))

/-! ## WRCFG access by access -/

/-- An access, for its effect alone. -/
def perform : Access → State → Res Unit
  | .read a _, s => (ecRead a s).bind fun _ s => .ok () s
  | .write a d, s => ecWrite a d s

/-- `r` goes on with the access `x` in `t`: what cuts or stops the access cuts or stops `r`. -/
structure GoesOn {α : Type} (r : Res α) (x : Access) (t : State) : Prop where
  cut : ∀ c u, perform x t = .cut c u → r = .cut c u
  fault : ∀ f, perform x t = .fault f → r = .fault f

theorem GoesOn.bind {α β : Type} {r : Res α} {x : Access} {t : State} (h : GoesOn r x t) (k : α → State → Res β) :
    GoesOn (r.bind k) x t :=
  ⟨fun c u hx => by rw [h.cut c u hx, bind_cut], fun f hx => by rw [h.fault f hx, bind_fault]⟩

theorem GoesOn.read (a : Addr) (v : Byte) (s : State) : GoesOn (ecRead a s) (.read a v) s :=
  ⟨fun c u hx => by simp only [perform] at hx; cases h : ecRead a s <;> rw [h] at hx <;> cases hx; rfl,
    fun f hx => by simp only [perform] at hx; cases h : ecRead a s <;> rw [h] at hx <;> cases hx; rfl⟩

theorem GoesOn.write (a : Addr) (d : Byte) (s : State) : GoesOn (ecWrite a d s) (.write a d) s :=
  ⟨fun _ _ hx => hx, fun _ hx => hx⟩

/-- A chain, and then an access the gateway cuts. -/
theorem Ran.goesOn_cut {α : Type} {r : Res α} {s t : State} {xs : List Access} {x : Access} {j : Nat} (h : Ran true j s xs t)
    (hj : j < 8) (he : s.en = true) (hp : PortsOk s.cfgp) (hx : GoesOn r x t) :
    ∃ u, r = .cut .gatewayFault u ∧ CutAfter s xs x j u ∧ u.xbuf = t.xbuf ∧ u.stat = t.stat := by
  cases x with
  | read a v =>
    obtain ⟨m, e, hc, hl⟩ := h.ecRead_cut a v hj he hp
    exact ⟨_, hx.cut _ _ (by rw [perform, hc]; rfl), hl, rfl, rfl⟩
  | write a d =>
    obtain ⟨m, e, hc, hl⟩ := h.ecWrite_cut a d hj he hp
    exact ⟨_, hx.cut _ _ (by rw [perform, hc]), hl, rfl, rfl⟩

/-- A write of element `i` of table `k`, at its place in the list of WRCFG's writes. -/
theorem rowWrites_take (c : Cfgp) (b : Fin 10 → Nat → Byte) (k : Fin 10) {i : Nat} (hi : i < 10) :
    (rowWrites c b).take (10 * k.val + i)
        = ((tableIds.take k.val).flatMap fun k => (List.range 10).map fun i => Access.write (elemAt (tableBase c k) i) (b k i))
          ++ ((List.range i).map fun i => Access.write (elemAt (tableBase c k) i) (b k i))
      ∧ (rowWrites c b)[10 * k.val + i]? = some (.write (elemAt (tableBase c k) i) (b k i)) := by
  obtain ⟨k, hk⟩ := k
  have h : k = 0 ∨ k = 1 ∨ k = 2 ∨ k = 3 ∨ k = 4 ∨ k = 5 ∨ k = 6 ∨ k = 7 ∨ k = 8 ∨ k = 9 := by omega
  have h' : i = 0 ∨ i = 1 ∨ i = 2 ∨ i = 3 ∨ i = 4 ∨ i = 5 ∨ i = 6 ∨ i = 7 ∨ i = 8 ∨ i = 9 := by omega
  rcases h with rfl | rfl | rfl | rfl | rfl | rfl | rfl | rfl | rfl | rfl <;>
    rcases h' with rfl | rfl | rfl | rfl | rfl | rfl | rfl | rfl | rfl | rfl <;> exact ⟨rfl, rfl⟩

/-- WRCFG's table writes up to element `i` of table `k` (R203). -/
theorem rows_at (b : Fin 10 → Nat → Byte) (k : Fin 10) {i : Nat} (hi : i < 10) (n : Nat) (s : State) (he : s.en = true)
    (hp : PortsOk s.cfgp) (ha : ahead cut s.cfgp (n + 8 * (10 * k.val + i)) s.env = true)
    (hb : ∀ (l : Fin 10) (x : Nat), x < 10 → l < k ∨ l = k ∧ x < i → s.cfg[l].bytes.byteAt x = some (b l x)) :
    ∃ t, ∃ g : Unit → State → Res Unit, Ran cut n s ((rowWrites s.cfgp b).take (10 * k.val + i)) t
      ∧ t.xbuf = s.xbuf ∧ t.stat = s.stat ∧ curAddr t = elemAt (tableBase s.cfgp k) i
      ∧ forEach rowWrite tableIds s = (cfgByte k i t).bind fun v s => (ecWrite (curAddr s) v s).bind g := by
  have hsplit : tableIds = tableIds.take k.val ++ k :: tableIds.drop (k.val + 1) := by
    rw [← tableIds_drop k.isLt, List.take_append_drop]
  have hlen : (tableIds.take k.val).length = k.val := by
    rw [List.length_take]; exact Nat.min_eq_left (Nat.le_of_lt k.isLt)
  have hmem : ∀ l ∈ tableIds.take k.val, l < k := by
    have : ∀ k : Fin 10, ∀ l ∈ tableIds.take k.val, l < k := by decide
    exact this k
  obtain ⟨t, h1, r1, x1, p1⟩ := rowWrites_ran (cut := cut) (tableIds.take k.val) b s (n + 8 * i) he hp
    (by rw [hlen, show n + 8 * i + 80 * k.val = n + 8 * (10 * k.val + i) by omega]; exact ha)
    fun l hl x hx => hb l x hx (.inl (hmem l hl))
  obtain ⟨u, g, r2, hbase, -, hidx, x2, p2, h2⟩ := writeArray_at (cut := cut) (src := cfgByte k) (tableBase t.cfgp k) 10 (b k)
    (show i < (10 : BitVec 8).toNat from hi) n t (r1.en.trans he) (r1.cfgp ▸ hp) (r1.cfgp ▸ r1.quiet) fun x y hx _ hc => by
      have : y.cfg[k].bytes.byteAt x = some (b k x) := by rw [hc, r1.cfg]; exact hb k x (by omega) (.inr ⟨rfl, hx⟩)
      rw [cfgByte, this]; rfl
  rw [r1.cfgp] at r2 hbase
  refine ⟨u, fun y s => (g y s).bind fun _ => forEach rowWrite (tableIds.drop (k.val + 1)), ?_, x2.trans x1, p2.trans p1,
    by rw [curAddr, hbase, hidx], ?_⟩
  · rw [(rowWrites_take s.cfgp b k hi).1]; exact r1.trans r2
  · conv_lhs => rw [hsplit]
    rw [forEach_append, h1, bind_ok, forEach_cons, rowWrite, h2, bind_assoc]
    refine congrArg _ ?_
    funext v y
    rw [bind_assoc]

/-- WRCFG's refresh up to its access `r` (R204 to R206), or its end where the live registers are skipped. -/
theorem refresh_at (b : Fin 10 → Nat → Byte) {r : Nat} (hr : r < 9) (n : Nat) (s : State) (he : s.en = true)
    (hp : PortsOk s.cfgp) (ha : ahead cut s.cfgp (n + 8 * r) s.env = true) (hl : ∀ k : Fin 10, s.cfg[k].len = Reg.of 10)
    (hb : ∀ (k : Fin 10) (i : Nat), i < 10 → s.cfg[k].bytes.byteAt i = some (b k i))
    (h18 : 0 < r → readable s (romAt s.cfgp 18)) (h19 : 2 < r → readable s (romAt s.cfgp 19))
    (h22 : 4 < r → readable s (romAt s.cfgp 22)) :
    ∃ v1 v2 p m t, Ran cut m s ((refreshAccesses s.cfgp b v1 v2 p).take r) t ∧ t.xbuf = s.xbuf ∧ t.stat = s.stat
      ∧ ((∃ cur, m = n ∧ (refreshAccesses s.cfgp b v1 v2 p)[r]? = some cur ∧ GoesOn (refreshDerived s) cur t)
        ∨ 4 < r ∧ (refreshAccesses s.cfgp b v1 v2 p)[r]? = none
          ∧ refreshDerived s = .ok true (raise .partialWriteWarning 0 t)) := by
  by_cases r0 : r = 0
  · subst r0
    refine ⟨0, 0, 0, n, s, Ran.refl ha, rfl, rfl, .inl ⟨.read (romAt s.cfgp 18) 0, rfl, rfl, ?_⟩⟩
    simp only [refreshDerived, refreshTarget, bind_assoc]
    exact (GoesOn.read _ _ _).bind _
  obtain ⟨v1, t1, e1, g1, b1⟩ := ecRead_ran (romAt s.cfgp romFan1TgtCurve) s (n + 8 * (r - 1)) he hp
    (by rw [show n + 8 * (r - 1) + 8 = n + 8 * r by omega]; exact ha) (h18 (by omega))
  by_cases r1 : r = 1
  · subst r1
    refine ⟨v1, 0, 0, n, t1, g1, b1.xbuf, b1.stat, .inl ⟨.write (romAt s.cfgp 20) v1, rfl, rfl, ?_⟩⟩
    simp only [refreshDerived, refreshTarget, bind_assoc, e1, bind_ok, g1.cfgp]
    exact (GoesOn.write _ _ _).bind _
  obtain ⟨t2, e2, g2, b2, -⟩ := ecWrite_ran (cut := cut) (romAt s.cfgp romFan1TgtDuty) v1 t1 (n + 8 * (r - 2)) (g1.en.trans he)
    (g1.cfgp ▸ hp) (by rw [show n + 8 * (r - 2) + 8 = n + 8 * (r - 1) by omega]; exact g1.cfgp ▸ g1.quiet)
  have g2 := g1.trans g2
  by_cases r2 : r = 2
  · subst r2
    refine ⟨v1, 0, 0, n, t2, g2, b2.xbuf.trans b1.xbuf, b2.stat.trans b1.stat,
      .inl ⟨.read (romAt s.cfgp 19) 0, rfl, rfl, ?_⟩⟩
    simp only [refreshDerived, refreshTarget, bind_assoc, e1, bind_ok, g1.cfgp, e2, g2.cfgp]
    exact (GoesOn.read _ _ _).bind _
  obtain ⟨v2, t3, e3, g3, b3⟩ := ecRead_ran (cut := cut) (romAt s.cfgp romFan2TgtCurve) t2 (n + 8 * (r - 3)) (g2.en.trans he)
    (g2.cfgp ▸ hp) (by rw [show n + 8 * (r - 3) + 8 = n + 8 * (r - 2) by omega]; exact g2.cfgp ▸ g2.quiet)
    (g2.readable (h19 (by omega)))
  have g3 := g2.trans g3
  have x3 := b3.xbuf.trans (b2.xbuf.trans b1.xbuf)
  have s3 := b3.stat.trans (b2.stat.trans b1.stat)
  by_cases r3 : r = 3
  · subst r3
    refine ⟨v1, v2, 0, n, t3, g3, x3, s3, .inl ⟨.write (romAt s.cfgp 21) v2, rfl, rfl, ?_⟩⟩
    simp only [refreshDerived, refreshTarget, bind_assoc, e1, bind_ok, g1.cfgp, e2, g2.cfgp, e3, g3.cfgp]
    exact (GoesOn.write _ _ _).bind _
  obtain ⟨t4, e4, g4, b4, -⟩ := ecWrite_ran (cut := cut) (romAt s.cfgp romFan2TgtDuty) v2 t3 (n + 8 * (r - 4)) (g3.en.trans he)
    (g3.cfgp ▸ hp) (by rw [show n + 8 * (r - 4) + 8 = n + 8 * (r - 3) by omega]; exact g3.cfgp ▸ g3.quiet)
  have g4 := g3.trans g4
  by_cases r4 : r = 4
  · subst r4
    refine ⟨v1, v2, 0, n, t4, g4, b4.xbuf.trans x3, b4.stat.trans s3, .inl ⟨.read (romAt s.cfgp 22) 0, rfl, rfl, ?_⟩⟩
    simp only [refreshDerived, refreshTarget, bind_assoc, e1, bind_ok, g1.cfgp, e2, g2.cfgp, e3, g3.cfgp, e4, g4.cfgp]
    exact (GoesOn.read _ _ _).bind _
  obtain ⟨p, t5, e5, g5, b5⟩ := ecRead_ran (cut := cut) (romAt s.cfgp romCurPoint) t4 (n + 8 * (r - 5)) (g4.en.trans he)
    (g4.cfgp ▸ hp) (by rw [show n + 8 * (r - 5) + 8 = n + 8 * (r - 4) by omega]; exact g4.cfgp ▸ g4.quiet)
    (g4.readable (h22 (by omega)))
  have g5 := g4.trans g5
  have x5 := b5.xbuf.trans (b4.xbuf.trans x3)
  have s5 := b5.stat.trans (b4.stat.trans s3)
  have start : refreshDerived s = (refreshLive tabAccTime romFan1CurAcc romFan2CurAcc p t5).bind fun x s =>
      (refreshLive tabDecTime romFan1CurDec romFan2CurDec p s).bind fun y s =>
      .ok true (if x || y then raise .partialWriteWarning 0 s else s) := by
    simp only [refreshDerived, refreshTarget, bind_assoc, e1, bind_ok, g1.cfgp, e2, g2.cfgp, e3, g3.cfgp, e4, g4.cfgp, e5]
  by_cases hp10 : p.toNat < 10
  swap
  · have hx : refreshAccesses s.cfgp b v1 v2 p = [.read (romAt s.cfgp 18) v1, .write (romAt s.cfgp 20) v1,
        .read (romAt s.cfgp 19) v2, .write (romAt s.cfgp 21) v2, .read (romAt s.cfgp 22) p] := by
      rw [refreshAccesses, if_neg hp10]
    refine ⟨v1, v2, p, n + 8 * (r - 5), t5, ?_, x5, s5, .inr ⟨by omega, ?_, ?_⟩⟩
    · rw [hx, List.take_of_length_le (by simp only [List.length]; omega)]; exact g5
    · rw [hx]; exact List.getElem?_eq_none (by simp only [List.length]; omega)
    · rw [start]
      simp only [refreshLive, cfgLen, g5.cfg, hl, value_of, known_some, bind_ok, hp10, if_false, Bool.or_self, if_true]
  have hx : refreshAccesses s.cfgp b v1 v2 p = [.read (romAt s.cfgp 18) v1, .write (romAt s.cfgp 20) v1,
      .read (romAt s.cfgp 19) v2, .write (romAt s.cfgp 21) v2, .read (romAt s.cfgp 22) p,
      .write (romAt s.cfgp 23) (b 2 p.toNat), .write (romAt s.cfgp 24) (b 2 p.toNat),
      .write (romAt s.cfgp 25) (b 3 p.toNat), .write (romAt s.cfgp 26) (b 3 p.toNat)] := by
    rw [refreshAccesses, if_pos hp10]
  have acc : refreshLive tabAccTime romFan1CurAcc romFan2CurAcc p t5
      = (ecWrite (romAt s.cfgp 23) (b 2 p.toNat) t5).bind fun _ s =>
        (ecWrite (romAt s.cfgp romFan2CurAcc) (b 2 p.toNat) s).bind fun _ s => .ok false s := by
    simp only [refreshLive, cfgLen, cfgByte, g5.cfg, hl, hb _ _ hp10, value_of, known_some, bind_ok, hp10, if_true, g5.cfgp]
  by_cases r5 : r = 5
  · subst r5
    refine ⟨v1, v2, p, n, t5, by rw [hx]; exact g5, x5, s5, .inl ⟨.write (romAt s.cfgp 23) (b 2 p.toNat), rfl, by rw [hx]; rfl, ?_⟩⟩
    rw [start, acc]
    exact ((GoesOn.write _ _ _).bind _).bind _
  obtain ⟨t6, e6, g6, b6, -⟩ := ecWrite_ran (cut := cut) (romAt s.cfgp 23) (b 2 p.toNat) t5 (n + 8 * (r - 6)) (g5.en.trans he)
    (g5.cfgp ▸ hp) (by rw [show n + 8 * (r - 6) + 8 = n + 8 * (r - 5) by omega]; exact g5.cfgp ▸ g5.quiet)
  have g6 := g5.trans g6
  by_cases r6 : r = 6
  · subst r6
    refine ⟨v1, v2, p, n, t6, by rw [hx]; exact g6, b6.xbuf.trans x5, b6.stat.trans s5,
      .inl ⟨.write (romAt s.cfgp 24) (b 2 p.toNat), rfl, by rw [hx]; rfl, ?_⟩⟩
    rw [start, acc, e6, bind_ok, g6.cfgp]
    exact ((GoesOn.write _ _ _).bind _).bind _
  obtain ⟨t7, e7, g7, b7, -⟩ := ecWrite_ran (cut := cut) (romAt s.cfgp romFan2CurAcc) (b 2 p.toNat) t6 (n + 8 * (r - 7))
    (g6.en.trans he) (g6.cfgp ▸ hp)
    (by rw [show n + 8 * (r - 7) + 8 = n + 8 * (r - 6) by omega]; exact g6.cfgp ▸ g6.quiet)
  have g7 := g6.trans g7
  have x7 := b7.xbuf.trans (b6.xbuf.trans x5)
  have s7 := b7.stat.trans (b6.stat.trans s5)
  have dec : refreshLive tabDecTime romFan1CurDec romFan2CurDec p t7
      = (ecWrite (romAt s.cfgp 25) (b 3 p.toNat) t7).bind fun _ s =>
        (ecWrite (romAt s.cfgp romFan2CurDec) (b 3 p.toNat) s).bind fun _ s => .ok false s := by
    simp only [refreshLive, cfgLen, cfgByte, g7.cfg, hl, hb _ _ hp10, value_of, known_some, bind_ok, hp10, if_true, g7.cfgp]
  have start : refreshDerived s = (refreshLive tabDecTime romFan1CurDec romFan2CurDec p t7).bind fun y s =>
      .ok true (if false || y then raise .partialWriteWarning 0 s else s) := by
    rw [start, acc, e6, bind_ok, g6.cfgp, e7, bind_ok, bind_ok]
  by_cases r7 : r = 7
  · subst r7
    refine ⟨v1, v2, p, n, t7, by rw [hx]; exact g7, x7, s7, .inl ⟨.write (romAt s.cfgp 25) (b 3 p.toNat), rfl, by rw [hx]; rfl, ?_⟩⟩
    rw [start, dec]
    exact ((GoesOn.write _ _ _).bind _).bind _
  obtain ⟨t8, e8, g8, b8, -⟩ := ecWrite_ran (cut := cut) (romAt s.cfgp 25) (b 3 p.toNat) t7 (n + 8 * (r - 8)) (g7.en.trans he)
    (g7.cfgp ▸ hp) (by rw [show n + 8 * (r - 8) + 8 = n + 8 * (r - 7) by omega]; exact g7.cfgp ▸ g7.quiet)
  have g8 := g7.trans g8
  obtain rfl : r = 8 := by omega
  refine ⟨v1, v2, p, n, t8, by rw [hx]; exact g8, b8.xbuf.trans x7, b8.stat.trans s7,
    .inl ⟨.write (romAt s.cfgp 26) (b 3 p.toNat), rfl, by rw [hx]; rfl, ?_⟩⟩
  rw [start, dec, e8, bind_ok, g8.cfgp]
  exact ((GoesOn.write _ _ _).bind _).bind _

end Sys2Proof.Laws
end

