-- ==== Sys2Proof/Laws/Rom.lean ====
section
/-!
SUPPORT. What a well-formed configuration says of the register map (R7): rows do not wrap or meet, singles stand apart.
-/
namespace Sys2Proof.Laws
open Sys2Proof Sys2Proof.Machine

theorem distinct_iff {α : Type} [DecidableEq α] (l : List α) : distinct l = true ↔ l.Nodup := by
  induction l with
  | nil => simp [distinct]
  | cons x xs ih => simp [distinct, ih]

theorem allApart_iff (l : List Addr) : allApart l = true ↔ l.Pairwise fun a b => rowsApart a b = true := by
  induction l with
  | nil => simp [allApart]
  | cons x xs ih => simp [allApart, ih]

theorem configOk_parts {c : Cfgp} (h : configOk c = true) :
    (c.rom.toList.take 10).all (fun b => decide (b.toNat + 9 ≤ 0xFFFF)) = true
    ∧ allApart (c.rom.toList.take 10) = true
    ∧ (c.rom.toList.take 10).all (fun b => (c.rom.toList.drop 10).all (outsideRow b)) = true
    ∧ distinct ((c.rom.toList.drop 10).take 17) = true := by
  simp only [configOk, Bool.and_eq_true] at h
  exact ⟨h.1.1.1.2, h.1.1.2, h.1.2, h.2⟩

theorem tableBase_mem (c : Cfgp) (t : Fin 10) : tableBase c t ∈ c.rom.toList.take 10 :=
  List.mem_iff_getElem.mpr ⟨t.val, by simp, by simp [tableBase, romAt]⟩

/-- The address of an element of a row does not wrap. -/
theorem toNat_elemAt {c : Cfgp} (h : configOk c = true) (t : Fin 10) {i : Nat} (hi : i < 10) :
    (elemAt (tableBase c t) i).toNat = (tableBase c t).toNat + i := by
  have hw := List.all_eq_true.mp (configOk_parts h).1 _ (tableBase_mem c t)
  simp only [decide_eq_true_eq] at hw
  simp only [elemAt, elemAddr, BitVec.toNat_add, BitVec.toNat_setWidth, BitVec.toNat_ofNat]
  omega

/-- Elements of two tables, or two elements of one table, are two registers. -/
theorem elemAt_ne {c : Cfgp} (h : configOk c = true) {t u : Fin 10} {i j : Nat} (hi : i < 10) (hj : j < 10)
    (hne : t ≠ u ∨ i ≠ j) : elemAt (tableBase c t) i ≠ elemAt (tableBase c u) j := by
  intro he
  have he := congrArg BitVec.toNat he
  rw [toNat_elemAt h t hi, toNat_elemAt h u hj] at he
  by_cases htu : t = u
  · subst htu
    have := hne.resolve_left (by simp)
    omega
  · have hp := List.pairwise_iff_getElem.mp ((allApart_iff _).mp (configOk_parts h).2.1)
    rcases Nat.lt_or_gt_of_ne fun e => htu (Fin.ext e) with hlt | hlt
    · have := hp t.val u.val (by simp) (by simp) hlt
      simp [rowsApart] at this
      simp [tableBase, romAt] at he
      omega
    · have := hp u.val t.val (by simp) (by simp) hlt
      simp [rowsApart] at this
      simp [tableBase, romAt] at he
      omega

/-- A single register is in no row. -/
theorem single_not_row {c : Cfgp} (h : configOk c = true) (k : Fin 29) (hk : 10 ≤ k.val) (t : Fin 10) {i : Nat} (hi : i < 10) :
    romAt c k ≠ elemAt (tableBase c t) i := by
  intro he
  have he := congrArg BitVec.toNat he
  rw [toNat_elemAt h t hi] at he
  have ho := List.all_eq_true.mp (configOk_parts h).2.2.1 _ (tableBase_mem c t)
  have hk : romAt c k ∈ c.rom.toList.drop 10 :=
    List.mem_iff_getElem.mpr ⟨k.val - 10, by simp; omega, by simp [romAt]; congr 1; omega⟩
  have := List.all_eq_true.mp ho _ hk
  simp only [outsideRow, Bool.or_eq_true, decide_eq_true_eq] at this
  omega

/-- Two of the single registers 10 to 26 are two registers. -/
theorem single_ne {c : Cfgp} (h : configOk c = true) (k l : Fin 29) (hk : 10 ≤ k.val ∧ k.val ≤ 26) (hl : 10 ≤ l.val ∧ l.val ≤ 26)
    (hne : k ≠ l) : romAt c k ≠ romAt c l := by
  intro he
  have hd := List.nodup_iff_injective_getElem.mp ((distinct_iff _).mp (configOk_parts h).2.2.2)
  have := @hd ⟨k.val - 10, by simp; omega⟩ ⟨l.val - 10, by simp; omega⟩ (by
    simp only [List.getElem_take, List.getElem_drop, Vector.getElem_toList]
    simp only [romAt, Fin.getElem_fin] at he
    simpa [show 10 + (k.val - 10) = k.val by omega, show 10 + (l.val - 10) = l.val by omega] using he)
  simp only [Fin.mk.injEq] at this
  exact hne (Fin.ext (by omega))

end Sys2Proof.Laws
end

