-- ==== Sys2Proof/Laws/Steps.lean ====
section
/-!
SUPPORT. What a step can be (R10): one inversion for `step`, one for `settle`, one for `pause`.
-/
namespace Sys2Proof.Laws
open Sys2Proof Sys2Proof.Machine

theorem drawRest_slots (c : Cfgp) (e : Env) : (drawRest c e).2.slots = e.slots := by
  unfold drawRest
  split
  · rfl
  · split <;> rfl

theorem drawRest_noForeign (c : Cfgp) {e : Env} (h : e.noForeign = true) :
    (drawRest c e).1.all AgentMove.isEc = true ∧ (drawRest c e).2.noForeign = true := by
  unfold drawRest
  split
  · rename_i x rest heq
    simp only [Env.noForeign, heq, Bool.and_eq_true, List.all_cons] at h ⊢
    exact ⟨h.2.1, h.1, h.2.2⟩
  · split
    · exact ⟨rfl, h⟩
    · exact ⟨by simp [AgentMove.isEc], h⟩

/-- Where ECSEQ comes to rest and no foreign master moves, only EC registers in `VOLATILE` and the environment change. -/
theorem settle_quiet (s : State) (h : s.env.noForeign = true) :
    ∃ m e, settle (.next s) = .next { s with ecmem := m, env := e } ∧ EcDrift s.cfgp.volatile s.ecmem m := by
  obtain ⟨m, h1, h2⟩ := ecMoves_drift _ { s with env := (drawRest s.cfgp s.env).2 } (drawRest_noForeign s.cfgp h).1
  exact ⟨m, _, by rw [settle, h1], h2⟩

/-- Where ECSEQ comes to rest and the run goes on, other agents have moved, and nothing else. -/
theorem settle_next {o : Host.Outcome State Fault Refusal} {t : State} (h : settle o = .next t) :
    ∃ u, o = .next u ∧ Between u t ∧ Ours u t [] := by
  cases o with
  | fault f => cases h
  | refused r => cases h
  | next u =>
    have h0 : Between u { u with env := (drawRest u.cfgp u.env).2 } :=
      between_of u.ecmem _ u.target u.trace (fun h h' => ⟨h, h'⟩) (by simp only [Env.noPowerLoss, drawRest_slots]; exact id)
    have hs := agentMoves_between (drawRest u.cfgp u.env).1 { u with env := (drawRest u.cfgp u.env).2 }
    simp only [settle] at h
    split at h
    · rename_i heq
      rw [heq] at hs
      cases h
      exact ⟨u, rfl, h0.trans hs.1, hs.2⟩
    · rename_i heq
      rw [heq] at hs
      exact hs.elim
    · cases h
    · cases h

/-- Where a step of a command in progress leads: to its next step, or, cut, to the command's end. -/
theorem pause_next {r : Res Phase} {t : State} (h : pause r = .next t) :
    (∃ p u, r = .ok p u ∧ t = { u with phase := some p })
      ∨ (∃ u, r = .cut .gatewayFault u ∧ settle (.next (takeGatewayFault { u with phase := none })) = .next t)
      ∨ ∃ u, r = .cut .powerLoss u ∧ settle (.next (resetInstance { u with phase := none })) = .next t := by
  cases r with
  | ok p u => exact .inl ⟨p, u, rfl, (Host.Outcome.next.inj h).symm⟩
  | cut c u =>
    cases c with
    | gatewayFault => exact .inr (.inl ⟨u, rfl, h⟩)
    | powerLoss => exact .inr (.inr ⟨u, rfl, h⟩)
  | fault f => cases h
  | refused f => cases h

/-- What a step is: a step of the command in progress, or one of the four things the host can have done. -/
inductive StepOf (s : State) (o : Host.Outcome State Fault Refusal) : Prop where
  | port (p : Phase) (hb : s.busy = true) (hp : s.phase = some p) (h : portStep p s = o)
  | idle (hh : s.host = []) (h : settle (.next s) = o)
  | move (m : HostMove) (rest : List HostAction) (hh : s.host = .move m :: rest)
      (h : settle (hostMove m { s with host := rest }) = o)
  | command (w : CmdWord) (rest : List HostAction) (i : Instr) (hh : s.host = .command w :: rest) (hd : decode w = .ok i)
      (h : settle (exec i { s with host := rest }) = o)
  | issue (w : CmdWord) (rest : List HostAction) (i : Instr) (hh : s.host = .issue w :: rest) (hd : decode w = .ok i)
      (h : issue i { s with host := rest } = o)

theorem step_next {s t : State} (h : step s = .next t) : configOk s.cfgp = true ∧ StepOf s (.next t) := by
  unfold step at h
  split at h
  · rename_i hc
    refine ⟨hc, ?_⟩
    split at h
    · rename_i p hp
      unfold inProgress at hp
      split at hp
      · rename_i hb; exact .port p hb hp h
      · cases hp
    · unfold fetch at h
      cases hh : s.host with
      | nil => rw [hh] at h; exact .idle hh h
      | cons x rest =>
        rw [hh] at h
        cases x with
        | move m => exact .move m rest hh h
        | command w =>
          dsimp only at h
          split at h
          · rename_i i hd; exact .command w rest i hh hd h
          · cases h
        | issue w =>
          dsimp only at h
          split at h
          · rename_i i hd; exact .issue w rest i hh hd h
          · cases h
  · cases h

/-- A step where no command is in progress takes the host's next action. -/
theorem step_ready {s : State} (hr : s.Ready) : step s = match fetch s with
    | .idle => settle (.next s)
    | .move m t => settle (hostMove m t)
    | .word w t =>
      match decode w with
      | .ok i => settle (exec i t)
      | .error e => .refused (.illegalWord e)
    | .issue w t =>
      match decode w with
      | .ok i => issue i t
      | .error e => .refused (.illegalWord e) := by
  rw [step, if_pos hr.1, show inProgress s = none by simp [inProgress, hr.2]]
  all_goals (cases fetch s <;> rfl)

/-- A step where a command is in progress. -/
theorem step_busy {s : State} {p : Phase} (hc : configOk s.cfgp = true) (hb : s.busy = true) (hp : s.phase = some p) :
    step s = portStep p s := by
  rw [step, if_pos hc, show inProgress s = some p by simp [inProgress, hb, hp]]

end Sys2Proof.Laws
end

