-- ==== Sys2Proof/Laws/Stores.lean ====
section
/-!
SUPPORT. What a command's body can do to the EC registers when no foreign master moves, and that it never leaves the reference
target then. One relation, `StoresSat`, one lemma per shared operation.
-/
namespace Sys2Proof.Laws
open Sys2Proof Sys2Proof.Machine

/-- Outside `VOLATILE` only the listed registers may have changed, and still no foreign master moves. -/
structure Stores (written : List Addr) (s t : State) : Prop where
  cfgp : t.cfgp = s.cfgp
  en : t.en = s.en
  foreign : t.env.noForeign = true
  kept : EcKeptExcept s t written

/-- Everything an operation inside a command can do to the EC registers when no foreign master moves. -/
def StoresSat {α : Type} (written : List Addr) (s : State) (r : Res α) : Prop :=
  Sat (fun _ t => Stores written s t) (fun _ t => Stores written s t)
    (fun f => ∀ l, f ≠ .readUnspecified (.latch l)) (fun x => x ≠ .targetUnmodelled) r

theorem Stores.refl (written : List Addr) {s : State} (h : s.env.noForeign = true) : Stores written s s :=
  ⟨rfl, rfl, h, fun _ _ _ => rfl⟩

theorem Stores.trans {written : List Addr} {s t u : State} (h : Stores written s t) (h' : Stores written t u) :
    Stores written s u :=
  ⟨h'.cfgp.trans h.cfgp, h'.en.trans h.en, h'.foreign,
    fun a hv hw => (h'.kept a (h.cfgp ▸ hv) hw).trans (h.kept a hv hw)⟩

theorem Stores.mono {written written' : List Addr} {s t : State} (h : Stores written s t) (hs : ∀ a ∈ written, a ∈ written') :
    Stores written' s t :=
  ⟨h.cfgp, h.en, h.foreign, fun a hv hw => h.kept a hv fun hm => hw (hs a hm)⟩

theorem StoresSat.bind {α β : Type} {written : List Addr} {s : State} {r : Res α} {k : α → State → Res β}
    (h : StoresSat written s r) (hk : ∀ a t, Stores written s t → StoresSat written t (k a t)) :
    StoresSat written s (r.bind k) :=
  Sat.bind h fun a t ht => (hk a t ht).mono (fun _ _ h' => ht.trans h') (fun _ _ h' => ht.trans h') (fun _ h => h) fun _ h => h

theorem StoresSat.mono {α : Type} {written written' : List Addr} {s : State} {r : Res α} (h : StoresSat written s r)
    (hs : ∀ a ∈ written, a ∈ written') : StoresSat written' s r :=
  Sat.mono h (fun _ _ h => h.mono hs) (fun _ _ h => h.mono hs) (fun _ h => h) fun _ h => h

theorem StoresSat.look {α β : Type} {written : List Addr} {s : State} {p : Place} {v : Option α} {k : α → State → Res β}
    (hp : ∀ l, p ≠ .latch l) (hk : ∀ a, v = some a → StoresSat written s (k a s)) :
    StoresSat written s ((known p v s).bind k) :=
  sat_look (fun _ l h => hp l (Fault.readUnspecified.inj h)) hk

theorem StoresSat.forEach {α : Type} {written : List Addr} {body : α → State → Res Unit} {xs : List α} {s : State}
    (hf : s.env.noForeign = true) (h : ∀ x ∈ xs, ∀ t, Stores written s t → StoresSat written t (body x t)) :
    StoresSat written s (forEach body xs s) := by
  refine Sat.forEach (P := fun t => Stores written s t) (Stores.refl written hf) fun x hx t ht => ?_
  exact Sat.mono (h x hx t ht) (fun _ _ h' => ht.trans h') (fun _ _ h' => ht.trans h') (fun _ h => h) fun _ h => h

/-- An update that leaves the configuration, `EN`, the environment and `ECMEM` alone. -/
theorem StoresSat.pure {α : Type} {written : List Addr} {s t : State} (a : α) (hf : s.env.noForeign = true)
    (hc : t.cfgp = s.cfgp) (he : t.en = s.en) (hv : t.env = s.env) (hm : t.ecmem = s.ecmem) :
    StoresSat written s (.ok a t : Res α) :=
  ⟨hc, he, hv ▸ hf, fun _ _ _ => by rw [hm]⟩

/-- `EcWrite(a, d)` (R152). -/
theorem ecWrite_stores_base {written : List Addr} (a : Addr) (d : Byte) (s : State) (hp : PortsOk s.cfgp)
    (hf : s.env.noForeign = true) (ha : a ∈ written) :
    Sat (fun _ t => Stores written s t ∧ t.base = s.base) (fun _ t => Stores written s t)
      (fun f => ∀ l, f ≠ .readUnspecified (.latch l)) (fun x => x ≠ .targetUnmodelled) (ecWrite a d s) := by
  cases he : s.en with
  | false => rw [ecWrite_disabled a d s he]; exact ⟨⟨rfl, rfl, hf, fun _ _ _ => rfl⟩, rfl⟩
  | true =>
    refine (ecWrite_calm a d s he hp (Calm.of_noForeign _ _ hf)).mono ?_ ?_ (fun _ h => h.elim) fun _ h => h.elim
    · rintro _ t ⟨m, hd, -, rfl⟩
      refine ⟨⟨rfl, rfl, envAfter_noForeign _ 8 hf, fun b hv hw => ?_⟩, rfl⟩
      have hne : b ≠ a := by rintro rfl; exact hw ha
      exact (byteAt_put_other m d (toNat_ne hne)).trans (hd.kept b hv)
    · rintro c t ⟨j, m, hj, hd, -, -, rfl⟩
      exact ⟨rfl, rfl, envAfter_noForeign _ (j + 1) hf, fun b hv _ => hd.kept b hv⟩

theorem ecWrite_stores {written : List Addr} (a : Addr) (d : Byte) (s : State) (hp : PortsOk s.cfgp)
    (hf : s.env.noForeign = true) (ha : a ∈ written) : StoresSat written s (ecWrite a d s) :=
  (ecWrite_stores_base a d s hp hf ha).mono (fun _ _ h => h.1) (fun _ _ h => h) (fun _ h => h) fun _ h => h

/-- `EcRead(a)` stores nothing (R151). -/
theorem ecRead_stores_base {written : List Addr} (a : Addr) (s : State) (hp : PortsOk s.cfgp) (hf : s.env.noForeign = true) :
    Sat (fun _ t => Stores written s t ∧ t.base = s.base) (fun _ t => Stores written s t)
      (fun f => ∀ l, f ≠ .readUnspecified (.latch l)) (fun x => x ≠ .targetUnmodelled) (ecRead a s) := by
  cases he : s.en with
  | false => rw [ecRead_disabled a s he]; exact ⟨⟨rfl, rfl, hf, fun _ _ _ => rfl⟩, rfl⟩
  | true =>
    refine (ecRead_calm a s he hp (Calm.of_noForeign _ _ hf)).mono ?_ ?_ (fun f h l hl => ?_) fun _ h => h.elim
    · rintro v t ⟨m, k, hd, -, -, -, rfl⟩
      exact ⟨⟨rfl, rfl, envAfter_noForeign _ 8 hf, fun b hv _ => hd.kept b hv⟩, rfl⟩
    · rintro c t ⟨j, m, hj, hd, -, -, rfl⟩
      exact ⟨rfl, rfl, envAfter_noForeign _ (j + 1) hf, fun b hv _ => hd.kept b hv⟩
    · rw [h.1] at hl; cases hl

theorem ecRead_stores {written : List Addr} (a : Addr) (s : State) (hp : PortsOk s.cfgp) (hf : s.env.noForeign = true) :
    StoresSat written s (ecRead a s) :=
  (ecRead_stores_base a s hp hf).mono (fun _ _ h => h.1) (fun _ _ h => h) (fun _ h => h) fun _ h => h

/-! ## Arrays (R171 to R173) -/

theorem readArray_stores {written : List Addr} (put : Nat → Byte → State → State) (b : Addr) (n : BitVec 8) (s : State)
    (hp : PortsOk s.cfgp) (hf : s.env.noForeign = true)
    (hput : ∀ i v t, (put i v t).cfgp = t.cfgp ∧ (put i v t).en = t.en ∧ (put i v t).env = t.env
      ∧ (put i v t).ecmem = t.ecmem) : StoresSat written s (readArray put b n s) := by
  have h0 : Stores written s (loadArray b n s) := ⟨rfl, rfl, hf, fun _ _ _ => rfl⟩
  have h1 := StoresSat.forEach (written := written) (body := readElem put) (xs := List.range n.toNat)
    (s := loadArray b n s) hf fun i _ t ht => ?_
  · exact Sat.mono h1 (fun _ _ h => h0.trans h) (fun _ _ h => h0.trans h) (fun _ h => h) fun _ h => h
  · have h2 : Stores written t (setIdx i t) := ⟨rfl, rfl, ht.foreign, fun _ _ _ => rfl⟩
    have hpt : PortsOk (setIdx i t).cfgp := (ht.cfgp ▸ hp : PortsOk t.cfgp)
    have h3 : StoresSat written (setIdx i t)
        ((ecRead (curAddr (setIdx i t)) (setIdx i t)).bind fun v s => .ok () (put i v s)) :=
      (ecRead_stores (curAddr (setIdx i t)) (setIdx i t) hpt ht.foreign).bind fun v u hu =>
        StoresSat.pure () hu.foreign (hput i v u).1 (hput i v u).2.1 (hput i v u).2.2.1 (hput i v u).2.2.2
    exact Sat.mono h3 (fun _ _ h => h2.trans h) (fun _ _ h => h2.trans h) (fun _ h => h) fun _ h => h

theorem writeArray_stores {written : List Addr} (src : Nat → State → Res Byte) (b : Addr) (n : BitVec 8) (s : State)
    (hp : PortsOk s.cfgp) (hf : s.env.noForeign = true)
    (hsrc : ∀ i t, Sat (fun _ u => u = t) (fun _ _ => False) (fun f => ∀ l, f ≠ .readUnspecified (.latch l))
      (fun _ => False) (src i t))
    (hw : ∀ a ∈ arrayAddrs b n.toNat, a ∈ written) : StoresSat written s (writeArray src b n s) := by
  have h0 : Stores written s (loadArray b n s) := ⟨rfl, rfl, hf, fun _ _ _ => rfl⟩
  have h1 : Sat (fun _ t => Stores written (loadArray b n s) t ∧ t.base = b) (fun _ t => Stores written (loadArray b n s) t)
      (fun f => ∀ l, f ≠ .readUnspecified (.latch l)) (fun x => x ≠ .targetUnmodelled)
      (forEach (writeElem src) (List.range n.toNat) (loadArray b n s)) := by
    refine Sat.forEach (P := fun t => Stores written (loadArray b n s) t ∧ t.base = b) ⟨Stores.refl written hf, rfl⟩
      fun i hi t ht => ?_
    have h2 : Stores written t (setIdx i t) := ⟨rfl, rfl, ht.1.foreign, fun _ _ _ => rfl⟩
    refine Sat.bind ((hsrc i (setIdx i t)).mono (fun _ _ h => h) (fun _ _ h => h.elim) (fun _ h => h) fun _ h => h.elim)
      fun v u hu => ?_
    subst hu
    have hpt : PortsOk t.cfgp := ht.1.cfgp ▸ hp
    have ha : curAddr (setIdx i t) ∈ written := by
      refine hw _ (List.mem_map.mpr ⟨i, hi, ?_⟩)
      simp [curAddr, setIdx, ht.2]
    refine Sat.mono (ecWrite_stores_base (written := written) (curAddr (setIdx i t)) v (setIdx i t) hpt ht.1.foreign ha)
      (fun _ x h => ⟨ht.1.trans (h2.trans h.1), h.2.trans ht.2⟩) (fun _ x h => ht.1.trans (h2.trans h)) (fun _ h => h)
      fun _ h => h
  exact Sat.mono h1 (fun _ _ h => h0.trans h.1) (fun _ _ h => h0.trans h) (fun _ h => h) fun _ h => h

theorem look_same {α : Type} (p : Place) (v : Option α) (s : State) (hp : ∀ l, p ≠ .latch l) :
    Sat (fun _ u => u = s) (fun _ _ => False) (fun f => ∀ l, f ≠ .readUnspecified (.latch l)) (fun _ => False)
      (known p v s) :=
  sat_known (fun _ l h => hp l (Fault.readUnspecified.inj h)) fun _ _ => rfl

/-! ## Bodies -/

/-- The EC registers a command may write (R154, R173, R180, R209). -/
def stored (c : Cfgp) : Instr → List Addr
  | .wrreg a _ => [a]
  | .wrarr b n => arrayAddrs b n.toNat
  | .wrrow t => match tableIdOf t with
    | some t => rowAddrs c t
    | none => []
  | .wrcfg => tableIds.flatMap (rowAddrs c) ++ [c.rom[20], c.rom[21], c.rom[23], c.rom[24], c.rom[25], c.rom[26]]
  | .init => []
  | .deinit => []
  | .isinit => []
  | .geterr => []
  | .rdreg _ => []
  | .rdarr _ _ => []
  | .romrd _ => []
  | .rdrow _ => []
  | .rdstat => []

theorem entryClear_stores {written : List Addr} {s : State} (hf : s.env.noForeign = true) : Stores written s (entryClear s) := by
  unfold entryClear
  split
  · exact ⟨rfl, rfl, hf, fun _ _ _ => rfl⟩
  · exact Stores.refl written hf

theorem whenInitialized_stores {written : List Addr} {k : State → Res Bool} (s : State) (hf : s.env.noForeign = true)
    (h : ∀ t, Stores written s t → StoresSat written t (k t)) : StoresSat written s (whenInitialized k s) := by
  unfold whenInitialized
  split
  · have h0 := entryClear_stores (written := written) hf
    exact Sat.mono (h _ h0) (fun _ _ h => h0.trans h) (fun _ _ h => h0.trans h) (fun _ h => h) fun _ h => h
  · exact StoresSat.pure false hf rfl rfl rfl rfl

theorem readStatus_stores {written : List Addr} (s : State) (hp : PortsOk s.cfgp) (hf : s.env.noForeign = true) :
    StoresSat written s (readStatus s) := by
  have hread : ∀ a t, Stores written s t → StoresSat written t (ecRead a t) := fun a t ht =>
    ecRead_stores a t (ht.cfgp ▸ hp) ht.foreign
  have htach : ∀ l h put t, Stores written s t → StoresSat written t (readTach l h put t) := fun l h put t ht =>
    (hread _ t ht).bind fun _ u hu => (hread _ u (ht.trans hu)).bind fun _ x hx =>
      StoresSat.pure () hx.foreign rfl rfl rfl rfl
  refine (htach _ _ _ s (Stores.refl written hf)).bind fun _ t ht => ?_
  refine (htach _ _ _ t ht).bind fun _ u hu => ?_
  have hu := ht.trans hu
  refine (StoresSat.forEach (written := written) hu.foreign fun k _ t ht => ?_).bind fun _ x hx => ?_
  · have ht := hu.trans ht
    exact readArray_stores _ _ 10 t (ht.cfgp ▸ hp) ht.foreign fun _ _ _ => ⟨rfl, rfl, rfl, rfl⟩
  · have hx := hu.trans hx
    refine (StoresSat.forEach (written := written) hx.foreign fun r _ t ht => ?_).bind fun _ y hy => ?_
    · exact (hread _ t (hx.trans ht)).bind fun _ z hz => StoresSat.pure () hz.foreign rfl rfl rfl rfl
    · exact StoresSat.pure true hy.foreign rfl rfl rfl rfl

theorem shapeOk_stores {written : List Addr} (ts : List (Fin 10)) (s : State) (hf : s.env.noForeign = true) :
    StoresSat written s (shapeOk ts s) := by
  induction ts with
  | nil => exact StoresSat.pure true hf rfl rfl rfl rfl
  | cons t ts ih =>
    refine StoresSat.look nofun fun n _ => ?_
    split
    · exact ih
    · exact StoresSat.pure false hf rfl rfl rfl rfl

theorem writeConfig_stores (s : State) (hp : PortsOk s.cfgp) (hf : s.env.noForeign = true) :
    StoresSat (stored s.cfgp .wrcfg) s (writeConfig s) := by
  have hread : ∀ a t, Stores (stored s.cfgp .wrcfg) s t → StoresSat (stored s.cfgp .wrcfg) t (ecRead a t) := fun a t ht =>
    ecRead_stores a t (ht.cfgp ▸ hp) ht.foreign
  have hwrite : ∀ (k : Fin 29) d t, romAt s.cfgp k ∈ stored s.cfgp .wrcfg → Stores (stored s.cfgp .wrcfg) s t →
      StoresSat (stored s.cfgp .wrcfg) t (ecWrite (romAt t.cfgp k) d t) := fun k d t hk ht =>
    ecWrite_stores _ d t (ht.cfgp ▸ hp) ht.foreign (ht.cfgp ▸ hk)
  have hlive : ∀ k a b p t, romAt s.cfgp a ∈ stored s.cfgp .wrcfg → romAt s.cfgp b ∈ stored s.cfgp .wrcfg →
      Stores (stored s.cfgp .wrcfg) s t → StoresSat (stored s.cfgp .wrcfg) t (refreshLive k a b p t) := by
    intro k a b p t ha hb ht
    refine StoresSat.look nofun fun n _ => ?_
    split
    · refine StoresSat.look nofun fun v _ => ?_
      refine (hwrite a v t ha ht).bind fun _ u hu => ?_
      exact (hwrite b v u hb (ht.trans hu)).bind fun _ x hx => StoresSat.pure false hx.foreign rfl rfl rfl rfl
    · exact StoresSat.pure true ht.foreign rfl rfl rfl rfl
  have hmem : ∀ k : Fin 29, k = 20 ∨ k = 21 ∨ k = 23 ∨ k = 24 ∨ k = 25 ∨ k = 26 →
      romAt s.cfgp k ∈ stored s.cfgp .wrcfg := by
    rintro k (rfl | rfl | rfl | rfl | rfl | rfl) <;> simp [stored, romAt]
  refine (shapeOk_stores tableIds s hf).bind fun fits t ht => ?_
  split
  · refine (StoresSat.forEach (written := stored s.cfgp .wrcfg) ht.foreign fun k hk u hu => ?_).bind fun _ u hu => ?_
    · have hu := ht.trans hu
      refine writeArray_stores _ _ 10 u (hu.cfgp ▸ hp) hu.foreign (fun i x => look_same _ _ x nofun) fun a ha => ?_
      rw [hu.cfgp] at ha
      exact List.mem_append_left _ (List.mem_flatMap.mpr ⟨k, hk, ha⟩)
    · have hu := ht.trans hu
      unfold refreshDerived refreshTarget
      rw [bind_assoc]
      refine (hread _ u hu).bind fun v x hx => ?_
      have hx := hu.trans hx
      refine (hwrite romFan1TgtDuty v x (hmem _ (by simp)) hx).bind fun _ y hy => ?_
      have hy := hx.trans hy
      rw [bind_assoc]
      refine (hread _ y hy).bind fun v x hx => ?_
      have hx := hy.trans hx
      refine (hwrite romFan2TgtDuty v x (hmem _ (by simp)) hx).bind fun _ y hy => ?_
      have hy := hx.trans hy
      refine (hread _ y hy).bind fun p x hx => ?_
      have hx := hy.trans hx
      refine (hlive tabAccTime romFan1CurAcc romFan2CurAcc p x (hmem _ (by simp)) (hmem _ (by simp)) hx).bind fun a y hy => ?_
      have hy := hx.trans hy
      refine (hlive tabDecTime romFan1CurDec romFan2CurDec p y (hmem _ (by simp)) (hmem _ (by simp)) hy).bind fun b x hx => ?_
      split
      · exact StoresSat.pure true hx.foreign rfl rfl rfl rfl
      · exact StoresSat.pure true hx.foreign rfl rfl rfl rfl
  · exact StoresSat.pure false ht.foreign rfl rfl rfl rfl

theorem rdarrBody_stores {written : List Addr} (b : Addr) (n : BitVec 8) (s : State) (hp : PortsOk s.cfgp)
    (hf : s.env.noForeign = true) : StoresSat written s (rdarrBody b n s) :=
  (readArray_stores putXbuf b n s hp hf fun _ _ _ => ⟨rfl, rfl, rfl, rfl⟩).bind fun _ _ ht =>
    StoresSat.pure true ht.foreign rfl rfl rfl rfl

theorem wrarrBody_stores {written : List Addr} (b : Addr) (n : BitVec 8) (s : State) (hp : PortsOk s.cfgp)
    (hf : s.env.noForeign = true) (hw : ∀ a ∈ arrayAddrs b n.toNat, a ∈ written) : StoresSat written s (wrarrBody b n s) :=
  (writeArray_stores xbufByte b n s hp hf (fun _ t => look_same _ _ t nofun) hw).bind fun _ _ ht =>
    StoresSat.pure true ht.foreign rfl rfl rfl rfl

theorem initResult_env (s : State) : (initResult s).2.cfgp = s.cfgp ∧ (initResult s).2.env.slots = s.env.slots
    ∧ (initResult s).2.env.rests = s.env.rests ∧ (initResult s).2.ecmem = s.ecmem := by
  rw [initResult_eq]
  unfold initOutcome initFresh initAnswered loadFailed invokeLoad invokeInit entryClear raise
  dsimp only
  repeat' split
  all_goals simp [drawLoad_slots, drawInit_slots, drawLoad_rests, drawInit_rests]

/-- Everything a command's body can do to the EC registers when no foreign master moves; INIT and DEINIT write `EN`. -/
theorem body_stores (i : Instr) (s : State) (hp : PortsOk s.cfgp) (hf : s.env.noForeign = true) :
    Sat (fun _ t => EcKeptExcept s t (stored s.cfgp i) ∧ t.env.noForeign = true)
      (fun _ t => EcKeptExcept s t (stored s.cfgp i) ∧ t.env.noForeign = true)
      (fun f => ∀ l, f ≠ .readUnspecified (.latch l)) (fun x => x ≠ .targetUnmodelled) (body i s) := by
  have weak : ∀ r : Res Bool, StoresSat (stored s.cfgp i) s r →
      Sat (fun _ t => EcKeptExcept s t (stored s.cfgp i) ∧ t.env.noForeign = true)
        (fun _ t => EcKeptExcept s t (stored s.cfgp i) ∧ t.env.noForeign = true)
        (fun f => ∀ l, f ≠ .readUnspecified (.latch l)) (fun x => x ≠ .targetUnmodelled) r := fun r h =>
    Sat.mono h (fun _ _ h => ⟨h.kept, h.foreign⟩) (fun _ _ h => ⟨h.kept, h.foreign⟩) (fun _ h => h) fun _ h => h
  cases i with
  | init =>
    obtain ⟨-, hs, hr, hm⟩ := initResult_env s
    exact ⟨fun _ _ _ => by rw [hm], by simp only [Env.noForeign, hs, hr]; exact hf⟩
  | deinit => simp only [body]; split <;> exact ⟨fun _ _ _ => rfl, hf⟩
  | isinit => exact ⟨fun _ _ _ => rfl, hf⟩
  | geterr => exact ⟨fun _ _ _ => rfl, hf⟩
  | rdreg a =>
    exact weak _ ((ecRead_stores a s hp hf).bind fun _ t ht => StoresSat.pure true ht.foreign rfl rfl rfl rfl)
  | wrreg a d =>
    exact weak _ ((ecWrite_stores a d s hp hf (by simp [stored])).bind fun _ t ht =>
      StoresSat.pure true ht.foreign rfl rfl rfl rfl)
  | rdarr b n => exact weak _ (rdarrBody_stores b n s hp hf)
  | wrarr b n => exact weak _ (wrarrBody_stores b n s hp hf fun _ h => h)
  | romrd k =>
    simp only [body]
    split
    · exact ⟨fun _ _ _ => rfl, hf⟩
    · exact nofun
  | rdrow t =>
    apply weak
    simp only [body]
    split
    · exact rdarrBody_stores _ 10 s hp hf
    · exact nofun
  | wrrow t =>
    apply weak
    cases hk : tableIdOf t with
    | some k =>
      simp only [body, stored, hk]
      exact wrarrBody_stores _ 10 s hp hf fun _ h => h
    | none => simp only [body, hk]; exact nofun
  | rdstat =>
    exact weak _ (whenInitialized_stores s hf fun t ht => readStatus_stores t (ht.cfgp ▸ hp) ht.foreign)
  | wrcfg =>
    exact weak _ (whenInitialized_stores s hf fun t ht => ht.cfgp ▸ writeConfig_stores t (ht.cfgp ▸ hp) ht.foreign)

end Sys2Proof.Laws
end

