-- ==== Sys2Proof/Tests/Slice0.lean ====
section
/-!
SUPPORT. Small tests of one step each, their expected results taken from spec/95_test_vectors.md (the vector is named), and
for every statement with hypotheses a state and operands that meet them.
-/
namespace Sys2Proof.Tests
open Sys2Proof Sys2Proof.Machine Sys2Proof.Laws

/-! ## Helpers -/

/-- What an outcome's next state looks like, none where the run stops. -/
def after {α : Type} (r : Host.Outcome State Fault Refusal) (look : State → α) : Option α :=
  match r with
  | .next s => some (look s)
  | .fault _ => none
  | .refused _ => none

/-- The fault a run stops with, if it does. -/
def faultOf (r : Host.Outcome State Fault Refusal) : Option Fault :=
  match r with
  | .next _ => none
  | .fault f => some f
  | .refused _ => none

/-- The refusal a run stops with, if it does. -/
def refusalOf (r : Host.Outcome State Fault Refusal) : Option Refusal :=
  match r with
  | .next _ => none
  | .fault _ => none
  | .refused f => some f

/-- What an operation inside a command leaves, none where it does not come to its end. -/
def done {α β : Type} (r : Res α) (look : State → β) : Option β :=
  match r with
  | .ok _ s => some (look s)
  | .cut _ _ => none
  | .fault _ => none
  | .refused _ => none

/-- The next state of an outcome, the reset state where there is none. -/
def nextOf (r : Host.Outcome State Fault Refusal) : State := (after r id).getD State.reset

theorem eq_nextOf {r : Host.Outcome State Fault Refusal} (h : (after r fun _ => ()).isSome = true) : r = .next (nextOf r) := by
  cases r with
  | next s => rfl
  | fault f => cases h
  | refused f => cases h

/-- Bytes at consecutive addresses from each of some bases. -/
def hold (l : List (Nat × List Byte)) : Memory := l.foldl (fun m x => Memory.putMany m x.1 x.2) []

/-- One byte at each of some addresses. -/
def fill (v : Byte) : List Addr → Memory
  | [] => []
  | a :: as => (fill v as).put a.toNat v

theorem fill_holds (v : Byte) (as : List Addr) (a : Addr) (h : a ∈ as) : (fill v as).byteAt a.toNat ≠ none := by
  induction as with
  | nil => cases h
  | cons b as ih =>
    rw [fill, byteAt_put]
    split
    · simp
    · rename_i hb
      obtain rfl | h := List.mem_cons.1 h
      · exact absurd rfl hb
      · exact ih h

/-- After a successful INIT, nothing known of the EC. -/
def enabled : State := { State.reset with en := true, hnd := true }

/-- `n` bus events of ECSEQ complete. -/
def fine (n : Nat) : List Slot := List.replicate n ⟨[], .complete⟩

/-- An environment with some answers and slots. -/
def world (loads : List LoadAnswer) (inits : List InitAnswer) (slots : List Slot) : Env :=
  ⟨loads, inits, slots, [], 0, 0, 0⟩

/-- An environment in which other agents make some moves while ECSEQ rests. -/
def resting (moves : List AgentMove) : Env := ⟨[], [], [], [moves], 0, 0, 0⟩

/-- After a successful INIT with gateway faults possible, the fault scripted for the port operation after `n` complete ones. -/
def faulty (n : Nat) : State :=
  { enabled with cfgp := { cfgpRef with gwFaults := true }, env := world [] [] (fine n ++ [⟨[], .fault⟩]) }

/-- `CFG0` of the programs of file 95, Part 10. -/
def cfg0 : Vector (List Byte) 10 := #v[
  [0x1E, 0x23, 0x28, 0x2D, 0x32, 0x3C, 0x46, 0x50, 0x5A, 0x64],
  [0x1E, 0x22, 0x26, 0x2A, 0x30, 0x38, 0x42, 0x4C, 0x58, 0x64],
  [0x05, 0x05, 0x04, 0x04, 0x03, 0x03, 0x02, 0x02, 0x01, 0x01],
  [0x0A, 0x0A, 0x09, 0x09, 0x08, 0x08, 0x07, 0x07, 0x06, 0x06],
  [0x32, 0x37, 0x3C, 0x41, 0x46, 0x4B, 0x50, 0x55, 0x5A, 0x5F],
  [0x2D, 0x32, 0x37, 0x3C, 0x41, 0x46, 0x4B, 0x50, 0x55, 0x5A],
  [0x30, 0x35, 0x3A, 0x3F, 0x44, 0x49, 0x4E, 0x53, 0x58, 0x5D],
  [0x2B, 0x30, 0x35, 0x3A, 0x3F, 0x44, 0x49, 0x4E, 0x53, 0x58],
  [0x3C, 0x41, 0x46, 0x4B, 0x50, 0x55, 0x5A, 0x5F, 0x64, 0x69],
  [0x37, 0x3C, 0x41, 0x46, 0x4B, 0x50, 0x55, 0x5A, 0x5F, 0x64]]

/-- A table of `CFG` loaded with some bytes. -/
def table (bs : List Byte) : CfgTable := ⟨Reg.of bs.length, hold [(0, bs)]⟩

/-- Program P3's state before its second WRCFG, with `k` the current point. -/
def loaded (k : Byte) : State := { enabled with
  cfg := #v[table cfg0[0], table cfg0[1], table cfg0[2], table cfg0[3], table cfg0[4], table cfg0[5], table cfg0[6],
    table cfg0[7], table cfg0[8], table cfg0[9]]
  ecmem := hold [(0xC600, [0x2D, 0x2A, 0x00, 0x00, 0xEE, 0xEE, 0xEE, 0xEE]), (0xC534, [k])] }

/-- A word the host writes next. -/
def wordNext (w : CmdWord) : State := { State.reset with host := [.command w] }

/-- `faulty`'s environment: `n` quiet port operations, then the fault. -/
theorem faulty_fault (n : Nat) : faultAfter (faulty n).cfgp n (faulty n).env = true := by
  have key : ∀ (l : List Slot) (a : Nat), faultAfter { cfgpRef with gwFaults := true } n
      ⟨[], [], fine n ++ l, [], a, a, a⟩ = faultAfter { cfgpRef with gwFaults := true } 0 ⟨[], [], l, [], a, a, a⟩ := by
    induction n with
    | zero => exact fun _ _ => rfl
    | succ n ih => exact fun l a => ih l a
  exact (key [⟨[], .fault⟩] 0).trans (by decide)

/-- A move the host makes next, in a given state. -/
def moveNext (m : HostMove) (s : State) : State := { s with host := [.move m] }

/-! ## WellFormed -/

/-- R103: the ill-formed operand next to the largest legal one. -/
theorem test_wf_romrd : Instr.wf (.romrd 28) = true ∧ Instr.wf (.romrd 29) = false := by decide

theorem test_wf_rdrow : Instr.wf (.rdrow 9) = true ∧ Instr.wf (.rdrow 10) = false := by decide

theorem test_wf_wrrow : Instr.wf (.wrrow 9) = true ∧ Instr.wf (.wrrow 10) = false := by decide

/-! ## Decoding: words written out from the encodings of R101 to R103 (file 95, Part 2) -/

theorem test_decode_z :
    decode 0b00000001_0000000000000000_00000000 = .ok .init
    ∧ decode 0b00000010_0000000000000000_00000000 = .ok .deinit
    ∧ decode 0b00000011_0000000000000000_00000000 = .ok .isinit
    ∧ decode 0b00000100_0000000000000000_00000000 = .ok .geterr
    ∧ decode 0b00110000_0000000000000000_00000000 = .ok .rdstat
    ∧ decode 0b00110001_0000000000000000_00000000 = .ok .wrcfg := by decide

theorem test_decode_a :
    decode 0b00010000_1100010101000000_00000000 = .ok (.rdreg 0xC540)
    ∧ decode 0b00010001_1100010111100001_00111100 = .ok (.wrreg 0xC5E1 0x3C)
    ∧ decode 0b00010010_1111111111111110_11111111 = .ok (.rdarr 0xFFFE 255)
    ∧ decode 0b00010011_1111111111111110_00000011 = .ok (.wrarr 0xFFFE 3) := by decide

theorem test_decode_k :
    decode 0b00100000_0000000000000000_00011100 = .ok (.romrd 28)
    ∧ decode 0b00100001_0000000000000000_00001001 = .ok (.rdrow 9)
    ∧ decode 0b00100010_0000000000000000_00000010 = .ok (.wrrow 2) := by decide

theorem test_decode_opcodes_outside :
    ([0x00000000, 0x05000000, 0x0F000000, 0x14000000, 0x1F000000, 0x23000000, 0x2F000000, 0x32000000, 0x40000000,
      0xFF000000] : List CmdWord).all (fun w => decode w = .error .unknownOpcode) = true := by decide

theorem test_decode_reserved_fields :
    ([0x01000001, 0x01800000, 0x30000100, 0x31FFFFFF] : List CmdWord).all (fun w => decode w = .error .zFieldSet) = true
    ∧ ([0x10C54001, 0x10C540FF] : List CmdWord).all (fun w => decode w = .error .rdregImmSet) = true
    ∧ ([0x20000116, 0x21000102, 0x22800002] : List CmdWord).all (fun w => decode w = .error .kFieldSet) = true
    ∧ ([0x2000001D, 0x200000FF, 0x2100000A, 0x2200000A] : List CmdWord).all
        (fun w => decode w = .error .indexOutOfRange) = true := by decide

/-- R110: assembler lines with their operands at and past their limits. -/
theorem test_assemble :
    (assemble "WRREG" [0xC5E1, 0x3C]).map encode = some 0x11C5E13C
    ∧ (assemble "ROMRD" [28]).map encode = some 0x2000001C ∧ assemble "ROMRD" [29] = none
    ∧ assemble "RDREG" [65536] = none ∧ assemble "RDROW" [] = none := by decide

/-- R106: an illegal word is refused. -/
theorem test_step_illegal : refusalOf (step (wordNext 0x05000000)) = some (.illegalWord .unknownOpcode) := by decide

/-! ## Lifecycle (file 95, Part 3) -/

/-- L2: both providers answer ok. -/
theorem test_init_ok :
    after (exec .init { State.reset with env := world [.ok] [.ok] [] })
      (fun t => ((t.en, t.hnd, t.ok), (t.lastCode, t.lastInfo), t.calls))
      = some ((true, true, true), (.none, 0), [.load, .init]) := by decide

/-- L4: the provider's `init` is refused with code 5. -/
theorem test_init_refused :
    after (exec .init { State.reset with env := world [.ok] [.refused 5] [] })
      (fun t => ((t.en, t.hnd, t.ok), (t.lastCode, t.lastInfo), t.calls))
      = some ((false, false, false), (.initFailure, 5), [.load, .init]) := by decide

/-- L11, S6: DEINIT with the handle held calls `deinit` once. -/
theorem test_deinit :
    after (exec .deinit enabled) (fun t => ((t.en, t.hnd, t.ok), t.calls)) = some ((false, false, true), [.deinit]) := by decide

/-- S6: DEINIT from reset calls nothing. -/
theorem test_deinit_uninitialized :
    after (exec .deinit State.reset) (fun t => ((t.en, t.hnd, t.ok), t.calls)) = some ((false, false, true), []) := by decide

/-- L9 and L10. -/
theorem test_isinit :
    after (exec .isinit State.reset) State.ok = some false ∧ after (exec .isinit enabled) State.ok = some true := by decide

/-- L7: after an init failure with code 5. -/
theorem test_geterr :
    after (exec .geterr { State.reset with lastCode := .initFailure, lastInfo := 5 })
      (fun t => (t.res8, t.resx, t.ok, t.lastCode, t.lastInfo)) = some (Reg.of 2, Reg.of 5, true, .initFailure, 5) := by decide

/-! ## Register access (file 95, Part 4) -/

/-- X1: the eight events of a read access. -/
theorem test_rdreg :
    after (exec (.rdreg 0xC540) { enabled with ecmem := hold [(0xC540, [0x2D])] })
      (fun t => (t.res8, t.ok, t.rw, t.trace))
      = some (Reg.of 0x2D, true, false, [
          .write .ecseq 0x4E 0x2E, .write .ecseq 0x4F 0x2F, .write .ecseq 0x4E 0x11, .write .ecseq 0x4F 0xC5,
          .write .ecseq 0x4E 0x10, .write .ecseq 0x4F 0x40, .write .ecseq 0x4E 0x12, .read .ecseq 0x4F 0x2D]) := by decide

/-- F2: the payload read of RDREG faults. -/
theorem test_rdreg_fault :
    after (exec (.rdreg 0xC540) { faulty 7 with ecmem := hold [(0xC540, [0x2D])] })
      (fun t => (t.res8.known, t.ok, t.lastCode, t.lastInfo, t.stepNo, t.trace.length))
      = some (false, false, .unexpectedFault, 0, 0, 7) := by decide

/-- X2: the eight events of a write access, and the byte stored. -/
theorem test_wrreg :
    after (exec (.wrreg 0xC5E1 0x3C) enabled) (fun t => (t.ecmem, t.ok, t.rw, t.trace))
      = some (hold [(0xC5E1, [0x3C])], true, true, [
          .write .ecseq 0x4E 0x2E, .write .ecseq 0x4F 0x2F, .write .ecseq 0x4E 0x11, .write .ecseq 0x4F 0xC5,
          .write .ecseq 0x4E 0x10, .write .ecseq 0x4F 0xE1, .write .ecseq 0x4E 0x12, .write .ecseq 0x4F 0x3C]) := by decide

/-- X4: silent degradation. -/
theorem test_wrreg_disabled :
    after (exec (.wrreg 0xC540 0x55) State.reset) (fun t => (t.ecmem, t.ok, t.trace)) = some ([], true, []) := by decide

/-! ## Arrays, ROM, rows (file 95, Part 4) -/

/-- A1. -/
theorem test_rdarr :
    after (exec (.rdarr 0xC540 10) { enabled with ecmem := hold [(0xC540, cfg0[0])] })
      (fun t => (t.xbuf, t.ok, t.ar, t.base, t.trace.length))
      = some (hold [(0, cfg0[0])], true, 0xC549, 0xC540, 80) := by decide +kernel

/-- A3, second half: the element addresses wrap. -/
theorem test_rdarr_wraps :
    after (exec (.rdarr 0xFFFE 3) { enabled with ecmem := hold [(0xFFFE, [0x0A, 0x14]), (0x0000, [0x1E])] })
      (fun t => (t.xbuf, t.target)) = some (hold [(0, [0x0A, 0x14, 0x1E])], latchedAt cfgpRef 0x0000) := by decide

/-- A3, first half. -/
theorem test_wrarr_wraps :
    after (exec (.wrarr 0xFFFE 3) { enabled with xbuf := hold [(0, [0x0A, 0x14, 0x1E])] })
      (fun t => (t.ecmem, t.ok, t.trace.length)) = some (hold [(0xFFFE, [0x0A, 0x14]), (0x0000, [0x1E])], true, 24) := by decide

/-- F1: the gateway faults element 1, row 3. -/
theorem test_wrarr_fault :
    after (exec (.wrarr 0xC560 3)
        { faulty 11 with xbuf := hold [(0, [1, 2, 3])], ecmem := hold [(0xC560, [0xAA, 0xAA, 0xAA])] })
      (fun t => ((t.ecmem, t.ok, t.lastCode), t.target, t.trace.length))
      = some ((hold [(0xC560, [0x01, 0xAA, 0xAA])], false, .unexpectedFault),
          ⟨Reg.of 0x11, Reg.of 0x2F, Reg.of 0xC5, Reg.of 0x60⟩, 11) := by decide

/-- A6. -/
theorem test_romrd :
    after (exec (.romrd 9) State.reset) (fun t => (t.res16, t.ok)) = some (Reg.of 0xC5D0, true)
    ∧ after (exec (.romrd 28) enabled) (fun t => (t.res16, t.ok)) = some (Reg.of 0xC609, true) := by decide

/-- A7, second half. -/
theorem test_rdrow :
    after (exec (.rdrow 2) { enabled with ecmem := hold [(0xC560, [1, 2, 3, 4, 5, 6, 7, 8, 9, 10])] })
      (fun t => (t.xbuf, t.ok, t.trace.length)) = some (hold [(0, [1, 2, 3, 4, 5, 6, 7, 8, 9, 10])], true, 80) := by decide +kernel

/-- A7, first half: the live registers stay. -/
theorem test_wrrow :
    after (exec (.wrrow 2) { enabled with
        xbuf := hold [(0, [1, 2, 3, 4, 5, 6, 7, 8, 9, 10])], ecmem := hold [(0xC604, [0xEE, 0xEE, 0xEE, 0xEE])] })
      (fun t => (t.ecmem, t.ok, t.trace.length))
      = some (hold [(0xC604, [0xEE, 0xEE, 0xEE, 0xEE]), (0xC560, [1, 2, 3, 4, 5, 6, 7, 8, 9, 10])], true, 80) := by decide +kernel

/-- A5: an unloaded `XBUF`. -/
theorem test_wrrow_unloaded : faultOf (exec (.wrrow 2) enabled) = some (.readUnspecified (.host (.xbuf 0))) := by decide

/-! ## The controller (file 95, Parts 6, 7, 8) -/

/-- Part 6. -/
theorem test_pct :
    pct 2600 5200 = 50 ∧ pct 1508 5200 = 29 ∧ pct 5199 5200 = 99 ∧ pct 5200 5200 = 100 ∧ pct 65535 1 = 6553500
    ∧ pct 1234 0 = 0 := by decide

/-- S3: RDSTAT on an uninitialized controller. -/
theorem test_rdstat_uninitialized :
    after (exec .rdstat State.reset) (fun t => (t.ok, t.lastCode, t.lastInfo, t.stat, t.trace))
      = some (false, .notInitialized, 0, Stat.reset, []) := by decide

/-- F3: the 17th port operation of RDSTAT faults; fan 1's speed is new, fan 2's is not. -/
theorem test_rdstat_fault :
    after (exec .rdstat { faulty 16 with ecmem := hold [(0xC5E0, [0x28, 0x0A])] })
      (fun t => (t.ok, t.lastCode, t.stat.fan1Speed, t.stat.fan2Speed.known, t.trace.length))
      = some (false, .unexpectedFault, Reg.of 2600, false, 16) := by decide

/-- C7: one byte, widened. -/
theorem test_fw_ver :
    done (forEach readScalar [scalarReads[3]] { enabled with ecmem := hold [(0xC2C7, [0xFF, 0x12])] })
      (fun t => (t.stat.fwVer, t.trace.length)) = some (Reg.of 0x00FF, 8) := by decide

/-- P4: the percentages of its two speeds. -/
theorem test_percentages :
    (derivePcts { enabled with stat := { Stat.reset with fan1Speed := Reg.of 2600, fan2Speed := Reg.of 1508 } }).stat.fan1Pct
        = Reg.of 50
    ∧ (derivePcts { enabled with stat := { Stat.reset with fan1Speed := Reg.of 2600, fan2Speed := Reg.of 1508 } }).stat.fan2Pct
        = Reg.of 30 := by decide

/-- S2 (e): `CFG.len[5] = 9`; nothing is issued. -/
theorem test_wrcfg_shape :
    after (exec .wrcfg { loaded 3 with cfg := (loaded 3).cfg.set 5 ⟨Reg.of 9, []⟩ })
      (fun t => (t.ok, t.lastCode, t.lastInfo, t.trace)) = some (false, .invalidShape, 0, []) := by decide

/-- C1: the lifecycle check comes before the shape check. -/
theorem test_wrcfg_uninitialized :
    after (exec .wrcfg State.reset) (fun t => (t.ok, t.lastCode, t.trace)) = some (false, .notInitialized, []) := by decide

/-- C2, `k = 9`: the refresh takes the last entries; nine accesses. -/
theorem test_refresh :
    done (refreshDerived (loaded 9))
      (fun t => ([0xC602, 0xC603, 0xC604, 0xC605, 0xC606, 0xC607].map t.ecmem.byteAt, t.lastCode, t.trace.length))
      = some ([some 0x2D, some 0x2A, some 1, some 1, some 6, some 6], .none, 72) := by decide +kernel

/-- C2, `k = 0x0A`: the refresh skips the live registers and warns; five accesses. -/
theorem test_refresh_skips :
    done (refreshDerived (loaded 0x0A))
      (fun t => ([0xC602, 0xC603, 0xC604, 0xC607].map t.ecmem.byteAt, t.lastCode, t.trace.length))
      = some ([some 0x2D, some 0x2A, some 0xEE, some 0xEE], .partialWriteWarning, 40) := by decide

/-! ## The reference target alone (file 95, Part 5) -/

/-- G1: the index latch is read unwritten. -/
theorem test_target_unwritten :
    faultOf (step { State.reset with env := resting [.foreignWrite 0x4F 0x00] })
      = some (.readUnspecified (.latch .idx)) := by decide

/-- G6: a sequence without rows 2 and 3 addresses another register. -/
theorem test_target_wrong_register :
    after (step { State.reset with
        ecmem := hold [(0xC540, [0x2D]), (0x1240, [0x77])]
        env := resting [.foreignWrite 0x4E 0x2E, .foreignWrite 0x4F 0x2F, .foreignWrite 0x4E 0x11, .foreignWrite 0x4F 0x12,
          .foreignWrite 0x4E 0x2E, .foreignWrite 0x4F 0x2F, .foreignWrite 0x4E 0x10, .foreignWrite 0x4F 0x40,
          .foreignWrite 0x4E 0x12, .foreignRead 0x4F] })
      (fun t => t.trace.getLast?) = some (some (.read .foreign 0x4F 0x77)) := by decide

/-- G8 and G9: no selector matches; a read of the address port. -/
theorem test_target_unmodelled :
    refusalOf (step { State.reset with env := resting [.foreignWrite 0x4E 0x2E, .foreignWrite 0x4F 0x2F,
        .foreignWrite 0x4E 0x33, .foreignWrite 0x4F 0x01] }) = some .targetUnmodelled
    ∧ refusalOf (step { State.reset with env := resting [.foreignRead 0x4E] }) = some .targetUnmodelled := by decide

/-! ## One port operation per step (R10, D30) -/

/-- X1 step by step: after the acceptance and three port operations, `BUSY = 1` and `STEP = 3`. -/
theorem test_issue_midway :
    after (runSteps 4 { enabled with ecmem := hold [(0xC540, [0x2D])], host := [.issue 0x10C54000] })
      (fun t => ((t.busy, t.stepNo, t.phase), t.target.idx, t.trace))
      = some ((true, 3, some (.access .rdreg)), Reg.of 0x11,
          [.write .ecseq 0x4E 0x2E, .write .ecseq 0x4F 0x2F, .write .ecseq 0x4E 0x11]) := by decide

/-- X1 to its end: the acceptance, eight port operations, the completion. -/
theorem test_issue_rdreg :
    after (runSteps 10 { enabled with ecmem := hold [(0xC540, [0x2D])], host := [.issue 0x10C54000] })
      (fun t => ((t.res8, t.ok, t.busy), t.stepNo, t.phase, t.trace.length))
      = some ((Reg.of 0x2D, true, false), 0, none, 8) := by decide

/-- F1 step by step: the fault at element 1, row 3 ends the command in that step. -/
theorem test_issue_fault :
    after (runSteps 13 { faulty 11 with
        xbuf := hold [(0, [1, 2, 3])], ecmem := hold [(0xC560, [0xAA, 0xAA, 0xAA])], host := [.issue 0x13C56003] })
      (fun t => ((t.ecmem, t.ok, t.busy), t.lastCode, t.target, t.trace.length))
      = some ((hold [(0xC560, [0x01, 0xAA, 0xAA])], false, false), .unexpectedFault,
          ⟨Reg.of 0x11, Reg.of 0x2F, Reg.of 0xC5, Reg.of 0x60⟩, 11) := by decide

/-- L4 step by step: the acceptance, `load`, `init`, the completion. -/
theorem test_issue_init :
    after (runSteps 4 { State.reset with env := world [.ok] [.refused 5] [], host := [.issue 0x01000000] })
      (fun t => ((t.en, t.hnd, t.ok, t.busy), (t.lastCode, t.lastInfo), t.calls))
      = some ((false, false, false, false), (.initFailure, 5), [.load, .init]) := by decide

/-- R80: the EC moves on after WRREG's last bus event. -/
theorem test_settle :
    after (step { enabled with
        cfgp := { cfgpRef with volatile := [0xC534] }, env := ⟨[], [], fine 8, [[.ecUpdate 0xC534 7]], 0, 0, 0⟩,
        host := [.command 0x11C5343C] })
      (fun t => (t.ecmem, t.ok, t.trace.length)) = some (hold [(0xC534, [7])], true, 8) := by decide

/-- C6, the tachometer part: the EC moves on between the two reads. -/
theorem test_torn_tachometer :
    done (readTach romFan1TachL romFan1TachH (fun v st => { st with fan1Speed := Reg.of v }) { enabled with
        cfgp := { cfgpRef with volatile := [0xC5E0, 0xC5E1] }
        ecmem := hold [(0xC5E0, [0xFF, 0x0A])]
        env := world [] [] (fine 8 ++ [⟨[.ecUpdate 0xC5E0 0x00, .ecUpdate 0xC5E1 0x0B], .complete⟩] ++ fine 7) })
      (fun t => t.stat.fan1Speed) = some (Reg.of 3071) := by decide

/-! ## States and operands that meet the statements' hypotheses -/

theorem reference_ready : State.reset.Ready := by decide

theorem enabled_ready : enabled.Ready := by decide

theorem enabled_quiet (n : Nat) : quietFor enabled.cfgp n enabled.env = true := quietFor_plain _ n rfl rfl

theorem witness_DecodeInvertsEncode :
    Instr.wf (.romrd 28) = true ∧ Instr.wf (.rdrow 9) = true ∧ Instr.wf (.wrarr 0xFFFF 255) = true := by decide

theorem witness_DecodedWordIsItsEncoding : decode 0x2000001C = .ok (.romrd 28) := by decide

theorem witness_WordsSelectOneRow :
    ∃ r ∈ opcodeRows, r.mnemonic = "WRROW" ∧ r.selects 0x22000009 = true ∧ r.selects 0x2200000A = false := by decide

/-- A word next in `CMD`, for a step that carries it out whole and for one that accepts it; each kind of illegal word. -/
theorem witness_IllegalWordsAreRefused :
    (wordNext 0x2100000A).Ready ∧ (wordNext 0x2100000A).host = .command 0x2100000A :: []
    ∧ ({ State.reset with host := [.issue 0x10C54001] } : State).Ready := by decide

theorem witness_StepRunsTheDecodedCommand :
    (wordNext 0x03000000).Ready ∧ (wordNext 0x03000000).host = .command 0x03000000 :: []
    ∧ decode 0x03000000 = .ok .isinit := by decide

theorem witness_EncodedCommandRunsNext : State.reset.Ready ∧ Instr.wf (.wrrow 9) = true := by decide

/-- A state between two port operations of an access to `a`: `BUSY` set, `STEP` at `j`. -/
def midway (c : Cfgp) (a : Addr) (w : Bool) (j : BitVec 3) : State :=
  { enabled with
    cfgp := c, busy := true, phase := some (.access (if w then .wrreg else .rdreg)), ar := a, dr := 0x3C, rw := w, stepNo := j,
    target := latchesAfter c a Target.unspecified j.toNat }

/-- The three clauses at their ends: `STEP` 0 and 6; 7 of a write; 7 of a read of a listed register and of one in `VOLATILE`. -/
theorem witness_PortStepIsOneRow (s : State)
    (h : s = midway cfgpRef 0xC540 false 0 ∨ s = midway cfgpRef 0xFFFF true 6 ∨ s = midway cfgpRef 0xC540 true 7
      ∨ s = { midway cfgpRef 0xFFFF false 7 with ecmem := hold [(0xFFFF, [1])] }
      ∨ s = midway { cfgpRef with volatile := [0xC534] } 0xC534 false 7) :
    configOk s.cfgp = true ∧ s.busy = true ∧ s.phase = some (.access (if s.rw then .wrreg else .rdreg)) ∧ s.en = true
      ∧ quietFor s.cfgp 1 s.env = true ∧ s.target = latchesAfter s.cfgp s.ar Target.unspecified s.stepNo.toNat
      ∧ (s.stepNo ≠ 7 ∨ s.rw = true ∨ readable s s.ar) := by
  rcases h with rfl | rfl | rfl | rfl | rfl
  · exact ⟨reference_ready.1, rfl, rfl, rfl, enabled_quiet 1, rfl, .inl (by decide)⟩
  · exact ⟨reference_ready.1, rfl, rfl, rfl, enabled_quiet 1, rfl, .inl (by decide)⟩
  · exact ⟨reference_ready.1, rfl, rfl, rfl, enabled_quiet 1, rfl, .inr (.inl rfl)⟩
  · exact ⟨reference_ready.1, rfl, rfl, rfl, enabled_quiet 1, rfl, .inr (.inr (.inl (by decide)))⟩
  · exact ⟨by decide, rfl, rfl, rfl, quietFor_plain _ 1 rfl rfl, rfl, .inr (.inr (.inr (by decide)))⟩

/-- A command without a port operation, one with a thousand and more, and one in an environment that faults. -/
theorem witness_PortStepsMakeTheCommand :
    (enabled.Ready ∧ enabled.phase = none ∧ decode 0x03000000 = .ok .isinit ∧ decode 0x12FFFEFF = .ok (.rdarr 0xFFFE 255))
    ∧ (faulty 3).Ready ∧ (faulty 3).phase = none := by decide

/-- At the limits of R7: each configuration differs from the reference one in one field. -/
theorem witness_IllFormedConfigurationsAreRefused :
    configOk { cfgpRef with pData := 0x4E } = false ∧ configOk { cfgpRef with ixHi := 0x2E } = false
    ∧ configOk { cfgpRef with dcrExtEn := true } = false
    ∧ configOk { cfgpRef with cfgLmax := 11 } = true ∧ configOk { cfgpRef with cfgLmax := 10 } = false
    ∧ configOk { cfgpRef with xbufSize := 255 } = true ∧ configOk { cfgpRef with xbufSize := 254 } = false := by decide

/-- At the limits of R7's clauses on the register map: a row that wraps or just does not, rows that meet, an entry in a row,
two entries the same, `DCR4` the same as another entry. -/
theorem witness_IllFormedConfigurationsAreRefused_rom :
    configOk { cfgpRef with rom := romRef.set 0 0xFFF7 } = false ∧ configOk { cfgpRef with rom := romRef.set 0 0xFFF6 } = true
    ∧ configOk { cfgpRef with rom := romRef.set 0 0xC547 } = false ∧ configOk { cfgpRef with rom := romRef.set 0 0xC546 } = true
    ∧ configOk { cfgpRef with rom := romRef.set 10 0xC549 } = false
    ∧ configOk { cfgpRef with rom := romRef.set 10 0xC54A } = true
    ∧ configOk { cfgpRef with rom := romRef.set 26 0xC600 } = false
    ∧ configOk { cfgpRef with rom := romRef.set 27 0xC600 } = true := by decide

/-- A busy state, and one with a command in progress whose step leads on. -/
theorem witness_NothingIsTakenWhileBusy :
    configOk ({ State.reset with busy := true } : State).cfgp = true ∧ Instr.wf .init = true
    ∧ (midway cfgpRef 0xC540 true 3).phase ≠ none ∧ ∃ t, step (midway cfgpRef 0xC540 true 3) = .next t :=
  ⟨by decide, by decide, by decide, _, eq_nextOf (by decide)⟩

/-- The clauses: nothing to do; no foreign master; one scripted step of the EC; nothing scripted. -/
theorem witness_IdleStepOnlyLetsTheEcMove :
    enabled.Ready ∧ enabled.host = [] ∧ enabled.env.noForeign = true
    ∧ (let s := { enabled with cfgp := { cfgpRef with volatile := [0xC534] }, env := resting [.ecUpdate 0xC534 7] }
       (0xC534 : Addr) ∈ s.cfgp.volatile ∧ s.env.rests = [.ecUpdate 0xC534 7] :: [] ∧ s.env.noForeign = true)
    ∧ enabled.cfgp.volatile = [] ∧ enabled.env.rests = [] := by decide

theorem witness_ResetLeavesTheStatedValues :
    (moveNext .reset { State.reset with ok := true, res8 := Reg.of 5 }).Ready
    ∧ (moveNext .reset { State.reset with ok := true, res8 := Reg.of 5 }).hnd = false := by decide

theorem witness_ResetWithHandleIsRefused : (moveNext .reset enabled).Ready ∧ (moveNext .reset enabled).hnd = true := by decide

/-- INIT's four ways, the third at the largest code of 32 bits. -/
theorem witness_InitTakesItsFourWays :
    (enabled.Ready ∧ enabled.en = true)
    ∧ (let s := { State.reset with env := world [.fail] [] [] }
       s.Ready ∧ s.en = false ∧ (drawLoad s.env).1 = .fail)
    ∧ (let s := { State.reset with env := world [.ok] [.refused 0xFFFFFFFF] [] }
       s.Ready ∧ s.en = false ∧ (drawLoad s.env).1 = .ok ∧ (drawInit (drawLoad s.env).2).1 = .refused 0xFFFFFFFF
         ∧ 0xFFFFFFFF < 2 ^ s.cfgp.statusW)
    ∧ (let s := { State.reset with env := world [.ok] [.ok] [] }
       s.Ready ∧ s.en = false ∧ (drawLoad s.env).1 = .ok ∧ (drawInit (drawLoad s.env).2).1 = .ok) := by decide

/-- The hypothesis of DeinitReleasesAndDisables, IsinitReportsEnable, GeterrReportsLastError and RomrdLooksUpTheMap, with the
handle held and not. -/
theorem witness_DeinitReleasesAndDisables :
    (enabled.Ready ∧ enabled.hnd = true) ∧ State.reset.Ready ∧ State.reset.hnd = false := by decide

theorem witness_IsinitReportsEnable : (enabled.Ready ∧ enabled.en = true) ∧ State.reset.Ready ∧ State.reset.en = false := by
  decide

theorem witness_GeterrReportsLastError : ({ enabled with lastCode := .unexpectedFault } : State).Ready := by decide

theorem witness_RomrdLooksUpTheMap : enabled.Ready ∧ State.reset.Ready ∧ 28 < (29 : Byte).toNat := by decide

theorem witness_CompositeCommandsNeedInitialized : State.reset.Ready ∧ State.reset.en = false := by decide

/-- A register with a byte listed, and one in `VOLATILE` that nothing has written. -/
theorem witness_RdregReadsTheRegister :
    (let s := { enabled with ecmem := hold [(0xFFFF, [0x2D])] }
     s.Ready ∧ s.en = true ∧ quietFor s.cfgp 8 s.env = true ∧ readable s 0xFFFF)
    ∧ (let s := { enabled with cfgp := { cfgpRef with volatile := [0xC534] } }
       s.Ready ∧ s.en = true ∧ quietFor s.cfgp 8 s.env = true ∧ readable s 0xC534) :=
  ⟨⟨by decide, rfl, enabled_quiet 8, .inl (by decide)⟩, by decide, rfl, quietFor_plain _ 8 rfl rfl, .inr (by decide)⟩

/-- RDREG; RDARR at its first and its last element. -/
theorem witness_ReadsOfUnspecifiedRegistersFault :
    enabled.Ready ∧ enabled.en = true ∧ quietFor enabled.cfgp 8 enabled.env = true ∧ ¬ readable enabled 0xC540
    ∧ (let s := { enabled with ecmem := fill 0x11 (arrayAddrs 0xFFFE 2) }
       2 < (3 : BitVec 8).toNat ∧ quietFor s.cfgp (8 * 2 + 8) s.env = true ∧ (∀ a ∈ arrayAddrs 0xFFFE 2, readable s a)
         ∧ ¬ readable s (elemAddr 0xFFFE (BitVec.ofNat 8 2))) :=
  ⟨enabled_ready, rfl, enabled_quiet 8, by rintro (h | h) <;> revert h <;> decide, by decide, enabled_quiet _,
    fun a ha => .inl (fill_holds _ _ a ha), by rintro (h | h) <;> revert h <;> decide⟩

/-- RDSTAT at its first read and at its last (vector C8). -/
theorem witness_ReadsOfUnspecifiedRegistersFault_rdstat :
    ((rdstatAddrs cfgpRef)[0]? = some 0xC5E0 ∧ ¬ readable enabled 0xC5E0)
    ∧ (let s := { enabled with ecmem := fill 0x11 ((rdstatAddrs cfgpRef).take 112) }
       quietFor s.cfgp (8 * 112 + 8) s.env = true ∧ (rdstatAddrs s.cfgp)[112]? = some 0xC534
         ∧ (∀ b ∈ (rdstatAddrs s.cfgp).take 112, readable s b) ∧ ¬ readable s 0xC534) :=
  ⟨⟨by decide, by rintro (h | h) <;> revert h <;> decide⟩, enabled_quiet _, by decide,
    fun a ha => .inl (fill_holds _ _ a ha), by rintro (h | h) <;> revert h <;> decide +kernel⟩

/-- WRCFG at each of its three reads. -/
theorem witness_ReadsOfUnspecifiedRegistersFault_wrcfg (m : Memory)
    (hm : m = [] ∨ m = hold [(0xC600, [1])] ∨ m = hold [(0xC600, [1, 2])]) :
    let s := { loaded 0 with ecmem := m }
    let b : Fin 10 → Nat → Byte := fun k i => (cfg0[k]).getD i 0
    quietFor s.cfgp 872 s.env = true ∧ (∀ k : Fin 10, s.cfg[k].len = Reg.of 10)
      ∧ (∀ (k : Fin 10) (i : Nat), i < 10 → s.cfg[k].bytes.byteAt i = some (b k i))
      ∧ (¬ readable s s.cfgp.rom[18] ∨ readable s s.cfgp.rom[18] ∧ ¬ readable s s.cfgp.rom[19]
        ∨ readable s s.cfgp.rom[18] ∧ readable s s.cfgp.rom[19] ∧ ¬ readable s s.cfgp.rom[22]) := by
  rcases hm with rfl | rfl | rfl
  · exact ⟨enabled_quiet _, by decide, by decide, .inl (by rintro (h | h) <;> revert h <;> decide)⟩
  · exact ⟨enabled_quiet _, by decide, by decide, .inr (.inl ⟨.inl (by decide), by rintro (h | h) <;> revert h <;> decide⟩)⟩
  · exact ⟨enabled_quiet _, by decide, by decide,
      .inr (.inr ⟨.inl (by decide), .inl (by decide), by rintro (h | h) <;> revert h <;> decide⟩)⟩

theorem witness_WrregWritesTheRegister :
    enabled.Ready ∧ enabled.en = true ∧ quietFor enabled.cfgp 8 enabled.env = true :=
  ⟨enabled_ready, rfl, enabled_quiet 8⟩

theorem witness_SingleAccessIsSilentWhenDisabled : State.reset.Ready ∧ State.reset.en = false := by decide

/-- S1's instance: `WRREG 0xC540, 0xAA`, then an access to `0xC541`. -/
theorem witness_WriteThenReadReturnsTheByte :
    ∃ t u : State, enabled.Ready ∧ enabled.en = true ∧ (0xC540 : Addr) ∉ enabled.cfgp.volatile
      ∧ enabled.env.noForeign = true
      ∧ (∀ i ∈ [Instr.wrreg 0xC541 0x55], ∃ b : Addr, b ≠ 0xC540 ∧ (i = .rdreg b ∨ ∃ x, i = .wrreg b x))
      ∧ exec (.wrreg 0xC540 0xAA) enabled = .next t ∧ t.ok = true
      ∧ runCommands [.wrreg 0xC541 0x55] t = .next u ∧ u.en = true ∧ quietFor u.cfgp 8 u.env = true := by
  refine ⟨_, _, enabled_ready, rfl, by decide, by decide, ?_, eq_nextOf (by decide), by decide, eq_nextOf (by decide),
    by decide, by decide⟩
  intro i hi
  exact ⟨0xC541, by decide, .inr ⟨0x55, by simpa using hi⟩⟩

/-- The fault before the first port operation and before the last. -/
theorem witness_GatewayFaultCutsAnAccess :
    ((faulty 0).Ready ∧ (faulty 0).en = true ∧ faultAfter (faulty 0).cfgp 0 (faulty 0).env = true)
    ∧ (faulty 7).Ready ∧ (faulty 7).en = true ∧ faultAfter (faulty 7).cfgp 7 (faulty 7).env = true := by decide

theorem witness_PowerLossCutsAnAccess :
    (let s := { enabled with env := world [] [] [⟨[], .powerLoss⟩] }
     s.Ready ∧ s.en = true ∧ s.env.slots = List.replicate 0 ⟨[], .complete⟩ ++ ⟨[], .powerLoss⟩ :: [])
    ∧ (let s := { enabled with env := world [] [] (fine 7 ++ [(⟨[], .powerLoss⟩ : Slot)]) }
       s.Ready ∧ s.en = true ∧ s.env.slots = List.replicate 7 ⟨[], .complete⟩ ++ ⟨[], .powerLoss⟩ :: []) := by decide

/-- The last entry of a row of the reference map. -/
theorem witness_ElementAddressesWrap : configOk cfgpRef = true ∧ (9 : BitVec 8).toNat < 10 := by decide

/-- RDARR of no element, of three across the wrap, of 255, and RDROW of the last table. -/
theorem witness_ArrayReadFillsXbuf (base : Addr) (n : BitVec 8)
    (_ : (base, n) = (0xC540, 0) ∨ (base, n) = (0xFFFE, 3) ∨ (base, n) = (0x1000, 255) ∨ (base, n) = (tableBase cfgpRef 9, 10)) :
    let s := { enabled with ecmem := fill 0x11 (arrayAddrs base n.toNat) }
    s.Ready ∧ s.en = true ∧ quietFor s.cfgp (8 * n.toNat) s.env = true
      ∧ (∀ a ∈ arrayAddrs base n.toNat, readable s a) :=
  ⟨enabled_ready, rfl, enabled_quiet _, fun a ha => .inl (fill_holds _ _ a ha)⟩

/-- The row form's own hypothesis. -/
theorem witness_ArrayReadFillsXbuf_row :
    ∃ k : Fin 10, Instr.rdrow 9 = .rdrow (BitVec.ofNat 8 k.val) ∧ (0xC5D0 : Addr) = tableBase cfgpRef k
      ∧ (10 : BitVec 8) = 10 := ⟨9, by decide, by decide, rfl⟩

/-- WRARR of three elements across the wrap; of none. -/
theorem witness_ArrayWriteStoresXbuf :
    (let s := { enabled with xbuf := hold [(0, [0x0A, 0x14, 0x1E])] }
     let vs : List Byte := [0x0A, 0x14, 0x1E]
     s.Ready ∧ s.en = true ∧ quietFor s.cfgp (8 * (3 : BitVec 8).toNat) s.env = true
       ∧ vs.length = (3 : BitVec 8).toNat ∧ ∀ k, k < (3 : BitVec 8).toNat → s.xbuf.byteAt k = vs[k]?)
    ∧ quietFor enabled.cfgp (8 * (0 : BitVec 8).toNat) enabled.env = true
        ∧ ([] : List Byte).length = (0 : BitVec 8).toNat
        ∧ ∀ k, k < (0 : BitVec 8).toNat → enabled.xbuf.byteAt k = ([] : List Byte)[k]? :=
  ⟨⟨enabled_ready, rfl, enabled_quiet _, by decide, by decide⟩, enabled_quiet _, by decide, by decide⟩

theorem witness_ArraysAreSilentWhenDisabled :
    let s := { State.reset with xbuf := hold [(0, [1, 2, 3])] }
    s.Ready ∧ s.en = false ∧ ∀ k, k < (3 : BitVec 8).toNat → s.xbuf.byteAt k ≠ none := by decide

/-- `XBUF[0]` loaded and `XBUF[1]` not, with `EN` clear and set. -/
theorem witness_UnwrittenBufferBytesFault :
    (let s := { State.reset with xbuf := hold [(0, [7])] }
     s.Ready ∧ s.en = false ∧ 1 < (2 : BitVec 8).toNat ∧ s.xbuf.byteAt 1 = none ∧ ∀ k, k < 1 → s.xbuf.byteAt k ≠ none)
    ∧ (let s := { enabled with xbuf := hold [(0, [7])] }
       s.Ready ∧ quietFor s.cfgp (8 * 1) s.env = true ∧ 1 < (2 : BitVec 8).toNat ∧ s.xbuf.byteAt 1 = none
         ∧ ∀ k, k < 1 → s.xbuf.byteAt k ≠ none) := by decide

/-- The last length not set; the last byte of the last table not written, and the first byte of the first. -/
theorem witness_UnwrittenBufferBytesFault_wrcfg :
    (let s := { loaded 3 with cfg := (loaded 3).cfg.set 9 ⟨⟨0, false⟩, []⟩ }
     s.Ready ∧ s.en = true ∧ s.cfg[(9 : Fin 10)].len.known = false ∧ ∀ l : Fin 10, l < 9 → s.cfg[l].len = Reg.of 10)
    ∧ (let s := { loaded 3 with cfg := (loaded 3).cfg.set 9 ⟨Reg.of 10, hold [(0, [1, 2, 3, 4, 5, 6, 7, 8, 9])]⟩ }
       s.Ready ∧ s.en = true ∧ (∀ l : Fin 10, s.cfg[l].len = Reg.of 10) ∧ s.cfg[(9 : Fin 10)].bytes.byteAt 9 = none
         ∧ quietFor s.cfgp (80 * 9 + 8 * 9) s.env = true
         ∧ ∀ (l : Fin 10) (x : Nat), x < 10 → l < 9 ∨ l = 9 ∧ x < 9 → s.cfg[l].bytes.byteAt x ≠ none)
    ∧ (let s := { loaded 3 with cfg := (loaded 3).cfg.set 0 ⟨Reg.of 10, []⟩ }
       s.Ready ∧ (∀ l : Fin 10, s.cfg[l].len = Reg.of 10) ∧ s.cfg[(0 : Fin 10)].bytes.byteAt 0 = none) :=
  ⟨by decide, ⟨enabled_ready, rfl, by decide, by decide, enabled_quiet _, by decide⟩, by decide⟩

/-- The first port operation of the first element and the last of the last, for a read and a write across the wrap. -/
theorem witness_GatewayFaultCutsAnArray (q j : Nat) (h : (q, j) = (0, 0) ∨ (q, j) = (2, 7)) :
    let s := { faulty (8 * q + j) with
      xbuf := hold [(0, [0x0A, 0x14, 0x1E])], ecmem := fill 0x11 (arrayAddrs 0xFFFE q) }
    let b : Nat → Byte := fun k => [0x0A, 0x14, 0x1E].getD k 0
    s.Ready ∧ s.en = true ∧ q < (3 : BitVec 8).toNat ∧ j < 8 ∧ faultAfter s.cfgp (8 * q + j) s.env = true
      ∧ (∀ a ∈ arrayAddrs 0xFFFE q, readable s a) ∧ ∀ k, k ≤ q → s.xbuf.byteAt k = some (b k) := by
  simp only [Prod.mk.injEq] at h
  rcases h with ⟨rfl, rfl⟩ | ⟨rfl, rfl⟩
  all_goals
    exact ⟨⟨by decide, rfl⟩, rfl, by decide, by decide, faulty_fault _, fun a ha => .inl (fill_holds _ _ a ha), by decide⟩

/-- RDSTAT cut at its first port operation and at its last. -/
theorem witness_GatewayFaultCutsRdstat (q j : Nat) (a : Addr)
    (h : (q, j, a) = (0, 0, 0xC5E0) ∨ (q, j, a) = (112, 7, 0xC534)) :
    let s := { faulty (8 * q + j) with ecmem := fill 0x11 ((rdstatAddrs cfgpRef).take q) }
    s.Ready ∧ s.en = true ∧ (rdstatAddrs s.cfgp)[q]? = some a ∧ j < 8 ∧ faultAfter s.cfgp (8 * q + j) s.env = true
      ∧ ∀ b ∈ (rdstatAddrs s.cfgp).take q, readable s b := by
  simp only [Prod.mk.injEq] at h
  rcases h with ⟨rfl, rfl, rfl⟩ | ⟨rfl, rfl, rfl⟩
  all_goals
    exact ⟨⟨by decide, rfl⟩, rfl, by decide, by decide, faulty_fault _, fun b hb => .inl (fill_holds _ _ b hb)⟩

/-- WRCFG cut at its first port operation, at its last, and never for want of the access (current point 10). -/
theorem witness_GatewayFaultCutsWrcfg (q j : Nat) (p : Byte)
    (h : (q, j, p) = (0, 0, 9) ∨ (q, j, p) = (108, 7, 9) ∨ (q, j, p) = (105, 0, 10)) :
    let s := { loaded p with cfgp := (faulty 0).cfgp, env := (faulty (8 * q + j)).env }
    let b : Fin 10 → Nat → Byte := fun k i => (cfg0[k]).getD i 0
    s.Ready ∧ s.en = true ∧ q < 109 ∧ j < 8 ∧ faultAfter s.cfgp (8 * q + j) s.env = true
      ∧ (∀ k : Fin 10, s.cfg[k].len = Reg.of 10)
      ∧ (∀ (k : Fin 10) (i : Nat), i < 10 → s.cfg[k].bytes.byteAt i = some (b k i))
      ∧ readable s s.cfgp.rom[18] ∧ readable s s.cfgp.rom[19] ∧ readable s s.cfgp.rom[22] := by
  simp only [Prod.mk.injEq] at h
  rcases h with ⟨rfl, rfl, rfl⟩ | ⟨rfl, rfl, rfl⟩ | ⟨rfl, rfl, rfl⟩
  all_goals
    exact ⟨⟨by decide, rfl⟩, rfl, by decide, by decide, faulty_fault _, by decide, by decide, .inl (by decide),
      .inl (by decide), .inl (by decide)⟩

theorem witness_PctIsTheFlooredQuotient :
    (0 : BitVec 16) = 0 ∧ (5200 : BitVec 16) ≠ 0 ∧ (51 : BitVec 16).toNat ≤ (52 : BitVec 16).toNat := by decide

theorem witness_RdstatFillsTheSnapshot :
    let s := { enabled with ecmem := fill 0x11 (rdstatAddrs cfgpRef) }
    s.Ready ∧ s.en = true ∧ quietFor s.cfgp 904 s.env = true ∧ ∀ a ∈ rdstatAddrs s.cfgp, readable s a :=
  ⟨enabled_ready, rfl, enabled_quiet _, fun a ha => .inl (fill_holds _ _ a ha)⟩

/-- The first and the last length off by one; the last also with `EN = 0`. -/
theorem witness_WrcfgRefusesABadShape :
    (let s := { loaded 3 with cfg := (loaded 3).cfg.set 0 ⟨Reg.of 9, []⟩ }
     s.Ready ∧ s.en = true ∧ (∀ k : Fin 10, s.cfg[k].len.known = true) ∧ ∃ k : Fin 10, s.cfg[k].len.val ≠ 10)
    ∧ (let s := { loaded 3 with cfg := (loaded 3).cfg.set 9 ⟨Reg.of 11, []⟩ }
       s.Ready ∧ s.en = true ∧ (∀ k : Fin 10, s.cfg[k].len.known = true) ∧ ∃ k : Fin 10, s.cfg[k].len.val ≠ 10)
    ∧ (let s := { State.reset with cfg := (loaded 3).cfg.set 9 ⟨Reg.of 11, []⟩ }
       s.Ready ∧ s.en = false ∧ (∀ k : Fin 10, s.cfg[k].len.known = true) ∧ ∃ k : Fin 10, s.cfg[k].len.val ≠ 10) := by decide

/-- The current point at both sides of the bound: 9 and 10. -/
theorem witness_WrcfgWritesTablesAndRefreshes (p : Byte) (hp : p = 9 ∨ p = 10) :
    let s := loaded p
    let b : Fin 10 → Nat → Byte := fun k i => (cfg0[k]).getD i 0
    s.Ready ∧ s.en = true ∧ quietFor s.cfgp 872 s.env = true ∧ (∀ k : Fin 10, s.cfg[k].len = Reg.of 10)
      ∧ (∀ (k : Fin 10) (i : Nat), i < 10 → s.cfg[k].bytes.byteAt i = some (b k i))
      ∧ readable s s.cfgp.rom[18] ∧ readable s s.cfgp.rom[19] ∧ readable s s.cfgp.rom[22] := by
  rcases hp with rfl | rfl
  all_goals exact ⟨by decide, rfl, enabled_quiet _, by decide, by decide, .inl (by decide), .inl (by decide), .inl (by decide)⟩

/-- The invariant holds of the reset state with ISINIT in `CMD`, and between two port operations; each step leads on. -/
theorem witness_EveryStepKeepsTheInvariant :
    (wordNext 0x03000000).Inv ∧ (∃ t, step (wordNext 0x03000000) = .next t)
    ∧ (midway cfgpRef 0xC540 true 3).Inv ∧ (∃ t, step (midway cfgpRef 0xC540 true 3) = .next t)
    ∧ ∃ t, exec .isinit State.reset = .next t :=
  ⟨by decide, ⟨_, eq_nextOf (by decide)⟩, by decide, ⟨_, eq_nextOf (by decide)⟩, _, eq_nextOf (by decide)⟩

theorem witness_ConfigurationIsConstant : ∃ t, step (wordNext 0x11C54055) = .next t := ⟨_, eq_nextOf (by decide)⟩

theorem witness_OnlyLifecycleCommandsWriteEnable :
    enabled.env.noPowerLoss = true ∧ ∃ t, exec (.wrreg 0xC540 0x55) enabled = .next t := ⟨by decide, _, eq_nextOf (by decide)⟩

theorem witness_ResultRegistersHaveTheirWriters :
    enabled.env.noPowerLoss = true ∧ ∃ t, exec (.romrd 28) enabled = .next t := ⟨by decide, _, eq_nextOf (by decide)⟩

theorem witness_BuffersHaveTheirWriters :
    State.reset.env.noPowerLoss = true ∧ ∃ t, exec (.rdarr 0xC540 3) State.reset = .next t :=
  ⟨by decide, _, eq_nextOf (by decide)⟩

/-- One command that records nothing and one the gateway's fault ends. -/
theorem witness_RawCommandsRecordOnlyGatewayFaults :
    (enabled.env.noPowerLoss = true ∧ ∃ t, exec .geterr enabled = .next t)
    ∧ (faulty 3).env.noPowerLoss = true ∧ ∃ t, exec (.rdreg 0xC540) (faulty 3) = .next t :=
  ⟨⟨by decide, _, eq_nextOf (by decide)⟩, by decide, _, eq_nextOf (by decide)⟩

/-- Each way a command ends with `OK = 0`. -/
theorem witness_FailuresAreNamed :
    after (exec .isinit State.reset) State.ok = some false
    ∧ after (exec .init { State.reset with env := world [.fail] [] [] }) State.ok = some false
    ∧ after (exec .rdstat State.reset) State.ok = some false
    ∧ after (exec .wrcfg { loaded 3 with cfg := (loaded 3).cfg.set 9 ⟨Reg.of 11, []⟩ }) State.ok = some false
    ∧ after (exec (.rdreg 0xC540) (faulty 3)) State.ok = some false
    ∧ State.reset.env.noPowerLoss = true ∧ (faulty 3).env.noPowerLoss = true := by decide

theorem witness_PortTraceIsMadeOfAccesses :
    (∃ t, exec (.wrreg 0xC540 0x55) enabled = .next t) ∧ ∃ t, exec (.wrreg 0xC540 0x55) State.reset = .next t :=
  ⟨⟨_, eq_nextOf (by decide)⟩, _, eq_nextOf (by decide)⟩

/-- Each of the nine commands completes somewhere. -/
theorem witness_ReadingCommandsStoreNothing :
    State.reset.env.noForeign = true
    ∧ ([.deinit, .isinit, .geterr, .rdreg 0xC540, .rdarr 0xC540 2, .romrd 28, .rdrow 9, .rdstat] : List Instr).all
        (fun i => (after (exec i State.reset) fun _ => ()).isSome) = true
    ∧ (after (exec .init { State.reset with env := world [.ok] [.ok] [] }) fun _ => ()).isSome = true := by decide

/-- WRREG and WRARR at the wrap and WRROW of the last table, with `EN = 1`; WRCFG with a bad shape. -/
theorem witness_StoringCommandsStoreOnlyTheirRegisters :
    (let s := { enabled with xbuf := hold [(0, [1, 2, 3, 4, 5, 6, 7, 8, 9, 10])] }
     configOk s.cfgp = true ∧ s.env.noForeign = true
       ∧ ([.wrreg 0xFFFF 1, .wrarr 0xFFFF 2, .wrrow 9] : List Instr).all
           (fun i => (after (exec i s) fun _ => ()).isSome) = true)
    ∧ (after (exec .wrcfg { loaded 3 with cfg := (loaded 3).cfg.set 9 ⟨Reg.of 11, []⟩ }) fun _ => ()).isSome = true := by decide

theorem witness_CommandsNeverLeaveTheTarget : enabled.env.noForeign = true := by decide

/-- The five clauses of the data port: each index value, and an index that selects nothing. -/
theorem witness_DataPortActsOnTheSelectedRegister (ix sel : Byte)
    (_ : (ix, sel) ∈ ([(0x2E, 0x2F), (0x11, 0x2F), (0x10, 0x2F), (0x12, 0x2F), (0x12, 0x00), (0x33, 0x2F)] : List (Byte × Byte))) :
    let m := hold [(0xC540, [0x2D])]
    let s := { enabled with target := ⟨Reg.of ix, Reg.of sel, Reg.of 0xC5, Reg.of 0x40⟩, ecmem := m }
    configOk s.cfgp = true ∧ s.target = ⟨Reg.of ix, Reg.of sel, Reg.of 0xC5, Reg.of 0x40⟩
      ∧ m.byteAt ((0xC5 : Byte) ++ (0x40 : Byte)).toNat = some 0x2D := ⟨reference_ready.1, rfl, by decide⟩

theorem witness_OtherPortEventsLeaveTheTarget : (0x80 : Port) ≠ enabled.cfgp.pAddr ∧ (0x80 : Port) ≠ enabled.cfgp.pData := by
  decide

theorem witness_EcUpdateWritesVolatileOnly :
    (0xC534 : Addr) ∈ ({ cfgpRef with volatile := [0xC534] } : Cfgp).volatile
    ∧ (0xC535 : Addr) ∉ ({ cfgpRef with volatile := [0xC534] } : Cfgp).volatile := by decide

/-- Each move at its limit: all of `XBUF` and one byte more, its last place and the next; a table of `CFG_LMAX` bytes and one
more, a length of `CFG_LMAX` and one more; the last byte of a table, the next, and one of a table whose length is not set. -/
theorem witness_HostLoadsHoldTheirBytes :
    (moveNext (.setXbuf 255 1) State.reset).Ready ∧ State.reset.cfgp.xbufSize = 256 ∧ State.reset.cfgp.cfgLmax = 255
    ∧ (List.replicate 256 (1 : Byte)).length ≤ 256 ∧ ¬ (List.replicate 257 (1 : Byte)).length ≤ 256
    ∧ (List.replicate 255 (1 : Byte)).length ≤ 255 ∧ ¬ (List.replicate 256 (1 : Byte)).length ≤ 255
    ∧ ((loaded 3).cfg[(4 : Fin 10)].len.known = true ∧ 9 < (loaded 3).cfg[(4 : Fin 10)].len.val)
    ∧ (¬ 10 < (loaded 3).cfg[(4 : Fin 10)].len.val) ∧ State.reset.cfg[(4 : Fin 10)].len.known = false := by
  refine ⟨reference_ready, by decide, by decide, ?_, ?_, ?_, ?_, by decide, by decide, by decide⟩
  all_goals rw [List.length_replicate]
  all_goals decide

/-- A place something has written, one nothing has, and one past the end of `XBUF`. -/
theorem witness_HostReadsWrittenResultsOnly :
    ((moveNext (.read .res8) { State.reset with res8 := Reg.of 0 }).Ready ∧ (Reg.of (0 : Byte)).known = true)
    ∧ ((moveNext (.read .res8) State.reset).Ready ∧ State.reset.res8.known = false)
    ∧ ((moveNext (.read (.xbuf 255)) State.reset).Ready ∧ 255 < State.reset.cfgp.xbufSize)
    ∧ State.reset.cfgp.xbufSize ≤ 256 := by decide

end Sys2Proof.Tests
end

/-! # What a command does at its start, in any environment -/

namespace Sys2Proof.Proofs
open Sys2Proof Sys2Proof.Machine Sys2Proof.Laws

/-- Every register a command may write. -/
def mayAll : May :=
  { enable := true, res8 := true, res16 := true, resx := true, xbuf := true, stat := true, err := true }

theorem kept_all {w : May} {s t : State} (h : Kept w s t) : Kept mayAll s t where
  cfgp := h.cfgp
  enable := nofun
  busy := h.busy
  ok := h.ok
  res8 := nofun
  res16 := nofun
  resx := nofun
  xbuf := nofun
  stat := nofun
  err := nofun
  cfg := h.cfg
  host := h.host
  seen := h.seen
  phase := h.phase
  power := h.power
  inv := h.inv

/-- What holds in `t` where a command begun with `STEP` at `n` is about to be at phase `p`: `load` only while Uninitialized, an
array read at one of its elements, and `STEP` still `n` outside an access. -/
def FitsPhase (n : BitVec 3) (p : Phase) (t : State) : Prop :=
  match p with
  | .load => t.en = false ∧ t.stepNo = n
  | .init => False
  | .deinit => t.stepNo = n
  | .access .rdarr => t.idx.toNat < t.cnt.toNat
  | .access _ => True
  | .complete _ => t.stepNo = n

theorem fitsPhase_of_reached {s t : State} {p : Phase} (h : Reached s p t) : FitsPhase s.stepNo p t := by
  cases p with
  | access x => cases x <;> exact h
  | complete b => exact h
  | load => exact h.elim
  | init => exact h.elim
  | deinit => exact h.elim

theorem fitsPhase_of_atPhase {t : State} {p : Phase} (h : AtPhase p t) : FitsPhase 0 p t := by
  cases p with
  | access x => cases x <;> exact h
  | complete b => exact h
  | load => exact h.elim
  | init => exact h.elim
  | deinit => exact h.elim

/-- A command's start in `r`, from `s`: what is kept, and the phase it is first at; nothing is cut. -/
def Starts (s : State) (r : Res Phase) : Prop :=
  Sat (fun p t => Kept mayAll s t ∧ FitsPhase s.stepNo p t) (fun _ _ => False) (fun _ => True) (fun _ => True) r

theorem starts_of_prepares {s : State} {r : Res Phase} (h : Prepares s r) : Starts s r :=
  h.mono (fun _ _ ⟨hk, hr⟩ => ⟨kept_all hk, fitsPhase_of_reached hr⟩) (fun _ _ h => h) (fun _ h => h) fun _ h => h

theorem starts_completes {w : May} {s t : State} (b : Bool) (hk : Kept w s t) (hs : t.stepNo = s.stepNo) :
    Starts s (completes b t) := ⟨kept_all hk, hs⟩

theorem starts_rdarr (b : Addr) (n : BitVec 8) (s : State) : Starts s (beginRdarr b n s) :=
  starts_of_prepares ((prepares_readOn 0 _ (prepares_completes true _)).from (kept_loadArray _ b n s) rfl)

theorem starts_wrarr (b : Addr) (n : BitVec 8) (s : State) : Starts s (beginWrarr b n s) :=
  starts_of_prepares ((prepares_writeOn (by simp) 0 _ (fun _ _ => ⟨_, _, rfl⟩) (prepares_completes true _)).from
    (kept_loadArray _ b n s) rfl)

@[simp] theorem entryClear_en (s : State) : (entryClear s).en = s.en := by rw [entryClear_eq]

@[simp] theorem entryClear_stepNo (s : State) : (entryClear s).stepNo = s.stepNo := by rw [entryClear_eq]

/-- DEINIT without a handle only clears `EN` (R137). -/
theorem kept_disable (s : State) (hh : s.hnd = false) : Kept mayAll s { s with en := false } :=
  ⟨rfl, nofun, rfl, rfl, nofun, nofun, nofun, nofun, nofun, nofun, rfl, rfl, rfl, rfl, id,
    fun _ ⟨h1, h2, h3, h4, h5, _, h7⟩ => ⟨h1, h2, h3, h4, h5, hh, h7⟩⟩

/-- WRCFG's start past the lifecycle check: the shape check, then the first table (R202, R203). -/
theorem prepares_wrcfg (s : State) :
    Prepares s ((shapeOk tableIds s).bind fun fits s =>
      if fits then beginCfgRow 0 s else completes false (raise .invalidShape 0 s)) := by
  have hsame := (shapeOk_same tableIds s).mono (R' := fun _ => True) (fun _ _ h => h) (fun _ _ h => h) (fun _ h => h)
    fun _ _ => trivial
  refine hsame.bind ?_
  rintro fits _ rfl
  split
  · exact prepares_cfgRow 0 _
  · exact (prepares_completes false _).from (kept_raise _ rfl .invalidShape _) rfl

theorem start_sat (i : Instr) (s : State) : Starts s (start i s) := by
  cases i with
  | init =>
    simp only [start]
    split
    · exact starts_completes true (Kept.refl {} s) rfl
    · rename_i he
      exact ⟨kept_all (kept_entryClear mayAll rfl s), by simpa using he, entryClear_stepNo s⟩
  | deinit =>
    simp only [start]
    split
    · exact ⟨Kept.refl _ s, rfl⟩
    · rename_i hh
      exact starts_completes true (kept_disable s (by simpa using hh)) rfl
  | isinit => exact starts_completes s.en (Kept.refl {} s) rfl
  | geterr => exact starts_completes true (kept_res mayAll s _ s.res16 _ nofun nofun nofun) rfl
  | rdreg a => exact starts_of_prepares (prepares_access (by simp) (kept_readBegun _ a s))
  | wrreg a d => exact starts_of_prepares (prepares_access (by simp) (kept_writeBegun _ a d s))
  | rdarr b n => exact starts_rdarr b n s
  | wrarr b n => exact starts_wrarr b n s
  | romrd k =>
    simp only [start]
    split
    · exact starts_completes true (kept_res mayAll s s.res8 _ s.resx nofun nofun nofun) rfl
    · trivial
  | rdrow t =>
    simp only [start]
    split
    · exact starts_rdarr _ 10 s
    · trivial
  | wrrow t =>
    simp only [start]
    split
    · exact starts_wrarr _ 10 s
    · trivial
  | rdstat =>
    simp only [start]
    split
    · exact starts_of_prepares ((prepares_romRead (by simp) _ _).from (kept_entryClear _ rfl s) (entryClear_stepNo s))
    · exact starts_completes false (kept_raise mayAll rfl .notInitialized s) rfl
  | wrcfg =>
    simp only [start]
    split
    · exact starts_of_prepares ((prepares_wrcfg (entryClear s)).from (kept_entryClear _ rfl s) (entryClear_stepNo s))
    · exact starts_completes false (kept_raise mayAll rfl .notInitialized s) rfl

end Sys2Proof.Proofs

/-! # The invariant: every step and every command keeps it -/

namespace Sys2Proof.Proofs
open Sys2Proof Sys2Proof.Machine Sys2Proof.Laws

/-! ## The invariant as the part that holds inside a command and what is said of the phase -/

theorem invBody_of_inv {s : State} (h : s.Inv) (hh : s.hnd = s.en) : InvBody s := by
  obtain ⟨hec, hecb, hx, hxb, hcfg, -, -, -, hlast, hinfo, hfw⟩ := h
  exact ⟨hec, hecb, hx, hxb, hcfg, hh, hlast, hinfo, hfw⟩

theorem busy_of_inv {s : State} (h : s.Inv) : s.busy = s.phase.isSome := by
  obtain ⟨-, -, -, -, -, hb, -⟩ := h
  exact hb

theorem handle_of_inv {s : State} (h : s.Inv) : s.handleInOrder = true := by
  obtain ⟨-, -, -, -, -, -, hh, -⟩ := h
  exact hh

theorem engine_of_inv {s : State} (h : s.Inv) : s.engineInOrder = true := by
  obtain ⟨-, -, -, -, -, -, -, he, -⟩ := h
  exact he

theorem inv_of_invBody {s : State} (h : InvBody s) (hb : s.busy = s.phase.isSome) (hh : s.handleInOrder = true)
    (he : s.engineInOrder = true) : s.Inv := by
  obtain ⟨hec, hecb, hx, hxb, hcfg, -, hlast, hinfo, hfw⟩ := h
  exact ⟨hec, hecb, hx, hxb, hcfg, hb, hh, he, hlast, hinfo, hfw⟩

/-- ECSEQ at rest, in order: no command in progress, `STEP` 0 (R23, R25). -/
structure AtRest (s : State) : Prop where
  body : InvBody s
  busy : s.busy = false
  phase : s.phase = none
  step : s.stepNo = 0

theorem AtRest.handle {s : State} (h : AtRest s) : s.hnd = s.en := by
  obtain ⟨-, -, -, -, -, hh, -⟩ := h.body
  exact hh

theorem AtRest.inv {s : State} (h : AtRest s) : s.Inv :=
  inv_of_invBody h.body (by simp [h.busy, h.phase]) (by simp [State.handleInOrder, h.phase, h.handle])
    (by simp [State.engineInOrder, h.phase, h.step])

theorem atRest_of_inv {s : State} (h : s.Inv) (hb : s.busy = false) : AtRest s := by
  have hp : s.phase = none := by simpa [hb] using busy_of_inv h
  exact ⟨invBody_of_inv h (by simpa [State.handleInOrder, hp] using handle_of_inv h), hb, hp,
    by simpa [State.engineInOrder, hp] using engine_of_inv h⟩

/-- A state that fits a phase is in order once a command in progress is at it. -/
theorem inv_withPhase {p : Phase} {t : State} (h : FitsPhase 0 p t) (hi : InvBody t) (hb : t.busy = true) :
    (withPhase (some p) t).Inv := by
  have hh : t.hnd = t.en := by obtain ⟨-, -, -, -, -, hh, -⟩ := hi; exact hh
  refine inv_of_invBody hi hb ?_ ?_
  · cases p with
    | load => simp [State.handleInOrder, withPhase, hh, h.1]
    | init => exact h.elim
    | _ => simp [State.handleInOrder, withPhase, hh]
  · cases p with
    | access x =>
      cases x with
      | rdarr => exact decide_eq_true h
      | _ => rfl
    | load => exact beq_iff_eq.mpr h.2
    | init => exact h.elim
    | deinit => exact beq_iff_eq.mpr h
    | complete b => exact beq_iff_eq.mpr h

/-! ## Where ECSEQ comes to rest -/

theorem AtRest.between {s t : State} (h : AtRest s) (hc : configOk s.cfgp = true) (hb : Between s t) : AtRest t :=
  ⟨hb.inv hc h.body, hb.busy.trans h.busy, hb.phase.trans h.phase, hb.step.trans h.step⟩

theorem settle_atRest {o : Host.Outcome State Fault Refusal} {t : State} (h : settle o = .next t)
    (ho : ∀ u, o = .next u → configOk u.cfgp = true ∧ AtRest u) : AtRest t := by
  obtain ⟨u, hu, hb, -⟩ := settle_next h
  obtain ⟨hc, hr⟩ := ho u hu
  exact hr.between hc hb

theorem finish_atRest {s : State} (b : Bool) (hi : InvBody s) (hp : s.phase = none) (h0 : s.stepNo = 0) :
    AtRest (finish b s) := ⟨hi, rfl, hp, h0⟩

/-- A gateway fault leaves ECSEQ at rest wherever it strikes (R228). -/
theorem takeGatewayFault_atRest {s : State} (hc : configOk s.cfgp = true) (hi : InvBody s) (hp : s.phase = none) :
    AtRest (takeGatewayFault s) :=
  ⟨(kept_raise mayAll rfl .unexpectedFault s).inv hc hi, rfl, hp, rfl⟩

theorem resetTable_inOrder (c : Cfgp) (t : Fin 10) : (State.resetWith c).cfg[t].inOrder c = true := by
  simp [State.resetWith, CfgTable.inOrder, Memory.wf, Memory.below]

/-- A reset leaves ECSEQ at rest wherever it strikes (R250, R252). -/
theorem resetInstance_atRest {s : State} (hi : InvBody s) : AtRest (resetInstance s) := by
  obtain ⟨hec, hecb, -⟩ := hi
  exact ⟨⟨hec, hecb, rfl, rfl, resetTable_inOrder s.cfgp, rfl, fun _ => rfl, Nat.two_pow_pos _,
    (by decide : hiByte (0 : BitVec 16) = 0)⟩, rfl, rfl, rfl⟩

/-! ## Commands carried out whole -/

/-- A command from rest, however it ends, leads back to rest. -/
theorem exec_atRest {i : Instr} {s t : State} (hs : AtRest s) (h : exec i s = .next t) : AtRest t := by
  obtain ⟨-, ⟨hc, -⟩, -⟩ := exec_next h
  have hbody {w : May} {u : State} (hk : Kept w (accept s) u) : InvBody u := hk.inv hc hs.body
  have hphase {w : May} {u : State} (hk : Kept w (accept s) u) : u.phase = none := hk.phase.trans hs.phase
  rcases exec_acts h with ⟨b, u, hu, rfl⟩ | ⟨u, hu, rfl⟩ | ⟨u, hu, rfl⟩
  · exact finish_atRest b (hbody hu.toKept) (hphase hu.toKept) (hu.step hs.step)
  · exact takeGatewayFault_atRest (hu.cfgp ▸ hc) (hbody hu.toKept) (hphase hu.toKept)
  · exact resetInstance_atRest (hbody hu.toKept)

theorem exec_cfgp {i : Instr} {s t : State} (h : exec i s = .next t) : t.cfgp = s.cfgp := by
  rcases exec_acts h with ⟨b, u, hu, rfl⟩ | ⟨u, hu, rfl⟩ | ⟨u, hu, rfl⟩ <;> exact hu.cfgp

/-! ## Moves of the host -/

theorem setTable_inOrder {s : State} {t : Fin 10} {x : CfgTable} (hx : x.inOrder s.cfgp = true)
    (h : ∀ k : Fin 10, s.cfg[k].inOrder s.cfgp = true) (k : Fin 10) : (setTable t x s).cfg[k].inOrder s.cfgp = true := by
  simp only [setTable_cfg, Fin.getElem_fin, Vector.getElem_set]
  split
  · exact hx
  · exact h k

theorem AtRest.setTable {s : State} {t : Fin 10} {x : CfgTable} (h : AtRest s) (hx : x.inOrder s.cfgp = true) :
    AtRest (setTable t x s) := by
  obtain ⟨hec, hecb, hxb, hxbb, hcfg, hrest⟩ := h.body
  exact ⟨⟨hec, hecb, hxb, hxbb, setTable_inOrder hx hcfg, hrest⟩, h.busy, h.phase, h.step⟩

theorem AtRest.setXbuf {s : State} {m : Memory} (h : AtRest s) (hw : Memory.wf m = true)
    (hb : Memory.below s.cfgp.xbufSize m = true) : AtRest { s with xbuf := m } := by
  obtain ⟨hec, hecb, -, -, hrest⟩ := h.body
  exact ⟨⟨hec, hecb, hw, hb, hrest⟩, h.busy, h.phase, h.step⟩

theorem AtRest.xbuf {s : State} (h : AtRest s) :
    Memory.wf s.xbuf = true ∧ Memory.below s.cfgp.xbufSize s.xbuf = true := by
  obtain ⟨-, -, hw, hb, -⟩ := h.body
  exact ⟨hw, hb⟩

theorem AtRest.table {s : State} (h : AtRest s) (t : Fin 10) :
    Memory.wf s.cfg[t].bytes = true ∧ Memory.below s.cfg[t].len.val s.cfg[t].bytes = true
      ∧ s.cfg[t].len.val ≤ s.cfgp.cfgLmax := by
  obtain ⟨-, -, -, -, hcfg, -⟩ := h.body
  have := hcfg t
  simp only [CfgTable.inOrder, Bool.and_eq_true, decide_eq_true_eq] at this
  exact ⟨this.1.1, this.1.2, this.2⟩

theorem inOrder_mk {c : Cfgp} {x : CfgTable} (hw : Memory.wf x.bytes = true) (hb : Memory.below x.len.val x.bytes = true)
    (hl : x.len.val ≤ c.cfgLmax) : x.inOrder c = true := by
  simp [CfgTable.inOrder, hw, hb, hl]

/-- A move of the host, if it is not refused, changes one buffer, one table or its own record, or is a reset; it leaves ECSEQ at
rest (R28, R33, R250). -/
theorem hostMove_atRest {m : HostMove} {s t : State} (hs : AtRest s) (h : hostMove m s = .next t) :
    t.cfgp = s.cfgp ∧ AtRest t := by
  unfold hostMove at h
  rw [if_neg (by simp [hs.busy])] at h
  cases m with
  | loadXbuf bs =>
    simp only [hostLoadXbuf] at h
    split at h <;> cases h
    rename_i hl
    obtain ⟨hw, hb⟩ := hs.xbuf
    exact ⟨rfl, hs.setXbuf (wf_putMany bs _ 0 hw) (below_putMany bs _ _ 0 hb (by omega))⟩
  | setXbuf i b =>
    simp only [hostSetXbuf] at h
    split at h <;> cases h
    rename_i hi
    obtain ⟨hw, hb⟩ := hs.xbuf
    exact ⟨rfl, hs.setXbuf (wf_put _ i b hw) (below_put _ _ i b hb hi)⟩
  | loadCfg k bs =>
    simp only [hostLoadCfg] at h
    split at h <;> cases h
    rename_i hl
    exact ⟨rfl, hs.setTable (inOrder_mk (wf_putMany bs [] 0 rfl) (below_putMany bs [] _ 0 rfl (by simp [Reg.of])) hl)⟩
  | setCfgLen k n =>
    simp only [hostSetCfgLen] at h
    split at h <;> cases h
    rename_i hl
    obtain ⟨hw, -, -⟩ := hs.table k
    exact ⟨rfl, hs.setTable (inOrder_mk (wf_cutAt _ n hw) (below_cutAt _ n) hl)⟩
  | setCfgByte k i b =>
    simp only [hostSetCfgByte] at h
    split at h <;> cases h
    rename_i hi
    obtain ⟨hw, hb, hl⟩ := hs.table k
    exact ⟨rfl, hs.setTable (inOrder_mk (wf_put _ i b hw) (below_put _ _ i b hb hi.2) hl)⟩
  | read p =>
    simp only [hostRead] at h
    split at h
    · split at h <;> cases h
      exact ⟨rfl, hs.body, hs.busy, hs.phase, hs.step⟩
    · cases h
  | reset =>
    simp only [hostReset] at h
    split at h <;> cases h
    exact ⟨rfl, resetInstance_atRest hs.body⟩

/-! ## Commands carried out one unit per step -/

/-- What a unit of a command in progress leads to: a phase in order, or a cut that left the machine in order. -/
def UnitInOrder (c : Cfgp) (r : Res Phase) : Prop :=
  Sat (fun q u => (withPhase (some q) u).Inv) (fun _ u => u.cfgp = c ∧ InvBody u) (fun _ => True) (fun _ => True) r

/-- A unit that is in order leads, through the pause after it, to a state in order. -/
theorem pause_inv {c : Cfgp} (hc : configOk c = true) {r : Res Phase} {t : State} (hr : UnitInOrder c r)
    (h : pause r = .next t) : t.Inv := by
  rcases pause_next h with ⟨q, u, rfl, rfl⟩ | ⟨u, rfl, hset⟩ | ⟨u, rfl, hset⟩
  · exact hr
  · obtain ⟨rfl, hi⟩ := hr
    refine (settle_atRest hset fun v hv => ?_).inv
    cases hv
    exact ⟨hc, takeGatewayFault_atRest (s := { u with phase := none }) hc hi rfl⟩
  · obtain ⟨rfl, hi⟩ := hr
    refine (settle_atRest hset fun v hv => ?_).inv
    cases hv
    exact ⟨hc, resetInstance_atRest (s := { u with phase := none }) hi⟩

/-- INIT's call of `load` from a state in order: the handle is held and `init` comes next, or the command completes (R136). -/
theorem loadCall_inOrder {s : State} (hs : s.Inv) (hb : s.busy = true) (hp : s.phase = some .load) :
    UnitInOrder s.cfgp (loadCall s) := by
  obtain ⟨hec, hecb, hx, hxb, hcfg, -, hhandle, hengine, hlast, hinfo, hfw⟩ := hs
  have hen : s.hnd = false ∧ s.en = false := by simpa [State.handleInOrder, hp] using hhandle
  have hstep : s.stepNo = 0 := by simpa [State.engineInOrder, hp] using hengine
  unfold loadCall
  split
  · exact inv_withPhase (p := .complete false) hstep
      ⟨hec, hecb, hx, hxb, hcfg, rfl, fun _ => rfl, Nat.two_pow_pos _, hfw⟩ hb
  · exact ⟨hec, hecb, hx, hxb, hcfg, hb, by simp [State.handleInOrder, withPhase, invokeLoad, hen.2],
      beq_iff_eq.mpr hstep, hlast, hinfo, hfw⟩

/-- INIT's call of `init` from a state in order: `HND = EN` again, and the command completes (R136). -/
theorem initCall_inOrder {s : State} (hs : s.Inv) (hb : s.busy = true) (hp : s.phase = some .init) :
    UnitInOrder s.cfgp (completes (initAnswered s).1 (initAnswered s).2) := by
  obtain ⟨hec, hecb, hx, hxb, hcfg, -, hhandle, hengine, hlast, hinfo, hfw⟩ := hs
  have hen : s.hnd = true ∧ s.en = false := by simpa [State.handleInOrder, hp] using hhandle
  have hstep : s.stepNo = 0 := by simpa [State.engineInOrder, hp] using hengine
  unfold initAnswered
  dsimp only
  split
  · exact inv_withPhase (p := .complete false) hstep
      ⟨hec, hecb, hx, hxb, hcfg, rfl, fun h => absurd rfl h, Nat.mod_lt _ (Nat.two_pow_pos _), hfw⟩ hb
  · exact inv_withPhase (p := .complete true) hstep ⟨hec, hecb, hx, hxb, hcfg, hen.1, hlast, hinfo, hfw⟩ hb

/-- DEINIT's call of `deinit` (R137). -/
theorem deinitCall_inOrder {s : State} (hs : s.Inv) (hb : s.busy = true) (hp : s.phase = some .deinit) :
    UnitInOrder s.cfgp (completes true { invokeDeinit s with hnd := false, en := false }) := by
  obtain ⟨hec, hecb, hx, hxb, hcfg, -, -, hengine, hlast, hinfo, hfw⟩ := hs
  have hstep : s.stepNo = 0 := by simpa [State.engineInOrder, hp] using hengine
  exact inv_withPhase (p := .complete true) hstep ⟨hec, hecb, hx, hxb, hcfg, rfl, hlast, hinfo, hfw⟩ hb

/-- A port operation of an access (R10): another row of it, what follows it, or a cut. -/
theorem accessStep_inOrder {s : State} {x : Purpose} (hs : s.Inv) (hc : configOk s.cfgp = true) (hb : s.busy = true)
    (hp : s.phase = some (.access x)) : UnitInOrder s.cfgp (accessStep x s) := by
  have hi : InvBody s := invBody_of_inv hs (by simpa [State.handleInOrder, hp] using handle_of_inv hs)
  have helem : x = .rdarr → s.idx.toNat < s.cnt.toNat := by
    rintro rfl
    simpa [State.engineInOrder, hp] using engine_of_inv hs
  refine (accessStep_sat x s helem).mono (fun q u ⟨hk, ha⟩ => ?_) (fun c u hcut => ?_) (fun _ h => h) fun _ h => h
  · exact inv_withPhase (fitsPhase_of_atPhase ha) (hk.inv hc hi) (hk.busy.trans hb)
  · exact ⟨hcut.cfgp, hcut.inv hc hi⟩

/-- A step of a command in progress. -/
theorem portStep_inv {p : Phase} {s t : State} (hs : s.Inv) (hc : configOk s.cfgp = true) (hb : s.busy = true)
    (hp : s.phase = some p) (h : portStep p s = .next t) : t.Inv := by
  cases p with
  | load => exact pause_inv hc (loadCall_inOrder hs hb hp) h
  | init => exact pause_inv hc (initCall_inOrder hs hb hp) h
  | deinit => exact pause_inv hc (deinitCall_inOrder hs hb hp) h
  | access x => exact pause_inv hc (accessStep_inOrder hs hc hb hp) h
  | complete b =>
    have hi : InvBody s := invBody_of_inv hs (by simpa [State.handleInOrder, hp] using handle_of_inv hs)
    have h0 : s.stepNo = 0 := by simpa [State.engineInOrder, hp] using engine_of_inv hs
    change settle (.next (finish b { s with phase := none })) = .next t at h
    refine (settle_atRest h fun u hu => ?_).inv
    cases hu
    exact ⟨hc, finish_atRest (s := { s with phase := none }) b hi rfl h0⟩

/-- The step that accepts a word: its command is at its first phase, or has none and is done. -/
theorem issue_inv {i : Instr} {s t : State} (hs : AtRest s) (hc : configOk s.cfgp = true) (h : issue i s = .next t) :
    t.Inv := by
  rw [issue, if_neg (by simp [hs.busy])] at h
  have hstart := start_sat i (accept s)
  split at h
  · rename_i b u heq
    rw [heq] at hstart
    obtain ⟨hk, ho⟩ := hstart
    refine (settle_atRest h fun v hv => ?_).inv
    cases hv
    exact ⟨hk.cfgp.symm ▸ hc, finish_atRest b (hk.inv hc hs.body) (hk.phase.trans hs.phase) (Eq.trans ho hs.step)⟩
  · refine pause_inv hc (hstart.mono (fun q u ⟨hk, ho⟩ => ?_) (fun _ _ h => h.elim) (fun _ h => h) fun _ h => h) h
    exact inv_withPhase (hs.step ▸ ho) (hk.inv hc hs.body) hk.busy

/-! ## Every step -/

theorem step_inv {s t : State} (hs : s.Inv) (h : step s = .next t) : t.Inv := by
  obtain ⟨hc, hstep⟩ := step_next h
  by_cases hb : s.busy = true
  · obtain ⟨p, hp⟩ := Option.isSome_iff_exists.mp ((busy_of_inv hs).symm.trans hb)
    rw [step_busy hc hb hp] at h
    exact portStep_inv hs hc hb hp h
  · have hr : AtRest s := atRest_of_inv hs (by simpa using hb)
    have hr' (rest : List HostAction) : AtRest { s with host := rest } := ⟨hr.body, hr.busy, hr.phase, hr.step⟩
    cases hstep with
    | port p hb' _ _ => exact absurd hb' hb
    | idle _ h => exact (settle_atRest h fun u hu => by cases hu; exact ⟨hc, hr⟩).inv
    | move m rest _ h =>
      refine (settle_atRest h fun u hu => ?_).inv
      obtain ⟨hcfgp, hu⟩ := hostMove_atRest (hr' rest) hu
      exact ⟨hcfgp.symm ▸ hc, hu⟩
    | command w rest i _ _ h =>
      exact (settle_atRest h fun u hu => ⟨(exec_cfgp hu).symm ▸ hc, exec_atRest (hr' rest) hu⟩).inv
    | issue w rest i _ _ h => exact issue_inv (hr' rest) hc h

/-- Settles O43: a step is a unit of the command in progress or starts from rest; a whole command starts and ends at rest. -/
theorem everyStepKeepsTheInvariant : Obligations.EveryStepKeepsTheInvariant := by
  intro s t hs
  refine ⟨step_inv hs, fun i h => ?_⟩
  obtain ⟨-, ⟨-, hb⟩, -⟩ := exec_next h
  have ht : AtRest t := exec_atRest (atRest_of_inv hs hb) h
  exact ⟨ht.inv, ht.busy, ht.step, ht.handle⟩

end Sys2Proof.Proofs

/-! # One port operation per step (R10, R23, R150) -/

namespace Sys2Proof.Proofs
open Sys2Proof Sys2Proof.Machine Sys2Proof.Laws

theorem row_cases {n : BitVec 3} (hn : n ≠ 7) : n = 0 ∨ n = 1 ∨ n = 2 ∨ n = 3 ∨ n = 4 ∨ n = 5 ∨ n = 6 := by
  revert n; decide

/-- What a bus write of row `n` below 7 does to the latches, given those the rows before it left (R74, R75, R150, R157). -/
theorem targetWrite_row {s : State} {l : Target} {n : BitVec 3} (hn : n ≠ 7) (hp : PortsOk s.cfgp)
    (ht : s.target = latchesAfter s.cfgp s.ar l n.toNat) :
    targetWrite (portOf s.cfgp (rowAt n).port) (srcByte s (rowAt n).src) s
      = .ok () { s with target := latchesAfter s.cfgp s.ar l (n.toNat + 1) } := by
  obtain rfl | rfl | rfl | rfl | rfl | rfl | rfl := row_cases hn
  all_goals
    simp [targetWrite, targetWriteData, rowAt, stepTable, portOf, srcByte, ht, latchesAfter, latchedAt, hp.ports.symm,
      hp.cb0_ixHi.symm, hp.cb0_ixLo.symm, hp.ixHi_ixLo.symm]

/-- The event of row `n` below 7 (R150). -/
theorem preEvents_row {s : State} {n : BitVec 3} (hn : n ≠ 7) :
    ((preEvents s.cfgp s.ar).drop n.toNat).take 1
      = [.write .ecseq (portOf s.cfgp (rowAt n).port) (srcByte s (rowAt n).src)] := by
  obtain rfl | rfl | rfl | rfl | rfl | rfl | rfl := row_cases hn
  all_goals rfl

/-- Rows 0 to 6 are writes in both directions (R150). -/
theorem follows_row {n : BitVec 3} (hn : n ≠ 7) : (rowAt n).follows = false := by revert n; decide

theorem issueRow_write {r : StepRow} {s : State} (h : r.follows = false ∨ s.rw = true) :
    issueRow r s = (gwWrite (portOf s.cfgp r.port) (srcByte s r.src) s).bind fun _ t => .ok () (advance t) := by
  rw [issueRow, if_neg (by rcases h with h | h <;> simp [h])]

theorem issueRow_read {r : StepRow} {s : State} (h : r.follows = true) (hrw : s.rw = false) :
    issueRow r s = (gwRead (portOf s.cfgp r.port) s).bind fun v t => .ok () (advance { t with dr := v }) := by
  rw [issueRow, if_pos (by simp [h, hrw])]

/-- A row below 7 in a quiet environment: one bus event, one row further. -/
theorem preRow_quiet {s : State} {l : Target} (hn : s.stepNo ≠ 7) (hp : PortsOk s.cfgp) (he : s.en = true)
    (hq : quietFor s.cfgp 1 s.env = true) (ht : s.target = latchesAfter s.cfgp s.ar l s.stepNo.toNat) :
    ∃ m e, EcDrift s.cfgp.volatile s.ecmem m ∧ issueRow (rowAt s.stepNo) s = .ok () { s with
      stepNo := s.stepNo + 1, target := latchesAfter s.cfgp s.ar l (s.stepNo.toNat + 1), ecmem := m, env := e,
      trace := s.trace ++ ((preEvents s.cfgp s.ar).drop s.stepNo.toNat).take 1 } := by
  obtain ⟨m, e, hg, hd, -⟩ := gated_quiet
    (busWrite .ecseq (portOf s.cfgp (rowAt s.stepNo).port) (srcByte s (rowAt s.stepNo).src)) s 0 hq
  have hw : targetWrite (portOf s.cfgp (rowAt s.stepNo).port) (srcByte s (rowAt s.stepNo).src) { s with ecmem := m, env := e }
      = .ok () { s with ecmem := m, env := e, target := latchesAfter s.cfgp s.ar l (s.stepNo.toNat + 1) } :=
    targetWrite_row (s := { s with ecmem := m, env := e }) hn hp ht
  refine ⟨m, e, hd, ?_⟩
  rw [issueRow_write (.inl (follows_row hn)), gwWrite, if_pos he, hg, busWrite, hw, preEvents_row hn]
  rfl

/-- The payload row (R150). -/
theorem rowAt_payload {n : BitVec 3} (h7 : n = 7) : rowAt n = ⟨.data, true, .dr⟩ := by rw [h7]; rfl

/-- The payload write in a quiet environment (R75, R150): the byte stands in its register. -/
theorem payloadWrite_quiet {s : State} {l : Target} (h7 : s.stepNo = 7) (hrw : s.rw = true) (hp : PortsOk s.cfgp)
    (he : s.en = true) (hq : quietFor s.cfgp 1 s.env = true) (ht : s.target = latchesAfter s.cfgp s.ar l 7) :
    ∃ m e, EcDrift s.cfgp.volatile s.ecmem m ∧ issueRow (rowAt s.stepNo) s = .ok () { s with
      stepNo := 0, target := latchedAt s.cfgp s.ar, ecmem := m.put s.ar.toNat s.dr, env := e,
      trace := s.trace ++ [.write .ecseq s.cfgp.pData s.dr] } := by
  obtain ⟨m, e, hg, hd, -⟩ := gated_quiet (busWrite .ecseq s.cfgp.pData s.dr) s 0 hq
  have hw : targetWrite s.cfgp.pData s.dr { s with ecmem := m, env := e }
      = .ok () { s with ecmem := m.put s.ar.toNat s.dr, env := e } := by
    simp [targetWrite, hp.ports.symm, targetWriteData, ht, latchesAfter, latchedAt, hp.cb0_ixDp.symm, hp.ixHi_ixDp.symm,
      hp.ixLo_ixDp.symm, latchedAddr, writeEc]
  refine ⟨m, e, hd, ?_⟩
  rw [rowAt_payload h7, issueRow_write (.inr hrw), gwWrite, if_pos he, portOf, srcByte, hg, busWrite, hw]
  simp [advance, record, h7, ht, latchesAfter]

/-- A payload read of a register that has a byte finds it, or in `VOLATILE` a free one that then stands there (R85, U5). -/
theorem readEc_readable {s : State} {a : Addr} (hr : readable s a) :
    ∃ v m e, EcDrift s.cfgp.volatile s.ecmem m ∧ m.byteAt a.toNat = some v
      ∧ readEc a s = .ok v { s with ecmem := m, env := e } := by
  unfold readEc
  cases hbyte : s.ecmem.byteAt a.toNat with
  | some v => exact ⟨v, s.ecmem, s.env, EcDrift.refl _ _, hbyte, rfl⟩
  | none =>
    have hv : a ∈ s.cfgp.volatile := hr.resolve_left fun h => h hbyte
    rw [if_pos (by simpa using hv)]
    exact ⟨_, _, _, EcDrift.put s.ecmem _ hv, byteAt_put_same .., rfl⟩

/-- A payload read in a quiet environment of a register that has a byte (R75, R150). -/
theorem payloadRead_quiet {s : State} {l : Target} (h7 : s.stepNo = 7) (hrw : s.rw = false) (hp : PortsOk s.cfgp)
    (he : s.en = true) (hq : quietFor s.cfgp 1 s.env = true) (ht : s.target = latchesAfter s.cfgp s.ar l 7)
    (hr : readable s s.ar) :
    ∃ v m e, EcDrift s.cfgp.volatile s.ecmem m ∧ m.byteAt s.ar.toNat = some v
      ∧ issueRow (rowAt s.stepNo) s = .ok () { s with
        dr := v, stepNo := 0, target := latchedAt s.cfgp s.ar, ecmem := m, env := e,
        trace := s.trace ++ [.read .ecseq s.cfgp.pData v] } := by
  obtain ⟨m, e, hg, hd, -⟩ := gated_quiet (busRead .ecseq s.cfgp.pData) s 0 hq
  have hw : targetRead s.cfgp.pData { s with ecmem := m, env := e } = readEc s.ar { s with ecmem := m, env := e } := by
    simp [targetRead, hp.ports.symm, targetReadData, ht, latchesAfter, latchedAt, latchedAddr]
  obtain ⟨v, m', e', hd', hb, hv⟩ := readEc_readable (s := { s with ecmem := m, env := e }) (hr.imp_left (hd.listed s.ar))
  refine ⟨v, m', e', hd.trans hd', hb, ?_⟩
  rw [rowAt_payload h7, issueRow_read rfl hrw, gwRead, if_pos he, portOf, hg, busRead, hw, hv]
  simp [advance, record, h7, ht, latchesAfter]

/-- A row below 7 is followed by another row of the same access. -/
theorem next_row {n : BitVec 3} (hn : n ≠ 7) : n + 1 ≠ 0 := by revert n; decide

/-- Settles O8: the step of an access in progress is `issueRow` at `STEP`, by the row it names. -/
theorem portStepIsOneRow : Obligations.PortStepIsOneRow := by
  intro s p l hc hb hph he hq ht
  have hp := portsOk_of_configOk hc
  have hstep : step s = pause (accessStep p s) := step_busy hc hb hph
  refine ⟨fun hn => ?_, fun h7 hrw => ?_, fun h7 hrw hr => ?_⟩
  · obtain ⟨m, e, hd, hrow⟩ := preRow_quiet hn hp he hq ht
    refine ⟨m, e, ?_, hd.kept⟩
    rw [hstep, accessStep, hrow, bind_ok, if_neg (next_row hn), pause, ← hph]
  · obtain ⟨m, e, hd, hrow⟩ := payloadWrite_quiet h7 hrw hp he hq (by rw [ht, h7]; rfl)
    refine ⟨_, e, ?_, byteAt_put_same m s.ar.toNat s.dr, fun a ha hv => ?_⟩
    · rw [hstep, accessStep, hrow, bind_ok, if_pos rfl]
    · exact (byteAt_put_other m s.dr (toNat_ne ha)).trans (hd.kept a hv)
  · obtain ⟨v, m, e, hd, hbyte, hrow⟩ := payloadRead_quiet h7 hrw hp he hq (by rw [ht, h7]; rfl) hr
    refine ⟨v, m, e, ?_, hbyte, hd.kept⟩
    rw [hstep, accessStep, hrow, bind_ok, if_pos rfl]

end Sys2Proof.Proofs

/-! # Well-formed configurations (R7) -/

namespace Sys2Proof.Proofs
open Sys2Proof Sys2Proof.Machine Sys2Proof.Laws

/-! ## The tests of `configOk`, one by one -/

theorem distinct_four (a b c d : Byte) :
    distinct [a, b, c, d] = true ↔ a ≠ b ∧ a ≠ c ∧ a ≠ d ∧ b ≠ c ∧ b ≠ d ∧ c ≠ d := by
  rw [distinct_iff]
  simp only [List.nodup_cons, List.mem_cons, List.not_mem_nil, not_or, List.nodup_nil, not_false_eq_true, and_true, and_assoc,
    ne_eq]

theorem rowsApart_iff (a b : Addr) :
    rowsApart a b = true ↔ ∀ i j : Nat, i ≤ 9 → j ≤ 9 → a.toNat + i ≠ b.toNat + j := by
  simp only [rowsApart, Bool.or_eq_true, decide_eq_true_eq]
  refine ⟨fun h i j hi hj => by omega, fun h => ?_⟩
  have hle : a.toNat ≤ b.toNat → a.toNat + 9 < b.toNat := fun hab => by
    by_contra hc
    exact h (b.toNat - a.toNat) 0 (by omega) (by omega) (by omega)
  have hge : b.toNat ≤ a.toNat → b.toNat + 9 < a.toNat := fun hba => by
    by_contra hc
    exact h 0 (a.toNat - b.toNat) (by omega) (by omega) (by omega)
  exact (Nat.le_total a.toNat b.toNat).imp hle hge

theorem outsideRow_iff (base a : Addr) : outsideRow base a = true ↔ ∀ i : Nat, i ≤ 9 → base.toNat + i ≠ a.toNat := by
  simp only [outsideRow, Bool.or_eq_true, decide_eq_true_eq]
  refine ⟨fun h i hi => by omega, fun h => ?_⟩
  by_contra hc
  exact h (a.toNat - base.toNat) (by omega) (by omega)

theorem rowsApart_comm (a b : Addr) : rowsApart a b = rowsApart b a := Bool.or_comm _ _

/-! ## The lists of the register map by index -/

theorem all_rows_iff (c : Cfgp) (p : Addr → Bool) :
    (c.rom.toList.take 10).all p = true ↔ ∀ t : Fin 29, t.val < 10 → p c.rom[t] = true := by
  rw [List.all_eq_true]
  constructor
  · intro h t ht
    exact h _ (List.mem_iff_getElem.mpr ⟨t.val, by simp; omega, by simp⟩)
  · intro h x hx
    obtain ⟨n, hn, rfl⟩ := List.mem_iff_getElem.mp hx
    have hn' : n < 10 := by simp at hn; omega
    simpa using h ⟨n, by omega⟩ hn'

theorem all_singles_iff (c : Cfgp) (p : Addr → Bool) :
    (c.rom.toList.drop 10).all p = true ↔ ∀ k : Fin 29, 10 ≤ k.val → p c.rom[k] = true := by
  rw [List.all_eq_true]
  constructor
  · intro h k hk
    exact h _ (List.mem_iff_getElem.mpr ⟨k.val - 10, by simp; omega, by simp [show 10 + (k.val - 10) = k.val by omega]⟩)
  · intro h x hx
    obtain ⟨n, hn, rfl⟩ := List.mem_iff_getElem.mp hx
    have hn' : n < 19 := by simp at hn; omega
    simpa using h ⟨10 + n, by omega⟩ (by simp)

theorem allApart_rows_iff (c : Cfgp) :
    allApart (c.rom.toList.take 10) = true
      ↔ ∀ t u : Fin 29, t.val < 10 → u.val < 10 → t ≠ u → rowsApart c.rom[t] c.rom[u] = true := by
  rw [allApart_iff, List.pairwise_iff_getElem]
  constructor
  · intro h t u ht hu hne
    rcases Nat.lt_or_gt_of_ne fun e => hne (Fin.ext e) with hlt | hlt
    · have := h t.val u.val (by simp; omega) (by simp; omega) hlt
      simpa using this
    · have := h u.val t.val (by simp; omega) (by simp; omega) hlt
      rw [rowsApart_comm]
      simpa using this
  · intro h i j hi hj hij
    have hj' : j < 10 := by simp at hj; omega
    simpa using h ⟨i, by omega⟩ ⟨j, by omega⟩ (by simp; omega) hj' (by simp; omega)

theorem rows_outside_iff (c : Cfgp) :
    ((c.rom.toList.take 10).all fun b => (c.rom.toList.drop 10).all (outsideRow b)) = true
      ↔ ∀ t k : Fin 29, t.val < 10 → 10 ≤ k.val → outsideRow c.rom[t] c.rom[k] = true := by
  simp only [all_rows_iff, all_singles_iff]
  exact ⟨fun h t k ht hk => h t ht k hk, fun h t ht k hk => h t k ht hk⟩

theorem distinct_singles_iff (c : Cfgp) :
    distinct ((c.rom.toList.drop 10).take 17) = true
      ↔ ∀ k l : Fin 29, 10 ≤ k.val → k.val ≤ 26 → 10 ≤ l.val → l.val ≤ 26 → k ≠ l → c.rom[k] ≠ c.rom[l] := by
  rw [distinct_iff, List.Nodup, List.pairwise_iff_getElem]
  constructor
  · intro h k l hk hk' hl hl' hne
    have hlt (a b : Fin 29) (ha : 10 ≤ a.val) (hb : b.val ≤ 26) (hab : a.val < b.val) : c.rom[a] ≠ c.rom[b] := by
      have := h (a.val - 10) (b.val - 10) (by simp; omega) (by simp; omega) (by omega)
      simpa [show 10 + (a.val - 10) = a.val by omega, show 10 + (b.val - 10) = b.val by omega] using this
    rcases Nat.lt_or_gt_of_ne fun e => hne (Fin.ext e) with h' | h'
    · exact hlt k l hk hl' h'
    · exact (hlt l k hl hk' h').symm
  · intro h i j hi hj hij
    have hj' : j < 17 := by simp at hj; omega
    simpa using h ⟨10 + i, by omega⟩ ⟨10 + j, by omega⟩ (by simp) (by simp; omega) (by simp) (by simp; omega) (by simp; omega)

/-! ## The obligation -/

theorem configOk_reference : configOk cfgpRef = true := by decide

theorem step_illFormed {s : State} (h : configOk s.cfgp = false) : step s = .refused .illFormedConfig := by
  rw [step, if_neg (by simp [h])]

theorem exec_illFormedConfig {s : State} {i : Instr} (h : configOk s.cfgp = false) (hi : i.wf = true) :
    exec i s = .refused .illFormedConfig := by
  rw [exec_wf i s hi, runCommand, if_neg (by simp [h])]

/-- Settles O10: each test of `configOk` is one condition of R7, and `step` and `runCommand` test it first. -/
theorem illFormedConfigurationsAreRefused : Obligations.IllFormedConfigurationsAreRefused := by
  refine ⟨fun c => ?_, configOk_reference, fun _ h => ⟨step_illFormed h, fun _ hi => exec_illFormedConfig h hi⟩⟩
  simp only [configOk, Bool.and_eq_true, bne_iff_ne, Bool.not_eq_true', decide_eq_true_eq, distinct_four, rows_outside_iff,
    allApart_rows_iff, distinct_singles_iff, rowsApart_iff, outsideRow_iff, and_assoc]
  simp only [all_rows_iff, decide_eq_true_eq]

end Sys2Proof.Proofs

/-! # A command one unit per step ends as the command carried out whole (R10, R11, D30) -/

namespace Sys2Proof.Proofs
open Sys2Proof Sys2Proof.Machine Sys2Proof.Laws

/-! ## How many steps are left of a command in progress -/

/-- A bound on the accesses that may still follow the one in progress (R153, R154, R172, R173, R195, R201). -/
def accessesLeft : Purpose → State → Nat
  | .rdreg, _ => 0
  | .wrreg, _ => 0
  | .rdarr, s => s.cnt.toNat - (s.idx.toNat + 1)
  | .wrarr, s => s.cnt.toNat - (s.idx.toNat + 1)
  | .tachLow .fan1, _ => 112
  | .tachHigh .fan1 _, _ => 111
  | .tachLow .fan2, _ => 110
  | .tachHigh .fan2 _, _ => 109
  | .statRow t, s => (9 - t.val) * 10 + 9 + (s.cnt.toNat - (s.idx.toNat + 1))
  | .scalar n, _ => 8 - n.val
  | .cfgRow t, s => (9 - t.val) * 10 + 9 + (s.cnt.toNat - (s.idx.toNat + 1))
  | .curve .fan1, _ => 8
  | .duty .fan1, _ => 7
  | .curve .fan2, _ => 6
  | .duty .fan2, _ => 5
  | .point, _ => 4
  | .live .acc .fan1 _ _, _ => 3
  | .live .acc .fan2 _ _, _ => 2
  | .live .dec .fan1 _ _, _ => 1
  | .live .dec .fan2 _ _, _ => 0

/-- A bound on the steps left of a command at a phase, its completion not counted. -/
def stepsLeft : Phase → State → Nat
  | .load, _ => 2
  | .init, _ => 1
  | .deinit, _ => 1
  | .access p, s => 8 * accessesLeft p s + (8 - s.stepNo.toNat)
  | .complete _, _ => 0

/-- What prepares the next step in `r` leaves at most `n` accesses to be done. -/
def Within (n : Nat) (r : Res Phase) : Prop :=
  Sat (fun q t => stepsLeft q t ≤ 8 * n) (fun _ _ => True) (fun _ => True) (fun _ => True) r

theorem Within.mono {n n' : Nat} {r : Res Phase} (h : Within n r) (hn : n ≤ n') : Within n' r :=
  Sat.mono h (fun _ _ h => h.trans (Nat.mul_le_mul_left 8 hn)) (fun _ _ h => h) (fun _ h => h) fun _ h => h

theorem within_completes (n : Nat) (b : Bool) (s : State) : Within n (completes b s) := Nat.zero_le _

theorem within_access {p : Purpose} {n : Nat} {s : State} (h0 : s.stepNo = 0) (hp : accessesLeft p s + 1 = n) :
    Within n (.ok (.access p) s) := by
  simp only [Within, Sat, stepsLeft, h0, ← hp]
  simp
  omega

/-- An array read from element `i` on: what follows it is within `a` accesses, and each element left is one more. -/
theorem within_readOn {p : Purpose} {next : State → Res Phase} {a i : Nat} {s : State}
    (hp : ∀ t, accessesLeft p t = a + (t.cnt.toNat - (t.idx.toNat + 1))) (hn : Within a (next s)) :
    Within (a + (s.cnt.toNat - i)) (readOn p next i s) := by
  unfold readOn
  split
  · rename_i h
    refine within_access rfl ?_
    have hi := setIdx_toNat h
    rw [hp, readBegun_idx, readBegun_cnt, hi, setIdx_cnt]
    omega
  · exact hn.mono (Nat.le_add_right ..)

/-- An array write from element `i` on, likewise. -/
theorem within_writeOn {p : Purpose} {src : Nat → State → Res Byte} {next : State → Res Phase} {a i : Nat} {s : State}
    (hsrc : ∀ i t, ∃ f v, src i t = known f v t)
    (hp : ∀ t, accessesLeft p t = a + (t.cnt.toNat - (t.idx.toNat + 1))) (hn : Within a (next s)) :
    Within (a + (s.cnt.toNat - i)) (writeOn p src next i s) := by
  unfold writeOn
  split
  · rename_i h
    obtain ⟨f, v, hv⟩ := hsrc i (setIdx i s)
    rw [hv]
    refine sat_look (fun _ => trivial) fun v _ => ?_
    refine within_access rfl ?_
    have hi := setIdx_toNat h
    rw [hp, writeBegun_idx, writeBegun_cnt, hi, setIdx_cnt]
    omega
  · exact hn.mono (Nat.le_add_right ..)

theorem within_rdarr (i : Nat) (s : State) : Within (s.cnt.toNat - i) (readOn .rdarr (completes true) i s) := by
  have h := within_readOn (p := .rdarr) (a := 0) (i := i) (fun _ => (Nat.zero_add _).symm) (within_completes 0 true s)
  rwa [Nat.zero_add] at h

theorem within_wrarr (i : Nat) (s : State) : Within (s.cnt.toNat - i) (writeOn .wrarr xbufByte (completes true) i s) := by
  have h := within_writeOn (p := .wrarr) (src := xbufByte) (a := 0) (i := i) (fun _ _ => ⟨_, _, rfl⟩)
    (fun _ => (Nat.zero_add _).symm) (within_completes 0 true s)
  rwa [Nat.zero_add] at h

theorem within_scalar (n : Nat) (s : State) : Within (9 - n) (beginScalar n s) := by
  unfold beginScalar
  split
  · exact within_access rfl (by simp only [accessesLeft]; omega)
  · exact within_completes _ true _

theorem within_statRow (t : Nat) (s : State) : Within ((10 - t) * 10 + 9) (beginStatRow t s) := by
  unfold beginStatRow
  split
  · refine (within_readOn (a := (9 - t) * 10 + 9) (fun _ => rfl) ((within_scalar 0 _).mono (by omega))).mono ?_
    simp
    omega
  · exact (within_scalar 0 s).mono (by omega)

theorem within_refresh (s : State) : Within 9 (beginRefresh s) := within_access rfl rfl

theorem within_cfgRow (t : Nat) (s : State) : Within ((10 - t) * 10 + 9) (beginCfgRow t s) := by
  unfold beginCfgRow
  split
  · refine (within_writeOn (a := (9 - t) * 10 + 9) (fun _ _ => ⟨_, _, rfl⟩) (fun _ => rfl)
      ((within_refresh _).mono (by omega))).mono ?_
    simp
    omega
  · exact (within_refresh s).mono (by omega)

theorem within_live {t : Timing} {k : Byte} {x : Bool} {next : Bool → State → Res Phase} {n : Nat} {s : State}
    (hp : ∀ u, accessesLeft (.live t .fan1 k x) u + 1 = n) (hn : Within n (next true s)) :
    Within n (beginLive t k x next s) := by
  unfold beginLive
  refine sat_look (fun _ => trivial) fun m _ => ?_
  split
  · refine sat_look (fun _ => trivial) fun v _ => ?_
    exact within_access rfl (hp _)
  · exact hn

theorem within_dec (k : Byte) (x : Bool) (s : State) : Within 2 (beginDec k x s) :=
  within_live (fun _ => rfl) (within_completes 2 true _)

theorem within_acc (k : Byte) (s : State) : Within 4 (beginAcc k s) :=
  within_live (fun _ => rfl) ((within_dec k true s).mono (by omega))

/-- What follows an access is within the accesses that were left. -/
theorem within_after (p : Purpose) (s : State) : Within (accessesLeft p s) (afterAccess p s) := by
  cases p with
  | rdreg => exact within_completes _ true _
  | wrreg => exact within_completes _ true s
  | rdarr => exact within_rdarr _ (putXbuf s.idx.toNat s.dr s)
  | wrarr => exact within_wrarr _ s
  | tachLow f => cases f <;> exact within_access rfl rfl
  | tachHigh f low =>
    cases f with
    | fan1 => exact within_access rfl rfl
    | fan2 => exact within_statRow 0 _
  | statRow t =>
    exact within_readOn (s := putTab t s.idx.toNat s.dr s) (fun _ => rfl) ((within_statRow (t.val + 1) _).mono (by omega))
  | scalar n => exact (within_scalar (n.val + 1) _).mono (by simp only [accessesLeft]; omega)
  | cfgRow t =>
    exact within_writeOn (s := s) (fun _ _ => ⟨_, _, rfl⟩) (fun _ => rfl) ((within_cfgRow (t.val + 1) _).mono (by omega))
  | curve f => cases f <;> exact within_access rfl rfl
  | duty f => cases f <;> exact within_access rfl rfl
  | point => exact within_acc s.dr s
  | live t f k x =>
    cases t with
    | acc =>
      cases f with
      | fan1 => exact within_access rfl rfl
      | fan2 => exact within_dec k x s
    | dec =>
      cases f with
      | fan1 => exact within_access rfl rfl
      | fan2 => exact within_completes 0 true _

theorem accessesLeft_row (p : Purpose) {s t : State} (h : RowDone s t) : accessesLeft p t = accessesLeft p s := by
  cases p with
  | rdarr => simp only [accessesLeft, h.cnt, h.idx]
  | wrarr => simp only [accessesLeft, h.cnt, h.idx]
  | statRow t => simp only [accessesLeft, h.cnt, h.idx]
  | cfgRow t => simp only [accessesLeft, h.cnt, h.idx]
  | tachLow f => cases f <;> rfl
  | tachHigh f low => cases f <;> rfl
  | curve f => cases f <;> rfl
  | duty f => cases f <;> rfl
  | live t f k x => cases t <;> cases f <;> rfl
  | _ => rfl

theorem toNat_row {n : BitVec 3} (h : n + 1 ≠ 0) : (n + 1).toNat = n.toNat + 1 := by revert n; decide

/-- A step of an access brings its command nearer to its end. -/
theorem accessStep_stepsLeft (p : Purpose) (s : State) :
    Sat (fun q t => stepsLeft q t < stepsLeft (.access p) s) (fun _ _ => True) (fun _ => True) (fun _ => True)
      (accessStep p s) := by
  have hrow := (issueRow_sat (rowAt s.stepNo) s).mono (K' := fun _ _ => True) (fun _ _ h => h) (fun _ _ _ => trivial)
    (fun _ h => h) fun _ h => h
  refine hrow.bind fun _ u hu => ?_
  have hleft := accessesLeft_row p hu
  have hlt := s.stepNo.isLt
  split
  · refine Sat.mono (within_after p u) (fun q t ht => ?_) (fun _ _ h => h) (fun _ h => h) fun _ h => h
    show stepsLeft q t < 8 * accessesLeft p s + (8 - s.stepNo.toNat)
    omega
  · rename_i h0
    rw [hu.step] at h0
    have hrow := toNat_row h0
    simp only [Sat, stepsLeft, hleft, hu.step]
    omega

/-- A step of a command in progress, but for its completion, brings the command nearer to its end. -/
theorem unit_stepsLeft {p q : Phase} {s t : State} (hp : ∀ b, p ≠ .complete b) (h : unit p s = .ok q t) :
    stepsLeft q t < stepsLeft p s := by
  cases p with
  | load =>
    simp only [unit, loadCall] at h
    split at h
    · cases h; simp [stepsLeft]
    · cases h; simp [stepsLeft]
  | init => cases h; simp [stepsLeft]
  | deinit => cases h; simp [stepsLeft]
  | access x =>
    have hs := accessStep_stepsLeft x s
    rw [show accessStep x s = .ok q t from h] at hs
    exact hs
  | complete b => exact absurd rfl (hp b)

/-! ## What the steps of a command keep -/

/-- An array being read is at one of its elements. -/
def AtElement (p : Phase) (s : State) : Prop := p = .access .rdarr → s.idx.toNat < s.cnt.toNat

/-- The configuration, `BUSY`, the host's actions and the phase in the state are kept, and an array read is at an element. -/
structure Continues (s : State) (q : Phase) (t : State) : Prop where
  cfgp : t.cfgp = s.cfgp
  busy : t.busy = s.busy
  host : t.host = s.host
  phase : t.phase = s.phase
  element : AtElement q t

theorem continues_start {i : Instr} {q : Phase} {s t : State} (h : start i s = .ok q t) : Continues s q t := by
  have hs := start_sat i s
  rw [h] at hs
  obtain ⟨hk, ho⟩ := hs
  exact ⟨hk.cfgp, hk.busy, hk.host, hk.phase, by rintro rfl; exact ho⟩

theorem continues_unit {p q : Phase} {s t : State} (he : AtElement p s) (h : unit p s = .ok q t) : Continues s q t := by
  cases p with
  | load =>
    simp only [unit, loadCall] at h
    split at h
    · cases h; exact ⟨rfl, rfl, rfl, rfl, nofun⟩
    · cases h; exact ⟨rfl, rfl, rfl, rfl, nofun⟩
  | init =>
    cases h
    unfold initAnswered
    dsimp only
    split
    · exact ⟨rfl, rfl, rfl, rfl, nofun⟩
    · exact ⟨rfl, rfl, rfl, rfl, nofun⟩
  | deinit => cases h; exact ⟨rfl, rfl, rfl, rfl, nofun⟩
  | access x =>
    have hs := accessStep_sat x s fun hx => he (by rw [hx])
    rw [show accessStep x s = .ok q t from h] at hs
    obtain ⟨hk, ha⟩ := hs
    exact ⟨hk.cfgp, hk.busy, hk.host, hk.phase, by rintro rfl; exact ha⟩
  | complete b => cases h; exact ⟨rfl, rfl, rfl, rfl, nofun⟩

/-- A step that is cut keeps no phase in the state where there was none. -/
theorem unit_cut_phase {p : Phase} {c : Cut} {s t : State} (hp : s.phase = none) (h : unit p s = .cut c t) :
    t.phase = none := by
  have hb := blind_unit p none s
  rw [show withPhase none s = s by cases s; cases hp; rfl, h] at hb
  obtain ⟨-, ht⟩ := Res.cut.inj hb
  rw [ht]
  rfl

/-! ## Runs -/

/-- From `s` the machine answers `o` after some steps, and until then a command is in progress and the host waits. -/
def RunsTo (host : List HostAction) (o : Host.Outcome State Fault Refusal) (s : State) : Prop :=
  ∃ n : Nat, runSteps (n + 1) s = o
    ∧ ∀ k, k < n → ∃ u, runSteps (k + 1) s = .next u ∧ u.busy = true ∧ u.phase ≠ none ∧ u.host = host

theorem runSteps_next {s t : State} (h : step s = .next t) (n : Nat) : runSteps (n + 1) s = runSteps n t := by
  change (match step s with
    | .next t => runSteps n t
    | .fault f => .fault f
    | .refused r => .refused r) = _
  rw [h]

theorem runSteps_one (s : State) : runSteps 1 s = step s := by
  change (match step s with
    | .next t => .next t
    | .fault f => .fault f
    | .refused r => .refused r) = step s
  cases step s <;> rfl

theorem runsTo_now (host : List HostAction) {o : Host.Outcome State Fault Refusal} {s : State} (h : step s = o) :
    RunsTo host o s :=
  ⟨0, (runSteps_one s).trans h, fun k hk => absurd hk (Nat.not_lt_zero k)⟩

theorem RunsTo.after {host : List HostAction} {o : Host.Outcome State Fault Refusal} {s t : State} (h : step s = .next t)
    (hb : t.busy = true) (hp : t.phase ≠ none) (hh : t.host = host) (ht : RunsTo host o t) : RunsTo host o s := by
  obtain ⟨n, hn, hk⟩ := ht
  refine ⟨n + 1, (runSteps_next h _).trans hn, fun k hlt => ?_⟩
  cases k with
  | zero => exact ⟨t, (runSteps_one s).trans h, hb, hp, hh⟩
  | succ k =>
    rw [runSteps_next h]
    exact hk k (by omega)

/-- A step at a phase other than the completion is that phase's unit. -/
theorem step_unit {p : Phase} {s : State} (hc : configOk s.cfgp = true) (hb : s.busy = true) (hp : ∀ b, p ≠ .complete b) :
    step (withPhase (some p) s) = pause (resWithPhase (some p) (unit p s)) := by
  rw [step_busy (s := withPhase (some p) s) hc hb rfl, ← blind_unit p (some p) s]
  cases p with
  | complete b => exact absurd rfl (hp b)
  | _ => rfl

/-- From any phase of a command in progress the steps lead to what is left of the command, carried out whole. -/
theorem runsTo_rest (p : Phase) (s : State) (hc : configOk s.cfgp = true) (hb : s.busy = true) (hn : s.phase = none)
    (he : AtElement p s) : RunsTo s.host (settle (complete (rest p s))) (withPhase (some p) s) := by
  by_cases hp : ∃ b, p = .complete b
  · obtain ⟨b, rfl⟩ := hp
    refine runsTo_now _ ?_
    rw [step_busy (s := withPhase (some (.complete b)) s) hc hb rfl]
    cases s
    cases hn
    rfl
  · have hp : ∀ b, p ≠ .complete b := fun b h => hp ⟨b, h⟩
    have hstep := step_unit hc hb hp
    rw [rest_step]
    cases hu : unit p s with
    | ok q t =>
      have ht := continues_unit he hu
      have := unit_stepsLeft hp hu
      refine RunsTo.after (t := withPhase (some q) t) (hstep.trans (by rw [hu]; rfl)) (ht.busy.trans hb) nofun ht.host ?_
      rw [← ht.host]
      exact runsTo_rest q t (ht.cfgp.symm ▸ hc) (ht.busy.trans hb) (ht.phase.trans hn) ht.element
    | cut c t =>
      have ht := unit_cut_phase hn hu
      refine runsTo_now _ (hstep.trans ?_)
      rw [hu]
      cases t
      cases ht
      rfl
    | fault f => exact runsTo_now _ (hstep.trans (by rw [hu]; rfl))
    | refused r => exact runsTo_now _ (hstep.trans (by rw [hu]; rfl))
termination_by stepsLeft p s

/-! ## The obligation -/

/-- A word that decodes is of a well-formed command (R103, R105). -/
theorem decode_wellFormed {w : CmdWord} {i : Instr} (h : decode w = .ok i) : i.wf = true := by
  rw [← wordOf_fields w] at h
  rcases decode_ok h with ⟨-, -, -, rfl⟩ | ⟨-, -, -, rfl⟩ | ⟨-, -, -, rfl⟩ | ⟨-, -, -, rfl⟩ | ⟨-, -, rfl⟩ | ⟨-, rfl⟩ | ⟨-, rfl⟩
    | ⟨-, rfl⟩ | ⟨-, -, hk, rfl⟩ | ⟨-, -, hk, rfl⟩ | ⟨-, -, hk, rfl⟩ | ⟨-, -, -, rfl⟩ | ⟨-, -, -, rfl⟩
  exacts [rfl, rfl, rfl, rfl, rfl, rfl, rfl, rfl, decide_eq_true hk, decide_eq_true hk, decide_eq_true hk, rfl, rfl]

/-- From a ready state the steps of an accepted word lead to what its whole command does (R10, R11). -/
theorem runsTo_exec {s : State} {w : CmdWord} {rest : List HostAction} {i : Instr} (hs : s.Ready) (hp : s.phase = none)
    (hd : decode w = .ok i) :
    RunsTo rest (settle (exec i { s with host := rest })) { s with host := .issue w :: rest } := by
  obtain ⟨hc, hb⟩ := id hs
  have hstep : step { s with host := .issue w :: rest } = issue i { s with host := rest } := by
    rw [step_ready (s := { s with host := .issue w :: rest }) hs]
    simp only [fetch, hd]
  rw [exec_ready i { s with host := rest } (decode_wellFormed hd) hs, body_start]
  rw [issue, if_neg (by simp [hb])] at hstep
  cases hst : start i (accept { s with host := rest }) with
  | ok q t =>
    have ht := continues_start hst
    by_cases hq : ∃ b, q = .complete b
    · obtain ⟨b, rfl⟩ := hq
      exact runsTo_now _ (hstep.trans (by rw [hst]; rfl))
    · refine RunsTo.after (t := withPhase (some q) t) (hstep.trans ?_) ht.busy nofun ht.host ?_
      · rw [hst]
        cases q with
        | complete b => exact absurd ⟨b, rfl⟩ hq
        | _ => rfl
      · rw [show rest = t.host from ht.host.symm]
        exact runsTo_rest q t (ht.cfgp.symm ▸ hc) ht.busy (ht.phase.trans hp) ht.element
  | cut c t =>
    have hs := start_sat i (accept { s with host := rest })
    rw [hst] at hs
    exact hs.elim
  | fault f => exact runsTo_now _ (hstep.trans (by rw [hst]; rfl))
  | refused r => exact runsTo_now _ (hstep.trans (by rw [hst]; rfl))

/-- Settles O9: by induction on the steps left, what is left of the command at each phase is one unit and then what is left at
the next. -/
theorem portStepsMakeTheCommand : Obligations.PortStepsMakeTheCommand := by
  intro s w rest i hs hp hd
  have hwhole : step { s with host := .command w :: rest } = settle (exec i { s with host := rest }) := by
    rw [step_ready (s := { s with host := .command w :: rest }) hs]
    simp only [fetch, hd]
  rw [hwhole]
  exact runsTo_exec hs hp hd

end Sys2Proof.Proofs

/-! # What a whole command may write (R22, R27 to R33) -/

namespace Sys2Proof.Proofs
open Sys2Proof Sys2Proof.Machine Sys2Proof.Laws

/-! ## How a command ends where no power is lost -/

/-- A whole command in which no reset strikes: its body kept what it may not write and then ended, or the gateway faulted in one
of its accesses (R27, R228). -/
theorem exec_ends {i : Instr} {s t : State} (hp : s.env.noPowerLoss = true) (h : exec i s = .next t) :
    ∃ u, Kept (may i) (accept s) u
      ∧ ((∃ b, t = finish b u)
        ∨ (t = takeGatewayFault u ∧ 0 < accessBound i ∧ s.cfgp.gwFaults = true ∧ s.en = true)) := by
  rcases exec_acts h with ⟨b, u, hu, rfl⟩ | ⟨u, hu, rfl⟩ | ⟨u, hu, rfl⟩
  · exact ⟨u, hu.toKept, .inl ⟨b, rfl⟩⟩
  · obtain ⟨done, -, -, -, hn, -⟩ := hu.trace
    exact ⟨u, hu.toKept, .inr ⟨rfl, Nat.zero_lt_of_lt hn, hu.gatewayFault rfl, hu.enabled⟩⟩
  · exact absurd hp (Bool.eq_false_iff.mp (hu.powerLoss rfl))

/-- The registers other than `LASTERR` and the flags are as the body left them: neither `done` nor a gateway fault writes them. -/
theorem exec_registers {i : Instr} {s t : State} (hp : s.env.noPowerLoss = true) (h : exec i s = .next t) :
    ∃ u, Kept (may i) (accept s) u ∧ t.en = u.en ∧ t.hnd = u.hnd ∧ t.res8 = u.res8 ∧ t.res16 = u.res16 ∧ t.resx = u.resx
      ∧ t.xbuf = u.xbuf ∧ t.stat = u.stat ∧ t.cfg = u.cfg := by
  obtain ⟨u, hu, ⟨b, rfl⟩ | ⟨rfl, -⟩⟩ := exec_ends hp h
  · exact ⟨u, hu, rfl, rfl, rfl, rfl, rfl, rfl, rfl, rfl⟩
  · exact ⟨u, hu, rfl, rfl, rfl, rfl, rfl, rfl, rfl, rfl⟩

/-! ## Which command may write which register -/

theorem may_enable {i : Instr} (hi : i ≠ .init) (hd : i ≠ .deinit) : (may i).enable = false := by
  cases i with
  | init => exact absurd rfl hi
  | deinit => exact absurd rfl hd
  | _ => rfl

theorem may_res8 {i : Instr} (hr : ∀ a, i ≠ .rdreg a) (hg : i ≠ .geterr) : (may i).res8 = false := by
  cases i with
  | rdreg a => exact absurd rfl (hr a)
  | geterr => exact absurd rfl hg
  | _ => rfl

theorem may_res16 {i : Instr} (hr : ∀ k, i ≠ .romrd k) : (may i).res16 = false := by
  cases i with
  | romrd k => exact absurd rfl (hr k)
  | _ => rfl

theorem may_resx {i : Instr} (hg : i ≠ .geterr) : (may i).resx = false := by
  cases i with
  | geterr => exact absurd rfl hg
  | _ => rfl

theorem may_stat {i : Instr} (hr : i ≠ .rdstat) : (may i).stat = false := by
  cases i with
  | rdstat => exact absurd rfl hr
  | _ => rfl

theorem may_xbuf {i : Instr} (ha : ∀ b n, i ≠ .rdarr b n) (hr : ∀ k, i ≠ .rdrow k) : (may i).xbuf = false := by
  cases i with
  | rdarr b n => exact absurd rfl (ha b n)
  | rdrow k => exact absurd rfl (hr k)
  | _ => rfl

theorem may_err {i : Instr} (hi : i ≠ .init) (hs : i ≠ .rdstat) (hw : i ≠ .wrcfg) : (may i).err = false := by
  cases i with
  | init => exact absurd rfl hi
  | rdstat => exact absurd rfl hs
  | wrcfg => exact absurd rfl hw
  | _ => rfl

/-- A command that issues port operations is no lifecycle command (R133, R136, R137). -/
theorem may_enable_of_access {i : Instr} (h : 0 < accessBound i) : (may i).enable = false := by
  refine may_enable ?_ ?_ <;> (rintro rfl; exact absurd h (Nat.lt_irrefl 0))

/-! ## The obligations -/

/-- Settles O46: a body writes `EN` and `HND` only where `may` says so, and the command's end does not. -/
theorem onlyLifecycleCommandsWriteEnable : Obligations.OnlyLifecycleCommandsWriteEnable := by
  intro s t i hi hd hp h
  obtain ⟨u, hu, hen, hhnd, -⟩ := exec_registers hp h
  obtain ⟨hen', hhnd', -⟩ := hu.enable (may_enable hi hd)
  exact ⟨hen.trans hen', hhnd.trans hhnd'⟩

/-- Settles O47: a body writes a result register only where `may` says so, and the command's end does not. -/
theorem resultRegistersHaveTheirWriters : Obligations.ResultRegistersHaveTheirWriters := by
  intro s t i hp h
  obtain ⟨u, hu, -, -, h8, h16, hx, -⟩ := exec_registers hp h
  exact ⟨fun hr hg => h8.trans (hu.res8 (may_res8 hr hg)), fun hr => h16.trans (hu.res16 (may_res16 hr)),
    fun hg => hx.trans (hu.resx (may_resx hg))⟩

/-- Settles O48: a body writes a buffer only where `may` says so, and the command's end does not. -/
theorem buffersHaveTheirWriters : Obligations.BuffersHaveTheirWriters := by
  intro s t i hp h
  obtain ⟨u, hu, -, -, -, -, -, hx, hst, hcfg⟩ := exec_registers hp h
  exact ⟨fun hr => hst.trans (hu.stat (may_stat hr)), fun ha hr => hx.trans (hu.xbuf (may_xbuf ha hr)), hcfg.trans hu.cfg⟩

/-- Settles O49: the body of such a command keeps `LASTERR`, so only the gateway's fault at its end can record anything. -/
theorem rawCommandsRecordOnlyGatewayFaults : Obligations.RawCommandsRecordOnlyGatewayFaults := by
  intro s t i hi hs hw hp h
  obtain ⟨u, hu, ⟨b, rfl⟩ | ⟨rfl, hn, hg, he⟩⟩ := exec_ends hp h
  · exact .inl (hu.err (may_err hi hs hw))
  · obtain ⟨hen, hhnd, -⟩ := hu.enable (may_enable_of_access hn)
    exact .inr ⟨rfl, rfl, rfl, rfl, hen, hhnd, hg, he⟩

end Sys2Proof.Proofs

/-! # Why a command ends with `OK = 0` (R27, R225 to R228) -/

namespace Sys2Proof.Proofs
open Sys2Proof Sys2Proof.Machine Sys2Proof.Laws

/-- A body that, where it is done, is done with `OK = 1`. -/
def Succeeds (r : Res Bool) : Prop := ∀ u, r ≠ .ok false u

theorem succeeds_true (s : State) : Succeeds (.ok true s) := by
  intro u h
  cases h

theorem succeeds_bind {α : Type} {r : Res α} {k : α → State → Res Bool} (hk : ∀ a t, Succeeds (k a t)) :
    Succeeds (r.bind k) := by
  intro u h
  cases r with
  | ok a t => exact hk a t u h
  | cut c t => cases h
  | fault f => cases h
  | refused r => cases h

theorem rdarrBody_succeeds (b : Addr) (n : BitVec 8) (s : State) : Succeeds (rdarrBody b n s) :=
  succeeds_bind fun _ => succeeds_true

theorem wrarrBody_succeeds (b : Addr) (n : BitVec 8) (s : State) : Succeeds (wrarrBody b n s) :=
  succeeds_bind fun _ => succeeds_true

theorem readStatus_succeeds (s : State) : Succeeds (readStatus s) :=
  succeeds_bind fun _ _ => succeeds_bind fun _ _ => succeeds_bind fun _ _ => succeeds_bind fun _ _ => succeeds_true _

theorem refreshDerived_succeeds (s : State) : Succeeds (refreshDerived s) :=
  succeeds_bind fun _ _ => succeeds_bind fun _ _ => succeeds_bind fun _ _ => succeeds_bind fun _ _ => succeeds_bind fun _ _ =>
    succeeds_true _

/-- WRCFG past the lifecycle check fails only at the shape check (R202, R226). -/
theorem writeConfig_false {s u : State} (h : writeConfig s = .ok false u) : u.lastCode = .invalidShape ∧ u.lastInfo = 0 := by
  unfold writeConfig at h
  cases hshape : shapeOk tableIds s with
  | ok fits t =>
    rw [hshape, bind_ok] at h
    cases fits with
    | true => exact absurd h (succeeds_bind (fun _ t => refreshDerived_succeeds t) u)
    | false => cases h; exact ⟨rfl, rfl⟩
  | cut c t => rw [hshape] at h; cases h
  | fault f => rw [hshape] at h; cases h
  | refused r => rw [hshape] at h; cases h

/-- RDSTAT and WRCFG fail at the lifecycle check (R225), or past it. -/
theorem whenInitialized_false {k : State → Res Bool} {s u : State} (h : whenInitialized k s = .ok false u) :
    (s.en = false ∧ u.lastCode = .notInitialized ∧ u.lastInfo = 0) ∨ (s.en = true ∧ k (entryClear s) = .ok false u) := by
  unfold whenInitialized at h
  split at h
  · rename_i he
    exact .inr ⟨he, h⟩
  · rename_i he
    cases h
    exact .inl ⟨by simpa using he, rfl, rfl⟩

/-- INIT from Uninitialized fails with the handle not held and the provider's failure recorded (R136). -/
theorem initFresh_false {s : State} (h : (initFresh s).1 = false) :
    (initFresh s).2.en = false ∧ (initFresh s).2.hnd = false
      ∧ ((initFresh s).2.lastCode = .loadFailure ∧ (initFresh s).2.lastInfo = 0
        ∨ (initFresh s).2.lastCode = .initFailure) := by
  unfold initFresh initAnswered at h ⊢
  dsimp only at h ⊢
  split
  · exact ⟨rfl, rfl, .inl ⟨rfl, rfl⟩⟩
  · split
    · exact ⟨rfl, rfl, .inr rfl⟩
    · rename_i hload _ hinit
      simp [hload, hinit] at h

/-- Why a command's body is done with `OK = 0`, and what it leaves then. -/
theorem body_false {i : Instr} {s u : State} (h : body i s = .ok false u) :
    (i = .isinit ∧ s.en = false)
    ∨ (i = .init ∧ s.en = false ∧ u.en = false ∧ u.hnd = false
        ∧ (u.lastCode = .loadFailure ∧ u.lastInfo = 0 ∨ u.lastCode = .initFailure))
    ∨ ((i = .rdstat ∨ i = .wrcfg) ∧ s.en = false ∧ u.lastCode = .notInitialized ∧ u.lastInfo = 0)
    ∨ (i = .wrcfg ∧ s.en = true ∧ u.lastCode = .invalidShape ∧ u.lastInfo = 0) := by
  cases i with
  | init =>
    simp only [body, initResult_eq, initOutcome] at h
    cases he : s.en with
    | true => rw [he] at h; cases h
    | false =>
      simp only [he, Bool.false_eq_true, if_false, Res.ok.injEq] at h
      obtain ⟨hok, rfl⟩ := h
      exact .inr (.inl ⟨rfl, rfl, initFresh_false hok⟩)
  | deinit => cases h
  | isinit =>
    obtain ⟨he, -⟩ := Res.ok.inj h
    exact .inl ⟨rfl, he⟩
  | geterr => cases h
  | rdreg a => exact absurd h (succeeds_bind (fun _ _ => succeeds_true _) u)
  | wrreg a d => exact absurd h (succeeds_bind (fun _ _ => succeeds_true _) u)
  | rdarr b n => exact absurd h (rdarrBody_succeeds b n s u)
  | wrarr b n => exact absurd h (wrarrBody_succeeds b n s u)
  | romrd k => simp only [body] at h; split at h <;> cases h
  | rdrow k =>
    simp only [body] at h
    split at h
    · exact absurd h (rdarrBody_succeeds _ 10 s u)
    · cases h
  | wrrow k =>
    simp only [body] at h
    split at h
    · exact absurd h (wrarrBody_succeeds _ 10 s u)
    · cases h
  | rdstat =>
    rcases whenInitialized_false h with hoff | ⟨-, h⟩
    · exact .inr (.inr (.inl ⟨.inl rfl, hoff⟩))
    · exact absurd h (readStatus_succeeds _ u)
  | wrcfg =>
    rcases whenInitialized_false h with hoff | ⟨he, h⟩
    · exact .inr (.inr (.inl ⟨.inr rfl, hoff⟩))
    · exact .inr (.inr (.inr ⟨rfl, he, writeConfig_false h⟩))

/-- Settles O50: `OK = 0` comes from the body, which names its reason, or from the gateway's fault. -/
theorem failuresAreNamed : Obligations.FailuresAreNamed := by
  intro s t i hp h hok
  obtain ⟨-, -, ⟨b, u, hb, rfl⟩ | ⟨u, hb, rfl⟩ | ⟨u, hb, rfl⟩⟩ := exec_next h
  · obtain rfl : b = false := hok
    rcases body_false hb with hisinit | hinit | hoff | hshape
    · exact .inl hisinit
    · exact .inr (.inl hinit)
    · exact .inr (.inr (.inl hoff))
    · exact .inr (.inr (.inr (.inl hshape)))
  · have hcut := body_acts i (accept s)
    rw [hb] at hcut
    exact .inr (.inr (.inr (.inr ⟨hcut.gatewayFault rfl, hcut.enabled, rfl, rfl⟩)))
  · have hcut := body_acts i (accept s)
    rw [hb] at hcut
    exact absurd hp (Bool.eq_false_iff.mp (hcut.powerLoss rfl))

end Sys2Proof.Proofs

/-! # The port trace of a whole command (R24, R63, R150) -/

namespace Sys2Proof.Proofs
open Sys2Proof Sys2Proof.Machine Sys2Proof.Laws

theorem access_events_length (c : Cfgp) (x : Access) : (x.events c).length = 8 := by cases x <;> rfl

theorem accesses_events_length (c : Cfgp) (xs : List Access) : (xs.flatMap (Access.events c)).length = 8 * xs.length := by
  simp only [List.length_flatMap, access_events_length, List.map_const', List.sum_replicate_nat]
  omega

/-- The events added from `s` to `t`: ECSEQ's are complete accesses and a part of one, 2040 at most; none with `EN = 0`. -/
def AccessTraceFrom (s t : State) : Prop :=
  ∃ l, t.trace = s.trace ++ l ∧ IsAccessTrace s.cfgp l ∧ (l.filter BusEvent.ours).length ≤ 2040 ∧ (s.en = false → l = [])

/-- An operation that is done has issued complete accesses only. -/
theorem accessTraceFrom_acts {w : May} {n : Nat} {s t : State} (h : Acts w n s t) (hn : n ≤ 255) : AccessTraceFrom s t := by
  obtain ⟨done, ⟨l, hl, ho⟩, hd⟩ := h.trace
  refine ⟨l, hl, ⟨done, .read 0 0, 0, by omega, by simp [ho]⟩, ?_, fun he => ?_⟩
  · rw [ho, accesses_events_length]
    omega
  · have := h.silent he
    rwa [hl, List.append_right_eq_self] at this

/-- An operation that was cut has issued part of one access more, and only with `EN = 1`. -/
theorem accessTraceFrom_cut {w : May} {n : Nat} {c : Cut} {s t : State} (h : ActsCut w n c s t) (hn : n ≤ 255) :
    AccessTraceFrom s t := by
  obtain ⟨done, last, j, hj, hd, l, hl, ho⟩ := h.trace
  refine ⟨l, hl, ⟨done, last, j, hj, ho⟩, ?_, fun he => absurd h.enabled (by simp [he])⟩
  rw [ho, List.length_append, accesses_events_length, List.length_take, access_events_length]
  omega

/-- Settles O51: however the body ends, its events are those of complete accesses, at most 255, and a part of one; the command's
end adds none. -/
theorem portTraceIsMadeOfAccesses : Obligations.PortTraceIsMadeOfAccesses := by
  intro s t i h
  rcases exec_acts h with ⟨b, u, hu, rfl⟩ | ⟨u, hu, rfl⟩ | ⟨u, hu, rfl⟩
  · exact (accessTraceFrom_acts hu (accessBound_le i) : AccessTraceFrom (accept s) u)
  · exact (accessTraceFrom_cut hu (accessBound_le i) : AccessTraceFrom (accept s) u)
  · exact (accessTraceFrom_cut hu (accessBound_le i) : AccessTraceFrom (accept s) u)

end Sys2Proof.Proofs

/-! # Where ECSEQ rests, and the host's moves (R25, R28, R33, R80) -/

namespace Sys2Proof.Proofs
open Sys2Proof Sys2Proof.Machine Sys2Proof.Laws

/-! ## Where ECSEQ comes to rest -/

theorem step_idle {s : State} (hs : s.Ready) (hh : s.host = []) : step s = settle (.next s) := by
  simp only [step_ready hs, fetch, hh]

/-- Where the next rest is scripted, its moves are made (R80). -/
theorem settle_scripted {s : State} {moves : List AgentMove} {more : List (List AgentMove)} {t : State}
    (hr : s.env.rests = moves :: more) (hm : forEach agentMove moves { s with env := { s.env with rests := more } } = .ok () t) :
    settle (.next s) = .next t := by
  simp only [settle, drawRest, hr, hm]

/-- Where nothing is scripted and `VOLATILE` is empty, no agent has a move (R80, log 10). -/
theorem settle_still {s : State} (hv : s.cfgp.volatile = []) (hr : s.env.rests = []) : settle (.next s) = .next s := by
  simp only [settle, drawRest, hr, hv, List.isEmpty_nil, if_true, forEach_nil]

theorem ecUpdate_volatile {a : Addr} {s : State} (v : Byte) (ha : a ∈ s.cfgp.volatile) : ecUpdate a v s = writeEc a v s :=
  if_pos (by simpa using ha)

/-- Settles O12: an idle step is `settle`, and `settle` is the moves drawn for the rest. -/
theorem idleStepOnlyLetsTheEcMove : Obligations.IdleStepOnlyLetsTheEcMove := by
  refine fun s => ⟨step_idle, fun hf => ?_, fun a v more ha hr => ?_, settle_still, fun _ => rfl, fun _ => rfl⟩
  · obtain ⟨m, e, hset, hdrift⟩ := settle_quiet s hf
    exact ⟨m, e, hset, fun a ha _ => hdrift.kept a ha⟩
  · have hec : ecUpdate a v { s with env := { s.env with rests := more } }
        = writeEc a v { s with env := { s.env with rests := more } } := ecUpdate_volatile v ha
    exact settle_scripted hr (congrArg (Res.ok ()) hec)

/-! ## While a command is in progress (R25, R258) -/

/-- What prepares the next step of a command leaves the host's queue, wherever an array stands. -/
theorem afterAccess_host (p : Purpose) (s : State) :
    Sat (fun _ t => t.host = s.host) (fun _ _ => False) (fun _ => True) (fun _ => True) (afterAccess p s) := by
  have hhost {t : State} {r : Res Phase} (ht : t.host = s.host) (h : Prepares t r) :
      Sat (fun _ u => u.host = s.host) (fun _ _ => False) (fun _ => True) (fun _ => True) r :=
    h.mono (fun _ _ ⟨hk, _⟩ => hk.host.trans ht) (fun _ _ h => h) (fun _ h => h) fun _ h => h
  by_cases hp : p = .rdarr
  · subst hp
    exact hhost (t := putXbuf s.idx.toNat s.dr s) rfl (prepares_readOn _ _ (prepares_completes true _))
  · exact hhost rfl (prepares_after p s fun h => absurd h hp)

/-- A port operation leaves the host's queue, cut or not. -/
theorem accessStep_host (p : Purpose) (s : State) :
    Sat (fun _ t => t.host = s.host) (fun _ t => t.host = s.host) (fun _ => True) (fun _ => True) (accessStep p s) := by
  refine ((issueRow_sat (rowAt s.stepNo) s).mono (fun _ _ h => h) (fun _ _ h => h.host) (fun _ h => h) fun _ h => h).bind
    fun _ t ht => ?_
  split
  · exact (afterAccess_host p t).mono (fun _ _ h => h.trans ht.host) (fun _ _ h => h.elim) (fun _ h => h) fun _ h => h
  · exact ht.host

theorem settle_host {s t : State} (h : settle (.next s) = .next t) : t.host = s.host := by
  obtain ⟨u, hu, hb, -⟩ := settle_next h
  cases hu
  exact hb.host

/-- The pause after a unit leaves the host's queue if the unit did. -/
theorem pause_host {l : List HostAction} {r : Res Phase} {t : State}
    (hr : Sat (fun _ u => u.host = l) (fun _ u => u.host = l) (fun _ => True) (fun _ => True) r) (h : pause r = .next t) :
    t.host = l := by
  rcases pause_next h with ⟨p, u, rfl, rfl⟩ | ⟨u, rfl, hset⟩ | ⟨u, rfl, hset⟩
  · exact hr
  · exact (settle_host hset).trans hr
  · exact (settle_host hset).trans hr

theorem portStep_host {p : Phase} {s t : State} (h : portStep p s = .next t) : t.host = s.host := by
  cases p with
  | load =>
    refine pause_host ?_ h
    unfold loadCall
    split
    · exact rfl
    · exact rfl
  | init =>
    refine pause_host (r := completes (initAnswered s).1 (initAnswered s).2) ?_ h
    unfold initAnswered
    dsimp only
    split
    · exact rfl
    · exact rfl
  | deinit => exact pause_host (r := completes true { invokeDeinit s with hnd := false, en := false }) rfl h
  | access x => exact pause_host (accessStep_host x s) h
  | complete b => exact settle_host (s := finish b { s with phase := none }) h

/-- Settles O11: `runCommand` and `hostMove` test `BUSY` first, and a step of the command in progress never reads the queue. -/
theorem nothingIsTakenWhileBusy : Obligations.NothingIsTakenWhileBusy := by
  refine fun s hc hb => ⟨fun i hi => ?_, fun m => if_pos hb, fun t hp h => ?_⟩
  · rw [exec_wf i s hi, runCommand, if_pos hc, if_pos hb]
  · obtain ⟨p, hp⟩ := Option.ne_none_iff_exists'.mp hp
    rw [step_busy hc hb hp] at h
    exact portStep_host h

/-! ## Moves of the host on the buffers (R28, R33) -/

/-- A step whose next host action is a move makes the move. -/
theorem step_move {s : State} {m : HostMove} {rest : List HostAction} (hs : s.Ready) (hh : s.host = .move m :: rest) :
    step s = settle (hostMove m { s with host := rest }) := by
  simp only [step_ready hs, fetch, hh]

theorem hostMove_ready {s : State} (hb : s.busy = false) (m : HostMove) : hostMove m s = match m with
    | .loadXbuf bs => hostLoadXbuf bs s
    | .setXbuf i b => hostSetXbuf i b s
    | .loadCfg t bs => hostLoadCfg t bs s
    | .setCfgLen t n => hostSetCfgLen t n s
    | .setCfgByte t i b => hostSetCfgByte t i b s
    | .read p => hostRead p s
    | .reset => hostReset s := by
  unfold hostMove
  exact (if_neg (by simp [hb])).trans (by cases m <;> rfl)

theorem getElem_set_table (v : Vector CfgTable 10) (k l : Fin 10) (x : CfgTable) :
    (v.set k x)[l] = if l = k then x else v[l] := by
  simp only [Fin.getElem_fin, Vector.getElem_set, Fin.ext_iff, eq_comm]

theorem byteAt_loaded (bs : List Byte) (i : Nat) : (Memory.putMany [] 0 bs).byteAt i = bs[i]? := by
  rw [byteAt_putMany]
  by_cases hi : i < bs.length
  · simp [hi]
  · simp [hi, Memory.byteAt]

/-- A move that writes one buffer within its end, and is refused past it. -/
theorem writes_or_refuses {α : Type} {c : Prop} [Decidable c] {o : Host.Outcome State Fault Refusal} {f : α → State}
    {P : α → Prop} (x : α) (ho : o = settle (if c then .next (f x) else .refused .noSuchPlace)) (hx : P x) :
    if c then ∃ x, o = settle (.next (f x)) ∧ P x else o = .refused .noSuchPlace := by
  subst ho
  split
  · exact ⟨x, rfl, hx⟩
  · rfl

/-- Settles O59: each move puts one memory or one table, whose bytes `byteAt_put`, `byteAt_putMany` and `byteAt_cutAt` give. -/
theorem hostLoadsHoldTheirBytes : Obligations.HostLoadsHoldTheirBytes := by
  intro s k rest hs
  have hmove {m : HostMove} (hh : s.host = .move m :: rest) := (step_move hs hh).trans
    (congrArg settle (hostMove_ready (s := { s with host := rest }) hs.2 m))
  have hsame (x : CfgTable) : (s.cfg.set k x)[k] = x := by rw [getElem_set_table, if_pos rfl]
  have hother (x : CfgTable) (l : Fin 10) (hl : l ≠ k) : (s.cfg.set k x)[l] = s.cfg[l] := by
    rw [getElem_set_table, if_neg hl]
  refine ⟨fun bs hh => ?_, fun i v hh => ?_, fun bs hh => ?_, fun n hh => ?_, fun i v hh => ?_⟩
  · exact writes_or_refuses (s.xbuf.putMany 0 bs) (hmove hh) fun i => by simp [byteAt_putMany]
  · exact writes_or_refuses (s.xbuf.put i v) (hmove hh) fun l => byteAt_put s.xbuf i l v
  · refine writes_or_refuses (s.cfg.set k ⟨Reg.of bs.length, Memory.putMany [] 0 bs⟩) (hmove hh)
      ⟨by rw [hsame], fun i => ?_, hother _⟩
    rw [hsame]
    exact byteAt_loaded bs i
  · exact writes_or_refuses (s.cfg.set k ⟨Reg.of n, s.cfg[k].bytes.cutAt n⟩) (hmove hh)
      ⟨by rw [hsame], fun i => by rw [hsame, byteAt_cutAt], hother _⟩
  · exact writes_or_refuses (s.cfg.set k { s.cfg[k] with bytes := s.cfg[k].bytes.put i v }) (hmove hh)
      ⟨by rw [hsame], fun l => by rw [hsame, byteAt_put], hother _⟩

/-! ## Reads of the host (R22, R27, R28, R31) -/

/-- A host read of a place that exists answers what stands there. -/
theorem hostReads_of_value {s : State} (hs : s.Ready) (rest : List HostAction) {p : HostPlace} {v : Option Nat}
    (hp : placeExists p s = true) (hv : hostValue p s = v) : HostReads s rest p v := by
  intro hh
  have hp' : placeExists p { s with host := rest } = true := by cases p <;> exact hp
  have hv' : hostValue p { s with host := rest } = v := by cases p <;> exact hv
  rw [step_move hs hh, hostMove_ready (s := { s with host := rest }) hs.2]
  simp only [hostRead, if_pos hp', hv']
  cases v <;> rfl

theorem value_map_toNat {w : Nat} (r : Reg (BitVec w)) :
    r.value.map BitVec.toNat = if r.known then some r.val.toNat else none := by
  unfold Reg.value
  split <;> rfl

/-- Settles O60: each clause is `hostReads_of_value` at its place, and `hostValue` there is the register's value. -/
theorem hostReadsWrittenResultsOnly : Obligations.HostReadsWrittenResultsOnly := by
  intro s rest hs
  have hread {p : HostPlace} {v : Option Nat} := hostReads_of_value (p := p) (v := v) hs rest
  have hreg {w : Nat} {p : HostPlace} (r : Reg (BitVec w)) (hp : placeExists p s = true)
      (hv : hostValue p s = r.value.map BitVec.toNat) :
      HostReads s rest p (if r.known then some r.val.toNat else none) := hread hp (hv.trans (value_map_toNat r))
  refine ⟨hread rfl rfl, hread rfl (by simp [hostValue, flagNat, hs.2]), hreg s.res8 rfl rfl, hreg s.res16 rfl rfl,
    hread rfl rfl, fun i hi => hread (decide_eq_true hi) rfl, fun i hi hh => ?_, fun k i => hread rfl rfl,
    hreg s.stat.fan1Speed rfl rfl, hreg s.stat.fan2Speed rfl rfl, hreg s.stat.chipId1 rfl rfl, hreg s.stat.chipId2 rfl rfl,
    hreg s.stat.chipVer rfl rfl, hreg s.stat.fwVer rfl rfl, fun n => hreg s.stat.tgt[n] rfl rfl,
    hreg s.stat.curPoint rfl rfl, hreg s.stat.fan1Pct rfl rfl, hreg s.stat.fan2Pct rfl rfl⟩
  rw [step_move hs hh, hostMove_ready (s := { s with host := rest }) hs.2]
  simp only [hostRead, placeExists, decide_eq_true_eq, if_neg (Nat.not_lt.mpr hi), settle]

end Sys2Proof.Proofs

/-! # The initial state, and `LASTERR` as a number (R30, R38, R221) -/

namespace Sys2Proof.Proofs
open Sys2Proof Sys2Proof.Machine Sys2Proof.Laws

theorem resetWith_asReset (c : Cfgp) : AsReset (State.resetWith c) where
  en := rfl
  hnd := rfl
  tab t i := by simp [State.resetWith, Stat.reset]
  lastErr := ⟨rfl, rfl⟩
  ok := rfl
  busy := rfl
  stepNo := rfl
  results := ⟨rfl, rfl, rfl⟩
  xbuf _ := rfl
  speeds := ⟨rfl, rfl⟩
  identity := ⟨rfl, rfl, rfl, rfl⟩
  targets n := by simp [State.resetWith, Stat.reset, Reg.unspecified]
  point := rfl
  percents := ⟨rfl, rfl⟩
  cfg t := by simp [State.resetWith, Memory.byteAt]

/-- Settles O14, field by field from `State.resetWith`. -/
theorem initialStateIsReset : Obligations.InitialStateIsReset :=
  ⟨rfl, fun c => ⟨resetWith_asReset c, rfl, fun _ => rfl, rfl, rfl, rfl, rfl⟩⟩

/-- The initial state is at rest and in order. -/
theorem resetWith_atRest (c : Cfgp) : AtRest (State.resetWith c) :=
  ⟨⟨rfl, rfl, rfl, rfl, resetTable_inOrder c, rfl, fun _ => rfl, Nat.two_pow_pos _, (by decide : hiByte (0 : BitVec 16) = 0)⟩,
    rfl, rfl, rfl⟩

/-- Settles O44: what is at rest and in order meets the invariant. -/
theorem initialStateMeetsTheInvariant : Obligations.InitialStateMeetsTheInvariant := fun c => (resetWith_atRest c).inv

/-- Settles O20: a code is a number of three bits, so `info` starts at bit 3. -/
theorem errorCodesAreNumbered : Obligations.ErrorCodesAreNumbered := by
  refine ⟨rfl, rfl, rfl, rfl, rfl, rfl, rfl, fun s => ?_⟩
  have hcode : (errCode s.lastCode).toNat < 8 := (errCode s.lastCode).isLt
  unfold lastErrBits
  constructor
  · omega
  · omega

end Sys2Proof.Proofs

/-! # The reference target on the bus, and the EC firmware (R74 to R80) -/

namespace Sys2Proof.Proofs
open Sys2Proof Sys2Proof.Machine Sys2Proof.Laws

/-! ## Which rule an event falls under (R74 to R76) -/

theorem targetWrite_addr (v : Byte) (s : State) :
    targetWrite s.cfgp.pAddr v s = .ok () { s with target := { s.target with idx := Reg.of v } } := if_pos rfl

theorem targetRead_addr (s : State) : targetRead s.cfgp.pAddr s = .refused .targetUnmodelled := if_pos rfl

theorem targetWrite_data {s : State} (hp : PortsOk s.cfgp) (v : Byte) :
    targetWrite s.cfgp.pData v s = targetWriteData v s := by
  rw [targetWrite, if_neg hp.ports.symm, if_pos rfl]

theorem targetRead_data {s : State} (hp : PortsOk s.cfgp) : targetRead s.cfgp.pData s = targetReadData s := by
  rw [targetRead, if_neg hp.ports.symm, if_pos rfl]

theorem targetWrite_other {p : Port} {s : State} (ha : p ≠ s.cfgp.pAddr) (hd : p ≠ s.cfgp.pData) (v : Byte) :
    targetWrite p v s = .ok () s := by
  rw [targetWrite, if_neg ha, if_neg hd]

/-- A read of another port only draws the byte it returns (log 11). -/
theorem targetRead_other {p : Port} {s : State} (ha : p ≠ s.cfgp.pAddr) (hd : p ≠ s.cfgp.pData) :
    ∃ x e, targetRead p s = .ok x { s with env := e } :=
  ⟨_, _, by rw [targetRead, if_neg ha, if_neg hd]⟩

/-! ## The data port with the latches known (R75) -/

section Latched
variable {s : State} {ix sel h l : Byte} (ht : s.target = ⟨Reg.of ix, Reg.of sel, Reg.of h, Reg.of l⟩)
include ht

theorem latchedAddr_known : latchedAddr s = .ok (h ++ l) s := by
  simp only [latchedAddr, ht, value_of, known_some, bind_ok]
  rfl

theorem targetWriteData_known (v : Byte) : targetWriteData v s =
    if ix = s.cfgp.cb0 then .ok () { s with target := { s.target with sel := Reg.of v } }
    else if ix = s.cfgp.ixHi then .ok () { s with target := { s.target with ah := Reg.of v } }
    else if ix = s.cfgp.ixLo then .ok () { s with target := { s.target with al := Reg.of v } }
    else if ix = s.cfgp.ixDp ∧ sel = s.cfgp.cb1 then .ok () (writeEc (h ++ l) v s)
    else .refused .targetUnmodelled := by
  simp only [targetWriteData, latchedAddr_known ht, ht, value_of, known_some, bind_ok, ite_and]

theorem targetReadData_known : targetReadData s =
    if ix = s.cfgp.ixDp ∧ sel = s.cfgp.cb1 then readEc (h ++ l) s else .refused .targetUnmodelled := by
  simp only [targetReadData, latchedAddr_known ht, ht, value_of, known_some, bind_ok, ite_and]

end Latched

theorem readEc_listed {a : Addr} {d : Byte} {s : State} (hd : s.ecmem.byteAt a.toNat = some d) : readEc a s = .ok d s := by
  simp only [readEc, hd]

/-! ## The obligations -/

/-- Settles O55: the write falls under R74, and the event is recorded. -/
theorem addressPortWriteSelects : Obligations.AddressPortWriteSelects := by
  intro m v s
  rw [busWrite, targetWrite_addr]
  rfl

/-- Settles O56: `T.IDX` decides which latch the byte goes to, or, with `T.SEL` at `CB1`, that it goes to the EC register. -/
theorem dataPortActsOnTheSelectedRegister : Obligations.DataPortActsOnTheSelectedRegister := by
  intro m v ix sel h l s hc ht
  have hp : PortsOk s.cfgp := portsOk_of_configOk hc
  refine ⟨?_, ?_, fun hsel d hd => ?_, fun hsel => ?_⟩
  · exact (distinct_iff _).mp ((distinct_four ..).mpr
      ⟨hp.cb0_ixHi, hp.cb0_ixLo, hp.cb0_ixDp, hp.ixHi_ixLo, hp.ixHi_ixDp, hp.ixLo_ixDp⟩)
  · rw [busWrite, targetWrite_data hp, targetWriteData_known ht]
    split_ifs
    all_goals rfl
  · rw [busRead, targetRead_data hp, targetReadData_known ht, if_pos hsel, readEc_listed hd]
    rfl
  · rw [busRead, targetRead_data hp, targetReadData_known ht, if_neg hsel]
    rfl

/-- Settles O57: neither event falls under R74 or R75. -/
theorem otherPortEventsLeaveTheTarget : Obligations.OtherPortEventsLeaveTheTarget := by
  refine fun m p v s => ⟨by rw [busRead, targetRead_addr]; rfl, fun ha hd => ⟨?_, ?_⟩⟩
  · exact ⟨record (.write m p v) s, by rw [busWrite, targetWrite_other ha hd]; rfl, rfl, rfl⟩
  · obtain ⟨x, e, hread⟩ := targetRead_other ha hd
    exact ⟨x, record (.read m p x) { s with env := e }, by rw [busRead, hread]; rfl, rfl, rfl⟩

/-- Settles O58: `ecUpdate` writes the register if it is in `VOLATILE`. -/
theorem ecUpdateWritesVolatileOnly : Obligations.EcUpdateWritesVolatileOnly := by
  refine fun a v s => ⟨fun ha => ?_, fun ha => ?_⟩
  · rw [agentMove, ecUpdate_volatile v ha]
    rfl
  · rw [agentMove, ecUpdate, if_neg (by simpa using ha)]

/-- Settles O54: no body leaves the target where no foreign master moves, and a command stops nowhere else for such a reason. -/
theorem commandsNeverLeaveTheTarget : Obligations.CommandsNeverLeaveTheTarget := by
  intro s i hf
  cases hw : i.wf with
  | false =>
    rw [exec_illFormed i s hw]
    exact ⟨nofun, nofun⟩
  | true =>
    rw [exec_wf i s hw, runCommand]
    split
    · rename_i hc
      split
      · exact ⟨nofun, nofun⟩
      · have hbody := body_stores i (accept s) (portsOk_of_configOk hc) hf
        cases hr : body i (accept s) with
        | ok b t => exact ⟨nofun, nofun⟩
        | cut c t => cases c <;> exact ⟨nofun, nofun⟩
        | fault f =>
          rw [hr] at hbody
          exact ⟨nofun, fun l h => hbody l (Host.Outcome.fault.inj h)⟩
        | refused r =>
          rw [hr] at hbody
          exact ⟨fun h => hbody (Host.Outcome.refused.inj h), nofun⟩
    · exact ⟨nofun, nofun⟩

end Sys2Proof.Proofs

/-! # The configuration is constant (R88, R175) -/

namespace Sys2Proof.Proofs
open Sys2Proof Sys2Proof.Machine Sys2Proof.Laws

/-- A unit of a command in progress that leaves the configuration `c`, whether it is done or cut. -/
def UnitKeepsConfig (c : Cfgp) (r : Res Phase) : Prop :=
  Sat (fun _ t => t.cfgp = c) (fun _ t => t.cfgp = c) (fun _ => True) (fun _ => True) r

theorem settle_cfgp {o : Host.Outcome State Fault Refusal} {c : Cfgp} {t : State} (ho : ∀ u, o = .next u → u.cfgp = c)
    (h : settle o = .next t) : t.cfgp = c := by
  obtain ⟨u, hu, hb, -⟩ := settle_next h
  exact hb.cfgp.trans (ho u hu)

theorem settle_next_cfgp {s t : State} (h : settle (.next s) = .next t) : t.cfgp = s.cfgp :=
  settle_cfgp (fun _ hu => by cases hu; rfl) h

theorem pause_cfgp {c : Cfgp} {r : Res Phase} {t : State} (hr : UnitKeepsConfig c r) (h : pause r = .next t) :
    t.cfgp = c := by
  rcases pause_next h with ⟨p, u, rfl, rfl⟩ | ⟨u, rfl, hset⟩ | ⟨u, rfl, hset⟩
  · exact hr
  · exact (settle_next_cfgp hset).trans hr
  · exact (settle_next_cfgp hset).trans hr

theorem prepares_keepsConfig {s : State} {r : Res Phase} (h : Prepares s r) : UnitKeepsConfig s.cfgp r :=
  h.mono (fun _ _ ⟨hk, _⟩ => hk.cfgp) (fun _ _ h => h.elim) (fun _ h => h) fun _ h => h

theorem afterAccess_keepsConfig (p : Purpose) (s : State) : UnitKeepsConfig s.cfgp (afterAccess p s) := by
  by_cases hp : p = .rdarr
  · subst hp
    exact prepares_keepsConfig (s := putXbuf s.idx.toNat s.dr s) (prepares_readOn _ _ (prepares_completes true _))
  · exact prepares_keepsConfig (prepares_after p s fun h => absurd h hp)

theorem accessStep_keepsConfig (p : Purpose) (s : State) : UnitKeepsConfig s.cfgp (accessStep p s) := by
  refine ((issueRow_sat (rowAt s.stepNo) s).mono (fun _ _ h => h) (fun _ _ h => h.cfgp) (fun _ h => h) fun _ h => h).bind
    fun _ t ht => ?_
  split
  · exact ht.cfgp ▸ afterAccess_keepsConfig p t
  · exact ht.cfgp

theorem unit_keepsConfig (p : Phase) (s : State) : UnitKeepsConfig s.cfgp (unit p s) := by
  cases p with
  | load =>
    simp only [unit, loadCall]
    split
    · exact rfl
    · exact rfl
  | init =>
    simp only [unit, initAnswered]
    split
    · exact rfl
    · exact rfl
  | deinit => exact rfl
  | access x => exact accessStep_keepsConfig x s
  | complete b => exact rfl

theorem portStep_cfgp {p : Phase} {s t : State} (h : portStep p s = .next t) : t.cfgp = s.cfgp := by
  cases p with
  | complete b => exact settle_next_cfgp (s := finish b { s with phase := none }) h
  | load => exact pause_cfgp (unit_keepsConfig .load s) h
  | init => exact pause_cfgp (unit_keepsConfig .init s) h
  | deinit => exact pause_cfgp (unit_keepsConfig .deinit s) h
  | access x => exact pause_cfgp (unit_keepsConfig (.access x) s) h

theorem issue_cfgp {i : Instr} {s t : State} (h : issue i s = .next t) : t.cfgp = s.cfgp := by
  unfold issue at h
  split at h
  · cases h
  · have hstart : UnitKeepsConfig s.cfgp (start i (accept s)) :=
      (start_sat i (accept s)).mono (fun _ _ ⟨hk, _⟩ => hk.cfgp) (fun _ _ h => h.elim) (fun _ h => h) fun _ h => h
    split at h
    · rename_i b u heq
      rw [heq] at hstart
      exact (settle_next_cfgp h).trans hstart
    · exact pause_cfgp hstart h

/-- A move of the host writes a buffer, a table or the record of its reads, or is a reset, which keeps `CFGP` (R250). -/
theorem hostMove_cfgp {m : HostMove} {s t : State} (h : hostMove m s = .next t) : t.cfgp = s.cfgp := by
  unfold hostMove hostLoadXbuf hostSetXbuf hostLoadCfg hostSetCfgLen hostSetCfgByte hostRead hostReset at h
  split at h
  · cases h
  · cases m with
    | reset => dsimp only at h; split at h <;> cases h; rfl
    | read p =>
      dsimp only at h
      split at h
      · split at h <;> cases h; rfl
      · cases h
    | _ => dsimp only at h; split at h <;> cases h; rfl

/-- Settles O45: whatever kind of step it is keeps the configuration, and so do the moves of other agents after it. -/
theorem configurationIsConstant : Obligations.ConfigurationIsConstant := by
  intro s t h
  obtain ⟨-, hstep⟩ := step_next h
  cases hstep with
  | port p _ _ h => exact portStep_cfgp h
  | idle _ h => exact settle_next_cfgp h
  | move m rest _ h => exact settle_cfgp (fun _ => hostMove_cfgp (s := { s with host := rest })) h
  | command w rest i _ _ h => exact settle_cfgp (fun _ => exec_cfgp (s := { s with host := rest })) h
  | issue w rest i _ _ h => exact issue_cfgp (s := { s with host := rest }) h

end Sys2Proof.Proofs

/-! # RDREG in a quiet environment (R85, R150 to R153) -/

namespace Sys2Proof.Proofs
open Sys2Proof Sys2Proof.Machine Sys2Proof.Laws

/-- Settles O23: the access is `ecRead_quiet` with no port operation to come after it, and RDREG puts its byte in `RES8`. -/
theorem rdregReadsTheRegister : Obligations.RdregReadsTheRegister := by
  intro s a hs he hq hr
  obtain ⟨v, m, e, hd, ⟨hmay, hbyte⟩, hread⟩ :=
    ecRead_quiet (f := false) a (accept s) 0 he (portsOk_of_configOk hs.1) hq hr
  have hbody : body (.rdreg a) (accept s) = .ok true { accept s with
      res8 := Reg.of v, ar := a, dr := v, rw := false, stepNo := 0, ecmem := m, env := e,
      target := latchedAt s.cfgp a, trace := s.trace ++ readEvents s.cfgp a v } := by
    rw [body, hread]
    rfl
  refine ⟨v, m, e, ?_, hmay, hbyte, hd.drift.kept⟩
  rw [exec_ok rfl hs hbody]
  simp [finish, accept, hs.2]

end Sys2Proof.Proofs

/-! # The gateway cuts RDSTAT (R197, R228, R256) -/

namespace Sys2Proof.Proofs
open Sys2Proof Sys2Proof.Machine Sys2Proof.Laws

/-- A command taken: `BUSY` is set, and the entry clear of RDSTAT and WRCFG may have written `LASTERR` (R25, R30). -/
def entered (k : ErrKind) (n : Nat) (s : State) : State := { s with busy := true, lastCode := k, lastInfo := n }

theorem entryClear_accept (s : State) : entryClear (accept s)
    = entered (if s.cfgp.errClearOnEntry then .none else s.lastCode) (if s.cfgp.errClearOnEntry then 0 else s.lastInfo) s :=
  entryClear_eq (accept s)

section Entered
variable {s u : State} {k : ErrKind} {n j : Nat} {xs : List Access} {cur : Access}
  (h : CutAfter (entered k n s) xs cur j u)
include h

/-- What a cut leaves does not depend on `BUSY` and `LASTERR` as the command found them. -/
theorem faultLeft_entered : FaultLeft s xs cur j (takeGatewayFault u) :=
  ⟨rfl, rfl, rfl, rfl, rfl, h.left.ar, h.left.rw, h.left.dr, h.left.trace, h.left.target, h.left.regs⟩

/-- The registers a cut command leaves alone, `XBUF` and `STAT` if its accesses did. -/
theorem accessFrame_entered {xb : Memory} {st : Stat} (hb : s.busy = false) (hx : xb = s.xbuf) (hst : st = s.stat) :
    AccessFrame s { takeGatewayFault u with
      ok := s.ok, lastCode := s.lastCode, lastInfo := s.lastInfo, xbuf := xb, stat := st,
      base := s.base, cnt := s.cnt, idx := s.idx } :=
  ⟨h.frame.cfgp, h.frame.en, h.frame.hnd, rfl, rfl, rfl, hb.symm, h.frame.res8, h.frame.res16, h.frame.resx, hx, hst,
    h.frame.cfg, rfl, rfl, rfl, h.frame.phase, h.frame.host, h.frame.seen, h.frame.calls⟩

end Entered

/-- RDSTAT past the lifecycle check, cut in its read number `q`: the reads before it are done and their fields filled. -/
theorem readStatus_cut {s : State} {q j : Nat} (he : s.en = true) (hp : PortsOk s.cfgp) (hq : q < 113) (hj : j < 8)
    (hf : faultAfter s.cfgp (8 * q + j) s.env = true) (hr : ∀ b ∈ (rdstatAddrs s.cfgp).take q, readable s b) :
    ∃ (v : Nat → Byte) (u : State), readStatus s = .cut .gatewayFault u
      ∧ List.Forall₂ (mayRead s) ((rdstatAddrs s.cfgp).take q) ((List.range q).map v)
      ∧ CutAfter s (List.zipWith .read ((rdstatAddrs s.cfgp).take q) ((List.range q).map v))
          (.read (statAddr s.cfgp q) 0) j u
      ∧ u.stat = statFilled s.stat v q ∧ u.xbuf = s.xbuf := by
  have hq' : q ≤ 113 := Nat.le_of_lt hq
  have hreadable (i : Nat) (hi : i < q) : readable s (statAddr s.cfgp i) := by
    refine hr _ ?_
    rw [rdstatAddrs_take s.cfgp hq']
    exact List.mem_map_of_mem (List.mem_range.mpr hi)
  obtain ⟨v, t, hat⟩ := readStatus_at (cut := true) hq j s he hp (by rwa [Nat.add_comm]) hreadable
  have hran := hat.ran
  rw [statReads_eq s.cfgp v hq'] at hran
  obtain ⟨m, e, hcut, hafter⟩ := hran.ecRead_cut (statAddr s.cfgp q) 0 hj he hp
  refine ⟨v, _, by rw [hat.rest, hcut, bind_cut], ?_, hafter, hat.stat, hat.xbuf⟩
  exact readsOk_reads _ _ (by simp [rdstatAddrs_take s.cfgp hq']) hran.reads

/-- Settles O39: RDSTAT's body is cut in that read, and its end records the fault. -/
theorem gatewayFaultCutsRdstat : Obligations.GatewayFaultCutsRdstat := by
  intro s q j a hs he hget hj hf hr
  obtain ⟨hq, rfl⟩ := rdstatAddrs_get hget
  have hbody : body .rdstat (accept s) = readStatus (entryClear (accept s)) := if_pos he
  rw [entryClear_accept] at hbody
  obtain ⟨v, u, hcut, hmay, hafter, hstat, hx⟩ :=
    readStatus_cut (s := entered _ _ s) he (portsOk_of_configOk hs.1) hq hj hf hr
  refine ⟨v, takeGatewayFault u, ?_, hmay, faultLeft_entered hafter, hstat, fun b hb _ => ?_,
    accessFrame_entered hafter hs.2 hx rfl⟩
  · rw [exec_ready .rdstat s rfl hs, hbody, hcut]
    rfl
  · exact (hafter.regs b hb).trans (afterRun_other _ _ (by simp))

end Sys2Proof.Proofs

/-! # The encoding of commands (R100 to R112) -/

namespace Sys2Proof.Proofs
open Sys2Proof Sys2Proof.Machine Sys2Proof.Laws

/-! ## Decoder and encoder (R101 to R103, R110) -/

/-- A well-formed command's fields meet the test of its opcode's branch. -/
theorem decode_encode {i : Instr} (h : i.wf = true) : decode (encode i) = .ok i := by
  cases i with
  | init => rfl
  | deinit => rfl
  | isinit => rfl
  | geterr => rfl
  | rdreg a => exact decode_wordOf 0x10 a 0
  | wrreg a d => exact decode_wordOf 0x11 a d
  | rdarr b n => exact decode_wordOf 0x12 b n
  | wrarr b n => exact decode_wordOf 0x13 b n
  | romrd k => exact (decode_wordOf 0x20 0 k).trans (if_pos (of_decide_eq_true h))
  | rdrow t => exact (decode_wordOf 0x21 0 t).trans (if_pos (of_decide_eq_true h))
  | wrrow t => exact (decode_wordOf 0x22 0 t).trans (if_pos (of_decide_eq_true h))
  | rdstat => rfl
  | wrcfg => rfl

/-- Settles O1. -/
theorem decodeInvertsEncode : Obligations.DecodeInvertsEncode := fun _ => decode_encode

theorem encode_of_decode {w : CmdWord} {i : Instr} (h : decode w = .ok i) : encode i = w := by
  rw [← wordOf_fields w] at h ⊢
  rcases decode_ok h with ⟨ho, ha, hm, rfl⟩ | ⟨ho, ha, hm, rfl⟩ | ⟨ho, ha, hm, rfl⟩ | ⟨ho, ha, hm, rfl⟩ | ⟨ho, hm, rfl⟩
    | ⟨ho, rfl⟩ | ⟨ho, rfl⟩ | ⟨ho, rfl⟩ | ⟨ho, ha, -, rfl⟩ | ⟨ho, ha, -, rfl⟩ | ⟨ho, ha, -, rfl⟩ | ⟨ho, ha, hm, rfl⟩
    | ⟨ho, ha, hm, rfl⟩
  all_goals simp only [encode, *]

/-- Settles O2: every branch of the decoder that answers fixes the fields its command does not carry. -/
theorem decodedWordIsItsEncoding : Obligations.DecodedWordIsItsEncoding :=
  fun _ _ h => ⟨decode_wellFormed h, encode_of_decode h⟩

/-! ## The opcode table (R103) -/

/-- The encoding of a well-formed command selects the row of its mnemonic. -/
theorem encode_selects (i : Instr) : TableRow.Statement i := by
  cases i with
  | init => exact TableRow.init
  | deinit => exact TableRow.deinit
  | isinit => exact TableRow.isinit
  | geterr => exact TableRow.geterr
  | rdreg a => exact TableRow.rdreg a
  | wrreg a d => exact TableRow.wrreg a d
  | rdarr b n => exact TableRow.rdarr b n
  | wrarr b n => exact TableRow.wrarr b n
  | romrd k => exact TableRow.romrd k
  | rdrow t => exact TableRow.rdrow t
  | wrrow t => exact TableRow.wrrow t
  | rdstat => exact TableRow.rdstat
  | wrcfg => exact TableRow.wrcfg

/-- Every row's mask covers the opcode. -/
theorem opcOf_of_selects {r : OpcodeRow} {w : CmdWord} (hr : r ∈ opcodeRows) (h : r.selects w = true) :
    opcOf w = opcOf r.matchBits := by
  obtain ⟨ho, -, -, -⟩ := (selects_fields r w).mp h
  have hmask : ∀ r ∈ opcodeRows, opcOf r.maskBits = BitVec.allOnes 8 := by decide
  rwa [hmask r hr, BitVec.and_allOnes] at ho

/-- No two rows have one opcode. -/
theorem row_eq_of_opcOf_eq : ∀ r ∈ opcodeRows, ∀ r' ∈ opcodeRows, opcOf r.matchBits = opcOf r'.matchBits → r = r' := by
  decide

/-- A row whose mask is the whole word selects one word. -/
theorem eq_of_selects_whole {m : String} {c w : CmdWord} {k : Nat}
    (h : OpcodeRow.selects ⟨m, c, 0xFFFFFFFF, k⟩ w = true) : c = w := by
  simp only [OpcodeRow.selects, Bool.and_eq_true, beq_iff_eq] at h
  exact (BitVec.and_allOnes.symm.trans h.1).symm

/-- A field all covered by a row's mask is what the row matches. -/
theorem eq_of_covered {n : Nat} {x mask bits : BitVec n} (h : x &&& mask = bits) (hm : mask = BitVec.allOnes n) : x = bits := by
  rwa [hm, BitVec.and_allOnes] at h

/-- A word that selects a row is the encoding of a well-formed command of the row's mnemonic. -/
theorem encoding_of_selects {r : OpcodeRow} {w : CmdWord} (hr : r ∈ opcodeRows) (h : r.selects w = true) :
    ∃ i : Instr, i.wf = true ∧ encode i = w ∧ i.mnemonic = r.mnemonic := by
  have ho := opcOf_of_selects hr h
  obtain ⟨-, ha, hm, hk⟩ := (selects_fields r w).mp h
  simp only [opcodeRows, List.mem_cons, List.not_mem_nil, or_false] at hr
  rcases hr with rfl | rfl | rfl | rfl | rfl | rfl | rfl | rfl | rfl | rfl | rfl | rfl | rfl
  · exact ⟨.init, rfl, eq_of_selects_whole h, rfl⟩
  · exact ⟨.deinit, rfl, eq_of_selects_whole h, rfl⟩
  · exact ⟨.isinit, rfl, eq_of_selects_whole h, rfl⟩
  · exact ⟨.geterr, rfl, eq_of_selects_whole h, rfl⟩
  · exact ⟨.rdreg (addrOf w), rfl, (word_eq ho rfl (eq_of_covered hm (by decide))).symm, rfl⟩
  · exact ⟨.wrreg (addrOf w) (immOf w), rfl, (word_eq ho rfl rfl).symm, rfl⟩
  · exact ⟨.rdarr (addrOf w) (immOf w), rfl, (word_eq ho rfl rfl).symm, rfl⟩
  · exact ⟨.wrarr (addrOf w) (immOf w), rfl, (word_eq ho rfl rfl).symm, rfl⟩
  · exact ⟨.romrd (immOf w), decide_eq_true hk, (word_eq ho (eq_of_covered ha (by decide)) rfl).symm, rfl⟩
  · exact ⟨.rdrow (immOf w), decide_eq_true hk, (word_eq ho (eq_of_covered ha (by decide)) rfl).symm, rfl⟩
  · exact ⟨.wrrow (immOf w), decide_eq_true hk, (word_eq ho (eq_of_covered ha (by decide)) rfl).symm, rfl⟩
  · exact ⟨.rdstat, rfl, eq_of_selects_whole h, rfl⟩
  · exact ⟨.wrcfg, rfl, eq_of_selects_whole h, rfl⟩

/-- A word decodes to a command of a mnemonic exactly if it selects a row of that mnemonic. -/
theorem decode_iff_selects (w : CmdWord) (m : String) :
    (∃ i, decode w = .ok i ∧ i.mnemonic = m) ↔ ∃ r ∈ opcodeRows, r.mnemonic = m ∧ r.selects w = true := by
  constructor
  · rintro ⟨i, hd, rfl⟩
    rw [← encode_of_decode hd]
    exact encode_selects i (decode_wellFormed hd)
  · rintro ⟨r, hr, rfl, h⟩
    obtain ⟨i, hi, rfl, hm⟩ := encoding_of_selects hr h
    exact ⟨i, decode_encode hi, hm⟩

/-- Settles O3: a decoded word is an encoding, which selects its row; a word that selects a row is an encoding, which decodes;
and a row is determined by its opcode. -/
theorem wordsSelectOneRow : Obligations.WordsSelectOneRow :=
  ⟨decode_iff_selects, fun _ r r' hr hr' h h' =>
    row_eq_of_opcOf_eq r hr r' hr' ((opcOf_of_selects hr h).symm.trans (opcOf_of_selects hr' h'))⟩

/-! ## Illegal words (R105) -/

theorem decode_fails_iff (w : CmdWord) : (∃ e, decode w = .error e) ↔ ∀ i, decode w ≠ .ok i := by
  cases decode w <;> simp

/-- A word is illegal exactly if it selects no row. -/
theorem selects_none_iff (w : CmdWord) : (∀ r ∈ opcodeRows, r.selects w = false) ↔ ∃ e, decode w = .error e := by
  simp only [decode_fails_iff, ← Bool.not_eq_true]
  constructor
  · intro h i hi
    obtain ⟨r, hr, -, hs⟩ := (decode_iff_selects w i.mnemonic).mp ⟨i, hi, rfl⟩
    exact h r hr hs
  · intro h r hr hs
    obtain ⟨i, hi, -⟩ := (decode_iff_selects w r.mnemonic).mpr ⟨r, hr, rfl, hs⟩
    exact h i hi

/-- Bits 23..0 are zero exactly if both fields below the opcode are (R101). -/
theorem low24_eq_zero_iff (w : CmdWord) : w.extractLsb' 0 24 = 0 ↔ addrOf w = 0 ∧ immOf w = 0 := by
  simp only [addrOf, immOf, BitVec.toNat_eq, BitVec.extractLsb'_toNat, BitVec.ofNat_eq_ofNat, BitVec.toNat_ofNat,
    Nat.shiftRight_eq_div_pow]
  omega

/-- A test of the decoder that answers `r` where it is met. -/
theorem test_fails_iff (p : Prop) [Decidable p] (r : Except IllegalWord Instr) (e : IllegalWord) :
    (∃ e', (if p then r else .error e) = .error e') ↔ (p → ∃ e', r = .error e') := by
  split <;> simp [*]

theorem decodeZ_fails_iff (w : CmdWord) (i : Instr) : (∃ e, decodeZ w i = .error e) ↔ w.extractLsb' 0 24 ≠ 0 := by
  rw [Ne, low24_eq_zero_iff, decodeZ, test_fails_iff]
  simp

theorem decodeK_fails_iff (w : CmdWord) (kmax : Nat) (mk : Byte → Instr) :
    (∃ e, decodeK w kmax mk = .error e) ↔ addrOf w ≠ 0 ∨ kmax < (immOf w).toNat := by
  simp [decodeK, test_fails_iff, imp_iff_not_or]

/-- R105's list of the illegal words, kind by kind. -/
def IllegalKind (w : CmdWord) : Prop :=
  opcOf w ∉ [0x01, 0x02, 0x03, 0x04, 0x10, 0x11, 0x12, 0x13, 0x20, 0x21, 0x22, 0x30, 0x31]
  ∨ (opcOf w ∈ [0x01, 0x02, 0x03, 0x04, 0x30, 0x31] ∧ w.extractLsb' 0 24 ≠ 0)
  ∨ (opcOf w = 0x10 ∧ immOf w ≠ 0)
  ∨ (opcOf w ∈ [0x20, 0x21, 0x22] ∧ addrOf w ≠ 0)
  ∨ (opcOf w = 0x20 ∧ 28 < (immOf w).toNat)
  ∨ (opcOf w ∈ [0x21, 0x22] ∧ 9 < (immOf w).toNat)

/-- The listed kinds are where decoding fails: an opcode of the table leaves the test of its format, any other fails. -/
theorem illegalKind_iff (w : CmdWord) : IllegalKind w ↔ ∃ e, decode w = .error e := by
  by_cases ho : opcOf w ∈ [0x01, 0x02, 0x03, 0x04, 0x10, 0x11, 0x12, 0x13, 0x20, 0x21, 0x22, 0x30, 0x31]
  · simp only [List.mem_cons, List.not_mem_nil, or_false] at ho
    rcases ho with ho | ho | ho | ho | ho | ho | ho | ho | ho | ho | ho | ho | ho <;>
      simp [IllegalKind, decode, ho, test_fails_iff, decodeZ_fails_iff, decodeK_fails_iff]
  · have h : decode w = .error .unknownOpcode := by
      simp only [List.mem_cons, List.not_mem_nil, or_false, not_or] at ho
      simp only [decode, ho, if_false]
    exact ⟨fun _ => ⟨_, h⟩, fun _ => .inl ho⟩

/-! ## The step that takes a word (R100, R105) -/

theorem step_command {s : State} {w : CmdWord} {rest : List HostAction} {i : Instr} (hs : s.Ready)
    (hh : s.host = .command w :: rest) (hd : decode w = .ok i) : step s = settle (exec i { s with host := rest }) := by
  simp only [step_ready hs, fetch, hh, hd]

theorem step_illegal {s : State} {w : CmdWord} {rest : List HostAction} {e : IllegalWord} (hs : s.Ready)
    (hh : s.host = .command w :: rest ∨ s.host = .issue w :: rest) (hd : decode w = .error e) :
    step s = .refused (.illegalWord e) := by
  rcases hh with hh | hh <;> simp only [step_ready hs, fetch, hh, hd]

/-- Settles O4: the list is where decoding fails, and a step is refused for the reason decoding gives. -/
theorem illegalWordsAreRefused : Obligations.IllegalWordsAreRefused := by
  intro s w rest hs hh
  refine ⟨selects_none_iff w, (illegalKind_iff w).trans ?_⟩
  exact exists_congr fun e => ⟨fun hd => ⟨hd, step_illegal hs hh hd⟩, fun h => h.1⟩

/-- Settles O6: the step fetches the word and decodes it. -/
theorem stepRunsTheDecodedCommand : Obligations.StepRunsTheDecodedCommand :=
  fun _ _ _ _ => step_command

/-- Settles O7: the encoded word decodes to its command, and the word placed in `CMD` is taken off again. -/
theorem encodedCommandRunsNext : Obligations.EncodedCommandRunsNext := by
  intro s i hs hi
  have hword : s.withFetchWord 32 (encode i).toNat = pushWord (encode i) s := by
    rw [State.withFetchWord, Nat.mod_eq_of_lt (encode i).isLt, BitVec.ofNat_toNat, BitVec.setWidth_eq]
  rw [hword]
  exact step_command hs rfl (decode_encode hi)

/-! ## The words of R110 and R112 -/

/-- A word is its three fields, each shifted to its place. -/
theorem wordOf_eq_or (o : Byte) (a : Addr) (m : Byte) :
    wordOf o a m = wordOf o 0 0 ||| (a.setWidth 32 <<< 8) ||| m.setWidth 32 := by
  apply BitVec.eq_of_getLsbD_eq
  intro k hk
  simp only [wordOf, BitVec.getLsbD_append, BitVec.getLsbD_or, BitVec.getLsbD_shiftLeft, BitVec.getLsbD_setWidth]
  grind

/-- Settles O5: each word with operands by `wordOf_eq_or`; the words of R112 by evaluation. -/
theorem encodingsAreTheListedWords : Obligations.EncodingsAreTheListedWords := by
  refine ⟨rfl, rfl, rfl, rfl, fun a => ?_, wordOf_eq_or 0x11, wordOf_eq_or 0x12, wordOf_eq_or 0x13,
    wordOf_eq_or 0x20 0, wordOf_eq_or 0x21 0, wordOf_eq_or 0x22 0, ?_⟩
  · exact (wordOf_eq_or 0x10 a 0).trans BitVec.or_zero
  · decide

end Sys2Proof.Proofs

/-! # The lifecycle, and commands with EN = 0 (R133 to R140) -/

namespace Sys2Proof.Proofs
open Sys2Proof Sys2Proof.Machine Sys2Proof.Laws

/-- A command answers `t` if its body, with `BUSY` set, comes to `t` but for `OK`, and to the `OK` of `t` (R25, R27). -/
theorem exec_done {i : Instr} {s t : State} (hi : i.wf = true) (hs : s.Ready) (ht : t.busy = false)
    (hb : body i (accept s) = .ok t.ok (accept { t with ok := s.ok })) : exec i s = .next t := by
  rw [exec_ok hi hs hb]
  simp [finish, accept, ← ht]

/-! ## INIT (R136) -/

theorem initFresh_loadFailed {s : State} (he : s.en = false) (hl : (drawLoad s.env).1 = .fail) :
    initFresh s = (false, { s with
      env := (drawLoad s.env).2, calls := s.calls ++ [.load],
      hnd := false, lastCode := .loadFailure, lastInfo := 0 }) := by
  simp [initFresh, invokeLoad, hl, loadFailed, raise, he]

theorem initFresh_initRefused {s : State} {code : Nat} (he : s.en = false) (hl : (drawLoad s.env).1 = .ok)
    (hi : (drawInit (drawLoad s.env).2).1 = .refused code) (hc : code < 2 ^ s.cfgp.statusW) :
    initFresh s = (false, { s with
      env := (drawInit (drawLoad s.env).2).2, calls := s.calls ++ [.load, .init],
      hnd := false, lastCode := .initFailure, lastInfo := code }) := by
  simp [initFresh, invokeLoad, hl, initAnswered, invokeInit, hi, raise, statusCode, Nat.mod_eq_of_lt hc, he]

theorem initFresh_initialized {s : State} (hl : (drawLoad s.env).1 = .ok) (hi : (drawInit (drawLoad s.env).2).1 = .ok) :
    initFresh s = (true, { s with
      env := (drawInit (drawLoad s.env).2).2, calls := s.calls ++ [.load, .init], en := true, hnd := true }) := by
  simp [initFresh, invokeLoad, hl, initAnswered, invokeInit, hi]

/-- INIT from Uninitialized answers what `initFresh` comes to after the entry clear. -/
theorem exec_init_fresh {s t : State} (hs : s.Ready) (he : s.en = false) (ht : t.busy = false)
    (h : initFresh (entered (if s.cfgp.errClearOnEntry then .none else s.lastCode)
      (if s.cfgp.errClearOnEntry then 0 else s.lastInfo) s) = (t.ok, accept { t with ok := s.ok })) :
    exec .init s = .next t := by
  refine exec_done rfl hs ht ?_
  have hout : initOutcome (accept s) = (t.ok, accept { t with ok := s.ok }) := by
    rw [initOutcome, if_neg (by simp [he]), entryClear_accept, h]
  rw [body, initResult_eq, hout]

/-- Settles O16: `EN` decides whether the provider is asked, and its two answers decide the rest. -/
theorem initTakesItsFourWays : Obligations.InitTakesItsFourWays := by
  refine ⟨rfl, fun s hs => ⟨fun he => ?_, fun he hl => ?_, fun code he hl hi hc => ?_, fun he hl hi => ?_⟩⟩
  · have hout : initOutcome (accept s) = (true, accept s) := if_pos he
    exact exec_done rfl hs hs.2 (by rw [body, initResult_eq, hout])
  · exact exec_init_fresh hs he hs.2 (initFresh_loadFailed (s := entered _ _ s) he hl)
  · exact exec_init_fresh hs he hs.2 (initFresh_initRefused (s := entered _ _ s) he hl hi hc)
  · exact exec_init_fresh hs he hs.2 (initFresh_initialized (s := entered _ _ s) hl hi)

/-! ## DEINIT, ISINIT, GETERR (R137 to R139) -/

/-- Settles O17, by whether the handle is held. -/
theorem deinitReleasesAndDisables : Obligations.DeinitReleasesAndDisables := by
  refine ⟨rfl, fun s hs => exec_done rfl hs hs.2 ?_⟩
  cases hh : s.hnd with
  | true => simp [body, accept, invokeDeinit, hh]
  | false => simp [body, accept, hh]

/-- Settles O18: the body is `OK <- EN`. -/
theorem isinitReportsEnable : Obligations.IsinitReportsEnable :=
  ⟨rfl, fun _ hs => exec_done rfl hs hs.2 rfl⟩

/-- Settles O19: the body is `reportError`. -/
theorem geterrReportsLastError : Obligations.GeterrReportsLastError :=
  ⟨rfl, fun _ hs => exec_done rfl hs hs.2 rfl⟩

/-! ## RDSTAT and WRCFG with EN = 0 (R140, R225) -/

theorem whenInitialized_disabled (k : State → Res Bool) {s : State} (he : s.en = false) :
    whenInitialized k s = .ok false (raise .notInitialized 0 s) := by
  rw [whenInitialized, if_neg (by simp [he])]

/-- Settles O22: the lifecycle check ends both commands before their bodies begin. -/
theorem compositeCommandsNeedInitialized : Obligations.CompositeCommandsNeedInitialized := fun s hs he =>
  ⟨exec_done rfl hs hs.2 (whenInitialized_disabled readStatus (s := accept s) he),
    exec_done rfl hs hs.2 (whenInitialized_disabled writeConfig (s := accept s) he)⟩

/-! ## RDREG and WRREG with EN = 0 (R133, R134, R140) -/

/-- Settles O26: the access is `ecRead_disabled` or `ecWrite_disabled`, and RDREG puts its zero in `RES8`. -/
theorem singleAccessIsSilentWhenDisabled : Obligations.SingleAccessIsSilentWhenDisabled := by
  refine fun s a d hs he => ⟨exec_done rfl hs hs.2 ?_, exec_done rfl hs hs.2 ?_⟩
  · rw [body, ecRead_disabled a (accept s) he]
    rfl
  · rw [body, ecWrite_disabled a d (accept s) he]
    rfl

/-! ## Arrays and rows with EN = 0 (R133, R134, R140) -/

theorem wf_rdrow (k : Fin 10) : (Instr.rdrow (BitVec.ofNat 8 k.val)).wf = true := by revert k; decide

theorem wf_wrrow (k : Fin 10) : (Instr.wrrow (BitVec.ofNat 8 k.val)).wf = true := by revert k; decide

theorem tableIdOf_ofNat (k : Fin 10) : tableIdOf (BitVec.ofNat 8 k.val) = some k := by revert k; decide

/-- RDROW's body is that of RDARR at the table's base (R179). -/
theorem body_arrayRead {i : Instr} {s : State} {base : Addr} {n : BitVec 8}
    (hi : i = .rdarr base n ∨ ∃ k : Fin 10, i = .rdrow (BitVec.ofNat 8 k.val) ∧ base = tableBase s.cfgp k ∧ n = 10) :
    i.wf = true ∧ body i s = rdarrBody base n s := by
  rcases hi with rfl | ⟨k, rfl, rfl, rfl⟩
  · exact ⟨rfl, rfl⟩
  · exact ⟨wf_rdrow k, by simp only [body, tableIdOf_ofNat]⟩

/-- WRROW's body is that of WRARR at the table's base (R180). -/
theorem body_arrayWrite {i : Instr} {s : State} {base : Addr} {n : BitVec 8}
    (hi : i = .wrarr base n ∨ ∃ k : Fin 10, i = .wrrow (BitVec.ofNat 8 k.val) ∧ base = tableBase s.cfgp k ∧ n = 10) :
    i.wf = true ∧ body i s = wrarrBody base n s := by
  rcases hi with rfl | ⟨k, rfl, rfl, rfl⟩
  · exact ⟨rfl, rfl⟩
  · exact ⟨wf_wrrow k, by simp only [body, tableIdOf_ofNat]⟩

/-- What a command whose accesses were silent leaves alone once it is done; `XBUF` is as said of it. -/
theorem accessFrame_of_silent {s t : State} (h : Silent (accept s) t) (hs : s.Ready) {xb : Memory} (hx : xb = s.xbuf) :
    AccessFrame s { finish true t with xbuf := xb, ok := s.ok, base := s.base, cnt := s.cnt, idx := s.idx } :=
  { h.frame with ok := rfl, busy := hs.2.symm, xbuf := hx }

/-- Settles O33: the elements are `readArray_disabled` and `writeArray_disabled`, whatever form the command has. -/
theorem arraysAreSilentWhenDisabled : Obligations.ArraysAreSilentWhenDisabled := by
  refine fun s base n hs he => ⟨fun i hi => ?_, fun i hi hloaded => ?_⟩
  · obtain ⟨hwf, hbody⟩ := body_arrayRead (s := accept s) hi
    obtain ⟨t, hread, hsilent, hx⟩ := readArray_disabled base n (accept s) he
    have hdone : body i (accept s) = .ok true t := by rw [hbody, rdarrBody, hread, bind_ok]
    refine ⟨finish true t, exec_ok hwf hs hdone, rfl, fun k => ?_, hsilent.ecmem, hsilent.target, hsilent.env,
      hsilent.trace, accessFrame_of_silent hsilent hs rfl⟩
    rw [finish_xbuf, hx, byteAt_putMany]
    simp only [Nat.zero_le, true_and, Nat.zero_add, Nat.sub_zero, List.length_replicate, accept_xbuf]
    split
    · rename_i hk
      rw [List.getElem?_replicate, if_pos hk]
    · rfl
  · obtain ⟨hwf, hbody⟩ := body_arrayWrite (s := accept s) hi
    obtain ⟨t, hwrite, hsilent, hx⟩ := writeArray_disabled base n (accept s) he hloaded
    have hdone : body i (accept s) = .ok true t := by rw [hbody, wrarrBody, hwrite, bind_ok]
    exact ⟨finish true t, exec_ok hwf hs hdone, rfl, hsilent.ecmem, hsilent.target, hsilent.env, hsilent.trace,
      accessFrame_of_silent hsilent hs hx⟩

end Sys2Proof.Proofs

/-! # What a whole command stores in the EC registers (R154, R158, R173, R180, R209) -/

namespace Sys2Proof.Proofs
open Sys2Proof Sys2Proof.Machine Sys2Proof.Laws

/-! ## WRREG in a quiet environment (R150, R152, R154) -/

/-- Settles O25: the access is `ecWrite_quiet` with no port operation to come after it, and its last event puts the byte. -/
theorem wrregWritesTheRegister : Obligations.WrregWritesTheRegister := by
  intro s a d hs he hq
  obtain ⟨m, e, hdrift, hwrite⟩ :=
    ecWrite_quiet (f := false) a d (accept s) 0 he (portsOk_of_configOk hs.1) hq
  refine ⟨m.put a.toNat d, e, exec_done rfl hs hs.2 ?_, byteAt_put_same m _ d, fun b hne hv => ?_⟩
  · rw [body, hwrite]
    rfl
  · exact (byteAt_put_other m d (toNat_ne hne)).trans (hdrift.drift.kept b hv)

/-! ## Any command, however it ends -/

/-- However a command ends, the next one can be taken. -/
theorem ready_of_exec {i : Instr} {s t : State} (h : exec i s = .next t) : t.Ready := by
  have hcfgp : t.cfgp = s.cfgp := exec_cfgp h
  obtain ⟨-, ⟨hc, -⟩, hends⟩ := exec_next h
  refine ⟨hcfgp ▸ hc, ?_⟩
  rcases hends with ⟨b, u, -, rfl⟩ | ⟨u, -, rfl⟩ | ⟨u, -, rfl⟩ <;> rfl

/-- However a command ends, it has stored in no register outside `VOLATILE` but its own, and still no foreign master moves. -/
theorem exec_stores {i : Instr} {s t : State} (hf : s.env.noForeign = true) (h : exec i s = .next t) :
    EcKeptExcept s t (stored s.cfgp i) ∧ t.env.noForeign = true := by
  obtain ⟨-, ⟨hc, -⟩, hends⟩ := exec_next h
  have hbody := body_stores i (accept s) (portsOk_of_configOk hc) hf
  rcases hends with ⟨b, u, hb, rfl⟩ | ⟨u, hb, rfl⟩ | ⟨u, hb, rfl⟩
  all_goals
    rw [hb] at hbody
    exact hbody

/-- Settles O53: the registers of each command are those of `stored`. -/
theorem storingCommandsStoreOnlyTheirRegisters : Obligations.StoringCommandsStoreOnlyTheirRegisters := by
  intro s t i _ hf h
  have hkept : EcKeptExcept s t (stored s.cfgp i) := (exec_stores hf h).1
  refine ⟨?_, ?_, ?_, ?_⟩
  · rintro a d rfl
    exact hkept
  · rintro b n rfl
    exact hkept
  · rintro k rfl
    simpa only [stored, tableIdOf_ofNat] using hkept
  · rintro rfl
    exact hkept

/-! ## A byte written stays until it is read (R157, R158) -/

/-- Register `a`, outside `VOLATILE`, holds `d`, no command is in progress and no foreign master moves. -/
structure Holding (a : Addr) (d : Byte) (s : State) : Prop where
  ready : s.Ready
  outside : a ∉ s.cfgp.volatile
  foreign : s.env.noForeign = true
  byte : s.ecmem.byteAt a.toNat = some d

/-- A command that does not store in the register leaves it so. -/
theorem Holding.after {a : Addr} {d : Byte} {i : Instr} {s t : State} (hs : Holding a d s) (hi : a ∉ stored s.cfgp i)
    (h : exec i s = .next t) : Holding a d t := by
  obtain ⟨hkept, hforeign⟩ := exec_stores hs.foreign h
  exact ⟨ready_of_exec h, exec_cfgp h ▸ hs.outside, hforeign, (hkept a hs.outside hi).trans hs.byte⟩

/-- Nor do such commands one after another. -/
theorem Holding.afterAll {a : Addr} {d : Byte} {is : List Instr} {s t : State} (hs : Holding a d s)
    (his : ∀ i ∈ is, ∀ c, a ∉ stored c i) (h : runCommands is s = .next t) : Holding a d t := by
  induction is generalizing s with
  | nil =>
    obtain rfl := Host.Outcome.next.inj h
    exact hs
  | cons i is ih =>
    rw [runCommands] at h
    split at h
    · rename_i u hu
      exact ih (hs.after (his i (by simp) _) hu) (fun j hj => his j (by simp [hj])) h
    · cases h
    · cases h

/-- RDREG and WRREG at another address do not store in the register (R153, R154). -/
theorem not_stored_of_other {a b : Addr} {i : Instr} (hb : b ≠ a) (hi : i = .rdreg b ∨ ∃ x, i = .wrreg b x) (c : Cfgp) :
    a ∉ stored c i := by
  rcases hi with rfl | ⟨x, rfl⟩
  · exact List.not_mem_nil
  · exact fun h => hb (List.mem_singleton.mp h).symm

/-- A body of WRREG that is done has put the byte in the register, if `EN = 1`. -/
theorem body_wrreg_byte {a : Addr} {d : Byte} {b : Bool} {s t : State} (hc : configOk s.cfgp = true) (he : s.en = true)
    (hf : s.env.noForeign = true) (h : body (.wrreg a d) s = .ok b t) : t.ecmem.byteAt a.toNat = some d := by
  have hwrite := ecWrite_calm a d s he (portsOk_of_configOk hc) (Calm.of_noForeign _ _ hf)
  have hbody : Sat (fun _ u => u.ecmem.byteAt a.toNat = some d) (Stopped (writeBegun a d s)) (fun _ => False)
      (fun _ => False) (body (.wrreg a d) s) := by
    refine hwrite.bind ?_
    rintro _ _ ⟨m, -, -, rfl⟩
    exact byteAt_put_same m _ d
  rwa [h] at hbody

/-- A WRREG that ends with `OK = 1` was not cut, so the register holds its byte. -/
theorem holding_of_wrreg {a : Addr} {d : Byte} {s t : State} (he : s.en = true) (hv : a ∉ s.cfgp.volatile)
    (hf : s.env.noForeign = true) (h : exec (.wrreg a d) s = .next t) (hok : t.ok = true) : Holding a d t := by
  refine ⟨ready_of_exec h, exec_cfgp h ▸ hv, (exec_stores hf h).2, ?_⟩
  obtain ⟨-, hs, ⟨b, u, hb, rfl⟩ | ⟨u, -, rfl⟩ | ⟨u, -, rfl⟩⟩ := exec_next h
  · exact body_wrreg_byte (s := accept s) (t := u) hs.1 he hf hb
  · cases hok
  · cases hok

/-- RDREG answers the byte a register holds (R153, R157). -/
theorem Holding.rdreg {a : Addr} {d : Byte} {s : State} (hs : Holding a d s) (he : s.en = true)
    (hq : quietFor s.cfgp 8 s.env = true) : ∃ t, exec (.rdreg a) s = .next t ∧ t.res8 = Reg.of d ∧ t.ok = true := by
  have hr : readable s a := .inl (by simp [hs.byte])
  obtain ⟨v, m, e, hexec, hmay, -⟩ := rdregReadsTheRegister s a hs.ready he hq hr
  have hbyte : s.ecmem.byteAt a.toNat = some v := hmay.resolve_left hs.outside
  obtain rfl : d = v := Option.some.inj (hs.byte.symm.trans hbyte)
  exact ⟨_, hexec, rfl, rfl⟩

/-- Settles O27: WRREG leaves the register holding the byte, the commands between leave it so, and RDREG answers it. -/
theorem writeThenReadReturnsTheByte : Obligations.WriteThenReadReturnsTheByte := by
  intro s t u a d between _ he hv hf hbetween hwrite hok hrun hue hq
  have ht : Holding a d t := holding_of_wrreg he hv hf hwrite hok
  have hother : ∀ i ∈ between, ∀ c, a ∉ stored c i := fun i hi c => by
    obtain ⟨b, hne, hib⟩ := hbetween i hi
    exact not_stored_of_other hne hib c
  have hu : Holding a d u := ht.afterAll hother hrun
  exact hu.rdreg hue hq

end Sys2Proof.Proofs

/-! # The array engine, the ROM and the row engine (R170 to R182) -/

namespace Sys2Proof.Proofs
open Sys2Proof Sys2Proof.Machine Sys2Proof.Laws

/-! ## Element addresses, ROMRD, and the row forms (R171, R178 to R180) -/

/-- Settles O30: an address is a sum of 16-bit numbers, and `toNat_elemAt` says that a row's do not wrap. -/
theorem elementAddressesWrap : Obligations.ElementAddressesWrap := by
  refine ⟨fun base i => ?_, fun c t i hc hi => ?_⟩
  · have hi : i.toNat < 65536 := Nat.lt_trans i.isLt (by decide)
    rw [elemAddr, BitVec.toNat_add, BitVec.toNat_setWidth, Nat.mod_eq_of_lt hi]
  · simpa [elemAt] using toNat_elemAt hc t hi

theorem wf_romrd (k : Fin 29) : (Instr.romrd (BitVec.ofNat 8 k.val)).wf = true := by revert k; decide

theorem romIndexOf_ofNat (k : Fin 29) : romIndexOf (BitVec.ofNat 8 k.val) = some k := by revert k; decide

/-- Settles O21: the body is `lookUp`, and the decoder tests the index last. -/
theorem romrdLooksUpTheMap : Obligations.RomrdLooksUpTheMap := by
  refine ⟨fun s k hs => exec_done (wf_romrd k) hs hs.2 ?_, wordOf_eq_or 0x20 0, fun k hk => ?_⟩
  · rw [body, romIndexOf_ofNat]
    rfl
  · have hword : 0x20000000 ||| k.setWidth 32 = wordOf 0x20 0 k := (wordOf_eq_or 0x20 0 k).symm
    rw [hword, decode_wordOf]
    simp [Nat.not_le.mpr hk]

/-- Settles O34: the operand names the table, and the row form's body is the array form's. -/
theorem rowCommandsAreArrayCommands : Obligations.RowCommandsAreArrayCommands := by
  intro s k
  have hread : exec (.rdrow (BitVec.ofNat 8 k.val)) s = exec (.rdarr (tableBase s.cfgp k) 10) s := by
    simp only [exec, execRdrow, execRdarr, tableIdOf_ofNat]
  have hwrite : exec (.wrrow (BitVec.ofNat 8 k.val)) s = exec (.wrarr (tableBase s.cfgp k) 10) s := by
    simp only [exec, execWrrow, execWrarr, tableIdOf_ofNat]
  exact ⟨hread, hread, hwrite⟩

/-! ## What a chain of accesses leaves, once its command is done -/

theorem ecKeptExcept_of_afterRun {s t : State} {xs : List Access}
    (h : ∀ a : Addr, a ∉ s.cfgp.volatile → ecRegs t a = afterRun xs (ecRegs s) a) : EcKeptExcept s t (writtenIn xs) :=
  fun a ha hw => (h a ha).trans (afterRun_other xs _ hw)

/-- What a command leaves alone whose accesses were a chain; `XBUF` is as said of it. -/
theorem accessFrame_of_ran {s t : State} {cut : Bool} {n : Nat} {xs : List Access} (h : Ran cut n (accept s) xs t)
    (hs : s.Ready) {xb : Memory} (hx : xb = s.xbuf) (hst : t.stat = s.stat) :
    AccessFrame s { finish true t with xbuf := xb, ok := s.ok, base := s.base, cnt := s.cnt, idx := s.idx } :=
  ⟨h.cfgp, h.en, h.hnd, h.lastCode, h.lastInfo, rfl, hs.2.symm, h.res8, h.res16, h.resx, hx, hst, h.cfg, rfl, rfl, rfl,
    h.phase, h.host, h.seen, h.calls⟩

theorem length_arrayAddrs (b : Addr) (n : Nat) : (arrayAddrs b n).length = n := by
  rw [arrayAddrs, List.length_map, List.length_range]

/-! ## Array reads into XBUF (R172) -/

/-- `putXbuf` on the two buffers an array read may deliver to. -/
def deliver (i : Nat) (v : Byte) (x : Memory × Stat) : Memory × Stat := (x.1.put i v, x.2)

theorem foldl_deliver (vs : List Byte) (j : Nat) (xb : Memory) (st : Stat) :
    (List.zip (List.range' j vs.length) vs).foldl (fun x y => deliver y.1 y.2 x) (xb, st) = (xb.putMany j vs, st) := by
  induction vs generalizing j xb with
  | nil => rfl
  | cons v vs ih => exact ih (j + 1) (xb.put j v)

/-- What an array read has left in the buffers once it has delivered `n` bytes. -/
theorem buffers_of_delivered {s t : State} {n : Nat} {vs : List Byte} (hlen : vs.length = n)
    (h : (t.xbuf, t.stat) = (List.zip (List.range n) vs).foldl (fun x y => deliver y.1 y.2 x) (s.xbuf, s.stat)) :
    (∀ k, t.xbuf.byteAt k = if k < n then vs[k]? else s.xbuf.byteAt k) ∧ t.stat = s.stat := by
  subst hlen
  rw [List.range_eq_range', foldl_deliver, Prod.mk.injEq] at h
  obtain ⟨hx, hst⟩ := h
  refine ⟨fun k => ?_, hst⟩
  rw [hx, byteAt_putMany]
  simp

/-- Settles O31: the array read is the chain of `readArray_ran`, and its bytes are delivered to `XBUF`. -/
theorem arrayReadFillsXbuf : Obligations.ArrayReadFillsXbuf := by
  intro s i base n hs he hq hi hr
  obtain ⟨hwf, hbody⟩ := body_arrayRead (s := accept s) hi
  obtain ⟨vs, t, hlen, hread, hran, hbase, hcnt, hidx, hput⟩ :=
    readArray_ran (cut := false) (put := putXbuf) deliver (fun _ _ _ => rfl) base n 0 (accept s) he
      (portsOk_of_configOk hs.1) (by rwa [Nat.zero_add]) hr
  obtain ⟨hx, hst⟩ := buffers_of_delivered hlen hput
  have hdone : body i (accept s) = .ok true t := by rw [hbody, rdarrBody, hread, bind_ok]
  have hkept : EcKeptExcept (accept s) t _ := ecKeptExcept_of_afterRun hran.regs
  rw [writtenIn_reads] at hkept
  refine ⟨vs, finish true t, exec_ok hwf hs hdone, readsOk_reads _ _ ?_ hran.reads, hx, rfl, hbase, hcnt, ?_, hran.ends,
    hidx, hkept, accessFrame_of_ran hran hs rfl hst⟩
  · rw [hlen, length_arrayAddrs]
  · rw [← readPass_eq]
    exact hran.trace

/-! ## Array writes from XBUF (R173) -/

theorem xbufByte_written {i : Nat} {v : Byte} {s : State} (h : s.xbuf.byteAt i = some v) : xbufByte i s = .ok v s := by
  rw [xbufByte, h, known_some]

theorem map_getD_range {n : Nat} {vs : List Byte} (h : vs.length = n) : (List.range n).map (fun k => vs.getD k 0) = vs := by
  subst h
  exact List.ext_getElem (by simp) fun k h1 h2 => by simp [h2]

/-- After the writes of an array of at most 256 elements each element's register outside `VOLATILE` holds its byte. -/
theorem elements_hold {s t : State} {base : Addr} {n : Nat} {vals : Nat → Byte} (hn : n ≤ 256)
    (h : ∀ a : Addr, a ∉ s.cfgp.volatile →
      ecRegs t a = afterRun ((List.range n).map fun i => .write (elemAt base i) (vals i)) (ecRegs s) a)
    (k : Nat) (hk : k < n) (hv : elemAt base k ∉ s.cfgp.volatile) :
    t.ecmem.byteAt (elemAt base k).toNat = some (vals k) :=
  (h _ hv).trans (afterRun_array base n vals _ hn hk)

/-- Settles O32: the array write is the chain of `writeArray_ran`, which leaves each byte in its element's register. -/
theorem arrayWriteStoresXbuf : Obligations.ArrayWriteStoresXbuf := by
  intro s i base n vs hs he hq hi hlen hloaded
  obtain ⟨hwf, hbody⟩ := body_arrayWrite (s := accept s) hi
  have hval (k : Nat) (hk : k < n.toNat) : vs[k]? = some (vs.getD k 0) := by
    rw [List.getD_eq_getElem?_getD, List.getElem?_eq_getElem (hlen ▸ hk), Option.getD_some]
  obtain ⟨t, hwrite, hran, hbase, hcnt, hidx, hx, hst⟩ :=
    writeArray_ran (cut := false) (src := xbufByte) base n (fun k => vs.getD k 0) 0 (accept s) he
      (portsOk_of_configOk hs.1) (by rwa [Nat.zero_add])
      fun k u hk hu _ => xbufByte_written (by rw [hu, accept_xbuf, hloaded k hk, hval k hk])
  have hdone : body i (accept s) = .ok true t := by rw [hbody, wrarrBody, hwrite, bind_ok]
  have hkept : EcKeptExcept (accept s) t _ := ecKeptExcept_of_afterRun hran.regs
  rw [writtenIn_array] at hkept
  have hregs := elements_hold (Nat.le_of_lt n.isLt) hran.regs
  rw [arrayWrites_eq, map_getD_range hlen] at hran
  refine ⟨finish true t, exec_ok hwf hs hdone, fun k hk hv => (hregs k hk hv).trans (hval k hk).symm, hkept, rfl, hbase, hcnt,
    ?_, hran.ends, hidx, accessFrame_of_ran hran hs hx hst⟩
  rw [← writePass_eq]
  exact hran.trace

/-! ## The gateway cuts an array (R228, R256) -/

/-- A command whose body the gateway cuts. -/
theorem exec_cut {i : Instr} {s u : State} (h : i.wf = true) (hs : s.Ready) (hb : body i (accept s) = .cut .gatewayFault u) :
    exec i s = .next (takeGatewayFault u) := by
  rw [exec_ready i s h hs, hb]
  rfl

/-- An index of an array is a number of 8 bits. -/
theorem toNat_idx {n : BitVec 8} {q : Nat} (hq : q < n.toNat) : (BitVec.ofNat 8 q).toNat = q :=
  Nat.mod_eq_of_lt (Nat.lt_trans hq n.isLt)

/-- RDARR's body, cut in element `q`. -/
theorem rdarrBody_cut {s : State} {base : Addr} {n : BitVec 8} {q j : Nat} (he : s.en = true) (hp : PortsOk s.cfgp)
    (hq : q < n.toNat) (hj : j < 8) (hf : faultAfter s.cfgp (8 * q + j) s.env = true)
    (hr : ∀ a ∈ arrayAddrs base q, readable s a) :
    ∃ (vs : List Byte) (u : State), rdarrBody base n s = .cut .gatewayFault u
      ∧ List.Forall₂ (mayRead s) (arrayAddrs base q) vs
      ∧ CutAfter s (List.zipWith .read (arrayAddrs base q) vs) (.read (elemAt base q) 0) j u
      ∧ (∀ k, u.xbuf.byteAt k = if k < q then vs[k]? else s.xbuf.byteAt k) ∧ u.stat = s.stat
      ∧ u.base = base ∧ u.cnt = n ∧ u.idx.toNat = q := by
  obtain ⟨vs, t, g, hlen, hran, hbase, hcnt, hidx, hput, hbody⟩ :=
    readArray_at (cut := true) (put := putXbuf) deliver (fun _ _ _ => rfl) base n hq j s he hp (by rwa [Nat.add_comm]) hr
  obtain ⟨hx, hst⟩ := buffers_of_delivered hlen hput
  obtain ⟨m, e, hcut, hafter⟩ := hran.ecRead_cut (elemAt base q) 0 hj he hp
  refine ⟨vs, _, by rw [rdarrBody, hbody, hcut, bind_cut, bind_cut], readsOk_reads _ _ ?_ hran.reads, hafter, hx, hst,
    hbase, hcnt, (congrArg BitVec.toNat hidx).trans (toNat_idx hq)⟩
  rw [hlen, length_arrayAddrs]

/-- WRARR's body, cut in element `q`. -/
theorem wrarrBody_cut {s : State} {base : Addr} {n : BitVec 8} {q j : Nat} {b : Nat → Byte} (he : s.en = true)
    (hp : PortsOk s.cfgp) (hq : q < n.toNat) (hj : j < 8) (hf : faultAfter s.cfgp (8 * q + j) s.env = true)
    (hb : ∀ k, k ≤ q → s.xbuf.byteAt k = some (b k)) :
    ∃ u : State, wrarrBody base n s = .cut .gatewayFault u
      ∧ CutAfter s ((List.range q).map fun i => .write (elemAt base i) (b i)) (.write (elemAt base q) (b q)) j u
      ∧ u.xbuf = s.xbuf ∧ u.stat = s.stat ∧ u.base = base ∧ u.cnt = n ∧ u.idx.toNat = q := by
  obtain ⟨t, g, hran, hbase, hcnt, hidx, hx, hst, hbody⟩ :=
    writeArray_at (cut := true) (src := xbufByte) base n b hq j s he hp (by rwa [Nat.add_comm])
      fun k u hk hu _ => xbufByte_written (hu ▸ hb k (Nat.le_of_lt hk))
  have hbyte : xbufByte q t = .ok (b q) t := xbufByte_written (hx ▸ hb q (Nat.le_refl q))
  have haddr : curAddr t = elemAt base q := by rw [curAddr, hbase, hidx]
  obtain ⟨m, e, hcut, hafter⟩ := hran.ecWrite_cut (elemAt base q) (b q) hj he hp
  exact ⟨_, by rw [wrarrBody, hbody, hbyte, bind_ok, haddr, hcut, bind_cut, bind_cut], hafter, hx, hst, hbase, hcnt,
    (congrArg BitVec.toNat hidx).trans (toNat_idx hq)⟩

/-- Settles O36: the body of the array command is cut in element `q`, and its end records the fault. -/
theorem gatewayFaultCutsAnArray : Obligations.GatewayFaultCutsAnArray := by
  intro s i base n q j hs he hq hj hf
  have hp := portsOk_of_configOk hs.1
  refine ⟨fun hi hr => ?_, fun b hi hb => ?_⟩
  · obtain ⟨hwf, hbody⟩ := body_arrayRead (s := accept s) hi
    obtain ⟨vs, u, hcut, hmay, hafter, hx, hst, hbase, hcnt, hidx⟩ := rdarrBody_cut (s := accept s) he hp hq hj hf hr
    have hafter : CutAfter (entered s.lastCode s.lastInfo s) _ _ j u := hafter
    have hkept : EcKeptExcept s u _ := ecKeptExcept_of_afterRun hafter.regs
    rw [writtenIn_reads] at hkept
    exact ⟨vs, takeGatewayFault u, exec_cut hwf hs (hbody.trans hcut), hmay, faultLeft_entered hafter, hx, hbase, hcnt, hidx,
      hkept, accessFrame_entered hafter hs.2 rfl hst⟩
  · obtain ⟨hwf, hbody⟩ := body_arrayWrite (s := accept s) hi
    obtain ⟨u, hcut, hafter, hx, hst, hbase, hcnt, hidx⟩ := wrarrBody_cut (s := accept s) he hp hq hj hf hb
    have hafter : CutAfter (entered s.lastCode s.lastInfo s) _ _ j u := hafter
    have hkept : EcKeptExcept s u _ := ecKeptExcept_of_afterRun hafter.regs
    rw [writtenIn_array] at hkept
    have hqn : q ≤ 256 := Nat.le_of_lt (Nat.lt_trans hq n.isLt)
    exact ⟨takeGatewayFault u, exec_cut hwf hs (hbody.trans hcut), arrayWrites_eq base q b ▸ faultLeft_entered hafter,
      elements_hold hqn hafter.regs, hkept, hbase, hcnt, hidx, accessFrame_entered hafter hs.2 hx hst⟩

/-! ## A byte or a length nothing has written (R242) -/

/-- A command whose body comes to a place nothing has written. -/
theorem exec_fault {i : Instr} {s : State} {f : Fault} (h : i.wf = true) (hs : s.Ready) (hb : body i (accept s) = .fault f) :
    exec i s = .fault f := by
  rw [exec_ready i s h hs, hb]
  rfl

theorem byteAt_getD {m : Memory} {k : Nat} (h : m.byteAt k ≠ none) : m.byteAt k = some ((m.byteAt k).getD 0) := by
  obtain ⟨v, hv⟩ := Option.ne_none_iff_exists'.mp h
  rw [hv, Option.getD_some]

/-- An array write from `XBUF`, silent or quiet up to its element `j`, goes on with that element's byte. -/
theorem writeArray_reaches {s : State} (base : Addr) {n : BitVec 8} {j : Nat} (hp : PortsOk s.cfgp)
    (hq : s.en = false ∨ quietFor s.cfgp (8 * j) s.env = true) (hj : j < n.toNat)
    (hx : ∀ k, k < j → s.xbuf.byteAt k ≠ none) :
    ∃ (t : State) (g : Byte → State → Res Unit), writeArray xbufByte base n s = (xbufByte j t).bind g ∧ t.xbuf = s.xbuf := by
  cases he : s.en with
  | false =>
    obtain ⟨t, hwrite, -, hsame⟩ := writeElems_disabled j 0 (loadArray base n s) he fun k _ hk => hx k (by omega)
    refine ⟨setIdx j t, fun v s => (ecWrite (curAddr s) v s).bind fun _ =>
      forEach (writeElem xbufByte) (List.range' (j + 1) (n.toNat - (j + 1))), ?_, hsame⟩
    rw [writeArray, range_split hj, forEach_append, hwrite, bind_ok, forEach_cons, writeElem, bind_assoc]
  | true =>
    have hq : quietFor s.cfgp (8 * j) s.env = true := hq.resolve_left (by simp [he])
    obtain ⟨t, g, -, -, -, -, hsame, -, hwrite⟩ :=
      writeArray_at (cut := false) (src := xbufByte) base n (fun k => (s.xbuf.byteAt k).getD 0) hj 0 s he hp
        (by rwa [Nat.zero_add]) fun k u hk hu _ => xbufByte_written (by rw [hu]; exact byteAt_getD (hx k hk))
    exact ⟨t, _, hwrite, hsame⟩

theorem wrarrBody_unwritten {s : State} {base : Addr} {n : BitVec 8} {j : Nat} (hp : PortsOk s.cfgp)
    (hq : s.en = false ∨ quietFor s.cfgp (8 * j) s.env = true) (hj : j < n.toNat)
    (hnone : s.xbuf.byteAt j = none) (hx : ∀ k, k < j → s.xbuf.byteAt k ≠ none) :
    wrarrBody base n s = .fault (.readUnspecified (.host (.xbuf j))) := by
  obtain ⟨t, g, hwrite, hsame⟩ := writeArray_reaches base hp hq hj hx
  rw [wrarrBody, hwrite, xbufByte, hsame, hnone, known_none, bind_fault, bind_fault]

theorem shapeOk_append {ts us : List (Fin 10)} {s : State} (h : ∀ k ∈ ts, s.cfg[k].len = Reg.of 10) :
    shapeOk (ts ++ us) s = shapeOk us s := by
  induction ts with
  | nil => rfl
  | cons k ts ih =>
    obtain ⟨hk, hts⟩ := List.forall_mem_cons.mp h
    rw [List.cons_append, shapeOk, cfgLen, hk, value_of, known_some, bind_ok, if_pos rfl, ih hts]

theorem lt_of_mem_tableIds_take : ∀ k : Fin 10, ∀ l ∈ tableIds.take k.val, l < k := by decide

theorem writeConfig_unsetLength {s : State} {k : Fin 10} (hk : s.cfg[k].len.known = false)
    (hl : ∀ l : Fin 10, l < k → s.cfg[l].len = Reg.of 10) : writeConfig s = .fault (.readUnspecified (.cfgLen k)) := by
  have hsplit : tableIds = tableIds.take k.val ++ k :: tableIds.drop (k.val + 1) := by
    rw [← tableIds_drop k.isLt, List.take_append_drop]
  have hnone : s.cfg[k].len.value = none := by rw [Reg.value, hk, if_neg Bool.false_ne_true]
  have hshape : shapeOk tableIds s = .fault (.readUnspecified (.cfgLen k)) := by
    rw [hsplit, shapeOk_append fun l h => hl l (lt_of_mem_tableIds_take k l h), shapeOk, cfgLen, hnone, known_none, bind_fault]
  rw [writeConfig, hshape, bind_fault]

theorem writeConfig_unwritten {s : State} {k : Fin 10} {i : Nat} (he : s.en = true) (hp : PortsOk s.cfgp)
    (hq : quietFor s.cfgp (80 * k.val + 8 * i) s.env = true) (hl : ∀ l : Fin 10, s.cfg[l].len = Reg.of 10) (hi : i < 10)
    (hnone : s.cfg[k].bytes.byteAt i = none)
    (hx : ∀ (l : Fin 10) (x : Nat), x < 10 → l < k ∨ l = k ∧ x < i → s.cfg[l].bytes.byteAt x ≠ none) :
    writeConfig s = .fault (.readUnspecified (.cfgByte k i)) := by
  obtain ⟨t, g, hran, -, -, -, hrows⟩ :=
    rows_at (cut := false) (fun l x => (s.cfg[l].bytes.byteAt x).getD 0) k hi 0 s he hp
      (by rwa [show 0 + 8 * (10 * k.val + i) = 80 * k.val + 8 * i by omega])
      fun l x hx' h => byteAt_getD (hx l x hx' h)
  rw [writeConfig, shapeOk_ok tableIds s fun l _ => hl l, bind_ok, if_pos rfl, hrows, cfgByte, hran.cfg, hnone, known_none,
    bind_fault, bind_fault]

/-- Settles O35: each body reads its bytes and lengths in order, and stops at the first that nothing has written. -/
theorem unwrittenBufferBytesFault : Obligations.UnwrittenBufferBytesFault := by
  intro s hs
  have hp := portsOk_of_configOk hs.1
  have hbody (he : s.en = true) : body .wrcfg (accept s) = writeConfig (entered _ _ s) :=
    (if_pos he).trans (congrArg writeConfig (entryClear_accept s))
  refine ⟨fun i base n j hi hq hj hnone hx => ?_, fun k he hk hl => ?_, fun k i he hq hl hi hnone hx => ?_⟩
  · obtain ⟨hwf, hbody⟩ := body_arrayWrite (s := accept s) hi
    exact exec_fault hwf hs (hbody.trans (wrarrBody_unwritten (s := accept s) hp hq hj hnone hx))
  · exact exec_fault rfl hs ((hbody he).trans (writeConfig_unsetLength (s := entered _ _ s) hk hl))
  · exact exec_fault rfl hs ((hbody he).trans (writeConfig_unwritten (s := entered _ _ s) he hp hq hl hi hnone hx))

end Sys2Proof.Proofs

/-! # The controller: Pct, RDSTAT and WRCFG (R191 to R209) -/

namespace Sys2Proof.Proofs
open Sys2Proof Sys2Proof.Machine Sys2Proof.Laws

/-! ## The percentage (R191, R192) -/

/-- `Pct` is the exact product floored: it fits in 32 bits, and division by 0 gives 0. -/
theorem toNat_pct (s m : BitVec 16) : (pct s m).toNat = s.toNat * 100 / m.toNat := by
  unfold pct
  split
  · rename_i hm
    rw [hm, Nat.div_zero]
    rfl
  · have hle : s.toNat * 100 / m.toNat ≤ s.toNat * 100 := Nat.div_le_self _ _
    rw [BitVec.toNat_ofNat, Nat.mod_eq_of_lt (by omega)]

theorem pct_zero (s : BitVec 16) : pct s 0 = 0 := rfl

/-- Settles O37: every clause but the rule's own values is a fact about the floored quotient of `toNat_pct`. -/
theorem pctIsTheFlooredQuotient : Obligations.PctIsTheFlooredQuotient := by
  have hpos (m : BitVec 16) (hm : m ≠ 0) : 0 < m.toNat := Nat.pos_of_ne_zero fun h => hm (BitVec.eq_of_toNat_eq h)
  refine ⟨fun s m => ⟨?_, fun _ => toNat_pct s m⟩, fun s m hm => ?_, fun s s' m h => ?_, fun s m => ?_, by decide, by decide,
    by decide, by decide, by decide, by decide, by decide, by decide, pct_zero⟩
  · rintro rfl
    exact pct_zero s
  · rw [toNat_pct]
    exact ⟨Nat.div_mul_le_self _ _, Nat.lt_mul_of_div_lt (Nat.lt_succ_self _) (hpos m hm)⟩
  · rw [toNat_pct, toNat_pct]
    exact Nat.div_le_div_right (Nat.mul_le_mul_right 100 h)
  · rw [toNat_pct]
    exact (Nat.div_le_self _ _).trans (by omega)

/-! ## What the commands that write no EC register leave (R70, R196) -/

/-- Settles O52: none of these commands is in the list of those that store. -/
theorem readingCommandsStoreNothing : Obligations.ReadingCommandsStoreNothing := by
  intro s t i hf hi h
  have hnone : stored s.cfgp i = [] := by
    rcases hi with rfl | rfl | rfl | rfl | ⟨a, rfl⟩ | ⟨b, n, rfl⟩ | ⟨k, rfl⟩ | ⟨k, rfl⟩ | rfl <;> rfl
  exact hnone ▸ (exec_stores hf h).1

/-! ## RDSTAT and WRCFG with EN = 1, past the lifecycle check (R140, R195, R201) -/

theorem body_rdstat_enabled {s : State} (he : s.en = true) : body .rdstat (accept s)
    = readStatus (entered (if s.cfgp.errClearOnEntry then .none else s.lastCode)
        (if s.cfgp.errClearOnEntry then 0 else s.lastInfo) s) :=
  (if_pos he).trans (congrArg readStatus (entryClear_accept s))

theorem body_wrcfg_enabled {s : State} (he : s.en = true) : body .wrcfg (accept s)
    = writeConfig (entered (if s.cfgp.errClearOnEntry then .none else s.lastCode)
        (if s.cfgp.errClearOnEntry then 0 else s.lastInfo) s) :=
  (if_pos he).trans (congrArg writeConfig (entryClear_accept s))

/-- What RDSTAT and WRCFG leave alone where their accesses were a chain; `XBUF` and `STAT` are as said of them. -/
theorem accessFrame_of_enteredRan {s t : State} {k : ErrKind} {e : Nat} {cut : Bool} {n : Nat} {xs : List Access}
    (h : Ran cut n (entered k e s) xs t) (hs : s.Ready) {xb : Memory} {st : Stat} (hx : xb = s.xbuf) (hst : st = s.stat) :
    AccessFrame s { finish true t with
      xbuf := xb, stat := st, ok := s.ok, lastCode := s.lastCode, lastInfo := s.lastInfo,
      base := s.base, cnt := s.cnt, idx := s.idx } :=
  ⟨h.cfgp, h.en, h.hnd, rfl, rfl, rfl, hs.2.symm, h.res8, h.res16, h.resx, hx, hst, h.cfg, rfl, rfl, rfl, h.phase, h.host,
    h.seen, h.calls⟩

/-- Settles O38: the body is the chain of 113 reads of `readStatus_ran`. -/
theorem rdstatFillsTheSnapshot : Obligations.RdstatFillsTheSnapshot := by
  intro s hs he hq hr
  obtain ⟨v, t, hread, hran, hx, hst⟩ :=
    readStatus_ran (cut := false) (entered _ _ s) he (portsOk_of_configOk hs.1) hq hr
  have hdone : body .rdstat (accept s) = .ok true t := (body_rdstat_enabled he).trans hread
  have hkept : EcKeptExcept (entered _ _ s) t _ := ecKeptExcept_of_afterRun hran.regs
  rw [writtenIn_reads] at hkept
  refine ⟨v, finish true t, exec_ok rfl hs hdone, readsOk_reads _ _ (by simp [rdstatAddrs_eq]) hran.reads, hst, rfl,
    hran.lastCode, hran.lastInfo, ?_, hran.ends, hkept, accessFrame_of_enteredRan hran hs hx rfl⟩
  rw [← readPass_eq]
  exact hran.trace

/-! ## The shape check of WRCFG (R202, R226) -/

theorem shapeOk_bad {ts : List (Fin 10)} {s : State} (hknown : ∀ k ∈ ts, s.cfg[k].len.known = true)
    (hbad : ∃ k ∈ ts, s.cfg[k].len.val ≠ 10) : shapeOk ts s = .ok false s := by
  induction ts with
  | nil => simp at hbad
  | cons k ts ih =>
    obtain ⟨hk, hts⟩ := List.forall_mem_cons.mp hknown
    have hlen : s.cfg[k].len.value = some s.cfg[k].len.val := if_pos hk
    rw [shapeOk, cfgLen, hlen, known_some, bind_ok]
    split
    · rename_i h10
      exact ih hts (((List.exists_mem_cons_iff _ k ts).mp hbad).resolve_left (not_not_intro h10))
    · rfl

theorem mem_tableIds : ∀ k : Fin 10, k ∈ tableIds := by decide

theorem writeConfig_badShape {s : State} (hknown : ∀ k : Fin 10, s.cfg[k].len.known = true)
    (hbad : ∃ k : Fin 10, s.cfg[k].len.val ≠ 10) : writeConfig s = .ok false (raise .invalidShape 0 s) := by
  obtain ⟨k, hk⟩ := hbad
  rw [writeConfig, shapeOk_bad (fun k _ => hknown k) ⟨k, mem_tableIds k, hk⟩, bind_ok, if_neg Bool.false_ne_true]

/-- Settles O40: the lifecycle check, and after it the shape check, end the command before its first access. -/
theorem wrcfgRefusesABadShape : Obligations.WrcfgRefusesABadShape := by
  intro s hs hknown hbad
  refine exec_done rfl hs hs.2 ?_
  cases he : s.en with
  | false =>
    refine (whenInitialized_disabled writeConfig (s := accept s) he).trans ?_
    simp [raise, accept, he]
  | true =>
    refine (body_wrcfg_enabled he).trans ((writeConfig_badShape (s := entered _ _ s) hknown hbad).trans ?_)
    simp [raise, accept, entered, he]

end Sys2Proof.Proofs

/-! # WRCFG's chain of accesses (R201 to R209) -/

namespace Sys2Proof.Proofs
open Sys2Proof Sys2Proof.Machine Sys2Proof.Laws

/-! ## Chains whose reads are of registers they do not write, and that write no register twice -/

/-- A register written once in a chain holds that byte after it. -/
theorem afterRun_written {xs : List Access} {f : Addr → Option Byte} {a : Addr} {d : Byte} (hn : (writtenIn xs).Nodup)
    (h : .write a d ∈ xs) : afterRun xs f a = some d := by
  induction xs generalizing f with
  | nil => simp at h
  | cons x xs ih =>
    cases x with
    | read b v => exact ih hn (by simpa using h)
    | write b e =>
      obtain ⟨hb, hn⟩ := List.nodup_cons.mp (show (b :: writtenIn xs).Nodup from hn)
      rcases List.mem_cons.mp h with heq | h
      · obtain ⟨rfl, rfl⟩ := Access.write.inj heq
        exact (afterRun_other xs _ hb).trans (if_pos rfl)
      · exact ih hn h

/-- A register read in a chain that does not write it gave a byte it may have given at the chain's start. -/
theorem mayRead_of_read {s : State} {xs : List Access} {a : Addr} {v : Byte}
    (h : readsOk s.cfgp.volatile xs (ecRegs s)) (hx : .read a v ∈ xs) (ha : a ∉ writtenIn xs) : mayRead s a v := by
  obtain ⟨ys, zs, rfl⟩ := List.append_of_mem hx
  obtain ⟨-, hread, -⟩ := (readsOk_append ys _ _).mp h
  rw [writtenIn_append, List.mem_append, not_or] at ha
  rwa [afterRun_other ys _ ha.1] at hread

/-! ## The registers WRCFG writes (R203 to R209) -/

/-- The target duties and the live registers a WRCFG writes that finds the current point `p` (R204 to R207). -/
def refreshed (p : Byte) : List (Fin 29) := [20, 21] ++ if p.toNat < 10 then [23, 24, 25, 26] else []

theorem writtenIn_rowWrites (c : Cfgp) (b : Fin 10 → Nat → Byte) :
    writtenIn (rowWrites c b) = tableIds.flatMap (rowAddrs c) := by
  rw [writtenIn, rowWrites, List.filterMap_flatMap]
  exact List.flatMap_congr fun k _ => writtenIn_array (tableBase c k) 10 (b k)

theorem writtenIn_wrcfg (c : Cfgp) (b : Fin 10 → Nat → Byte) (v1 v2 p : Byte) :
    writtenIn (wrcfgAccesses c b v1 v2 p) = tableIds.flatMap (rowAddrs c) ++ (refreshed p).map (romAt c) := by
  rw [wrcfgAccesses, writtenIn_append, writtenIn_rowWrites, refreshed, refreshAccesses]
  split <;> rfl

theorem refreshed_single (p : Byte) : ∀ k ∈ refreshed p, 10 ≤ k.val ∧ k.val ≤ 26 := by
  unfold refreshed
  split <;> decide

/-- A single register is in no table. -/
theorem single_not_table {c : Cfgp} (hc : configOk c = true) {k : Fin 29} (hk : 10 ≤ k.val) :
    romAt c k ∉ tableIds.flatMap (rowAddrs c) := by
  simp only [List.mem_flatMap, rowAddrs, arrayAddrs, List.mem_map, List.mem_range, not_exists, not_and]
  exact fun t _ i hi h => single_not_row hc k hk t hi h.symm

/-- A single register that WRCFG does not refresh is none of those it writes. -/
theorem not_written_of_single {c : Cfgp} (hc : configOk c = true) {b : Fin 10 → Nat → Byte} {v1 v2 p : Byte} {k : Fin 29}
    (hk : 10 ≤ k.val ∧ k.val ≤ 26) (hp : k ∉ refreshed p) : romAt c k ∉ writtenIn (wrcfgAccesses c b v1 v2 p) := by
  rw [writtenIn_wrcfg, List.mem_append, not_or]
  refine ⟨single_not_table hc hk.1, fun h => ?_⟩
  obtain ⟨l, hl, heq⟩ := List.mem_map.mp h
  exact single_ne hc l k (refreshed_single p l hl) hk (fun e => hp (e ▸ hl)) heq

theorem nodup_tables {c : Cfgp} (hc : configOk c = true) : (tableIds.flatMap (rowAddrs c)).Nodup := by
  refine List.nodup_flatMap.mpr ⟨fun t _ => ?_, ?_⟩
  · refine List.Nodup.map_on (fun i hi j hj h => ?_) List.nodup_range
    exact elemAt_inj _ (by simp at hi; omega) (by simp at hj; omega) h
  · refine List.Pairwise.imp (R := (· ≠ ·)) (fun htu a ha hb => ?_) (by decide : tableIds.Nodup)
    obtain ⟨i, hi, rfl⟩ := List.mem_map.mp ha
    obtain ⟨j, hj, heq⟩ := List.mem_map.mp hb
    exact elemAt_ne hc (List.mem_range.mp hj) (List.mem_range.mp hi) (.inl htu.symm) heq

/-- WRCFG writes no register twice (R7, R209). -/
theorem nodup_written {c : Cfgp} (hc : configOk c = true) (b : Fin 10 → Nat → Byte) (v1 v2 p : Byte) :
    (writtenIn (wrcfgAccesses c b v1 v2 p)).Nodup := by
  have hsingles : (refreshed p).Nodup := by unfold refreshed; split <;> decide
  rw [writtenIn_wrcfg]
  refine List.Nodup.append (nodup_tables hc) (List.Nodup.map_on (fun k hk l hl h => ?_) hsingles) fun a ha hb => ?_
  · by_contra hne
    exact single_ne hc k l (refreshed_single p k hk) (refreshed_single p l hl) hne h
  · obtain ⟨k, hk, rfl⟩ := List.mem_map.mp hb
    exact single_not_table hc (refreshed_single p k hk).1 ha

/-! ## WRCFG's reads and writes, by their places -/

theorem length_rowWrites (c : Cfgp) (b : Fin 10 → Nat → Byte) : (rowWrites c b).length = 100 := rfl

theorem wrcfgAccesses_take (c : Cfgp) (b : Fin 10 → Nat → Byte) (v1 v2 p : Byte) (r : Nat) :
    (wrcfgAccesses c b v1 v2 p).take (100 + r) = rowWrites c b ++ (refreshAccesses c b v1 v2 p).take r := by
  rw [wrcfgAccesses, List.take_append, length_rowWrites, List.take_of_length_le (by rw [length_rowWrites]; omega),
    Nat.add_sub_cancel_left]

theorem wrcfgAccesses_get (c : Cfgp) (b : Fin 10 → Nat → Byte) (v1 v2 p : Byte) (r : Nat) :
    (wrcfgAccesses c b v1 v2 p)[100 + r]? = (refreshAccesses c b v1 v2 p)[r]? := by
  rw [wrcfgAccesses, List.getElem?_append_right (by rw [length_rowWrites]; omega), length_rowWrites,
    Nat.add_sub_cancel_left]

theorem wrcfgAccesses_length_le (c : Cfgp) (b : Fin 10 → Nat → Byte) (v1 v2 p : Byte) :
    (wrcfgAccesses c b v1 v2 p).length ≤ 109 := by
  rw [wrcfgAccesses, List.length_append, length_rowWrites, refreshAccesses]
  split <;> simp

/-- What WRCFG's three reads found, where they are among the first `q` accesses, their registers may give. -/
theorem mayRead_of_wrcfg {s : State} (hc : configOk s.cfgp = true) {b : Fin 10 → Nat → Byte} {v1 v2 p : Byte} {q : Nat}
    (h : readsOk s.cfgp.volatile ((wrcfgAccesses s.cfgp b v1 v2 p).take q) (ecRegs s)) :
    (100 < q → mayRead s (romAt s.cfgp 18) v1) ∧ (102 < q → mayRead s (romAt s.cfgp 19) v2)
      ∧ (104 < q → mayRead s (romAt s.cfgp 22) p) := by
  have key {i : Nat} {k : Fin 29} {v : Byte} (hget : (wrcfgAccesses s.cfgp b v1 v2 p)[i]? = some (.read (romAt s.cfgp k) v))
      (hk : 10 ≤ k.val ∧ k.val ≤ 26) (hp : k ∉ refreshed p) (hi : i < q) : mayRead s (romAt s.cfgp k) v := by
    refine mayRead_of_read h (List.mem_of_getElem? ((List.getElem?_take_of_lt hi).trans hget)) fun hmem => ?_
    exact not_written_of_single hc hk hp (((List.take_sublist q _).filterMap _).subset hmem)
  have hother (k : Fin 29) (hk : k = 18 ∨ k = 19 ∨ k = 22) : k ∉ refreshed p := by
    unfold refreshed
    rcases hk with rfl | rfl | rfl <;> split <;> decide
  exact ⟨key (wrcfgAccesses_get s.cfgp b v1 v2 p 0) (by decide) (hother 18 (by simp)),
    key (wrcfgAccesses_get s.cfgp b v1 v2 p 2) (by decide) (hother 19 (by simp)),
    key (wrcfgAccesses_get s.cfgp b v1 v2 p 4) (by decide) (hother 22 (by simp))⟩

theorem rowWrite_mem (c : Cfgp) (b : Fin 10 → Nat → Byte) (v1 v2 p : Byte) (k i : Fin 10) :
    .write (elemAt (tableBase c k) i.val) (b k i.val) ∈ wrcfgAccesses c b v1 v2 p :=
  List.mem_append_left _ (List.mem_flatMap.mpr ⟨k, mem_tableIds k, List.mem_map.mpr ⟨i, List.mem_range.mpr i.isLt, rfl⟩⟩)

/-- The two targets' duties (R204). -/
theorem dutyWrites_mem (c : Cfgp) (b : Fin 10 → Nat → Byte) (v1 v2 p : Byte) :
    .write (romAt c 20) v1 ∈ wrcfgAccesses c b v1 v2 p ∧ .write (romAt c 21) v2 ∈ wrcfgAccesses c b v1 v2 p :=
  ⟨List.mem_of_getElem? (wrcfgAccesses_get c b v1 v2 p 1), List.mem_of_getElem? (wrcfgAccesses_get c b v1 v2 p 3)⟩

/-- The live registers, where the current point is within the tables (R205). -/
theorem liveWrites_mem (c : Cfgp) (b : Fin 10 → Nat → Byte) (v1 v2 : Byte) {p : Byte} (hp : p.toNat < 10) :
    (∀ k : Fin 29, k.val = 23 ∨ k.val = 24 → .write (romAt c k) (b 2 p.toNat) ∈ wrcfgAccesses c b v1 v2 p)
      ∧ ∀ k : Fin 29, k.val = 25 ∨ k.val = 26 → .write (romAt c k) (b 3 p.toNat) ∈ wrcfgAccesses c b v1 v2 p := by
  refine ⟨fun k hk => ?_, fun k hk => ?_⟩
  · obtain rfl | rfl : k = 23 ∨ k = 24 := hk.imp Fin.ext Fin.ext
    all_goals simp [wrcfgAccesses, refreshAccesses, hp]
  · obtain rfl | rfl : k = 25 ∨ k = 26 := hk.imp Fin.ext Fin.ext
    all_goals simp [wrcfgAccesses, refreshAccesses, hp]

/-- The port trace of the table writes (R203). -/
theorem rowWrites_events (c : Cfgp) (b : Fin 10 → Nat → Byte) : (rowWrites c b).flatMap (Access.events c)
    = tableIds.flatMap fun k => writePass c (rowAddrs c k) ((List.range 10).map (b k)) := by
  rw [rowWrites, List.flatMap_assoc]
  refine List.flatMap_congr fun k _ => ?_
  rw [rowAddrs, ← writePass_eq, ← arrayWrites_eq]

/-- WRCFG's port trace, part by part (R201). -/
theorem wrcfg_trace (c : Cfgp) (b : Fin 10 → Nat → Byte) (v1 v2 p : Byte) (tr : List BusEvent) :
    tr ++ (wrcfgAccesses c b v1 v2 p).flatMap (Access.events c)
      = tr ++ tableIds.flatMap (fun k => writePass c (rowAddrs c k) ((List.range 10).map (b k)))
        ++ readEvents c (romAt c 18) v1 ++ writeEvents c (romAt c 20) v1
        ++ readEvents c (romAt c 19) v2 ++ writeEvents c (romAt c 21) v2 ++ readEvents c (romAt c 22) p
        ++ (if p.toNat < 10 then
              writeEvents c (romAt c 23) (b 2 p.toNat) ++ writeEvents c (romAt c 24) (b 2 p.toNat)
              ++ writeEvents c (romAt c 25) (b 3 p.toNat) ++ writeEvents c (romAt c 26) (b 3 p.toNat)
            else []) := by
  rw [wrcfgAccesses, List.flatMap_append, rowWrites_events, refreshAccesses]
  split <;> simp only [List.flatMap_cons, List.flatMap_nil, Access.events, List.append_assoc, List.append_nil]

/-- The registers WRCFG may have written (R209). -/
theorem ecKeptExcept_of_wrcfg {s t : State} {b : Fin 10 → Nat → Byte} {v1 v2 p : Byte}
    (h : ∀ a : Addr, a ∉ s.cfgp.volatile → ecRegs t a = afterRun (wrcfgAccesses s.cfgp b v1 v2 p) (ecRegs s) a) :
    EcKeptExcept s t (tableIds.flatMap (rowAddrs s.cfgp) ++ [romAt s.cfgp 20, romAt s.cfgp 21]
      ++ if p.toNat < 10 then [romAt s.cfgp 23, romAt s.cfgp 24, romAt s.cfgp 25, romAt s.cfgp 26] else []) := by
  have hkept : EcKeptExcept s t _ := ecKeptExcept_of_afterRun h
  rw [writtenIn_wrcfg, refreshed, List.map_append, ← List.append_assoc, apply_ite (List.map _)] at hkept
  exact hkept

/-! ## WRCFG in a quiet environment -/

/-- WRCFG's end: the warning is recorded where the live registers were skipped (R206). -/
theorem warned_eq (p : Byte) (t : State) : (if p.toNat < 10 then t else raise .partialWriteWarning 0 t)
    = { t with lastCode := if p.toNat < 10 then t.lastCode else .partialWriteWarning,
               lastInfo := if p.toNat < 10 then t.lastInfo else 0 } := by
  split <;> rfl

/-- Settles O41: the body is the chain of `writeConfig_ran`, which writes no register twice and none that it reads. -/
theorem wrcfgWritesTablesAndRefreshes : Obligations.WrcfgWritesTablesAndRefreshes := by
  intro s b hs he hq hl hb h18 h19 h22
  obtain ⟨v1, v2, p, n, t, hwrite, hran, hx, hst⟩ :=
    writeConfig_ran b (entered _ _ s) he (portsOk_of_configOk hs.1) hq hl hb h18 h19 h22
  rw [warned_eq, hran.lastCode, hran.lastInfo] at hwrite
  have hdone := exec_ok (i := .wrcfg) rfl hs ((body_wrcfg_enabled he).trans hwrite)
  have hreads : readsOk s.cfgp.volatile ((wrcfgAccesses s.cfgp b v1 v2 p).take 109) (ecRegs s) := by
    rw [List.take_of_length_le (wrcfgAccesses_length_le s.cfgp b v1 v2 p)]
    exact hran.reads
  obtain ⟨h1, h2, h3⟩ := mayRead_of_wrcfg hs.1 hreads
  have hholds {a : Addr} {d : Byte} (h : .write a d ∈ wrcfgAccesses s.cfgp b v1 v2 p) (hv : a ∉ s.cfgp.volatile) :
      t.ecmem.byteAt a.toNat = some d := (hran.regs a hv).trans (afterRun_written (nodup_written hs.1 b v1 v2 p) h)
  obtain ⟨hduty1, hduty2⟩ := dutyWrites_mem s.cfgp b v1 v2 p
  exact ⟨v1, v2, p, _, hdone, h1 (by decide), h2 (by decide), h3 (by decide),
    fun k i => hholds (rowWrite_mem s.cfgp b v1 v2 p k i), hholds hduty1, hholds hduty2,
    fun hp k hk => hholds ((liveWrites_mem s.cfgp b v1 v2 hp).1 k hk),
    fun hp k hk => hholds ((liveWrites_mem s.cfgp b v1 v2 hp).2 k hk),
    ecKeptExcept_of_wrcfg hran.regs, rfl, rfl, rfl, hran.trace.trans (wrcfg_trace s.cfgp b v1 v2 p s.trace), hran.ends,
    accessFrame_of_enteredRan hran hs hx hst⟩

end Sys2Proof.Proofs

/-! # The gateway cuts WRCFG (R208, R228, R256) -/

namespace Sys2Proof.Proofs
open Sys2Proof Sys2Proof.Machine Sys2Proof.Laws

/-- WRCFG past the lifecycle check, begun in `s`, is in `t` after its first `q` accesses. -/
structure AtAccess (cut : Bool) (n : Nat) (s : State) (xs : List Access) (q : Nat) (t : State) : Prop where
  ran : Ran cut n s (xs.take q) t
  xbuf : t.xbuf = s.xbuf
  stat : t.stat = s.stat

/-- WRCFG up to one of its table writes (R203). -/
theorem writeConfig_atRow {cut : Bool} {b : Fin 10 → Nat → Byte} {s : State} {q n : Nat} (he : s.en = true) (hp : PortsOk s.cfgp)
    (hq : q < 100) (ha : ahead cut s.cfgp (n + 8 * q) s.env = true) (hl : ∀ k : Fin 10, s.cfg[k].len = Reg.of 10)
    (hb : ∀ (k : Fin 10) (i : Nat), i < 10 → s.cfg[k].bytes.byteAt i = some (b k i)) (v1 v2 p : Byte) :
    ∃ cur t, AtAccess cut n s (wrcfgAccesses s.cfgp b v1 v2 p) q t
      ∧ (wrcfgAccesses s.cfgp b v1 v2 p)[q]? = some cur ∧ GoesOn (writeConfig s) cur t := by
  obtain ⟨k, i, hi, rfl⟩ : ∃ (k : Fin 10) (i : Nat), i < 10 ∧ q = 10 * k.val + i :=
    ⟨⟨q / 10, by omega⟩, q % 10, by omega, by simp only; omega⟩
  obtain ⟨t, g, hran, hx, hst, haddr, hrows⟩ := rows_at b k hi n s he hp ha fun l x hx _ => hb l x hx
  have hbyte : cfgByte k i t = .ok (b k i) t := by rw [cfgByte, hran.cfg, hb k i hi, known_some]
  have htake : (wrcfgAccesses s.cfgp b v1 v2 p).take (10 * k.val + i) = (rowWrites s.cfgp b).take (10 * k.val + i) :=
    List.take_append_of_le_length (Nat.le_of_lt hq)
  refine ⟨.write (elemAt (tableBase s.cfgp k) i) (b k i), t, ⟨htake ▸ hran, hx, hst⟩, ?_, ?_⟩
  · exact (List.getElem?_append_left hq).trans (rowWrites_take s.cfgp b k hi).2
  · rw [writeConfig, shapeOk_ok tableIds s fun l _ => hl l, bind_ok, if_pos rfl, hrows, hbyte, bind_ok, haddr]
    exact ((GoesOn.write _ _ _).bind _).bind _

/-- WRCFG up to any one of its accesses, or to its end where it has no access `q`, the live registers being skipped. -/
theorem writeConfig_at {cut : Bool} {b : Fin 10 → Nat → Byte} {s : State} {q n : Nat} (he : s.en = true) (hp : PortsOk s.cfgp)
    (hq : q < 109) (ha : ahead cut s.cfgp (n + 8 * q) s.env = true) (hl : ∀ k : Fin 10, s.cfg[k].len = Reg.of 10)
    (hb : ∀ (k : Fin 10) (i : Nat), i < 10 → s.cfg[k].bytes.byteAt i = some (b k i))
    (h18 : readable s (romAt s.cfgp 18)) (h19 : readable s (romAt s.cfgp 19)) (h22 : readable s (romAt s.cfgp 22)) :
    ∃ v1 v2 p m t, AtAccess cut m s (wrcfgAccesses s.cfgp b v1 v2 p) q t
      ∧ ((∃ cur, m = n ∧ (wrcfgAccesses s.cfgp b v1 v2 p)[q]? = some cur ∧ GoesOn (writeConfig s) cur t)
        ∨ (wrcfgAccesses s.cfgp b v1 v2 p)[q]? = none ∧ writeConfig s = .ok true (raise .partialWriteWarning 0 t)) := by
  by_cases hrow : q < 100
  · obtain ⟨cur, t, hat, hget, hgoes⟩ := writeConfig_atRow he hp hrow ha hl hb 0 0 0
    exact ⟨0, 0, 0, n, t, hat, .inl ⟨cur, rfl, hget, hgoes⟩⟩
  obtain ⟨r, rfl⟩ : ∃ r, q = 100 + r := ⟨q - 100, by omega⟩
  obtain ⟨t, hrows, hran, hx, hst⟩ := rowWrites_ran (cut := cut) tableIds b s (n + 8 * r) he hp
    (by rwa [show n + 8 * r + 80 * tableIds.length = n + 8 * (100 + r) by simp only [tableIds, List.length]; omega])
    fun k _ => hb k
  have hstart : writeConfig s = refreshDerived t := by
    rw [writeConfig, shapeOk_ok tableIds s fun l _ => hl l, bind_ok, if_pos rfl, hrows, bind_ok]
  have href := refresh_at (cut := cut) b (show r < 9 by omega) n t (hran.en.trans he) (hran.cfgp ▸ hp)
    (hran.cfgp ▸ hran.quiet) (by rw [hran.cfg]; exact hl) (by rw [hran.cfg]; exact hb)
    (fun _ => hran.readable (hran.cfgp ▸ h18)) (fun _ => hran.readable (hran.cfgp ▸ h19))
    fun _ => hran.readable (hran.cfgp ▸ h22)
  rw [hran.cfgp] at href
  obtain ⟨v1, v2, p, m, u, hran', hx', hst', hnext⟩ := href
  refine ⟨v1, v2, p, m, u, ⟨?_, hx'.trans hx, hst'.trans hst⟩, ?_⟩
  · rw [wrcfgAccesses_take]
    exact hran.trans hran'
  · rw [wrcfgAccesses_get, hstart]
    exact hnext.imp_right And.right

/-- Settles O42: the body goes on with access `q` after those before it, and is cut in it, or has no access `q` and has ended. -/
theorem gatewayFaultCutsWrcfg : Obligations.GatewayFaultCutsWrcfg := by
  intro s b q j hs he hq hj hf hl hb h18 h19 h22
  have hp := portsOk_of_configOk hs.1
  obtain ⟨v1, v2, p, m, t, ⟨hran, hx, hst⟩, hnext⟩ :=
    writeConfig_at (cut := true) (s := entered _ _ s) he hp hq (by rwa [Nat.add_comm]) hl hb h18 h19 h22
  obtain ⟨h1, h2, h3⟩ := mayRead_of_wrcfg (s := s) hs.1 hran.reads
  rcases hnext with ⟨cur, rfl, hget, hgoes⟩ | ⟨hget, hend⟩
  · obtain ⟨u, hcut, hafter, hx', hst'⟩ := hran.goesOn_cut hj he hp hgoes
    refine ⟨v1, v2, p, takeGatewayFault u, exec_cut rfl hs ((body_wrcfg_enabled he).trans hcut), h1, h2, h3,
      fun x hxq => ?_, fun hnone => ?_⟩
    · obtain rfl : cur = x := Option.some.inj (hget.symm.trans hxq)
      exact ⟨faultLeft_entered hafter, accessFrame_entered hafter hs.2 (hx'.trans hx) (hst'.trans hst)⟩
    · cases hget.symm.trans hnone
  · refine ⟨v1, v2, p, _, exec_ok rfl hs ((body_wrcfg_enabled he).trans hend), h1, h2, h3, fun x hxq => ?_, fun _ => ⟨rfl, rfl⟩⟩
    cases hget.symm.trans hxq

end Sys2Proof.Proofs

/-! # A single access the gateway cuts, and reads of registers nothing has written (R228, R242, R256) -/

namespace Sys2Proof.Proofs
open Sys2Proof Sys2Proof.Machine Sys2Proof.Laws

/-! ## The gateway cuts RDREG and WRREG (R153, R154, R228, R256) -/

/-- Settles O28: the access is cut with none before it, and the end of the command records the fault. -/
theorem gatewayFaultCutsAnAccess : Obligations.GatewayFaultCutsAnAccess := by
  intro s a d j hs he hj hf
  have hp := portsOk_of_configOk hs.1
  have hran : Ran true j (accept s) [] (accept s) := Ran.refl hf
  constructor
  · obtain ⟨m, e, hcut, hafter⟩ := hran.ecRead_cut a d hj he hp
    have hbody : body (.rdreg a) (accept s) = .cut .gatewayFault (rowsDone (readBegun a (accept s)) j m e) := by
      rw [body, hcut, bind_cut]
    have hafter : CutAfter (entered s.lastCode s.lastInfo s) [] (.read a d) j _ := hafter
    exact ⟨_, exec_cut rfl hs hbody, faultLeft_entered hafter, accessFrame_entered hafter hs.2 rfl rfl⟩
  · obtain ⟨m, e, hcut, hafter⟩ := hran.ecWrite_cut a d hj he hp
    have hbody : body (.wrreg a d) (accept s) = .cut .gatewayFault (rowsDone (writeBegun a d (accept s)) j m e) := by
      rw [body, hcut, bind_cut]
    have hafter : CutAfter (entered s.lastCode s.lastInfo s) [] (.write a d) j _ := hafter
    exact ⟨_, exec_cut rfl hs hbody, faultLeft_entered hafter, accessFrame_entered hafter hs.2 rfl rfl⟩

/-! ## A read of a register nothing has written (R73, R242) -/

/-- A chain that does not write a register leaves it without a byte, if it had none. -/
theorem not_readable_of_ran {cut : Bool} {n : Nat} {s t : State} {xs : List Access} {a : Addr} (h : Ran cut n s xs t)
    (hw : a ∉ writtenIn xs) (hr : ¬ readable s a) : ¬ readable t a := by
  obtain ⟨hnone, hv⟩ := not_or.mp hr
  have hsame : ecRegs t a = ecRegs s a := (h.regs a hv).trans (afterRun_other xs _ hw)
  rintro (hlisted | hvol)
  · exact hnone fun hs => hlisted (hsame.trans hs)
  · exact hv (h.cfgp ▸ hvol)

/-- A chain, and then a read of a register that had no byte before the chain and is not written in it: the model's fault. -/
theorem fault_of_goesOn {α : Type} {r : Res α} {n : Nat} {s t : State} {xs : List Access} {a : Addr} {v : Byte}
    (h : Ran false n s xs t) (hn : 8 ≤ n) (he : s.en = true) (hp : PortsOk s.cfgp) (hx : GoesOn r (.read a v) t)
    (hw : a ∉ writtenIn xs) (hr : ¬ readable s a) : r = .fault (.readUnspecified (.ecmem a)) := by
  refine hx.fault _ ?_
  have hq : quietFor t.cfgp 8 t.env = true := h.cfgp ▸ quietFor_le _ _ hn h.quiet
  rw [perform, ecRead_unspecified a t (h.en.trans he) (h.cfgp ▸ hp) hq (not_readable_of_ran h hw hr), bind_fault]

theorem rdarrBody_unspecified {s : State} {base : Addr} {n : BitVec 8} {q : Nat} (he : s.en = true) (hp : PortsOk s.cfgp)
    (hq : q < n.toNat) (ha : quietFor s.cfgp (8 * q + 8) s.env = true) (hr : ∀ a ∈ arrayAddrs base q, readable s a)
    (hnot : ¬ readable s (elemAt base q)) : rdarrBody base n s = .fault (.readUnspecified (.ecmem (elemAt base q))) := by
  obtain ⟨vs, t, g, -, hran, -, -, -, -, hread⟩ :=
    readArray_at (cut := false) (put := putXbuf) deliver (fun _ _ _ => rfl) base n hq 8 s he hp (by rwa [Nat.add_comm]) hr
  rw [rdarrBody, hread]
  exact fault_of_goesOn hran (Nat.le_refl 8) he hp (((GoesOn.read _ 0 t).bind g).bind _)
    (by simp [writtenIn_reads]) hnot

theorem readStatus_unspecified {s : State} {q : Nat} (he : s.en = true) (hp : PortsOk s.cfgp) (hq : q < 113)
    (ha : quietFor s.cfgp (8 * q + 8) s.env = true) (hr : ∀ b ∈ (rdstatAddrs s.cfgp).take q, readable s b)
    (hnot : ¬ readable s (statAddr s.cfgp q)) : readStatus s = .fault (.readUnspecified (.ecmem (statAddr s.cfgp q))) := by
  rw [rdstatAddrs_take s.cfgp (Nat.le_of_lt hq), List.forall_mem_map] at hr
  obtain ⟨v, t, hat⟩ := readStatus_at (cut := false) hq 8 s he hp (by rwa [Nat.add_comm])
    fun i hi => hr i (List.mem_range.mpr hi)
  have hran := hat.ran
  rw [statReads_eq s.cfgp v (Nat.le_of_lt hq)] at hran
  rw [hat.rest]
  exact fault_of_goesOn hran (Nat.le_refl 8) he hp ((GoesOn.read _ 0 t).bind _) (by simp [writtenIn_reads]) hnot

/-- WRCFG's refresh comes, at its access `r`, to a read of the single register `k` (R204, R205): what it has written before,
its tables among it, is not that register (R7). -/
theorem writeConfig_unspecified {s : State} {b : Fin 10 → Nat → Byte} {r : Nat} {k : Fin 29} (hc : configOk s.cfgp = true)
    (he : s.en = true) (hq : quietFor s.cfgp 872 s.env = true) (hl : ∀ k : Fin 10, s.cfg[k].len = Reg.of 10)
    (hb : ∀ (k : Fin 10) (i : Nat), i < 10 → s.cfg[k].bytes.byteAt i = some (b k i))
    (hr : r ≤ 4) (h18 : 0 < r → readable s (romAt s.cfgp 18)) (h19 : 2 < r → readable s (romAt s.cfgp 19))
    (hk : 10 ≤ k.val ∧ k.val ≤ 26) (hother : ∀ p, k ∉ refreshed p)
    (hget : ∀ v1 v2 p, ∃ v, (refreshAccesses s.cfgp b v1 v2 p)[r]? = some (.read (romAt s.cfgp k) v))
    (hnot : ¬ readable s (romAt s.cfgp k)) : writeConfig s = .fault (.readUnspecified (.ecmem (romAt s.cfgp k))) := by
  have hp := portsOk_of_configOk hc
  obtain ⟨t, hrows, hran, -, -⟩ := rowWrites_ran (cut := false) tableIds b s 72 he hp hq fun k _ => hb k
  have hstart : writeConfig s = refreshDerived t := by
    rw [writeConfig, shapeOk_ok tableIds s fun l _ => hl l, bind_ok, if_pos rfl, hrows, bind_ok]
  obtain ⟨v1, v2, p, n, u, hran', -, -, hnext⟩ := refresh_at (cut := false) b (show r < 9 by omega) (72 - 8 * r) t
    (hran.en.trans he) (hran.cfgp ▸ hp) (by rw [Nat.sub_add_cancel (by omega)]; exact hran.cfgp ▸ hran.quiet)
    (hran.cfg ▸ hl) (hran.cfg ▸ hb) (fun h => hran.readable (hran.cfgp ▸ h18 h))
    (fun h => hran.readable (hran.cfgp ▸ h19 h)) (fun h => absurd h (by omega))
  rw [hran.cfgp] at hran' hnext
  have hboth : Ran false n s ((wrcfgAccesses s.cfgp b v1 v2 p).take (100 + r)) u := by
    rw [wrcfgAccesses_take]
    exact hran.trans hran'
  rcases hnext with ⟨cur, rfl, hcur, hgoes⟩ | ⟨h, -⟩
  · obtain ⟨v, hv⟩ := hget v1 v2 p
    obtain rfl : cur = .read (romAt s.cfgp k) v := Option.some.inj (hcur.symm.trans hv)
    refine hstart.trans (fault_of_goesOn hboth (by omega) he hp hgoes (fun hmem => ?_) hnot)
    exact not_written_of_single hc hk (hother p) (((List.take_sublist _ _).filterMap _).subset hmem)
  · omega

/-- What WRCFG reads it does not refresh (R204, R205). -/
theorem not_refreshed (p : Byte) : 18 ∉ refreshed p ∧ 19 ∉ refreshed p ∧ 22 ∉ refreshed p := by
  unfold refreshed
  split <;> decide

/-- Settles O24: each body goes on with the read of that register after the accesses before it, none of which wrote it. -/
theorem readsOfUnspecifiedRegistersFault : Obligations.ReadsOfUnspecifiedRegistersFault := by
  intro s hs he
  have hp := portsOk_of_configOk hs.1
  refine ⟨fun a hq hnot => ?_, fun i base n q hi hqn hq hr hnot => ?_, fun q a hq hget hr hnot => ?_, fun b hq hl hb => ?_⟩
  · have hbody : body (.rdreg a) (accept s) = .fault (.readUnspecified (.ecmem a)) := by
      rw [body, ecRead_unspecified a (accept s) he hp hq hnot, bind_fault]
    exact exec_fault rfl hs hbody
  · obtain ⟨hwf, hbody⟩ := body_arrayRead (s := accept s) hi
    exact exec_fault hwf hs (hbody.trans (rdarrBody_unspecified (s := accept s) he hp hqn hq hr hnot))
  · obtain ⟨hq113, rfl⟩ := rdstatAddrs_get hget
    exact exec_fault rfl hs ((body_rdstat_enabled he).trans (readStatus_unspecified (s := entered _ _ s) he hp hq113 hq hr hnot))
  · have hread {f : Fault} (h : writeConfig (entered _ _ s) = .fault f) : exec .wrcfg s = .fault f :=
      exec_fault rfl hs ((body_wrcfg_enabled he).trans h)
    refine ⟨fun hnot => hread ?_, fun h18 hnot => hread ?_, fun h18 h19 hnot => hread ?_⟩
    · exact writeConfig_unspecified (r := 0) (k := 18) hs.1 he hq hl hb (by omega) nofun nofun (by decide)
        (fun p => (not_refreshed p).1) (fun v1 _ _ => ⟨v1, rfl⟩) hnot
    · exact writeConfig_unspecified (r := 2) (k := 19) hs.1 he hq hl hb (by omega) (fun _ => h18) nofun (by decide)
        (fun p => (not_refreshed p).2.1) (fun _ v2 _ => ⟨v2, rfl⟩) hnot
    · exact writeConfig_unspecified (r := 4) (k := 22) hs.1 he hq hl hb (by omega) (fun _ => h18) (fun _ => h19) (by decide)
        (fun p => (not_refreshed p).2.2) (fun _ _ p => ⟨p, rfl⟩) hnot

end Sys2Proof.Proofs

/-! # Reset, between commands and in the middle of one (R250 to R252, R256) -/

namespace Sys2Proof.Proofs
open Sys2Proof Sys2Proof.Machine Sys2Proof.Laws

/-! ## A script of port operations -/

theorem drawSlot_slots (c : Cfgp) (e : Env) : (drawSlot c e).2.slots = e.slots.tail := by
  cases h : e.slots with
  | nil => simp [drawSlot, h]
  | cons x rest => simp [drawSlot, h]

theorem envAfter_slots (c : Cfgp) (n : Nat) (e : Env) : (envAfter c n e).slots = e.slots.drop n := by
  induction n with
  | zero => rfl
  | succ n ih => rw [envAfter, drawSlot_slots, ih, List.tail_drop]

/-- Port operation `i` is as scripted. -/
theorem drawSlot_scripted (c : Cfgp) {e : Env} {i : Nat} {x : Slot} (h : e.slots[i]? = some x) :
    (drawSlot c (envAfter c i e)).1 = x := by
  obtain ⟨hi, rfl⟩ := List.getElem?_eq_some_iff.mp h
  have hslots : (envAfter c i e).slots = e.slots[i] :: e.slots.drop (i + 1) := by
    rw [envAfter_slots, List.drop_eq_getElem_cons hi]
  simp only [drawSlot, hslots]

/-- The script of a reset before port operation `j`: the `j` port operations before it complete, and no other agent moves
(R252, log 12). -/
def LosesPowerAfter (j : Nat) (e : Env) : Prop :=
  ∃ rest, e.slots = List.replicate j ⟨[], .complete⟩ ++ ⟨[], .powerLoss⟩ :: rest

section
variable {j : Nat} {e : Env} (c : Cfgp)

theorem LosesPowerAfter.slot_before (h : LosesPowerAfter j e) {i : Nat} (hi : i < j) :
    (drawSlot c (envAfter c i e)).1 = ⟨[], .complete⟩ := by
  obtain ⟨rest, hrest⟩ := h
  exact drawSlot_scripted c (by rw [hrest, List.getElem?_append_left (by simpa using hi), List.getElem?_replicate_of_lt hi])

theorem LosesPowerAfter.slot_at (h : LosesPowerAfter j e) : (drawSlot c (envAfter c j e)).1 = ⟨[], .powerLoss⟩ := by
  obtain ⟨rest, hrest⟩ := h
  exact drawSlot_scripted c (by simp [hrest])

theorem LosesPowerAfter.fate_before (h : LosesPowerAfter j e) {i : Nat} (hi : i < j) : fate c (envAfter c i e) = none := by
  rw [fate, h.slot_before c hi]

theorem LosesPowerAfter.fate_at (h : LosesPowerAfter j e) : fate c (envAfter c j e) = some .powerLoss := by
  rw [fate, h.slot_at c]

/-- As long as nothing is cut, the slots are those up to the reset, and no other agent moves in them. -/
theorem LosesPowerAfter.calm (h : LosesPowerAfter j e) (n : Nat) : Calm c n e := by
  intro i _ huncut
  rcases Nat.lt_trichotomy i j with hi | rfl | hi
  · rw [h.slot_before c hi]; rfl
  · rw [h.slot_at c]; rfl
  · cases (h.fate_at c).symm.trans (huncut j hi)

/-- The reset is one of the next `n` port operations, so not all of them go through. -/
theorem LosesPowerAfter.not_uncut (h : LosesPowerAfter j e) {n : Nat} (hj : j < n) :
    ¬ ∀ i, i < n → fate c (envAfter c i e) = none := fun huncut => by
  cases (h.fate_at c).symm.trans (huncut j hj)

end

/-! ## An access the reset cuts -/

/-- The reset has struck an access to `a`, begun in `s`, after `j` of its rows. -/
structure PowerLost (s : State) (a : Addr) (j : Nat) (c : Cut) (t : State) : Prop where
  cut : c = .powerLoss
  cfgp : t.cfgp = s.cfgp
  trace : t.trace = s.trace ++ (preEvents s.cfgp a).take j
  target : t.target = latchesAfter s.cfgp a s.target j
  drift : EcDrift s.cfgp.volatile s.ecmem t.ecmem
  calls : t.calls = s.calls

/-- The one way an access is stopped where the script resets before port operation `j`. -/
theorem powerLost_of_stopped {s t : State} {c : Cut} {j : Nat} (he : LosesPowerAfter j s.env) (h : Stopped s c t) :
    PowerLost s s.ar j c t := by
  obtain ⟨k, m, -, hd, hbefore, hcut, rfl⟩ := h
  rcases Nat.lt_trichotomy k j with hk | rfl | hk
  · cases (he.fate_before s.cfgp hk).symm.trans hcut
  · exact ⟨Option.some.inj (hcut.symm.trans (he.fate_at s.cfgp)), rfl, rfl, rfl, hd, rfl⟩
  · cases (he.fate_at s.cfgp).symm.trans (hbefore j hk)

/-- What can end in a cut only, ends in one. -/
theorem cut_of_sat {α : Type} {K : Cut → State → Prop} {r : Res α}
    (h : Sat (fun _ _ => False) K (fun _ => False) (fun _ => False) r) : ∃ c t, r = .cut c t ∧ K c t := by
  cases r with
  | ok v t => exact h.elim
  | cut c t => exact ⟨c, t, rfl, h⟩
  | fault f => exact h.elim
  | refused r => exact h.elim

section
variable {s : State} {j : Nat} (a : Addr) (d : Byte) (hs : configOk s.cfgp = true) (hen : s.en = true) (hj : j < 8)
  (he : LosesPowerAfter j s.env)
include hs hen hj he

theorem ecRead_powerLost : ∃ c t, ecRead a s = .cut c t ∧ PowerLost s a j c t := by
  have hnot := he.not_uncut s.cfgp hj
  have hsat := ecRead_calm a s hen (portsOk_of_configOk hs) (he.calm s.cfgp 8)
  refine cut_of_sat (hsat.mono (fun v t h => ?_) (fun c t h => ?_) (fun f h => ?_) fun _ h => h)
  · obtain ⟨m, k, -, -, -, huncut, -⟩ := h
    exact hnot huncut
  · exact { powerLost_of_stopped (s := readBegun a s) he h with }
  · exact hnot h.2.2

theorem ecWrite_powerLost : ∃ c t, ecWrite a d s = .cut c t ∧ PowerLost s a j c t := by
  have hnot := he.not_uncut s.cfgp hj
  have hsat := ecWrite_calm a d s hen (portsOk_of_configOk hs) (he.calm s.cfgp 8)
  refine cut_of_sat (hsat.mono (fun v t h => ?_) (fun c t h => ?_) (fun _ h => h) fun _ h => h)
  · obtain ⟨m, -, huncut, -⟩ := h
    exact hnot huncut
  · exact { powerLost_of_stopped (s := writeBegun a d s) he h with }

end

/-! ## The state a reset leaves -/

/-- Reset gives every register of ECSEQ its value in the initial state (R38, R250). -/
theorem resetInstance_asReset (s : State) : AsReset (resetInstance s) := { resetWith_asReset s.cfgp with }

/-- A command whose body the reset cuts. -/
theorem exec_powerLost {i : Instr} {s u : State} (h : i.wf = true) (hs : s.Ready) (hb : body i (accept s) = .cut .powerLoss u) :
    exec i s = .next (resetInstance u) := by
  rw [exec_ready i s h hs, hb]
  rfl

/-- Settles O29: the reset cuts the access, and with it the command's body, after `j` rows, and keeps the EC side and the
records as they left them. -/
theorem powerLossCutsAnAccess : Obligations.PowerLossCutsAnAccess := by
  intro s a d i j rest hs hen hi hj hslots
  have he : LosesPowerAfter j (accept s).env := ⟨rest, hslots⟩
  have hbody : i.wf = true ∧ ∃ c u, body i (accept s) = .cut c u ∧ PowerLost (accept s) a j c u := by
    rcases hi with rfl | rfl
    · obtain ⟨c, u, hcut, hlost⟩ := ecRead_powerLost (s := accept s) a hs.1 hen hj he
      exact ⟨rfl, c, u, by rw [body, hcut, bind_cut], hlost⟩
    · obtain ⟨c, u, hcut, hlost⟩ := ecWrite_powerLost (s := accept s) a d hs.1 hen hj he
      exact ⟨rfl, c, u, by rw [body, hcut, bind_cut], hlost⟩
  obtain ⟨hwf, c, u, hcut, rfl, hcfgp, htrace, htarget, hdrift, hcalls⟩ := hbody
  exact ⟨resetInstance u, exec_powerLost hwf hs hcut, resetInstance_asReset u, hcfgp, htrace, htarget,
    fun b hb _ => hdrift.kept b hb, hcalls⟩

/-! ## The host resets ECSEQ (R250, R251) -/

/-- A step whose next host action is a reset. -/
theorem step_reset {s : State} {rest : List HostAction} (hs : s.Ready) (hh : s.host = .move .reset :: rest) :
    step s = settle (hostReset { s with host := rest }) := by
  rw [step_move hs hh, hostMove_ready (s := { s with host := rest }) hs.2]

/-- Settles O13: the move is `resetInstance`, which carries the EC side, the records and the queue over. -/
theorem resetLeavesTheStatedValues : Obligations.ResetLeavesTheStatedValues := by
  intro s rest hs hhnd hh
  have hreset : hostReset { s with host := rest } = .next (resetInstance { s with host := rest }) :=
    if_neg (Bool.eq_false_iff.mp hhnd)
  exact ⟨_, (step_reset hs hh).trans (congrArg settle hreset), resetInstance_asReset _, rfl, rfl, rfl, rfl, rfl, rfl⟩

/-- Settles O15: the move asks for the handle first, and a refusal stays through `settle`. -/
theorem resetWithHandleIsRefused : Obligations.ResetWithHandleIsRefused := by
  intro s rest hs hhnd hh
  have hrefused : hostReset { s with host := rest } = .refused .resetWithHandle := if_pos hhnd
  rw [step_reset hs hh, hrefused, settle]

end Sys2Proof.Proofs
